-- ==== Sys2Proof/Word.lean ====
section
/-! DEFINITION. The word types of DCTCORE (00_scope R10, R11). -/

namespace Sys2Proof

/-- A byte of LMEM, a register field of eight bits, a byte value of the alphabet (R10 `u8`). -/
abbrev Byte := BitVec 8

/-- A register of the aperture (R10 `u32`, R33). -/
abbrev Word := BitVec 32

/-- A 64-bit quantity: BITCNT, BP.TOTAL, the widest bus access (R10 `u64`). -/
abbrev DWord := BitVec 64

/-- A binary64 value, held as its bit pattern: sign bit 63, exponent 62..52, fraction 51..0 (R190).
Software sees it as the eight bytes of LMEM that hold it (R14), so it is a bit vector. -/
abbrev F64 := BitVec 64

end Sys2Proof
end

