-- ==== Sys2Proof/Syntax.lean ====
section
/-! DEFINITION. The command set of 30_encoding R145: one constructor per row of the opcode table. -/

namespace Sys2Proof

/-- A command of DCTCORE. Every operand but BP_ADD's n is implicit: it comes from the operand snapshot
(30_encoding R141, R147). -/
inductive Instr where
  /-- NOP, 40_control R170. -/
  | nop
  /-- QTAB_BUILD, 42_quant R213. -/
  | qtabBuild
  /-- FDCT, 41_dct R195. -/
  | fdct
  /-- IDCT, 41_dct R196. -/
  | idct
  /-- QUANT, 42_quant R216. -/
  | quant
  /-- DEQUANT, 42_quant R218. -/
  | dequant
  /-- ZZSCAN, 43_zigzag R232. -/
  | zzscan
  /-- ZZUNSCAN, 43_zigzag R233. -/
  | zzunscan
  /-- HUF_FREQ, 44_huffman R241. -/
  | hufFreq
  /-- HUF_BUILD, 44_huffman R244. -/
  | hufBuild
  /-- HUF_EMIT, 44_huffman R250. -/
  | hufEmit
  /-- HUF_ENCODE, 44_huffman R253. -/
  | hufEncode
  /-- HUF_DECODE, 44_huffman R256. -/
  | hufDecode
  /-- BP_INIT, 45_bitpack R271. -/
  | bpInit
  /-- BP_ADD n, 45_bitpack R272; n is the bit count in [13:8] of the word (R142). -/
  | bpAdd (n : Nat)
  /-- BP_FINISH, 45_bitpack R274. -/
  | bpFinish
  /-- BLK_ENC, 46_pipeline R294. -/
  | blkEnc
  /-- BLK_DEC, 46_pipeline R295. -/
  | blkDec
  /-- PIPE_FWD, 46_pipeline R302. -/
  | pipeFwd
  /-- PIPE_INV, 46_pipeline R303. -/
  | pipeInv
  /-- COMPRESS, 46_pipeline R305. -/
  | compress
  /-- DECOMPRESS, 46_pipeline R306. -/
  | decompress
  /-- CNT_PACK, 47_container R321. -/
  | cntPack
  /-- CNT_UNPACK, 47_container R325. -/
  | cntUnpack
deriving DecidableEq, Repr

end Sys2Proof
end

