-- ==== Sys2Proof/WellFormed.lean ====
section
/-! DEFINITION. Which commands have a command word (30_encoding R141, R142). -/

namespace Sys2Proof

/-- A command that some command word encodes. The one field is BP_ADD's n, six bits: 0..63 encodable
(R142). Whether n is legal (0..32) is BP_ADD's own check, not an encoding question (R143). -/
def Instr.wellFormed (i : Instr) : Bool :=
  match i with
  | .bpAdd n => decide (n < 64)
  | .nop | .qtabBuild | .fdct | .idct | .quant | .dequant | .zzscan | .zzunscan => true
  | .hufFreq | .hufBuild | .hufEmit | .hufEncode | .hufDecode => true
  | .bpInit | .bpFinish => true
  | .blkEnc | .blkDec | .pipeFwd | .pipeInv | .compress | .decompress => true
  | .cntPack | .cntUnpack => true

/-- Well-formedness as a proposition, for statements. -/
abbrev Instr.WellFormed (i : Instr) : Prop := i.wellFormed = true

end Sys2Proof
end

