-- ==== Sys2Proof/Decode.lean ====
section
/-! DEFINITION. Decoding of a command word (30_encoding R140 to R146), then the encoder. -/

namespace Sys2Proof

/-- Why a word is no command. Either raises E_ILLEGAL at issue (R144). -/
inductive DecodeReject where
  /-- [7:0] is no opcode of R145's map (R146 first item). -/
  | unassignedOpcode (opc : Byte)
  /-- The opcode is assigned and a field that R141 or R142 reserves is not zero (R146 second item). -/
  | reservedBits (opc : Byte)
deriving DecidableEq, Repr

/-- OPC = w[7:0] (R141, R142). -/
def opcField (w : Word) : Byte := w.extractLsb' 0 8

/-- ARG and RSV of format C, [31:8], which must be 0 (R141). -/
def reservedC (w : Word) : BitVec 24 := w.extractLsb' 8 24

/-- N of format CN, [13:8] (R142). -/
def nField (w : Word) : BitVec 6 := w.extractLsb' 8 6

/-- ARGRSV and RSV of format CN, [31:14], which must be 0 (R142). -/
def reservedCN (w : Word) : BitVec 18 := w.extractLsb' 14 18

/-- The opcode map of R145 for format C, which is every command but BP_ADD. -/
def formatC (opc : Byte) : Option Instr :=
  match opc.toNat with
  | 0x00 => some .nop
  | 0x01 => some .qtabBuild
  | 0x10 => some .fdct
  | 0x11 => some .idct
  | 0x12 => some .quant
  | 0x13 => some .dequant
  | 0x14 => some .zzscan
  | 0x15 => some .zzunscan
  | 0x20 => some .hufFreq
  | 0x21 => some .hufBuild
  | 0x22 => some .hufEmit
  | 0x23 => some .hufEncode
  | 0x24 => some .hufDecode
  | 0x30 => some .bpInit
  | 0x32 => some .bpFinish
  | 0x40 => some .blkEnc
  | 0x41 => some .blkDec
  | 0x42 => some .pipeFwd
  | 0x43 => some .pipeInv
  | 0x44 => some .compress
  | 0x45 => some .decompress
  | 0x50 => some .cntPack
  | 0x51 => some .cntUnpack
  | _ => none

/-- Decoding of a command word (R144). -/
def decode (w : Word) : Except DecodeReject Instr :=
  if opcField w = 0x31#8 then
    if reservedCN w = 0 then .ok (.bpAdd (nField w).toNat) else .error (.reservedBits (opcField w))
  else
    match formatC (opcField w) with
    | none => .error (.unassignedOpcode (opcField w))
    | some i => if reservedC w = 0 then .ok i else .error (.reservedBits (opcField w))

/-- The decoder on bits numbered as the opcode table numbers them: a command is one 32-bit word (R140), so
the table's numbering is the word's own. Bits at and above `nbits` are 0. -/
def decodeTableWord (nbits w : Nat) : Option Instr :=
  match decode (BitVec.ofNat 32 (w % 2 ^ nbits)) with
  | .ok i => some i
  | .error _ => none

/-- The opcode of a command (R145). -/
def opcode (i : Instr) : Byte :=
  match i with
  | .nop => 0x00
  | .qtabBuild => 0x01
  | .fdct => 0x10
  | .idct => 0x11
  | .quant => 0x12
  | .dequant => 0x13
  | .zzscan => 0x14
  | .zzunscan => 0x15
  | .hufFreq => 0x20
  | .hufBuild => 0x21
  | .hufEmit => 0x22
  | .hufEncode => 0x23
  | .hufDecode => 0x24
  | .bpInit => 0x30
  | .bpAdd _ => 0x31
  | .bpFinish => 0x32
  | .blkEnc => 0x40
  | .blkDec => 0x41
  | .pipeFwd => 0x42
  | .pipeInv => 0x43
  | .compress => 0x44
  | .decompress => 0x45
  | .cntPack => 0x50
  | .cntUnpack => 0x51

/-- N of format CN for BP_ADD, zero for every other command, whose ARG is 0 (R141, R142). -/
def argField (i : Instr) : BitVec 6 :=
  match i with
  | .bpAdd n => BitVec.ofNat 6 n
  | _ => 0

/-- The command word of a command: reserved bits 0, then N or ARG, then OPC (R141, R142). -/
def encode (i : Instr) : Word := (0#18 ++ argField i) ++ opcode i

end Sys2Proof
end

