-- ==== Sys2Proof/Config.lean ====
section
/-! DEFINITION. What an implementation fixes (the open parameters) and the free values. -/

namespace Sys2Proof.Config

/-- The open parameters of 00_scope R8. The state holds them (they are what PARAM and LMEMSZ read), so a
statement about every state is a statement about every implementation. No step changes them. REG_BASE and
LMEM_BASE (20_memory R109) are not here: no rule depends on them (log 12). -/
structure Params where
  /-- NWORKERS, the size of the worker pool. -/
  nworkers : Nat
  /-- LMEM_SIZE, the size of the local memory in bytes. -/
  lmemSize : Nat
deriving DecidableEq, Repr

/-- The legal values of the open parameters (R8). -/
abbrev Params.Legal (p : Params) : Prop :=
  1 ≤ p.nworkers ∧ p.nworkers ≤ 255 ∧ 1 ≤ p.lmemSize ∧ p.lmemSize ≤ 2 ^ 31 - 1

/-- The parameters State.reset takes. DESIGN CHOICE (log 1): the spec leaves both open. -/
def Params.chosen : Params := { nworkers := 4, lmemSize := 0x10000 }

/-- FREE VALUE (log 3): the n-th draw of a value the spec leaves unspecified (93 V2, V3, V5, V6, V7 and
log 6). It has no body, so no proof can know a value of it. -/
opaque freeValue (n : Nat) : BitVec 64

/-- FREE VALUE (log 2): what the byte of LMEM at an address holds after the given power-on, until something
writes it (70_reset R371, 93 V4: one draw per byte at power-on, then stable). It has no body. -/
opaque powerOnByte (epoch : Nat) (address : Nat) : BitVec 8

end Sys2Proof.Config
end

