-- ==== Sys2Proof/Machine/State.lean ====
section
/-! DEFINITION. The state of DCTCORE (10_state R30) as plain data, its stops, and the state after reset. -/

namespace Sys2Proof.Machine

/-- Why the machine stops with a fault: the run is void (93_implementation_defined, treatment "fault"). No
command's meaning raises one; both come from the host's accesses. -/
inductive Fault where
  /-- Raised by a host LMEM write (Machine/Host.lean). 93 V1, 20_memory R122: the host wrote bytes inside a
  region of the running command, whose whole outcome is then unspecified. Safe: the model stops where the
  hardware goes on with an unspecified outcome. -/
  | hostWriteInRegion
  /-- Raised by any host access (Machine/Host.lean). 93 V8, 70_reset R370: a host access while RST is
  asserted is outside the spec. Safe: the model stops. -/
  | accessDuringReset
deriving DecidableEq, Repr

/-- Why the machine refuses an instruction. -/
inductive Refusal where
  /-- Raised by a dispatcher arm of an instruction that has no meaning yet. Safe: nothing runs. No arm of
  this model raises it. -/
  | notModelled (mnemonic : String)
deriving DecidableEq, Repr

/-- The error codes ERRSTAT.ERRCODE can hold (60_exceptions R340); codes 15..255 are never written. -/
inductive ErrCode where
  | noError | illegal | quality | param | range | align | overlap | noQtab | empty | codeLen | noCode
  | overflow | corrupt | malformed | state
deriving DecidableEq, Repr

/-- The stage codes ERRSTAT.ERRSTAGE can hold (60_exceptions R342), which also name the phases of a
command. -/
inductive Stage where
  | noStage | decode | qtab | transform | pipe | hufFreq | hufBuild | hufEmit | hufDecode | bitpack
  | cntPack | cntUnpack | seq
deriving DecidableEq, Repr

/-- The operand registers, QUALITY to BPDATA (10_state R50 to R56). BITCNT is held whole; BITCNT_LO and
BITCNT_HI are its halves (R55). -/
structure OperandRegs where
  quality : Word
  width : Word
  height : Word
  src : Word
  dst : Word
  tmp0 : Word
  tmp1 : Word
  len : Word
  cap : Word
  tcap : Word
  bitcnt : DWord
  bpdata : Word
deriving DecidableEq, Repr

/-- The operand snapshot `op` (10_state R60): the operand registers and CTRL.WORKERS at acceptance. -/
structure Snapshot where
  regs : OperandRegs
  workers : Byte
deriving DecidableEq, Repr

/-- One entry of the code table TAB (10_state R70). -/
structure CodeEntry where
  code : Word
  len : BitVec 6
  valid : Bool
deriving DecidableEq, Repr

/-- A Huffman tree node (44_huffman R242). -/
inductive HufTree where
  | leaf (b : Byte)
  | node (left right : HufTree)
deriving DecidableEq, Repr

/-- The bit packer BP (10_state R74). `rid` is the region id an overflow reports, 0 before any session. -/
structure BitPacker where
  isOpen : Bool
  acc : Byte
  nacc : BitVec 3
  bytes : Word
  total : DWord
  base : Word
  cap : Word
  rid : BitVec 3
deriving DecidableEq, Repr

/-- The working copies of the tables (10_state R62); `none` where the running command has built none. -/
structure Work where
  qtab : Option (Vector Word 64)
  freq : Option (Vector Word 256)
  tab : Option (Vector CodeEntry 256)
deriving DecidableEq, Repr

/-- What a host read of ERRSTAT and ERRINFO returns while a command runs: their values from before it (70_reset
R380, log 18). -/
structure HeldRecord where
  errstat : Word
  errinfo : Word
deriving DecidableEq, Repr

/-- Nothing is held while SEQ is idle. -/
def HeldRecord.none : HeldRecord := { errstat := 0, errinfo := 0 }

/-- SEQ.state (10_state R32). -/
inductive SeqState where
  | idle
  | running
deriving DecidableEq, Repr

/-- The command sequencer SEQ (10_state R32, R73). -/
structure Seq where
  state : SeqState
  instr : Instr
  op : Snapshot
  phase : Stage
  work : Work
  /-- The Huffman worklist and, inside its items, the tree nodes (R73, 44_huffman R242). -/
  worklist : List (Nat × HufTree)
  /-- The workers' task progress: the block tasks of the current block phase that are finished (R32, R300). In a
  QUANT or BLK_ENC, which have no block phase, the sequencer notes its one block here as task 0 (log 5). -/
  tasksDone : List Nat
  /-- The error record from before the running command, which a host reads until it ends (70_reset R380, log 18). -/
  held : HeldRecord
deriving DecidableEq, Repr

/-- An event of the world outside, or a turn of an agent inside (log 4, log 5). -/
inductive Event where
  /-- The sequencer has its turn: the running command runs to its end. -/
  | engine
  /-- The host runs a command word as 30_encoding R149's `run`: the CMD write, then it waits while the engine
  has its turn. -/
  | run (w : Word)
  /-- Worker `w` runs block task `t` of the running command's block phase now (46_pipeline R300). -/
  | worker (w t : Nat)
  /-- The sequencer does the one block of a running QUANT or BLK_ENC now, so that a QNF event is seen before the
  command ends (42_quant R215). -/
  | block
  /-- A host register read of `width` bytes at offset `off` (40_control R171, R172). -/
  | regRead (off width : Nat)
  /-- A host register write of `width` bytes at offset `off` (40_control R171, R172). -/
  | regWrite (off width : Nat) (v : Word)
  /-- A host LMEM read of `n` bytes at `a` (40_control R175). -/
  | memRead (a n : Nat)
  /-- A host LMEM write of `n` bytes at `a` (40_control R175). -/
  | memWrite (a n : Nat) (v : DWord)
  /-- The platform drives the RST input (70_reset R370). -/
  | rst (asserted : Bool)
  /-- Power goes away and comes back, RST with it (70_reset R370, R371; 60_exceptions R358). -/
  | powerOn
deriving DecidableEq, Repr

/-- The bus's answer to a host access (40_control R172, R175). -/
inductive BusReply where
  | none
  /-- A write was performed. -/
  | written
  /-- A read returned this value. -/
  | value (v : DWord)
  /-- The access was answered with a bus error and changed nothing (60_exceptions R359). -/
  | busError
deriving DecidableEq, Repr

/-- LMEM as (address, byte) pairs, addresses strictly rising (20_memory R100). An address with no pair has
not been written since power-on; log 2 says what it reads as. -/
abbrev LMem := List Host.Cell

/-- The canonical form of an LMEM: addresses strictly rising. An unlisted address holds no written byte
(`none`), and no pair of the list can say that, so equal memories are equal lists (log 2). -/
abbrev LMem.wf (m : LMem) : Prop := m.Pairwise (fun c d => c.1 < d.1)

/-- The state of DCTCORE (10_state R30). STATUS.BUSY, BPOPEN and QTABV, NSYM, the packer views, ID, PARAM,
LMEMSZ and IRQ are computed from it (R32, R41, R58, R75, R35, R36, 60_exceptions R350). -/
structure State where
  /-- NWORKERS and LMEM_SIZE (00_scope R8). -/
  params : Config.Params
  /-- The level of the RST input (70_reset R370). -/
  rst : Bool
  /-- CTRL.IE_DONE (R37). -/
  ieDone : Bool
  /-- CTRL.IE_ERR (R37). -/
  ieErr : Bool
  /-- CTRL.WORKERS (R37, R38). -/
  workers : Byte
  /-- STATUS.DONE (R40). -/
  done : Bool
  /-- STATUS.ERR (R40). -/
  err : Bool
  /-- STATUS.QNF (R40). -/
  qnf : Bool
  /-- STATUS.DROP (R40). -/
  drop : Bool
  /-- ERRSTAT.ERRCODE (R45). -/
  errCode : ErrCode
  /-- ERRSTAT.ERRSTAGE (R45). -/
  errStage : Stage
  /-- ERRSTAT.LASTOP (R45). -/
  lastOp : Byte
  /-- ERRINFO (R46). -/
  errInfo : Word
  /-- QUALITY to BPDATA (R50 to R56). -/
  opr : OperandRegs
  /-- OUTLEN (R57). -/
  outlen : Word
  /-- CWIDTH (R59). -/
  cwidth : Word
  /-- CHEIGHT (R59). -/
  cheight : Word
  /-- PADDR (R59). -/
  paddr : Word
  /-- The committed QTAB (R66). -/
  qtab : Vector Word 64
  /-- QTABV (R66). -/
  qtabv : Bool
  /-- The committed TAB (R70). -/
  tab : Vector CodeEntry 256
  /-- The committed FREQ (R72). -/
  freq : Vector Word 256
  /-- BP (R74). -/
  bp : BitPacker
  /-- SEQ (R32). -/
  seq : Seq
  /-- LMEM (20_memory R100). -/
  lmem : LMem
  /-- MODEL's own: how many times power has come on (log 2). -/
  epoch : Nat
  /-- MODEL's own: the index of the next free value (log 3). -/
  draws : Nat
  /-- MODEL's own: the events to come, the first is next (log 4). -/
  inbox : List Event
  /-- MODEL's own: the bus's answer to the last host access (log 4). -/
  reply : BusReply
deriving DecidableEq, Repr

/-- The operand registers after reset (R371). -/
def OperandRegs.reset : OperandRegs :=
  { quality := 0, width := 0, height := 0, src := 0, dst := 0, tmp0 := 0, tmp1 := 0, len := 0, cap := 0,
    tcap := 0, bitcnt := 0, bpdata := 0 }

/-- A TAB entry after reset, and that of a byte with no code (R371, 44_huffman R248). -/
def CodeEntry.none : CodeEntry := { code := 0, len := 0, valid := false }

/-- BP after reset (R371). -/
def BitPacker.reset : BitPacker :=
  { isOpen := false, acc := 0, nacc := 0, bytes := 0, total := 0, base := 0, cap := 0, rid := 0 }

/-- No working table (R62). -/
def Work.none : Work := { qtab := .none, freq := .none, tab := .none }

/-- SEQ when IDLE, which is also SEQ after reset: no opcode, snapshot, phase, working table or task (R371). -/
def Seq.idle : Seq :=
  { state := .idle, instr := .nop, op := { regs := OperandRegs.reset, workers := 0 }, phase := .noStage,
    work := Work.none, worklist := [], tasksDone := [], held := HeldRecord.none }

/-- The state after power-on and the release of RST, for given open parameters (70_reset R371). Memory lists
nothing; the MODEL's own fields are at the values log 2, 3 and 4 name. -/
def State.resetWith (p : Config.Params) : State :=
  { params := p, rst := false, ieDone := false, ieErr := false, workers := 1, done := false, err := false,
    qnf := false, drop := false, errCode := .noError, errStage := .noStage, lastOp := 0, errInfo := 0,
    opr := OperandRegs.reset, outlen := 0, cwidth := 0, cheight := 0, paddr := 0,
    qtab := Vector.replicate 64 0, qtabv := false, tab := Vector.replicate 256 CodeEntry.none,
    freq := Vector.replicate 256 0, bp := BitPacker.reset, seq := Seq.idle, lmem := [], epoch := 0,
    draws := 0, inbox := [], reply := .none }

/-- The machine right after reset (70_reset R371), with the open parameters log 1 names. -/
def State.reset : State := State.resetWith Config.Params.chosen

end Sys2Proof.Machine
end

