-- ==== Sys2Proof/Machine/Flags.lean ====
section
/-! DEFINITION. The status, control and error words and IRQ, computed from the state (10_state R37 to R46,
60_exceptions R340, R342, R350). -/

namespace Sys2Proof.Machine

/-- ERRCODE's numbers (60_exceptions R340). -/
def ErrCode.toByte (c : ErrCode) : Byte :=
  match c with
  | .noError => 0
  | .illegal => 1
  | .quality => 2
  | .param => 3
  | .range => 4
  | .align => 5
  | .overlap => 6
  | .noQtab => 7
  | .empty => 8
  | .codeLen => 9
  | .noCode => 10
  | .overflow => 11
  | .corrupt => 12
  | .malformed => 13
  | .state => 14

/-- ERRSTAGE's numbers (60_exceptions R342). -/
def Stage.toByte (g : Stage) : Byte :=
  match g with
  | .noStage => 0
  | .decode => 1
  | .qtab => 2
  | .transform => 3
  | .pipe => 4
  | .hufFreq => 5
  | .hufBuild => 6
  | .hufEmit => 7
  | .hufDecode => 8
  | .bitpack => 9
  | .cntPack => 10
  | .cntUnpack => 11
  | .seq => 12

/-- The home stage of a command, its phase at acceptance: where its prechecks are made (60_exceptions R342).
HUF_ENCODE, COMPRESS and DECOMPRESS begin in the sequencer's own stage. -/
def homeStage (i : Instr) : Stage :=
  match i with
  | .nop => .noStage
  | .qtabBuild => .qtab
  | .fdct | .idct | .quant | .dequant | .zzscan | .zzunscan | .blkEnc | .blkDec => .transform
  | .pipeFwd | .pipeInv => .pipe
  | .hufFreq => .hufFreq
  | .hufBuild => .hufBuild
  | .hufEmit => .hufEmit
  | .hufDecode => .hufDecode
  | .bpInit | .bpAdd _ | .bpFinish => .bitpack
  | .cntPack => .cntPack
  | .cntUnpack => .cntUnpack
  | .hufEncode | .compress | .decompress => .seq

/-- STATUS.BUSY reads 1 exactly when SEQ.state is RUNNING (10_state R32). -/
def State.busy (s : State) : Bool := decide (s.seq.state = .running)

/-- A STATUS word with BPOPEN given (10_state R40). -/
def statusWordWith (s : State) (bpopen : Bool) : Word :=
  0#25 ++ BitVec.ofBool s.qtabv ++ BitVec.ofBool bpopen ++ BitVec.ofBool s.drop ++ BitVec.ofBool s.qnf ++
    BitVec.ofBool s.err ++ BitVec.ofBool s.done ++ BitVec.ofBool s.busy

/-- STATUS (10_state R40): BPOPEN mirrors BP.OPEN and QTABV mirrors QTABV (R41). -/
def statusWord (s : State) : Word := statusWordWith s s.bp.isOpen

/-- CTRL (10_state R37). -/
def ctrlWord (s : State) : Word :=
  0#16 ++ s.workers ++ 0#6 ++ BitVec.ofBool s.ieErr ++ BitVec.ofBool s.ieDone

/-- ERRSTAT (10_state R45). -/
def errstatWord (s : State) : Word :=
  0#8 ++ s.lastOp ++ s.errStage.toByte ++ s.errCode.toByte

/-- The value CTRL.WORKERS takes from a written field (10_state R38). -/
def clampWorkers (p : Config.Params) (field : Byte) : Byte :=
  BitVec.ofNat 8 (max 1 (min field.toNat p.nworkers))

/-- A host write of w to CTRL, at once even while BUSY (10_state R37, R38). -/
def State.writeCtrl (s : State) (w : Word) : State :=
  { s with
    ieDone := w.getLsbD 0
    ieErr := w.getLsbD 1
    workers := clampWorkers s.params (w.extractLsb' 8 8) }

/-- A host write of w to STATUS: W1C on DONE, ERR, QNF and DROP, ignored elsewhere (10_state R33, R40;
40_control R171, R174). It is how the host acknowledges a completion or an error (60_exceptions R351). -/
def State.ackStatus (s : State) (w : Word) : State :=
  { s with
    done := s.done && !w.getLsbD 1
    err := s.err && !w.getLsbD 2
    qnf := s.qnf && !w.getLsbD 3
    drop := s.drop && !w.getLsbD 4 }

/-- The interrupt output (60_exceptions R350), a function of four bits. -/
def State.irq (s : State) : Bool := (s.done && s.ieDone) || (s.err && s.ieErr)

/-- NSYM: the number of valid entries of the committed TAB (10_state R58). -/
def nsym (s : State) : Nat := s.tab.toList.countP (fun e => e.valid)

end Sys2Proof.Machine
end

