-- ==== Sys2Proof/Machine/Ops.lean ====
section
/-! DEFINITION. The named operations over LMEM, the tables and the sequencer: reads and writes, free values,
the error a command raises, the two endings of a command. -/

namespace Sys2Proof.Machine

/-! ### Bytes -/

/-- `n` bytes of a natural, least significant first (20_memory R102). -/
def leBytes (n v : Nat) : List Byte := (List.range n).map (fun i => BitVec.ofNat 8 (v / 2 ^ (8 * i)))

/-- The natural that bytes stand for, least significant first (00_scope R14, 20_memory R102). -/
def leNat (bs : List Byte) : Nat := bs.foldr (fun b acc => b.toNat + 256 * acc) 0

/-- A table entry by its byte (10_state R70, R72). -/
def atByte {α : Type} (v : Vector α 256) (b : Byte) : α := v[b.toNat]'(b.isLt)

/-! ### LMEM -/

/-- The byte written at an address, `none` where nothing has been written since power-on. -/
def LMem.lookup (m : LMem) (a : Nat) : Option Byte := (m.find? (fun c => c.1 == a)).map (fun c => c.2)

/-- Bytes as the cells of consecutive addresses. -/
def cellsAt (a : Nat) (bs : List Byte) : LMem :=
  match bs with
  | [] => []
  | b :: rest => (a, b) :: cellsAt (a + 1) rest

/-- Store bytes at consecutive addresses, keeping the canonical form. -/
def LMem.store (m : LMem) (a : Nat) (bs : List Byte) : LMem :=
  m.filter (fun c => decide (c.1 < a)) ++ cellsAt a bs ++
    m.filter (fun c => decide (a + bs.length ≤ c.1))

/-- A byte of LMEM as it reads: what was written, else what power-on left there (20_memory R100, 70_reset
R371, log 2). -/
def State.readByte (s : State) (a : Nat) : Byte :=
  (LMem.lookup s.lmem a).getD (Config.powerOnByte s.epoch a)

/-- The `n` bytes of LMEM from `a` up. -/
def State.readBytes (s : State) (a n : Nat) : List Byte :=
  (List.range n).map (fun i => s.readByte (a + i))

/-- `MemRead(a, n)` (00_scope R14). -/
def State.memRead (s : State) (a n : Nat) : Nat := leNat (s.readBytes a n)

/-- `MemReadF64(a)` (00_scope R14). -/
def State.memReadF64 (s : State) (a : Nat) : F64 := BitVec.ofNat 64 (s.memRead a 8)

/-- Store bytes into LMEM from `a` up. -/
def State.writeBytes (s : State) (a : Nat) (bs : List Byte) : State :=
  { s with lmem := LMem.store s.lmem a bs }

/-- `MemWrite(a, n, v)` (00_scope R14). -/
def State.memWrite (s : State) (a n v : Nat) : State := s.writeBytes a (leBytes n v)

/-- The 64 binary64 values of a block, natural index i at `a + 8·i` (41_dct R195). -/
def State.readBlock (s : State) (a : Nat) : Vector F64 64 :=
  Vector.ofFn (fun i => s.memReadF64 (a + 8 * i.val))

/-- Write 64 binary64 values from `a` up, natural index i at `a + 8·i` (41_dct R195). -/
def State.writeBlock (s : State) (a : Nat) (v : Vector F64 64) : State :=
  s.writeBytes a (v.toList.flatMap (fun x => leBytes 8 x.toNat))

/-! ### Free values (log 3) -/

/-- `n` free bytes, drawn from index `d` on. -/
def freeBytes (d n : Nat) : List Byte := (List.range n).map (fun i => (Config.freeValue (d + i)).setWidth 8)

/-- The part of a region [a, a+n) that lies in LMEM, as a length. -/
def State.clip (s : State) (a n : Nat) : Nat := min n (s.params.lmemSize - a)

/-- Every byte of [a, a+n) that LMEM has takes a free value, one draw per byte, then stable (93 V5, V7). -/
def State.scramble (s : State) (a n : Nat) : State :=
  { s.writeBytes a (freeBytes s.draws (s.clip a n)) with draws := s.draws + s.clip a n }

/-- BP after a data error of a packer command: OPEN = 0, every other field a free value of its own width,
NACC in 0..7 (93 V6, 10_state R76). -/
def State.scrambleBp (s : State) : State :=
  { s with
    bp :=
      { isOpen := false
        acc := (Config.freeValue s.draws).setWidth 8
        nacc := (Config.freeValue (s.draws + 1)).setWidth 3
        bytes := (Config.freeValue (s.draws + 2)).setWidth 32
        total := Config.freeValue (s.draws + 3)
        base := (Config.freeValue (s.draws + 4)).setWidth 32
        cap := (Config.freeValue (s.draws + 5)).setWidth 32
        rid := (Config.freeValue (s.draws + 6)).setWidth 3 }
    draws := s.draws + 7 }

/-! ### The two endings of a command (60_exceptions R345) -/

/-- An error a check or a command's pseudocode raises: `raise E_X(info)` with its stage (00_scope R15,
60_exceptions R340 to R342). -/
structure Err where
  code : ErrCode
  stage : Stage
  info : Nat
deriving DecidableEq, Repr

/-- What ERRINFO takes: the detail value, or a free value where it needs more than 32 bits (log 6). -/
def infoWord (draws info : Nat) : Word :=
  if info < 2 ^ 32 then BitVec.ofNat 32 info else (Config.freeValue draws).setWidth 32

/-- How many free values `infoWord` takes. -/
def infoDraws (info : Nat) : Nat := if info < 2 ^ 32 then 0 else 1

/-- TAKING AN ERROR, the one operation for every command (60_exceptions R345 on error, R349): the record is
written, the working tables are discarded with SEQ, no register result is written, BUSY falls, ERR rises.
By itself this is a precheck error's whole effect (R346). -/
def State.raise (s : State) (e : Err) : State :=
  { s with
    errCode := e.code
    errStage := e.stage
    errInfo := infoWord s.draws e.info
    draws := s.draws + infoDraws e.info
    seq := Seq.idle
    err := true }

/-- A successful end (60_exceptions R345 on success): the working tables are committed (10_state R62), SEQ
goes IDLE, BUSY falls, DONE rises. A commit of QTAB sets QTABV (R66). -/
def State.complete (s : State) : State :=
  { s with
    qtab := s.seq.work.qtab.getD s.qtab
    qtabv := s.qtabv || s.seq.work.qtab.isSome
    freq := s.seq.work.freq.getD s.freq
    tab := s.seq.work.tab.getD s.tab
    seq := Seq.idle
    done := true }

/-- A command's prechecks, then its body: the first failing check ends the command (60_exceptions R346,
R348). -/
def State.checked (s : State) (c : Option Err) (body : State → Host.Outcome State Fault Refusal) :
    Host.Outcome State Fault Refusal :=
  match c with
  | some e => .next (s.raise e)
  | none => body s

/-! ### Phases and working tables (10_state R32, R62) -/

/-- SEQ enters a phase (10_state R32, 60_exceptions R342). -/
def State.enterPhase (s : State) (g : Stage) : State := { s with seq := { s.seq with phase := g } }

/-- A working QTAB (10_state R62). -/
def State.setWorkQtab (s : State) (t : Vector Word 64) : State :=
  { s with seq := { s.seq with work := { s.seq.work with qtab := some t } } }

/-- A working FREQ (10_state R62). -/
def State.setWorkFreq (s : State) (f : Vector Word 256) : State :=
  { s with seq := { s.seq with work := { s.seq.work with freq := some f } } }

/-- A working TAB (10_state R62). -/
def State.setWorkTab (s : State) (t : Vector CodeEntry 256) : State :=
  { s with seq := { s.seq with work := { s.seq.work with tab := some t } } }

/-- The Huffman worklist of a build (10_state R73). -/
def State.setWorklist (s : State) (l : List (Nat × HufTree)) : State :=
  { s with seq := { s.seq with worklist := l } }

/-- The QTAB a phase reads: the working copy if the command has built one, else the committed table
(10_state R62, 46_pipeline R300). -/
def State.phaseQtab (s : State) : Vector Word 64 := s.seq.work.qtab.getD s.qtab

/-- The TAB a phase reads (10_state R62). -/
def State.phaseTab (s : State) : Vector CodeEntry 256 := s.seq.work.tab.getD s.tab

/-- A QNF event: STATUS.QNF is set, and stays (42_quant R215). -/
def State.qnfEvent (s : State) (happened : Bool) : State := { s with qnf := s.qnf || happened }

/-- Block task `t` is finished (10_state R32). -/
def State.markTask (s : State) (t : Nat) : State :=
  { s with seq := { s.seq with tasksDone := t :: s.seq.tasksDone } }

/-- Run block task `t` unless it is finished already, and note it finished (46_pipeline R300). -/
def State.runTask (s : State) (t : Nat) (body : State → State) : State :=
  if s.seq.tasksDone.contains t then s else (body s).markTask t

/-- A block phase: every task 0..nb-1, in ascending order, then the join (46_pipeline R300, R301; log 5). -/
def State.blockPhase (s : State) (nb : Nat) (task : Nat → State → State) : State :=
  (List.range nb).foldl (fun s t => s.runTask t (task t)) s

/-- `u32` of a natural that a register takes (00_scope R10). -/
def u32 (n : Nat) : Word := BitVec.ofNat 32 n

/-- OUTLEN as a command's rule gives it (10_state R57). -/
def State.setOutlen (s : State) (n : Nat) : State := { s with outlen := u32 n }

/-- BITCNT as a result (10_state R55). -/
def State.setBitcnt (s : State) (n : DWord) : State := { s with opr := { s.opr with bitcnt := n } }

/-- CWIDTH and CHEIGHT as results (10_state R59). -/
def State.setCropped (s : State) (w h : Nat) : State := { s with cwidth := u32 w, cheight := u32 h }

/-- PADDR as a result (10_state R59). -/
def State.setPaddr (s : State) (a : Nat) : State := { s with paddr := u32 a }

end Sys2Proof.Machine
end

