-- ==== Sys2Proof/Machine/Operands.lean ====
section
/-! DEFINITION. The operands of a command: the snapshot, the LMEM regions and their checks (10_state R60,
20_memory R110, R111), and the errors' forms. -/

namespace Sys2Proof.Machine

/-- The running command's operand snapshot `op` (10_state R60). -/
abbrev State.op (s : State) : OperandRegs := s.seq.op.regs

/-- What acceptance copies into the snapshot (10_state R60). -/
def State.snapshot (s : State) : Snapshot := { regs := s.opr, workers := s.workers }

/-- The region ids of 20_memory R110. -/
inductive RegionId where
  | src | dst | tmp0 | tmp1
deriving DecidableEq, Repr

/-- 1 SRC, 2 DST, 3 TMP0, 4 TMP1 (20_memory R110). -/
def RegionId.num (r : RegionId) : Nat :=
  match r with
  | .src => 1
  | .dst => 2
  | .tmp0 => 3
  | .tmp1 => 4

/-- An LMEM region of a command: id, start, size (an unbounded integer), alignment, and whether the command
writes it (20_memory R110; 00_scope R16). -/
structure Region where
  id : RegionId
  base : Nat
  size : Nat
  align : Nat
  written : Bool
deriving DecidableEq, Repr

/-- The address is in the region [base, base + size) (00_scope R16). -/
def Region.has (r : Region) (a : Nat) : Bool := decide (r.base ≤ a ∧ a < r.base + r.size)

/-- A region at SRC, which commands only read. -/
def State.srcRegion (s : State) (size align : Nat) : Region :=
  { id := .src, base := s.op.src.toNat, size := size, align := align, written := false }

/-- A region at DST, which commands write. -/
def State.dstRegion (s : State) (size align : Nat) : Region :=
  { id := .dst, base := s.op.dst.toNat, size := size, align := align, written := true }

/-- A region at TMP0, which COMPRESS and DECOMPRESS write. -/
def State.tmp0Region (s : State) (size : Nat) : Region :=
  { id := .tmp0, base := s.op.tmp0.toNat, size := size, align := 1, written := true }

/-- A region at TMP1, which COMPRESS writes. -/
def State.tmp1Region (s : State) (size : Nat) : Region :=
  { id := .tmp1, base := s.op.tmp1.toNat, size := size, align := 1, written := true }

/-! ### Checks -/

/-- A check: the error where the condition that forbids the command holds. -/
def failIf (bad : Prop) [Decidable bad] (e : Err) : Option Err := if bad then some e else none

/-- The first error of a list of checks, in order (60_exceptions R348). -/
def firstError (cs : List (Option Err)) : Option Err := cs.findSome? id

/-- Range, then alignment, of one region; an empty region passes both (20_memory R110). -/
def Region.check (lmemSize : Nat) (stage : Stage) (r : Region) : Option Err :=
  if 0 < r.size ∧ lmemSize < r.base + r.size then some { code := .range, stage := stage, info := r.id.num }
  else if 0 < r.size ∧ r.base % r.align ≠ 0 then some { code := .align, stage := stage, info := r.id.num }
  else none

/-- Two non-empty regions overlap (20_memory R111). -/
def Region.overlaps (r q : Region) : Bool :=
  decide (0 < r.size ∧ 0 < q.size ∧ r.base < q.base + q.size ∧ q.base < r.base + r.size)

/-- The overlap check of one pair, `16·id1 + id2` (20_memory R111). -/
def Region.overlapCheck (stage : Stage) (r q : Region) : Option Err :=
  if r.overlaps q then some { code := .overlap, stage := stage, info := 16 * r.id.num + q.id.num } else none

/-- The pairs of a list of regions in order: the first with each later one, then the second, and so on. Every
command's rule lists its overlap pairs in this order (46_pipeline R305, R306). -/
def pairsOf (rs : List Region) : List (Region × Region) :=
  match rs with
  | [] => []
  | r :: rest => rest.map (fun q => (r, q)) ++ pairsOf rest

/-- The overlap checks of a list of regions (20_memory R111). -/
def overlapChecks (stage : Stage) (rs : List Region) : Option Err :=
  (pairsOf rs).findSome? (fun p => Region.overlapCheck stage p.1 p.2)

/-- The region checks of a command: every region in list order, then every overlap pair (20_memory R110,
R111). -/
def regionChecks (lmemSize : Nat) (stage : Stage) (rs : List Region) : Option Err :=
  firstError [rs.findSome? (Region.check lmemSize stage), overlapChecks stage rs]

/-- The region checks with the state's LMEM_SIZE. -/
def State.regionCheck (s : State) (stage : Stage) (rs : List Region) : Option Err :=
  regionChecks s.params.lmemSize stage rs

/-- The E_NOQTAB check (42_quant R216). -/
def State.qtabCheck (s : State) (stage : Stage) : Option Err :=
  failIf (s.qtabv = false) { code := .noQtab, stage := stage, info := 0 }

/-- The check that no packer session is open (44_huffman R250). -/
def State.bpClosedCheck (s : State) (stage : Stage) : Option Err :=
  failIf (s.bp.isOpen = true) { code := .state, stage := stage, info := 1 }

/-- The check that a packer session is open (45_bitpack R272). -/
def State.bpOpenCheck (s : State) (stage : Stage) : Option Err :=
  failIf (s.bp.isOpen = false) { code := .state, stage := stage, info := 0 }

/-- The quality check, with the 32-bit pattern as its detail (60_exceptions R341). -/
def qualityCheck (stage : Stage) (q : Word) : Option Err :=
  if q.toInt < 1 ∨ 99 < q.toInt then some { code := .quality, stage := stage, info := q.toNat } else none

/-! ### Data errors (60_exceptions R347) -/

/-- Every written region of a list takes free values (93 V5). -/
def State.scrambleRegions (s : State) (rs : List Region) : State :=
  (rs.filter (fun r => r.written)).foldl (fun s r => s.scramble r.base r.size) s

/-- A data error of a command that does not use the packer (60_exceptions R347). -/
def State.dataError (s : State) (rs : List Region) (e : Err) : State := (s.scrambleRegions rs).raise e

/-- A data error of a command that uses the packer (60_exceptions R347, 10_state R76). -/
def State.packerError (s : State) (rs : List Region) (e : Err) : State :=
  ((s.scrambleRegions rs).scrambleBp).raise e

end Sys2Proof.Machine
end

