-- ==== Sys2Proof/Machine/Control.lean ====
section
/-! DEFINITION. The issue of a command word (60_exceptions R344) and the command NOP (40_control R170). -/

namespace Sys2Proof.Machine

/-- What every issue clears and records before it decodes (60_exceptions R344; 10_state R41, R45, R46). QNF
and DROP are not cleared. What a host reads while the command runs is the record from before it (`readReg`, 70_reset
R380, log 18). -/
def State.beginIssue (s : State) (w : Word) : State :=
  { s with
    done := false
    err := false
    errCode := .noError
    errStage := .noStage
    lastOp := opcField w
    errInfo := 0 }

/-- The rejection of a word that is no command: E_ILLEGAL at stage DECODE with the whole word; BUSY stays 0
(60_exceptions R344, 30_encoding R144). -/
def State.reject (s : State) (w : Word) : State :=
  { s with errCode := .illegal, errStage := .decode, errInfo := w, err := true }

/-- The error record as an idle engine shows it, which an acceptance keeps for the host's reads while BUSY (70_reset
R380, log 18). -/
def State.heldRecord (s : State) : HeldRecord := { errstat := errstatWord s, errinfo := s.errInfo }

/-- The acceptance of a command: the operand snapshot, SEQ RUNNING and so BUSY (60_exceptions R344, 10_state
R60, R62: no working table yet), with the error record `h` from before it. -/
def State.accept (s : State) (i : Instr) (h : HeldRecord) : State :=
  { s with
    seq :=
      { state := .running, instr := i, op := s.snapshot, phase := homeStage i, work := Work.none,
        worklist := [], tasksDone := [], held := h } }

/-- A host write of w to CMD: dropped with DROP while BUSY (10_state R44), else issued in one indivisible step
(60_exceptions R344). -/
def State.issue (s : State) (w : Word) : State :=
  if s.busy then { s with drop := true }
  else
    match decode w with
    | .error _ => (s.beginIssue w).reject w
    | .ok i => (s.beginIssue w).accept i s.heldRecord

/-- NOP: it only completes (40_control R170). It is no fence (20_memory R123). -/
def execNop (s : State) : Host.Outcome State Fault Refusal := .next s.complete

end Sys2Proof.Machine
end

