-- ==== Sys2Proof/Machine/BitPack.lean ====
section
/-! DEFINITION. The bit packer and the commands BP_INIT, BP_ADD and BP_FINISH (45_bitpack). -/

namespace Sys2Proof.Machine

/-- `bpInit(base, cap, rid)` (45_bitpack R270). -/
def State.bpStart (s : State) (base cap : Word) (rid : RegionId) : State :=
  { s with
    bp :=
      { isOpen := true, acc := 0, nacc := 0, bytes := 0, total := 0, base := base, cap := cap,
        rid := BitVec.ofNat 3 rid.num } }

/-- A byte of the session is written to LMEM and the remainder is empty again (45_bitpack R270). -/
def State.bpFlush (s : State) (b : Byte) : State :=
  { s.writeBytes (s.bp.base.toNat + s.bp.bytes.toNat) [b] with
    bp := { s.bp with bytes := s.bp.bytes + 1, acc := 0, nacc := 0 } }

/-- The session's region is full: one more byte would pass its capacity (45_bitpack R270, R273). -/
def BitPacker.full (b : BitPacker) : Bool := decide (b.cap.toNat ≤ b.bytes.toNat)

/-- `bpPush(bit)`; `none` where it raises E_OVERFLOW (45_bitpack R270). -/
def State.bpPush (s : State) (bit : Bool) : Option State :=
  let acc : Byte := (s.bp.acc <<< 1) ||| (BitVec.ofBool bit).setWidth 8
  let s1 : State := { s with bp := { s.bp with acc := acc, nacc := s.bp.nacc + 1, total := s.bp.total + 1 } }
  if s.bp.nacc = 7 then (if s.bp.full then none else some (s1.bpFlush acc)) else some s1

/-- `bpPush` of each bit in turn. The second component is false where a push raises E_OVERFLOW: the state is
then the one just before that push, with every byte flushed so far in LMEM. -/
def State.bpPushAll (s : State) (bits : List Bool) : State × Bool :=
  match bits with
  | [] => (s, true)
  | b :: rest =>
    match s.bpPush b with
    | none => (s, false)
    | some s1 => s1.bpPushAll rest

/-- The n low-order bits of v, most significant first (45_bitpack R270 bpAdd). -/
def lowBits (v : Word) (n : Nat) : List Bool := (List.range n).reverse.map (fun j => v.getLsbD j)

/-- `bpAdd(v, n)` (45_bitpack R270). -/
def State.bpAdd (s : State) (v : Word) (n : Nat) : State × Bool := s.bpPushAll (lowBits v n)

/-- The last byte, its pending bits first and then zeros (45_bitpack R270 bpFinish). -/
def BitPacker.padded (b : BitPacker) : Byte := b.acc <<< (8 - b.nacc.toNat)

/-- `bpFinish()`; `none` where it raises E_OVERFLOW (45_bitpack R270). -/
def State.bpEnd (s : State) : Option State :=
  if s.bp.nacc = 0 then some { s with bp := { s.bp with isOpen := false } }
  else if s.bp.full then none
  else
    let s1 := s.bpFlush s.bp.padded
    some { s1 with bp := { s1.bp with isOpen := false } }

/-- BITCNT and OUTLEN from the packer's counters, after bpFinish (45_bitpack R274). -/
def State.bpResults (s : State) : State := (s.setBitcnt s.bp.total).setOutlen s.bp.bytes.toNat

/-- The region of BP_INIT (45_bitpack R271); it writes nothing. -/
def bpInitRegions (s : State) : List Region := [{ s.dstRegion s.op.cap.toNat 1 with written := false }]

/-- BP_INIT: open a packer session on an LMEM region (45_bitpack R271). -/
def execBpInit (s : State) : Host.Outcome State Fault Refusal :=
  s.checked (s.regionCheck .bitpack (bpInitRegions s)) (fun s => .next (s.bpStart s.op.dst s.op.cap .dst).complete)

/-- The E_OVERFLOW of a packer command, with the session's region id (45_bitpack R270). -/
def bpOverflow (s : State) (stage : Stage) : Err :=
  { code := .overflow, stage := stage, info := s.bp.rid.toNat }

/-- The checks of BP_ADD, in order (45_bitpack R272). -/
def bpAddCheck (n : Nat) (s : State) : Option Err :=
  firstError
    [failIf (32 < n) { code := .param, stage := .bitpack, info := 1 }, s.bpOpenCheck .bitpack]

/-- BP_ADD n: append the n low-order bits of BPDATA (45_bitpack R272). After an overflow the bytes flushed
before it stay. -/
def execBpAdd (n : Nat) (s : State) : Host.Outcome State Fault Refusal :=
  s.checked (bpAddCheck n s)
    (fun s => match s.bpAdd s.op.bpdata n with
      | (s1, true) => .next s1.complete
      | (s1, false) => .next (s1.packerError [] (bpOverflow s1 .bitpack)))

/-- BP_FINISH: pad the final byte and close the session (45_bitpack R274). -/
def execBpFinish (s : State) : Host.Outcome State Fault Refusal :=
  s.checked (s.bpOpenCheck .bitpack)
    (fun s => match s.bpEnd with
      | some s1 => .next s1.bpResults.complete
      | none => .next (s.packerError [] (bpOverflow s .bitpack)))

/-- The bytes BP_ADD and BP_FINISH may write, as a region for the host's accesses while BUSY (log 7): from
the next byte of an open session on, `n` bytes at most and never past the capacity. -/
def sessionRegion (s : State) (n : Nat) : Region :=
  { id := .dst
    base := s.bp.base.toNat + s.bp.bytes.toNat
    size := if s.bp.isOpen then min n (s.bp.cap.toNat - s.bp.bytes.toNat) else 0
    align := 1
    written := true }

end Sys2Proof.Machine
end

