-- ==== Sys2Proof/Machine/Huffman.lean ====
section
/-! DEFINITION. The Huffman codec: frequency count, tree build, code table, encoder and decoder, and the
commands HUF_FREQ, HUF_BUILD, HUF_EMIT, HUF_ENCODE and HUF_DECODE (44_huffman). -/

namespace Sys2Proof.Machine

/-! ### Frequency count -/

/-- How often a byte value occurs (44_huffman R240). -/
def byteCount (bs : List Byte) (b : Nat) : Nat := bs.countP (fun x => x.toNat == b)

/-- `FREQFN` over the bytes of a region (44_huffman R240). -/
def freqFn (bs : List Byte) : Vector Word 256 := Vector.ofFn (fun b => u32 (byteCount bs b.val))

/-- The region HUF_FREQ, HUF_EMIT and HUF_ENCODE read: LEN bytes at SRC (44_huffman R241). -/
def inputRegion (s : State) : Region := s.srcRegion s.op.len.toNat 1

/-- The E_EMPTY check on LEN, at stage HUF_FREQ (44_huffman R241, R253). -/
def emptyCheck (s : State) : Option Err :=
  failIf (s.op.len = 0) { code := .empty, stage := .hufFreq, info := 0 }

/-- The checks of HUF_FREQ, in order (44_huffman R241). -/
def hufFreqCheck (s : State) : Option Err :=
  firstError [s.regionCheck .hufFreq [inputRegion s], emptyCheck s]

/-- The input bytes of HUF_FREQ, HUF_EMIT and HUF_ENCODE. -/
def inputBytes (s : State) : List Byte := s.readBytes s.op.src.toNat s.op.len.toNat

/-- HUF_FREQ: count byte frequencies into FREQ (44_huffman R241). -/
def execHufFreq (s : State) : Host.Outcome State Fault Refusal :=
  s.checked (hufFreqCheck s) (fun s => .next (s.setWorkFreq (freqFn (inputBytes s))).complete)

/-! ### Tree build and code assignment -/

/-- The initial worklist: one leaf per byte value with nonzero frequency, in ascending order (44_huffman
R243). -/
def initialWorklist (f : Vector Word 256) : List (Nat × HufTree) :=
  (List.finRange 256).filterMap (fun b =>
    if f[b] = 0 then none else some ((f[b]).toNat, HufTree.leaf (BitVec.ofNat 8 b.val)))

/-- The least weight of a worklist. -/
def leastWeight (wl : List (Nat × HufTree)) : Nat :=
  match wl with
  | [] => 0
  | [x] => x.1
  | x :: rest => min x.1 (leastWeight rest)

/-- Remove the item of weight `w` nearest the head (44_huffman R245). -/
def takeWeight (w : Nat) (wl : List (Nat × HufTree)) : Option ((Nat × HufTree) × List (Nat × HufTree)) :=
  match wl with
  | [] => none
  | x :: rest =>
    if x.1 = w then some (x, rest)
    else (takeWeight w rest).map (fun p => (p.1, x :: p.2))

/-- Remove the item of least weight nearest the head (44_huffman R245). -/
def takeLeast (wl : List (Nat × HufTree)) : Option ((Nat × HufTree) × List (Nat × HufTree)) :=
  takeWeight (leastWeight wl) wl

/-- One greedy merge: the first removed becomes the right child, the second the left, the new node goes to
the tail (44_huffman R245). A worklist of fewer than two items stays. -/
def mergeOnce (wl : List (Nat × HufTree)) : List (Nat × HufTree) :=
  match takeLeast wl with
  | none => wl
  | some (m1, wl1) =>
    match takeLeast wl1 with
    | none => wl
    | some (m2, wl2) => wl2 ++ [(m1.1 + m2.1, HufTree.node m2.2 m1.2)]

/-- `BUILDTREE`'s loop: merge `n` times; a worklist of n + 1 items is then one root (44_huffman R245). -/
def mergeTimes (n : Nat) (wl : List (Nat × HufTree)) : List (Nat × HufTree) :=
  match n with
  | 0 => wl
  | n + 1 => mergeTimes n (mergeOnce wl)

/-- `BUILDTREE` (44_huffman R245); `none` for an empty worklist, whose tree is undefined (R243). -/
def buildTree (wl : List (Nat × HufTree)) : Option HufTree :=
  (mergeTimes (wl.length - 1) wl).head?.map (fun x => x.2)

/-- `ASSIGN(node, code, len)`: the leaves with their codes and lengths; left appends 1, right appends 0
(44_huffman R246). -/
def assignCodes (t : HufTree) (code len : Nat) : List (Byte × Nat × Nat) :=
  match t with
  | .leaf b => [(b, code, len)]
  | .node l r => assignCodes l (2 * code + 1) (len + 1) ++ assignCodes r (2 * code) (len + 1)

/-- The code and length assigned to a byte value. -/
def codeOf (cs : List (Byte × Nat × Nat)) (b : Nat) : Option (Nat × Nat) :=
  (cs.find? (fun c => c.1.toNat == b)).map (fun c => c.2)

/-- The smallest byte value whose code is longer than MAXCODELEN = 32 (44_huffman R247). -/
def tooLongByte (cs : List (Byte × Nat × Nat)) : Option Nat :=
  (List.range 256).find? (fun b => cs.any (fun c => c.1.toNat == b && decide (32 < c.2.2)))

/-- TAB from the assigned codes; a byte value without a leaf has no code (44_huffman R248). -/
def tabOfCodes (cs : List (Byte × Nat × Nat)) : Vector CodeEntry 256 :=
  Vector.ofFn (fun b =>
    match codeOf cs b.val with
    | some c => { code := u32 c.1, len := BitVec.ofNat 6 c.2, valid := true }
    | none => CodeEntry.none)

/-- `BUILDTAB` from the initial worklist (44_huffman R248): E_EMPTY for an empty worklist, E_CODELEN for a code
longer than 32 bits, else the table. The errors are data errors at stage HUF_BUILD. -/
def tabOfWorklist (wl : List (Nat × HufTree)) : Except Err (Vector CodeEntry 256) :=
  match buildTree wl with
  | none => .error { code := .empty, stage := .hufBuild, info := 0 }
  | some root =>
    match tooLongByte (assignCodes root 0 0) with
    | some b => .error { code := .codeLen, stage := .hufBuild, info := b }
    | none => .ok (tabOfCodes (assignCodes root 0 0))

/-- `BUILDTAB(F)` (44_huffman R248). -/
def buildTab (f : Vector Word 256) : Except Err (Vector CodeEntry 256) := tabOfWorklist (initialWorklist f)

/-- The phase HUF_BUILD on frequencies `f`: the worklist stands in SEQ (10_state R73), the table becomes the
working TAB (R62). -/
def State.hufBuildPhase (s : State) (f : Vector Word 256) : Except Err State :=
  let s1 := (s.enterPhase .hufBuild).setWorklist (initialWorklist f)
  match tabOfWorklist s1.seq.worklist with
  | .error e => .error e
  | .ok t => .ok ((s1.setWorklist []).setWorkTab t)

/-- HUF_BUILD: build the code table from FREQ (44_huffman R244). -/
def execHufBuild (s : State) : Host.Outcome State Fault Refusal :=
  match s.hufBuildPhase s.freq with
  | .error e => .next (s.dataError [] e)
  | .ok s1 => .next s1.complete

/-! ### Encoding -/

/-- Why an emission stops (44_huffman R250). -/
inductive EmitStop where
  /-- The byte at this index has no usable code. -/
  | noCode (i : Nat)
  /-- The packer's region is full. -/
  | overflow
deriving DecidableEq, Repr

/-- A TAB entry that HUF_EMIT can use: valid, with LEN at most 32 (44_huffman R250, 10_state R71). -/
def CodeEntry.usable (e : CodeEntry) : Bool := e.valid && decide (e.len.toNat ≤ 32)

/-- The loop of HUF_EMIT over the bytes from index `i` on (44_huffman R250). The state is the one reached,
whether or not it stopped. -/
def State.emitBytes (s : State) (t : Vector CodeEntry 256) (i : Nat) (bs : List Byte) :
    State × Option EmitStop :=
  match bs with
  | [] => (s, none)
  | b :: rest =>
    if (atByte t b).usable then
      match s.bpAdd (atByte t b).code (atByte t b).len.toNat with
      | (s1, true) => s1.emitBytes t (i + 1) rest
      | (s1, false) => (s1, some .overflow)
    else (s, some (.noCode i))

/-- The phase HUF_EMIT: a packer session from bpInit to bpFinish over the bytes, with table `t` (44_huffman
R250). -/
def State.emitPhase (s : State) (t : Vector CodeEntry 256) (bs : List Byte) (base cap : Word)
    (rid : RegionId) : State × Option EmitStop :=
  match ((s.enterPhase .hufEmit).bpStart base cap rid).emitBytes t 0 bs with
  | (s1, some x) => (s1, some x)
  | (s1, none) =>
    match s1.bpEnd with
    | some s2 => (s2, none)
    | none => (s1, some .overflow)

/-- The error of a stopped emission, with its region id (44_huffman R250, 45_bitpack R270). -/
def EmitStop.err (x : EmitStop) (rid : RegionId) : Err :=
  match x with
  | .noCode i => { code := .noCode, stage := .hufEmit, info := i }
  | .overflow => { code := .overflow, stage := .hufEmit, info := rid.num }

/-- The regions of HUF_EMIT and HUF_ENCODE (44_huffman R250, R253). -/
def emitRegions (s : State) : List Region := [inputRegion s, s.dstRegion s.op.cap.toNat 1]

/-- The checks of HUF_EMIT, in order (44_huffman R250). -/
def hufEmitCheck (s : State) : Option Err :=
  firstError [s.bpClosedCheck .hufEmit, s.regionCheck .hufEmit (emitRegions s)]

/-- The last phase of HUF_EMIT and HUF_ENCODE: emission with table `t`, then the results or the data error
(44_huffman R250). -/
def State.emitAndEnd (s : State) (t : Vector CodeEntry 256) : State :=
  match s.emitPhase t (inputBytes s) s.op.dst s.op.cap .dst with
  | (s1, none) => s1.bpResults.complete
  | (s1, some x) => s1.packerError (emitRegions s) (x.err .dst)

/-- HUF_EMIT: encode a byte sequence with the committed TAB, through the bit packer (44_huffman R250). -/
def execHufEmit (s : State) : Host.Outcome State Fault Refusal :=
  s.checked (hufEmitCheck s) (fun s => .next (s.emitAndEnd s.tab))

/-- The checks of HUF_ENCODE, in order (44_huffman R253). -/
def hufEncodeCheck (s : State) : Option Err :=
  firstError [s.bpClosedCheck .seq, s.regionCheck .seq (emitRegions s), emptyCheck s]

/-- The phase HUF_FREQ of a composite command: the counts become the working FREQ (44_huffman R253). -/
def State.hufFreqPhase (s : State) (bs : List Byte) : State :=
  (s.enterPhase .hufFreq).setWorkFreq (freqFn bs)

/-- HUF_ENCODE: the whole Huffman encode in one command (44_huffman R253). E_CODELEN too is a data error of a
packer command (60_exceptions R347, 10_state R76): it leaves BP closed and its other fields free, among them the
fields as they were, which is R253's own word (log 8). -/
def execHufEncode (s : State) : Host.Outcome State Fault Refusal :=
  s.checked (hufEncodeCheck s)
    (fun s => match (s.hufFreqPhase (inputBytes s)).hufBuildPhase (freqFn (inputBytes s)) with
      | .error e => .next (s.packerError (emitRegions s) e)
      | .ok s1 => .next (s1.emitAndEnd s1.phaseTab))

/-! ### Decoding -/

/-- Bit i of the bitstream at `a`, MSB first (20_memory R103). -/
def State.payloadBit (s : State) (a i : Nat) : Bool := (s.readByte (a + i / 8)).getLsbD (7 - i % 8)

/-- A running sample (sv, sl) matches an entry: valid, equal length, all 32 code bits equal (44_huffman
R255). -/
def CodeEntry.matches (e : CodeEntry) (sv sl : Nat) : Bool :=
  e.valid && e.len.toNat == sl && e.code.toNat == sv

/-- The smallest byte value that matches a sample (44_huffman R255). -/
def matchByte (t : Vector CodeEntry 256) (sv sl : Nat) : Option Byte :=
  ((List.finRange 256).find? (fun b => t[b].matches sv sl)).map (fun b => BitVec.ofNat 8 b.val)

/-- The decoding loop (44_huffman R257, R258): `left` bits still to read, `i` the next bit's index, (sv, sl)
the running sample, `want` the symbols still expected. The error is E_CORRUPT's bit index. -/
def decodeLoop (t : Vector CodeEntry 256) (bit : Nat → Bool) (left i sv sl want : Nat) :
    Except Nat (List Byte) :=
  match left with
  | 0 => if sl ≠ 0 ∨ want ≠ 0 then .error i else .ok []
  | left + 1 =>
    let sv1 := 2 * sv + (bit i).toNat
    let sl1 := sl + 1
    if 32 < sl1 then .error i
    else
      match matchByte t sv1 sl1 with
      | none => decodeLoop t bit left (i + 1) sv1 sl1 want
      | some b =>
        match want with
        | 0 => .error i
        | want + 1 =>
          match decodeLoop t bit left (i + 1) 0 0 want with
          | .error k => .error k
          | .ok out => .ok (b :: out)

/-- The one symbol of a degenerate table: exactly one entry is valid, and it has LEN = 0 (44_huffman R259). -/
def degenerateByte (t : Vector CodeEntry 256) : Option Byte :=
  match (List.finRange 256).filter (fun b => t[b].valid) with
  | [b] => if t[b].len = 0 then some (BitVec.ofNat 8 b.val) else none
  | _ => none

/-- `DECODE(a, nbits, N)` with table `t` (44_huffman R257 to R259). The error is E_CORRUPT's bit index. -/
def State.decodePayload (s : State) (t : Vector CodeEntry 256) (a nbits n : Nat) : Except Nat (List Byte) :=
  match degenerateByte t with
  | some b => if nbits ≠ 0 then .error 0 else .ok (List.replicate n b)
  | none => decodeLoop t (s.payloadBit a) nbits 0 0 0 n

/-- The error of a corrupt bitstream (44_huffman R257). -/
def corruptErr (i : Nat) : Err := { code := .corrupt, stage := .hufDecode, info := i }

/-- The regions of HUF_DECODE (44_huffman R256); `ceil8` is 00_scope R12's. -/
def hufDecodeRegions (s : State) : List Region :=
  [s.srcRegion ((s.op.bitcnt.toNat + 7) / 8) 1, s.dstRegion s.op.len.toNat 1]

/-- HUF_DECODE: decode a payload with the committed TAB (44_huffman R256). -/
def execHufDecode (s : State) : Host.Outcome State Fault Refusal :=
  s.checked (s.regionCheck .hufDecode (hufDecodeRegions s))
    (fun s => match s.decodePayload s.tab s.op.src.toNat s.op.bitcnt.toNat s.op.len.toNat with
      | .error i => .next (s.dataError (hufDecodeRegions s) (corruptErr i))
      | .ok out =>
        .next ((s.writeBytes s.op.dst.toNat out).setOutlen s.op.len.toNat).complete)

end Sys2Proof.Machine
end

