-- ==== Sys2Proof/Machine/Container.lean ====
section
/-! DEFINITION. The compressed container: serializer, parser and the commands CNT_PACK and CNT_UNPACK
(47_container). -/

namespace Sys2Proof.Machine

/-! ### Serializer -/

/-- The byte values of the valid entries, ascending (47_container R323). -/
def validBytes (t : Vector CodeEntry 256) : List (Fin 256) := (List.finRange 256).filter (fun b => t[b].valid)

/-- One table entry of a container: bits, bitsCount, mappedByte (47_container R320). -/
def entryBytes (t : Vector CodeEntry 256) (b : Fin 256) : List Byte :=
  leBytes 4 t[b].code.toNat ++ leBytes 4 t[b].len.toNat ++ [BitVec.ofNat 8 b.val]

/-- The bytes of a container before its payload (47_container R320, R323). -/
def containerHead (w h q : Word) (t : Vector CodeEntry 256) (nbits : DWord) (plen : Nat) : List Byte :=
  leBytes 4 w.toNat ++ leBytes 4 h.toNat ++ leBytes 4 q.toNat ++ leBytes 4 (validBytes t).length ++
    (validBytes t).flatMap (entryBytes t) ++ leBytes 8 nbits.toNat ++ leBytes 4 plen

/-- The size of a container: 28 + 9·cnt + plen (47_container R320). -/
def containerSize (t : Vector CodeEntry 256) (plen : Nat) : Nat := 28 + 9 * (validBytes t).length + plen

/-- The writes of `SERIALIZE` (47_container R323): the head, then the payload bytes. The regions of payload and
container do not overlap (20_memory R111), so the payload is read whole. -/
def State.serialize (s : State) (a : Nat) (w h q : Word) (t : Vector CodeEntry 256) (nbits : DWord)
    (payload : List Byte) : State :=
  s.writeBytes a (containerHead w h q t nbits payload.length ++ payload)

/-- Two valid entries have equal (CODE, LEN) (47_container R322 check 4). -/
def duplicateKeys (t : Vector CodeEntry 256) : Bool :=
  (validBytes t).any (fun b => (validBytes t).any (fun d =>
    decide (b < d) && t[b].code == t[d].code && t[b].len == t[d].len))

/-- The E_PARAM errors of CNT_PACK (47_container R322). -/
def packParam (k : Nat) : Err := { code := .param, stage := .cntPack, info := k }

/-- CNT_PACK's parameter checks, in order (47_container R322). -/
def packParamChecks (s : State) : List (Option Err) :=
  [ failIf (8 * s.op.len.toNat < s.op.bitcnt.toNat) (packParam 1),
    failIf (0x7FFFFFFF < s.op.len.toNat) (packParam 2),
    failIf ((validBytes s.tab).any (fun b => decide (32 < s.tab[b].len.toNat)) = true) (packParam 3),
    failIf (duplicateKeys s.tab = true) (packParam 4) ]

/-- The regions of CNT_PACK (47_container R321). -/
def packRegions (s : State) : List Region := [s.srcRegion s.op.len.toNat 1, s.dstRegion s.op.cap.toNat 1]

/-- E_OVERFLOW(2) at stage CNT_PACK: the container does not fit its capacity (47_container R321, R323). -/
def packOverflow : Err := { code := .overflow, stage := .cntPack, info := RegionId.dst.num }

/-- The checks of CNT_PACK, in order (47_container R321). -/
def cntPackCheck (s : State) : Option Err :=
  firstError (packParamChecks s ++
    [ s.regionCheck .cntPack (packRegions s),
      failIf (s.op.cap.toNat < containerSize s.tab s.op.len.toNat) packOverflow ])

/-- CNT_PACK: serialize the current table and a payload into a container (47_container R321). -/
def execCntPack (s : State) : Host.Outcome State Fault Refusal :=
  s.checked (cntPackCheck s)
    (fun s => .next ((s.serialize s.op.dst.toNat s.op.width s.op.height s.op.quality s.tab s.op.bitcnt
      (s.readBytes s.op.src.toNat s.op.len.toNat)).setOutlen
        (containerSize s.tab s.op.len.toNat)).complete)

/-! ### Parser -/

/-- What `PARSE` returns (47_container R324). -/
structure Parsed where
  width : Word
  height : Word
  quality : Word
  tab : Vector CodeEntry 256
  nbits : DWord
  paddr : Nat
  plen : Nat
deriving DecidableEq, Repr

/-- A 32-bit field of LMEM. -/
def State.field32 (s : State) (a : Nat) : Word := BitVec.ofNat 32 (s.memRead a 4)

/-- A 64-bit field of LMEM. -/
def State.field64 (s : State) (a : Nat) : DWord := BitVec.ofNat 64 (s.memRead a 8)

/-- Some valid entry has this (CODE, LEN) (47_container R324 M6). -/
def hasKey (t : Vector CodeEntry 256) (bits : Word) (bc : BitVec 6) : Bool :=
  t.toList.any (fun e => e.valid && e.code == bits && e.len == bc)

/-- The loop over the table entries: `left` entries from address `e` on, `t` the table so far. The error is
the malformed-container check that fails, M4 to M6 (47_container R324). -/
def State.parseEntries (s : State) (left e : Nat) (t : Vector CodeEntry 256) :
    Except Nat (Vector CodeEntry 256) :=
  match left with
  | 0 => .ok t
  | left + 1 =>
    let bits := s.field32 e
    let bc := (s.field32 (e + 4)).toInt
    let b := s.readByte (e + 8)
    let len := BitVec.ofInt 6 bc
    if bc < 0 ∨ 32 < bc then .error 4
    else if (atByte t b).valid then .error 5
    else if hasKey t bits len then .error 6
    else s.parseEntries left (e + 9) (t.set b.toNat { code := bits, len := len, valid := true } b.isLt)

/-- The trailer of a container whose table ends before address `o`: M7 to M10 (47_container R324). -/
def State.parseTrailer (s : State) (a n cnt : Nat) (t : Vector CodeEntry 256) : Except Nat Parsed :=
  let o := a + 16 + 9 * cnt
  let nbits := s.field64 o
  let plen := (s.field32 (o + 8)).toInt
  if nbits.toInt < 0 then .error 7
  else if plen < 0 then .error 8
  else if 8 * plen < nbits.toInt then .error 9
  else if (n : Int) < 28 + 9 * cnt + plen then .error 10
  else
    .ok
      { width := s.field32 a
        height := s.field32 (a + 4)
        quality := s.field32 (a + 8)
        tab := t
        nbits := nbits
        paddr := a + 28 + 9 * cnt
        plen := plen.toNat }

/-- `PARSE(a, n)` (47_container R324). The error is the number of the check that fails, M1 to M10. -/
def State.parse (s : State) (a n : Nat) : Except Nat Parsed :=
  if n < 16 then .error 1
  else
    let cnt := (s.field32 (a + 12)).toInt
    if cnt < 0 ∨ 256 < cnt then .error 2
    else if (n : Int) < 28 + 9 * cnt then .error 3
    else
      match s.parseEntries cnt.toNat (a + 16) (Vector.replicate 256 CodeEntry.none) with
      | .error k => .error k
      | .ok t => s.parseTrailer a n cnt.toNat t

/-- E_MALFORMED with its check's number (47_container R324, 46_pipeline R306). -/
def malformedErr (k : Nat) : Err := { code := .malformed, stage := .cntUnpack, info := k }

/-- The region of CNT_UNPACK, and the first of DECOMPRESS: LEN bytes at SRC (47_container R325). -/
def streamRegion (s : State) : Region := s.srcRegion s.op.len.toNat 1

/-- The registers a container loads: WIDTH, HEIGHT, QUALITY and BITCNT (10_state R61). -/
def State.loadHeader (s : State) (p : Parsed) : State :=
  { s with
    opr := { s.opr with width := p.width, height := p.height, quality := p.quality, bitcnt := p.nbits } }

/-- CNT_UNPACK: parse a container into the registers and TAB (47_container R325). -/
def execCntUnpack (s : State) : Host.Outcome State Fault Refusal :=
  s.checked (s.regionCheck .cntUnpack [streamRegion s])
    (fun s => match s.parse s.op.src.toNat s.op.len.toNat with
      | .error k => .next (s.dataError [] (malformedErr k))
      | .ok p =>
        .next ((((s.setWorkTab p.tab).loadHeader p).setOutlen p.plen).setPaddr p.paddr).complete)

end Sys2Proof.Machine
end

