-- ==== Sys2Proof/Machine/F64.lean ====
section
/-! DEFINITION. binary64 arithmetic (41_dct R190, 00_scope R13): exact integer arithmetic in units of
2^-1074, the least subnormal, then one rounding, ties to even. -/

namespace Sys2Proof.Machine

/-- The value a pattern stands for: NaN, a signed infinity, or a sign and a magnitude in units of 2^-1074.
Zero is magnitude 0 with its sign. -/
inductive F64Class where
  | nan
  | inf (neg : Bool)
  | fin (neg : Bool) (mag : Nat)
deriving DecidableEq, Repr

/-- The value of a pattern (R190 Format): exponent field 2047 is infinity or NaN, 0 is zero or subnormal. -/
def f64Class (x : F64) : F64Class :=
  let neg := decide (2 ^ 63 ≤ x.toNat)
  let e := x.toNat / 2 ^ 52 % 2048
  let f := x.toNat % 2 ^ 52
  if e = 2047 then (if f = 0 then .inf neg else .nan)
  else if e = 0 then .fin neg f
  else .fin neg ((2 ^ 52 + f) * 2 ^ (e - 1))

/-- The canonical quiet NaN, the only NaN an operation yields (R190 NaN). -/
def f64NaN : F64 := 0x7FF8000000000000#64

/-- The magnitude bits of infinity. -/
def f64InfBits : Nat := 2047 * 2 ^ 52

/-- A pattern from its sign and its 63 magnitude bits. -/
def f64Pack (neg : Bool) (bits : Nat) : F64 := BitVec.ofNat 64 ((if neg then 2 ^ 63 else 0) + bits)

/-- The quotient `num / den` of naturals rounded to an integer, ties to even. -/
def roundDiv (num den : Nat) : Nat :=
  let q := num / den
  let r := num % den
  if den < 2 * r ∨ (2 * r = den ∧ q % 2 = 1) then q + 1 else q

/-- The magnitude bits of `num / den` units of 2^-1074 rounded to binary64, ties to even (R190 Rounding,
Subnormals). With 2^k the weight of the result's last place, the rounded significand lies in [0, 2^53], and
adding it to k·2^52 carries into the exponent by itself; what reaches the infinity bits is infinity. -/
def f64RoundBits (num den : Nat) : Nat :=
  let k := Nat.log2 (num / den) - 52
  min (k * 2 ^ 52 + roundDiv num (den * 2 ^ k)) f64InfBits

/-- A signed magnitude as an integer. -/
def signedMag (neg : Bool) (m : Nat) : Int := if neg then -(m : Int) else (m : Int)

/-- `fadd` (R13, R190). The sum of two zeros of one sign keeps the sign; any other zero sum is +0. -/
def fadd (a b : F64) : F64 :=
  match f64Class a, f64Class b with
  | .nan, _ => f64NaN
  | _, .nan => f64NaN
  | .inf p, .inf q => if p = q then f64Pack p f64InfBits else f64NaN
  | .inf p, .fin _ _ => f64Pack p f64InfBits
  | .fin _ _, .inf q => f64Pack q f64InfBits
  | .fin p m, .fin q n =>
    let z := signedMag p m + signedMag q n
    if z = 0 then f64Pack (p && q) 0
    else f64Pack (decide (z < 0)) (f64RoundBits z.natAbs 1)

/-- The pattern with its sign bit inverted. -/
def f64Neg (a : F64) : F64 := a ^^^ 0x8000000000000000#64

/-- `fsub` (R13): the sum with the negated second operand. -/
def fsub (a b : F64) : F64 := fadd a (f64Neg b)

/-- `fmul` (R13, R190). The product of magnitudes is in units of 2^-2148. -/
def fmul (a b : F64) : F64 :=
  match f64Class a, f64Class b with
  | .nan, _ => f64NaN
  | _, .nan => f64NaN
  | .inf p, .inf q => f64Pack (p ^^ q) f64InfBits
  | .inf p, .fin q n => if n = 0 then f64NaN else f64Pack (p ^^ q) f64InfBits
  | .fin p m, .inf q => if m = 0 then f64NaN else f64Pack (p ^^ q) f64InfBits
  | .fin p m, .fin q n => f64Pack (p ^^ q) (f64RoundBits (m * n) (2 ^ 1074))

/-- `fdiv` (R13, R190). A finite nonzero value over zero is an infinity, zero over zero a NaN. -/
def fdiv (a b : F64) : F64 :=
  match f64Class a, f64Class b with
  | .nan, _ => f64NaN
  | _, .nan => f64NaN
  | .inf _, .inf _ => f64NaN
  | .inf p, .fin q _ => f64Pack (p ^^ q) f64InfBits
  | .fin p _, .inf q => f64Pack (p ^^ q) 0
  | .fin p m, .fin q n =>
    if n = 0 then (if m = 0 then f64NaN else f64Pack (p ^^ q) f64InfBits)
    else f64Pack (p ^^ q) (f64RoundBits (m * 2 ^ 1074) n)

/-- `f64(k)`: the binary64 value of an integer (R13); 0 is +0.0 (42_quant R217). -/
def f64OfInt (k : Int) : F64 := f64Pack (decide (k < 0)) (f64RoundBits (k.natAbs * 2 ^ 1074) 1)

/-- `trunc` of a finite value, toward zero, exact for every magnitude (R12, 42_quant R214); `none` where
`isfinite` is false (R13). -/
def f64Trunc (x : F64) : Option Int :=
  match f64Class x with
  | .nan => none
  | .inf _ => none
  | .fin neg m => some (signedMag neg (m / 2 ^ 1074))

end Sys2Proof.Machine
end

