-- ==== Sys2Proof/Machine/Rom.lean ====
section
/-! DEFINITION. The constant ROMs COSROM, SCALEROM, BASE and ZZ (00_scope R9, 10_state R67). -/

namespace Sys2Proof.Machine

/-- COSROM's rows 0 to 3 (41_dct R191). -/
def cosRowsLow : List (List F64) :=
  [ [0x3FF0000000000000, 0x3FF0000000000000, 0x3FF0000000000000, 0x3FF0000000000000,
     0x3FF0000000000000, 0x3FF0000000000000, 0x3FF0000000000000, 0x3FF0000000000000],
    [0x3FEF6297CFF75CB0, 0x3FEA9B66290EA1A3, 0x3FE1C73B39AE68C8, 0x3FC8F8B83C69A60B,
     0xBFC8F8B83C69A60B, 0xBFE1C73B39AE68C8, 0xBFEA9B66290EA1A3, 0xBFEF6297CFF75CB0],
    [0x3FED906BCF328D46, 0x3FD87DE2A6AEA963, 0xBFD87DE2A6AEA963, 0xBFED906BCF328D46,
     0xBFED906BCF328D46, 0xBFD87DE2A6AEA963, 0x3FD87DE2A6AEA963, 0x3FED906BCF328D46],
    [0x3FEA9B66290EA1A3, 0xBFC8F8B83C69A60B, 0xBFEF6297CFF75CB0, 0xBFE1C73B39AE68C8,
     0x3FE1C73B39AE68C8, 0x3FEF6297CFF75CB0, 0x3FC8F8B83C69A60B, 0xBFEA9B66290EA1A3] ]

/-- COSROM's rows 4 to 7 (41_dct R191). -/
def cosRowsHigh : List (List F64) :=
  [ [0x3FE6A09E667F3BCD, 0xBFE6A09E667F3BCD, 0xBFE6A09E667F3BCD, 0x3FE6A09E667F3BCD,
     0x3FE6A09E667F3BCD, 0xBFE6A09E667F3BCD, 0xBFE6A09E667F3BCD, 0x3FE6A09E667F3BCD],
    [0x3FE1C73B39AE68C8, 0xBFEF6297CFF75CB0, 0x3FC8F8B83C69A60B, 0x3FEA9B66290EA1A3,
     0xBFEA9B66290EA1A3, 0xBFC8F8B83C69A60B, 0x3FEF6297CFF75CB0, 0xBFE1C73B39AE68C8],
    [0x3FD87DE2A6AEA963, 0xBFED906BCF328D46, 0x3FED906BCF328D46, 0xBFD87DE2A6AEA963,
     0xBFD87DE2A6AEA963, 0x3FED906BCF328D46, 0xBFED906BCF328D46, 0x3FD87DE2A6AEA963],
    [0x3FC8F8B83C69A60B, 0xBFE1C73B39AE68C8, 0x3FEA9B66290EA1A3, 0xBFEF6297CFF75CB0,
     0x3FEF6297CFF75CB0, 0xBFEA9B66290EA1A3, 0x3FE1C73B39AE68C8, 0xBFC8F8B83C69A60B] ]

/-- `COS[k][n]` (41_dct R191). -/
def cosRom (k n : Fin 8) : F64 := ((cosRowsLow ++ cosRowsHigh).getD k []).getD n 0

/-- `SCALE[v][u]` (41_dct R192): 1/8, RN(√2/8) or 1/4. -/
def scaleRom (v u : Fin 8) : F64 :=
  if v = 0 ∧ u = 0 then 0x3FC0000000000000#64
  else if v = 0 ∨ u = 0 then 0x3FC6A09E667F3BCD#64
  else 0x3FD0000000000000#64

/-- BASE's rows 0 to 3 in natural order (42_quant R210). -/
def baseRowsLow : List Nat :=
  [ 16, 11, 10, 16, 24, 40, 51, 61,
    12, 12, 14, 19, 26, 58, 60, 55,
    14, 13, 16, 24, 40, 57, 69, 56,
    14, 17, 22, 29, 51, 87, 80, 62 ]

/-- BASE's rows 4 to 7 in natural order (42_quant R210). -/
def baseRowsHigh : List Nat :=
  [ 18, 22, 37, 56, 68, 109, 103, 77,
    24, 35, 55, 64, 81, 104, 113, 92,
    49, 64, 78, 87, 103, 121, 120, 101,
    72, 92, 95, 98, 112, 100, 103, 99 ]

/-- `BASE` at natural index i (42_quant R210). -/
def baseRom (i : Fin 64) : Nat := (baseRowsLow ++ baseRowsHigh).getD i 0

/-- ZZ, positions 0 to 31 (43_zigzag R230). -/
def zzLow : List Nat :=
  [ 0, 1, 8, 16, 9, 2, 3, 10,
    17, 24, 32, 25, 18, 11, 4, 5,
    12, 19, 26, 33, 40, 48, 41, 34,
    27, 20, 13, 6, 7, 14, 21, 28 ]

/-- ZZ, positions 32 to 63 (43_zigzag R230). -/
def zzHigh : List Nat :=
  [ 35, 42, 49, 56, 57, 50, 43, 36,
    29, 22, 15, 23, 30, 37, 44, 51,
    58, 59, 52, 45, 38, 31, 39, 46,
    53, 60, 61, 54, 47, 55, 62, 63 ]

/-- ZZINV, natural indexes 0 to 31 (43_zigzag R230). -/
def zzInvLow : List Nat :=
  [ 0, 1, 5, 6, 14, 15, 27, 28,
    2, 4, 7, 13, 16, 26, 29, 42,
    3, 8, 12, 17, 25, 30, 41, 43,
    9, 11, 18, 24, 31, 40, 44, 53 ]

/-- ZZINV, natural indexes 32 to 63 (43_zigzag R230). -/
def zzInvHigh : List Nat :=
  [ 10, 19, 23, 32, 39, 45, 52, 54,
    20, 22, 33, 38, 46, 51, 55, 60,
    21, 34, 37, 47, 50, 56, 59, 61,
    35, 36, 48, 49, 57, 58, 62, 63 ]

/-- `ZZ[k]`: the natural index at zigzag position k (43_zigzag R230). -/
def zzRom (k : Fin 64) : Fin 64 := Fin.ofNat 64 ((zzLow ++ zzHigh).getD k 0)

/-- `ZZINV[i]`: the zigzag position of natural index i (43_zigzag R230). -/
def zzInv (i : Fin 64) : Fin 64 := Fin.ofNat 64 ((zzInvLow ++ zzInvHigh).getD i 0)

end Sys2Proof.Machine
end

