-- ==== Sys2Proof/Machine/Dct.lean ====
section
/-! DEFINITION. The DCT engine: the transform functions and the commands FDCT and IDCT (41_dct). -/

namespace Sys2Proof.Machine

/-- The natural index 8r + c of cell (r, c) (00_scope R16). -/
def cellIx (r c : Fin 8) : Fin 64 := ⟨8 * r.val + c.val, by omega⟩

/-- The row of a natural index. -/
def rowOf (i : Fin 64) : Fin 8 := ⟨i.val / 8, by omega⟩

/-- The column of a natural index. -/
def colOf (i : Fin 64) : Fin 8 := ⟨i.val % 8, by omega⟩

/-- A block from its cells. -/
def grid (f : Fin 8 → Fin 8 → F64) : Vector F64 64 := Vector.ofFn (fun i => f (rowOf i) (colOf i))

/-- The accumulation of both transforms: from +0.0, in ascending index, each product and each sum rounded on
its own (41_dct R193, R194). -/
def dot8 (f g : Fin 8 → F64) : F64 :=
  (List.finRange 8).foldl (fun acc i => fadd acc (fmul (f i) (g i))) 0

/-- `T[y][u]`, pass 1 of the forward transform (41_dct R193). -/
def fdctRows (s : Vector F64 64) : Vector F64 64 :=
  grid (fun y u => dot8 (fun x => s[cellIx y x]) (fun x => cosRom u x))

/-- `FDCT8(s)`: rows, then columns, then the scale (41_dct R193). In this order the DC coefficient of a constant block
c is not 8c for every c whose 8c is representable, as R197 item 3 has it: DEDUCED, log 19. -/
def fdct8 (s : Vector F64 64) : Vector F64 64 :=
  let t := fdctRows s
  grid (fun v u => fmul (dot8 (fun y => t[cellIx y u]) (fun y => cosRom v y)) (scaleRom v u))

/-- `H[v][u]`, the scaled coefficients (41_dct R194). -/
def idctScaled (g : Vector F64 64) : Vector F64 64 :=
  grid (fun v u => fmul g[cellIx v u] (scaleRom v u))

/-- `P[v][x]`, pass 1 of the inverse transform (41_dct R194). -/
def idctRows (g : Vector F64 64) : Vector F64 64 :=
  let h := idctScaled g
  grid (fun v x => dot8 (fun u => h[cellIx v u]) (fun u => cosRom u x))

/-- `IDCT8(G)`: the scale, then along u, then along v (41_dct R194). -/
def idct8 (g : Vector F64 64) : Vector F64 64 :=
  let p := idctRows g
  grid (fun y x => dot8 (fun v => p[cellIx v x]) (fun v => cosRom v y))

/-- The regions of FDCT and IDCT (41_dct R195, R196). -/
def transformRegions (s : State) : List Region := [s.srcRegion 512 8, s.dstRegion 512 8]

/-- FDCT: forward transform of one block in LMEM (41_dct R195). -/
def execFdct (s : State) : Host.Outcome State Fault Refusal :=
  s.checked (s.regionCheck .transform (transformRegions s))
    (fun s => .next ((s.writeBlock s.op.dst.toNat (fdct8 (s.readBlock s.op.src.toNat))).setOutlen 512).complete)

/-- IDCT: inverse transform of one block in LMEM (41_dct R196). -/
def execIdct (s : State) : Host.Outcome State Fault Refusal :=
  s.checked (s.regionCheck .transform (transformRegions s))
    (fun s => .next ((s.writeBlock s.op.dst.toNat (idct8 (s.readBlock s.op.src.toNat))).setOutlen 512).complete)

end Sys2Proof.Machine
end

