-- ==== Sys2Proof/Machine/Quant.lean ====
section
/-! DEFINITION. The quantization table mapper, the quantizer and the dequantizer, and the commands
QTAB_BUILD, QUANT and DEQUANT (42_quant). -/

namespace Sys2Proof.Machine

/-- The quality multiplier m(q) (42_quant R211). -/
def qualityMult (q : Nat) : Nat := if q < 50 then 5000 / q else 200 - 2 * q

/-- One cell of `QTABFN(q)` (42_quant R212). -/
def qtabCell (q : Nat) (i : Fin 64) : Nat := (qualityMult q * baseRom i + 50) / 100

/-- `QTABFN(q)` for a legal q (42_quant R212). -/
def qtabFn (q : Nat) : Vector Word 64 := Vector.ofFn (fun i => u32 (qtabCell q i))

/-- QTAB_BUILD: build and commit the quantization table for a quality (42_quant R213). -/
def execQtabBuild (s : State) : Host.Outcome State Fault Refusal :=
  s.checked (qualityCheck .qtab s.op.quality)
    (fun s => .next (s.setWorkQtab (qtabFn s.op.quality.toNat)).complete)

/-- `QBYTE(c, t)` and whether its quotient was non-finite, the QNF event (42_quant R214, R215). -/
def qbyte (c : F64) (t : Word) : Byte × Bool :=
  match f64Trunc (fdiv c (f64OfInt t.toNat)) with
  | some k => (BitVec.ofInt 8 k, false)
  | none => (0, true)

/-- `DQ(b, t)` (42_quant R217). -/
def dequantize (b : Byte) (t : Word) : F64 := f64OfInt (b.toInt * t.toNat)

/-- The quantizer over a block in natural order: the bytes, and whether any quotient was non-finite. -/
def quantBlock (f : Vector F64 64) (t : Vector Word 64) : List Byte × Bool :=
  let q := (List.finRange 64).map (fun i => qbyte f[i] t[i])
  (q.map (fun p => p.1), q.any (fun p => p.2))

/-- The regions of QUANT (42_quant R216) and of BLK_ENC (46_pipeline R294). -/
def quantRegions (s : State) : List Region := [s.srcRegion 512 8, s.dstRegion 64 1]

/-- The regions of DEQUANT (42_quant R218) and of BLK_DEC (46_pipeline R295). -/
def dequantRegions (s : State) : List Region := [s.srcRegion 64 1, s.dstRegion 512 8]

/-- The checks of QUANT, in order (42_quant R216). -/
def quantCheck (s : State) : Option Err :=
  firstError [s.qtabCheck .transform, s.regionCheck .transform (quantRegions s)]

/-- The checks of DEQUANT, in order (42_quant R218). -/
def dequantCheck (s : State) : Option Err :=
  firstError [s.qtabCheck .transform, s.regionCheck .transform (dequantRegions s)]

/-- The pseudocode of QUANT but for OUTLEN: 64 bytes at DST, and QNF (42_quant R216). -/
def quantBody (s : State) : State :=
  let r := quantBlock (s.readBlock s.op.src.toNat) s.qtab
  (s.writeBytes s.op.dst.toNat r.1).qnfEvent r.2

/-- QUANT: quantize one block of coefficients (42_quant R216). -/
def execQuant (s : State) : Host.Outcome State Fault Refusal :=
  s.checked (quantCheck s) (fun s => .next ((s.runTask 0 quantBody).setOutlen 64).complete)

/-- The dequantizer over 64 bytes in natural order. -/
def dequantBlock (b : Vector Byte 64) (t : Vector Word 64) : Vector F64 64 :=
  Vector.ofFn (fun i => dequantize b[i] t[i])

/-- 64 bytes of LMEM. -/
def State.read64 (s : State) (a : Nat) : Vector Byte 64 := Vector.ofFn (fun i => s.readByte (a + i.val))

/-- DEQUANT: dequantize one block of bytes (42_quant R218). -/
def execDequant (s : State) : Host.Outcome State Fault Refusal :=
  s.checked (dequantCheck s)
    (fun s => .next ((s.writeBlock s.op.dst.toNat (dequantBlock (s.read64 s.op.src.toNat) s.qtab)).setOutlen
      512).complete)

end Sys2Proof.Machine
end

