-- ==== Sys2Proof/Machine/Zigzag.lean ====
section
/-! DEFINITION. The zigzag reorder unit and the commands ZZSCAN and ZZUNSCAN (43_zigzag). -/

namespace Sys2Proof.Machine

/-- `SCAN(M)`: `z[k] = M[ZZ[k]]` (43_zigzag R231). -/
def scan {α : Type} (m : Vector α 64) : Vector α 64 := Vector.ofFn (fun k => m[zzRom k])

/-- `UNSCAN(z)`: `M[ZZ[k]] = z[k]`, each cell through the inverse table (43_zigzag R230, R231). -/
def unscan {α : Type} (z : Vector α 64) : Vector α 64 := Vector.ofFn (fun i => z[zzInv i])

/-- The regions of ZZSCAN and ZZUNSCAN (43_zigzag R232, R233). -/
def zigzagRegions (s : State) : List Region := [s.srcRegion 64 1, s.dstRegion 64 1]

/-- ZZSCAN: reorder a 64-byte block from natural to zigzag order (43_zigzag R232). -/
def execZzscan (s : State) : Host.Outcome State Fault Refusal :=
  s.checked (s.regionCheck .transform (zigzagRegions s))
    (fun s => .next ((s.writeBytes s.op.dst.toNat (scan (s.read64 s.op.src.toNat)).toList).setOutlen 64).complete)

/-- ZZUNSCAN: reorder a 64-byte sequence from zigzag to natural order (43_zigzag R233). -/
def execZzunscan (s : State) : Host.Outcome State Fault Refusal :=
  s.checked (s.regionCheck .transform (zigzagRegions s))
    (fun s => .next ((s.writeBytes s.op.dst.toNat (unscan (s.read64 s.op.src.toNat)).toList).setOutlen 64).complete)

end Sys2Proof.Machine
end

