-- ==== Sys2Proof/Machine/Pipeline.lean ====
section
/-! DEFINITION. The block pipeline: the image layout, the block functions, the block tasks, and the commands
BLK_ENC, BLK_DEC, PIPE_FWD, PIPE_INV, COMPRESS and DECOMPRESS (46_pipeline). -/

namespace Sys2Proof.Machine

/-! ### Images and the flat buffer -/

/-- `PIX(a, W, r, c, ch)` (46_pipeline R290). -/
def pixAddr (a w r c ch : Nat) : Nat := a + 8 * (3 * (r * w + c) + ch)

/-- A size cropped to a multiple of 8 (46_pipeline R291). -/
def crop (n : Nat) : Nat := n - n % 8

/-- The number of blocks of a W × H grid (46_pipeline R291). -/
def blockCount (w h : Nat) : Nat := (w / 8) * (h / 8)

/-- `FLATOFF(t, ch)` (46_pipeline R292). -/
def flatOff (t ch : Nat) : Nat := 64 * (3 * t + ch)

/-- The size of the flat buffer of a grid (46_pipeline R292). -/
def flatSize (w h : Nat) : Nat := 192 * blockCount w h

/-! ### One block -/

/-- 128.0, the level shift (46_pipeline R293). -/
def levelShift : F64 := 0x4060000000000000#64

/-- `ENC_BLOCK(s, Qt)`: the 64 bytes in zigzag order, and whether any quotient was non-finite (46_pipeline
R293, 42_quant R215). -/
def encBlock (s : Vector F64 64) (qt : Vector Word 64) : List Byte × Bool :=
  let f := fdct8 (s.map (fun x => fsub x levelShift))
  let q : Vector (Byte × Bool) 64 := Vector.ofFn (fun i => qbyte f[i] qt[i])
  ((scan (q.map (fun p => p.1))).toList, q.toList.any (fun p => p.2))

/-- `DEC_BLOCK(z, Qt)` (46_pipeline R293). -/
def decBlock (z : Vector Byte 64) (qt : Vector Word 64) : Vector F64 64 :=
  (idct8 (dequantBlock (unscan z) qt)).map (fun x => fadd x levelShift)

/-- The pseudocode of BLK_ENC but for OUTLEN (46_pipeline R294). -/
def blkEncBody (s : State) : State :=
  let r := encBlock (s.readBlock s.op.src.toNat) s.qtab
  (s.writeBytes s.op.dst.toNat r.1).qnfEvent r.2

/-- BLK_ENC: encode one channel block (46_pipeline R294). Its checks and regions are QUANT's. -/
def execBlkEnc (s : State) : Host.Outcome State Fault Refusal :=
  s.checked (quantCheck s) (fun s => .next ((s.runTask 0 blkEncBody).setOutlen 64).complete)

/-- BLK_DEC: decode one channel block (46_pipeline R295). Its checks and regions are DEQUANT's. -/
def execBlkDec (s : State) : Host.Outcome State Fault Refusal :=
  s.checked (dequantCheck s)
    (fun s => .next ((s.writeBlock s.op.dst.toNat (decBlock (s.read64 s.op.src.toNat) s.qtab)).setOutlen
      512).complete)

/-! ### Block tasks (46_pipeline R300) -/

/-- The 64 samples of channel `ch` of block `t` of the image at `a` with stride `w` (46_pipeline R302). -/
def State.readSamples (s : State) (a w t ch : Nat) : Vector F64 64 :=
  Vector.ofFn (fun i =>
    s.memReadF64 (pixAddr a w (8 * (t / (w / 8)) + i.val / 8) (8 * (t % (w / 8)) + i.val % 8) ch))

/-- One channel of a forward task: 64 bytes into its flat slice, and QNF (46_pipeline R302). -/
def fwdChannel (a w flat t ch : Nat) (s : State) : State :=
  let r := encBlock (s.readSamples a w t ch) s.phaseQtab
  (s.writeBytes (flat + flatOff t ch) r.1).qnfEvent r.2

/-- Forward block task `t`: all three channels (46_pipeline R300, R302). -/
def fwdTask (a w flat t : Nat) (s : State) : State :=
  fwdChannel a w flat t 2 (fwdChannel a w flat t 1 (fwdChannel a w flat t 0 s))

/-- Row `y` of channel `ch` of block `t`, written into the image at `a` (46_pipeline R303). -/
def State.writeRow (s : State) (a w t ch : Nat) (v : Vector F64 64) (y : Fin 8) : State :=
  (List.finRange 8).foldl
    (fun s x => s.memWrite (pixAddr a w (8 * (t / (w / 8)) + y.val) (8 * (t % (w / 8)) + x.val) ch) 8
      (v[cellIx y x]).toNat) s

/-- The 64 samples of channel `ch` of block `t`, written into the image at `a` (46_pipeline R303). -/
def State.writeSamples (s : State) (a w t ch : Nat) (v : Vector F64 64) : State :=
  (List.finRange 8).foldl (fun s y => s.writeRow a w t ch v y) s

/-- One channel of an inverse task: its slice decoded into the image (46_pipeline R303). -/
def invChannel (flat a w t ch : Nat) (s : State) : State :=
  s.writeSamples a w t ch (decBlock (s.read64 (flat + flatOff t ch)) s.phaseQtab)

/-- Inverse block task `t`: all three channels (46_pipeline R300, R303). -/
def invTask (flat a w t : Nat) (s : State) : State :=
  invChannel flat a w t 2 (invChannel flat a w t 1 (invChannel flat a w t 0 s))

/-! ### PIPE_FWD and PIPE_INV -/

/-- W of the running command. -/
abbrev State.imgW (s : State) : Nat := s.op.width.toNat

/-- H of the running command. -/
abbrev State.imgH (s : State) : Nat := s.op.height.toNat

/-- The source image region: the first Hc rows at full width (46_pipeline R291, R302). -/
def imageRegion (s : State) : Region := s.srcRegion (24 * s.imgW * crop s.imgH) 8

/-- The regions of PIPE_FWD (46_pipeline R302). -/
def pipeFwdRegions (s : State) : List Region := [imageRegion s, s.dstRegion (flatSize s.imgW s.imgH) 1]

/-- The checks of PIPE_FWD, in order (46_pipeline R302). -/
def pipeFwdCheck (s : State) : Option Err :=
  firstError [s.qtabCheck .pipe, s.regionCheck .pipe (pipeFwdRegions s)]

/-- PIPE_FWD: run the forward block pipeline over an image (46_pipeline R302). -/
def execPipeFwd (s : State) : Host.Outcome State Fault Refusal :=
  s.checked (pipeFwdCheck s)
    (fun s => .next (((s.blockPhase (blockCount s.imgW s.imgH)
      (fwdTask s.op.src.toNat s.imgW s.op.dst.toNat)).setOutlen (flatSize s.imgW s.imgH)).setCropped
        (crop s.imgW) (crop s.imgH)).complete)

/-- The regions of PIPE_INV (46_pipeline R303). -/
def pipeInvRegions (s : State) : List Region :=
  [s.srcRegion (flatSize s.imgW s.imgH) 1, s.dstRegion (24 * s.imgW * s.imgH) 8]

/-- The checks of PIPE_INV, in order (46_pipeline R303). -/
def pipeInvCheck (s : State) : Option Err :=
  firstError
    [ failIf (s.imgW % 8 ≠ 0) { code := .param, stage := .pipe, info := 1 },
      failIf (s.imgH % 8 ≠ 0) { code := .param, stage := .pipe, info := 2 },
      s.qtabCheck .pipe,
      s.regionCheck .pipe (pipeInvRegions s) ]

/-- PIPE_INV: run the inverse block pipeline into an image (46_pipeline R303). -/
def execPipeInv (s : State) : Host.Outcome State Fault Refusal :=
  s.checked (pipeInvCheck s)
    (fun s => .next (((s.blockPhase (blockCount s.imgW s.imgH)
      (invTask s.op.src.toNat s.op.dst.toNat s.imgW)).setOutlen (24 * s.imgW * s.imgH)).setCropped
        s.imgW s.imgH).complete)

/-! ### COMPRESS -/

/-- The regions of COMPRESS, in the order of its rule: 1, 3, 4, 2 (46_pipeline R305). -/
def compressRegions (s : State) : List Region :=
  [ imageRegion s, s.tmp0Region (flatSize s.imgW s.imgH), s.tmp1Region s.op.tcap.toNat,
    s.dstRegion s.op.cap.toNat 1 ]

/-- The checks of COMPRESS, in order, all at stage SEQ (46_pipeline R305). -/
def compressCheck (s : State) : Option Err :=
  firstError
    [ qualityCheck .seq s.op.quality,
      s.bpClosedCheck .seq,
      s.regionCheck .seq (compressRegions s),
      failIf (blockCount s.imgW s.imgH = 0) { code := .empty, stage := .seq, info := 0 } ]

/-- The phase QTAB of COMPRESS and the entry into the phase PIPE (46_pipeline R305). -/
def compressEnter (s : State) : State :=
  ((s.enterPhase .qtab).setWorkQtab (qtabFn s.op.quality.toNat)).enterPhase .pipe

/-- The phase CNT_PACK of COMPRESS and its commit, from the state after the packer's session (46_pipeline
R305). -/
def compressPack (s : State) : State :=
  let plen := s.bp.bytes.toNat
  let size := containerSize s.phaseTab plen
  let s1 := s.enterPhase .cntPack
  if s.op.cap.toNat < size then s1.packerError (compressRegions s) packOverflow
  else
    ((((s1.serialize s.op.dst.toNat (u32 (crop s.imgW)) (u32 (crop s.imgH)) s.op.quality s.phaseTab s.bp.total
      (s.readBytes s.op.tmp1.toNat plen)).setBitcnt s.bp.total).setOutlen size).setCropped
        (crop s.imgW) (crop s.imgH)).complete

/-- The phases of COMPRESS after its block phase: HUF_FREQ, HUF_BUILD, HUF_EMIT, CNT_PACK (46_pipeline
R305). -/
def compressEncode (s : State) : State :=
  let flat := s.readBytes s.op.tmp0.toNat (flatSize s.imgW s.imgH)
  match (s.hufFreqPhase flat).hufBuildPhase (freqFn flat) with
  | .error e => s.packerError (compressRegions s) e
  | .ok s1 =>
    match s1.emitPhase s1.phaseTab flat s.op.tmp1 s.op.tcap .tmp1 with
    | (s2, some x) => s2.packerError (compressRegions s) (x.err .tmp1)
    | (s2, none) => compressPack s2

/-- COMPRESS: compress an image into a container (46_pipeline R304, R305). -/
def execCompress (s : State) : Host.Outcome State Fault Refusal :=
  s.checked (compressCheck s)
    (fun s => .next (compressEncode ((compressEnter s).blockPhase (blockCount s.imgW s.imgH)
      (fwdTask s.op.src.toNat s.imgW s.op.tmp0.toNat))))

/-! ### DECOMPRESS -/

/-- The regions of DECOMPRESS once its container is parsed: 3 and 2 (46_pipeline R306 step 5). -/
def decompressOutRegions (s : State) (p : Parsed) : List Region :=
  [ s.tmp0Region (flatSize p.width.toNat p.height.toNat),
    s.dstRegion (24 * p.width.toNat * p.height.toNat) 8 ]

/-- The region checks of step 5: ranges and alignment of 3 and 2, then the pairs (1, 3), (1, 2), (3, 2)
(46_pipeline R306). -/
def decompressOutCheck (s : State) (p : Parsed) : Option Err :=
  firstError
    [ (decompressOutRegions s p).findSome? (Region.check s.params.lmemSize .seq),
      overlapChecks .seq (streamRegion s :: decompressOutRegions s p) ]

/-- The checks of steps 3 and 4 on a parsed container: quality, then geometry (46_pipeline R306). -/
def decompressHeaderCheck (p : Parsed) : Option Err :=
  firstError
    [ qualityCheck .qtab p.quality,
      failIf (p.width.toInt < 0 ∨ p.width.toInt % 8 ≠ 0) (malformedErr 11),
      failIf (p.height.toInt < 0 ∨ p.height.toInt % 8 ≠ 0) (malformedErr 12) ]

/-- Steps 1 to 4 of DECOMPRESS: the stream region, PARSE, quality and geometry (46_pipeline R306). -/
def decompressHeader (s : State) : Except Err Parsed :=
  match s.regionCheck .seq [streamRegion s] with
  | some e => .error e
  | none =>
    match s.parse s.op.src.toNat s.op.len.toNat with
    | .error k => .error (malformedErr k)
    | .ok p =>
      match decompressHeaderCheck p with
      | some e => .error e
      | none => .ok p

/-- Steps 1 to 5 of DECOMPRESS: an error that leaves LMEM unchanged, or the parsed container (46_pipeline
R306). -/
def decompressParse (s : State) : Except Err Parsed :=
  match decompressHeader s with
  | .error e => .error e
  | .ok p =>
    match decompressOutCheck s p with
    | some e => .error e
    | none => .ok p

/-- Step 6: the payload decoded into the flat buffer at TMP0, with the working tables in SEQ; the error is
E_CORRUPT's bit index (46_pipeline R306). -/
def decompressDecode (s : State) (p : Parsed) : Except Nat State :=
  match s.decodePayload p.tab p.paddr p.nbits.toNat (flatSize p.width.toNat p.height.toNat) with
  | .error i => .error i
  | .ok flat =>
    .ok ((((s.setWorkTab p.tab).setWorkQtab (qtabFn p.quality.toNat)).writeBytes
      s.op.tmp0.toNat flat).enterPhase .pipe)

/-- Step 7's task: from TMP0 into the image at DST (46_pipeline R306). -/
def decompressTask (s : State) (p : Parsed) : Nat → State → State :=
  invTask s.op.tmp0.toNat s.op.dst.toNat p.width.toNat

/-- Step 8: the loaded registers, the results and the commit (46_pipeline R306). -/
def decompressCommit (s : State) (p : Parsed) : State :=
  ((((s.loadHeader p).setOutlen (24 * p.width.toNat * p.height.toNat)).setCropped
    p.width.toNat p.height.toNat).setPaddr p.paddr).complete

/-- DECOMPRESS: decompress a container into an image (46_pipeline R304, R306). -/
def execDecompress (s : State) : Host.Outcome State Fault Refusal :=
  match decompressParse s with
  | .error e => .next (s.dataError [] e)
  | .ok p =>
    match decompressDecode s p with
    | .error i => .next (s.dataError (decompressOutRegions s p) (corruptErr i))
    | .ok s1 =>
      .next (decompressCommit
        (s1.blockPhase (blockCount p.width.toNat p.height.toNat) (decompressTask s p)) p)

/-! ### Work done before the turn that ends the command (46_pipeline R300, log 5) -/

/-- The state after block task `t` of the running command, if a worker runs it now; `none` where the command's
checks or its earlier phases fail, where it has no block phase (46_pipeline R300), or no block `t`. -/
def earlyTask (s : State) (t : Nat) : Option State :=
  match s.seq.instr with
  | .pipeFwd =>
    if pipeFwdCheck s = none ∧ t < blockCount s.imgW s.imgH then
      some (s.runTask t (fwdTask s.op.src.toNat s.imgW s.op.dst.toNat t))
    else none
  | .pipeInv =>
    if pipeInvCheck s = none ∧ t < blockCount s.imgW s.imgH then
      some (s.runTask t (invTask s.op.src.toNat s.op.dst.toNat s.imgW t))
    else none
  | .compress =>
    if compressCheck s = none ∧ t < blockCount s.imgW s.imgH then
      some ((compressEnter s).runTask t (fwdTask s.op.src.toNat s.imgW s.op.tmp0.toNat t))
    else none
  | .decompress =>
    match decompressParse s with
    | .error _ => none
    | .ok p =>
      if t < blockCount p.width.toNat p.height.toNat then
        match decompressDecode s p with
        | .error _ => none
        | .ok s1 => some (s1.runTask t (decompressTask s p t))
      else none
  | .nop | .qtabBuild | .fdct | .idct | .quant | .dequant | .zzscan | .zzunscan | .hufFreq | .hufBuild | .hufEmit
  | .hufEncode | .hufDecode | .bpInit | .bpAdd _ | .bpFinish | .blkEnc | .blkDec | .cntPack | .cntUnpack => none

/-- Worker `w` runs block task `t` now, if a command is running, `w` is one of its op.WORKERS workers, and
the task can run; else, and while RST is asserted, nothing happens (46_pipeline R300, 60_exceptions R356, 70_reset
R370). -/
def workerTurn (w t : Nat) (s : State) : State :=
  if s.busy = true ∧ s.rst = false ∧ w < s.seq.op.workers.toNat then (earlyTask s t).getD s else s

/-- The state after the one block of a running QUANT or BLK_ENC, if the sequencer does it now (42_quant R216,
46_pipeline R294); `none` where the checks fail, and for every other command. -/
def earlyBlock (s : State) : Option State :=
  match s.seq.instr with
  | .quant => if quantCheck s = none then some (s.runTask 0 quantBody) else none
  | .blkEnc => if quantCheck s = none then some (s.runTask 0 blkEncBody) else none
  | .nop | .qtabBuild | .fdct | .idct | .dequant | .zzscan | .zzunscan | .hufFreq | .hufBuild | .hufEmit
  | .hufEncode | .hufDecode | .bpInit | .bpAdd _ | .bpFinish | .blkDec | .pipeFwd | .pipeInv | .compress
  | .decompress | .cntPack | .cntUnpack => none

/-- The sequencer does the one block of a running QUANT or BLK_ENC now; with any other command, an idle engine, or
RST asserted, nothing happens. -/
def blockTurn (s : State) : State :=
  if s.busy = true ∧ s.rst = false then (earlyBlock s).getD s else s

end Sys2Proof.Machine
end

