-- ==== Sys2Proof/Machine/Host.lean ====
section
/-! DEFINITION. The host's accesses: the register aperture, the LMEM aperture, what they do while a command
runs, and the platform's RST and power (10_state, 40_control, 70_reset). -/

namespace Sys2Proof.Machine

/-! ### Reading a register (10_state R34) -/

/-- TAB[b].W1: VALID in [31], LEN in [5:0] (10_state R70). -/
def tabW1 (e : CodeEntry) : Word := BitVec.ofBool e.valid ++ 0#25 ++ e.len

/-- TAB[b].W1 as a write: [30:6] are ignored (10_state R70, R71). -/
def CodeEntry.withW1 (e : CodeEntry) (w : Word) : CodeEntry :=
  { e with len := w.extractLsb' 0 6, valid := w.getLsbD 31 }

/-- BPSTATE: NACC in [2:0], ACC in [15:8] (10_state R75). -/
def bpstateWord (b : BitPacker) : Word := 0#16 ++ b.acc ++ 0#5 ++ b.nacc

/-- PARAM (10_state R36). -/
def paramWord (p : Config.Params) : Word := 0x01082000#32 ||| u32 p.nworkers

/-- The table windows at an offset: QTAB, TAB, FREQ; any other offset is reserved and reads 0 (10_state R33,
R34). -/
def readWindow (s : State) (o : Nat) : Word :=
  if 0x100 ≤ o ∧ o < 0x200 then (s.qtab[(o - 0x100) / 4]?).getD 0
  else if 0x400 ≤ o ∧ o < 0xC00 then
    let e := (s.tab[(o - 0x400) / 8]?).getD CodeEntry.none
    if o % 8 = 0 then e.code else tabW1 e
  else if 0xC00 ≤ o ∧ o < 0x1000 then (s.freq[(o - 0xC00) / 4]?).getD 0
  else 0

/-- The register at a 4-aligned offset as the host reads it (10_state R34, 40_control R171). While a command runs,
ERRSTAT and ERRINFO read their values from before it (70_reset R380); that their own fields are cleared meanwhile
(60_exceptions R344) is then seen by no read: DEDUCED, log 18. -/
def readReg (s : State) (o : Nat) : Word :=
  match o with
  | 0x000 => 0x44435431#32
  | 0x004 => paramWord s.params
  | 0x008 => u32 s.params.lmemSize
  | 0x00C => ctrlWord s
  | 0x010 => statusWord s
  | 0x014 => 0
  | 0x018 => if s.busy then s.seq.held.errstat else errstatWord s
  | 0x01C => if s.busy then s.seq.held.errinfo else s.errInfo
  | 0x020 => s.opr.quality
  | 0x024 => s.opr.width
  | 0x028 => s.opr.height
  | 0x02C => s.opr.src
  | 0x030 => s.opr.dst
  | 0x034 => s.opr.tmp0
  | 0x038 => s.opr.tmp1
  | 0x03C => s.opr.len
  | 0x040 => s.opr.cap
  | 0x044 => s.opr.tcap
  | 0x048 => s.opr.bitcnt.extractLsb' 0 32
  | 0x04C => s.opr.bitcnt.extractLsb' 32 32
  | 0x050 => s.opr.bpdata
  | 0x054 => s.outlen
  | 0x058 => u32 (nsym s)
  | 0x05C => s.cwidth
  | 0x060 => s.cheight
  | 0x064 => s.paddr
  | 0x068 => bpstateWord s.bp
  | 0x06C => s.bp.bytes
  | 0x070 => s.bp.total.extractLsb' 0 32
  | 0x074 => s.bp.total.extractLsb' 32 32
  | 0x078 => s.bp.base
  | 0x07C => s.bp.cap
  | _ => readWindow s o

/-! ### Writing a register (40_control R171) -/

/-- A write to the table windows: TAB and FREQ while idle at once, while BUSY dropped with DROP; QTAB, the
read-only registers and the reserved offsets ignore it (40_control R171, R173). -/
def writeWindow (s : State) (o : Nat) (v : Word) : State :=
  if 0x400 ≤ o ∧ o < 0x1000 then
    if s.busy then { s with drop := true }
    else if o < 0xC00 then
      let b := (o - 0x400) / 8
      let e := (s.tab[b]?).getD CodeEntry.none
      { s with tab := s.tab.setIfInBounds b (if o % 8 = 0 then { e with code := v } else e.withW1 v) }
    else { s with freq := s.freq.setIfInBounds ((o - 0xC00) / 4) v }
  else s

/-- A host write of v to the register at a 4-aligned offset (40_control R171). -/
def writeReg (s : State) (o : Nat) (v : Word) : State :=
  match o with
  | 0x00C => s.writeCtrl v
  | 0x010 => s.ackStatus v
  | 0x014 => s.issue v
  | 0x020 => { s with opr := { s.opr with quality := v } }
  | 0x024 => { s with opr := { s.opr with width := v } }
  | 0x028 => { s with opr := { s.opr with height := v } }
  | 0x02C => { s with opr := { s.opr with src := v } }
  | 0x030 => { s with opr := { s.opr with dst := v } }
  | 0x034 => { s with opr := { s.opr with tmp0 := v } }
  | 0x038 => { s with opr := { s.opr with tmp1 := v } }
  | 0x03C => { s with opr := { s.opr with len := v } }
  | 0x040 => { s with opr := { s.opr with cap := v } }
  | 0x044 => { s with opr := { s.opr with tcap := v } }
  | 0x048 => { s with opr := { s.opr with bitcnt := s.opr.bitcnt.extractLsb' 32 32 ++ v } }
  | 0x04C => { s with opr := { s.opr with bitcnt := v ++ s.opr.bitcnt.extractLsb' 0 32 } }
  | 0x050 => { s with opr := { s.opr with bpdata := v } }
  | _ => writeWindow s o v

/-! ### What a running command makes of the host's accesses (20_memory R122, 70_reset R380) -/

/-- The regions of the running command (20_memory R122). A DECOMPRESS has its output regions once its header
is legal; BP_ADD and BP_FINISH have the bytes they may write (log 7). -/
def commandRegions (s : State) : List Region :=
  match s.seq.instr with
  | .fdct | .idct => transformRegions s
  | .quant | .blkEnc => quantRegions s
  | .dequant | .blkDec => dequantRegions s
  | .zzscan | .zzunscan => zigzagRegions s
  | .hufFreq => [inputRegion s]
  | .hufEmit | .hufEncode => emitRegions s
  | .hufDecode => hufDecodeRegions s
  | .bpInit => bpInitRegions s
  | .bpAdd n => [sessionRegion s (if n ≤ 32 then (s.bp.nacc.toNat + n) / 8 else 0)]
  | .bpFinish => [sessionRegion s (if s.bp.nacc = 0 then 0 else 1)]
  | .pipeFwd => pipeFwdRegions s
  | .pipeInv => pipeInvRegions s
  | .compress => compressRegions s
  | .decompress =>
    match decompressHeader s with
    | .error _ => [streamRegion s]
    | .ok p => streamRegion s :: decompressOutRegions s p
  | .cntPack => packRegions s
  | .cntUnpack => [streamRegion s]
  | .nop | .qtabBuild | .hufBuild => []

/-- An address is in some region of the running command. -/
def inCommandRegion (s : State) (a : Nat) : Bool := s.busy && (commandRegions s).any (fun r => r.has a)

/-- An address is in a region the running command writes. -/
def inWrittenRegion (s : State) (a : Nat) : Bool :=
  s.busy && (commandRegions s).any (fun r => r.written && r.has a)

/-- A command that uses the packer is running (70_reset R380, last row but one). -/
def packerRunning (s : State) : Bool :=
  s.busy &&
    (match s.seq.instr with
      | .bpInit | .bpAdd _ | .bpFinish | .hufEmit | .hufEncode | .compress => true
      | .nop | .qtabBuild | .fdct | .idct | .quant | .dequant | .zzscan | .zzunscan | .hufFreq | .hufBuild
      | .hufDecode | .blkEnc | .blkDec | .pipeFwd | .pipeInv | .decompress | .cntPack | .cntUnpack => false)

/-- The offsets of BPSTATE, BPBYTES, BPTOTAL_LO, BPTOTAL_HI, BPBASE and BPCAP. -/
def packerView (o : Nat) : Bool := decide (0x068 ≤ o ∧ o ≤ 0x07C)

/-- What a register read returns, and how many free values it takes: while a packer command runs, the packer
views and STATUS.BPOPEN are free values (93 V3). -/
def readRegNow (s : State) (o : Nat) : Word × Nat :=
  if packerRunning s = true ∧ packerView o = true then ((Config.freeValue s.draws).setWidth 32, 1)
  else if packerRunning s = true ∧ o = 0x010 then
    (statusWordWith s ((Config.freeValue s.draws).getLsbD 0), 1)
  else (readReg s o, 0)

/-- The bytes an LMEM read returns: in a region the running command writes, one free value per byte per read
(93 V2). In a region the command only reads, and in BP_INIT's, which it does not write, the stored bytes: the
spec states no value there, and this is the MODEL's choice (log 17). -/
def readMemNow (s : State) (a n : Nat) : List Byte :=
  (List.range n).map (fun i =>
    if inWrittenRegion s (a + i) then (Config.freeValue (s.draws + i)).setWidth 8 else s.readByte (a + i))

/-! ### The accesses -/

/-- A register access that the bus answers with an error (40_control R172): `width` in bytes. -/
def badRegAccess (off width : Nat) : Bool := decide (width ≠ 4 ∨ off % 4 ≠ 0 ∨ 0x1000 ≤ off)

/-- An LMEM access that the bus answers with an error (40_control R175, 20_memory R105). -/
def badMemAccess (s : State) (a n : Nat) : Bool :=
  decide (n ∉ [1, 2, 4, 8] ∨ a % n ≠ 0 ∨ s.params.lmemSize < a + n)

/-- A bus error: the access changes no state of DCTCORE (40_control R172, 60_exceptions R359). -/
def State.answerError (s : State) : State := { s with reply := .busError }

/-- A host register read (40_control R171, R172). -/
def hostRegRead (off width : Nat) (s : State) : Host.Outcome State Fault Refusal :=
  if s.rst then .fault .accessDuringReset
  else if badRegAccess off width then .next s.answerError
  else
    .next { s with
      reply := .value ((readRegNow s off).1.setWidth 64)
      draws := s.draws + (readRegNow s off).2 }

/-- A host register write (40_control R171, R172). -/
def hostRegWrite (off width : Nat) (v : Word) (s : State) : Host.Outcome State Fault Refusal :=
  if s.rst then .fault .accessDuringReset
  else if badRegAccess off width then .next s.answerError
  else .next { writeReg s off v with reply := .written }

/-- A host LMEM read (40_control R175, 20_memory R122). -/
def hostMemRead (a n : Nat) (s : State) : Host.Outcome State Fault Refusal :=
  if s.rst then .fault .accessDuringReset
  else if badMemAccess s a n then .next s.answerError
  else
    .next { s with
      reply := .value (BitVec.ofNat 64 (leNat (readMemNow s a n)))
      draws := s.draws + (if (List.range n).any (fun i => inWrittenRegion s (a + i)) then n else 0) }

/-- A host LMEM write (40_control R175); inside a region of the running command it voids the run (93 V1). -/
def hostMemWrite (a n : Nat) (v : DWord) (s : State) : Host.Outcome State Fault Refusal :=
  if s.rst then .fault .accessDuringReset
  else if badMemAccess s a n then .next s.answerError
  else if (List.range n).any (fun i => inCommandRegion s (a + i)) then .fault .hostWriteInRegion
  else .next { s.memWrite a n v.toNat with reply := .written }

/-! ### Reset and power (70_reset R370, R371) -/

/-- Every piece of state at its reset value; LMEM, and the MODEL's own fields, stay (70_reset R371). -/
def State.resetAll (s : State) (asserted : Bool) : State :=
  { State.resetWith s.params with
    rst := asserted
    lmem := s.lmem
    epoch := s.epoch
    draws := s.draws
    inbox := s.inbox
    reply := s.reply }

/-- RST is asserted: a running command is abandoned and every byte of its write regions is unspecified (93
V7, 70_reset R370). -/
def assertRst (s : State) : State :=
  (if s.busy then s.scrambleRegions (commandRegions s) else s).resetAll true

/-- RST is released: every piece of state takes its reset value once more (70_reset R370). -/
def releaseRst (s : State) : State := if s.rst then s.resetAll false else s

/-- Power comes back: the reset state, and every byte of LMEM drawn anew (70_reset R371, 60_exceptions R358,
log 2). -/
def powerUp (s : State) : State :=
  { State.resetWith s.params with
    epoch := s.epoch + 1
    draws := s.draws
    inbox := s.inbox
    reply := s.reply }

end Sys2Proof.Machine
end

