-- ==== Sys2Proof/Machine/Dispatch.lean ====
section
/-! DEFINITION. The dispatcher: one arm per command, each one call of the command's meaning. -/

namespace Sys2Proof.Machine

/-- The meaning of a command, run to its end: the state is one in which SEQ runs it (10_state R32), the next
state is the one after its completion or its error (60_exceptions R345). -/
def exec (i : Instr) (s : State) : Host.Outcome State Fault Refusal :=
  match i with
  | .nop => Sys2Proof.Machine.execNop s
  | .qtabBuild => Sys2Proof.Machine.execQtabBuild s
  | .fdct => Sys2Proof.Machine.execFdct s
  | .idct => Sys2Proof.Machine.execIdct s
  | .quant => Sys2Proof.Machine.execQuant s
  | .dequant => Sys2Proof.Machine.execDequant s
  | .zzscan => Sys2Proof.Machine.execZzscan s
  | .zzunscan => Sys2Proof.Machine.execZzunscan s
  | .hufFreq => Sys2Proof.Machine.execHufFreq s
  | .hufBuild => Sys2Proof.Machine.execHufBuild s
  | .hufEmit => Sys2Proof.Machine.execHufEmit s
  | .hufEncode => Sys2Proof.Machine.execHufEncode s
  | .hufDecode => Sys2Proof.Machine.execHufDecode s
  | .bpInit => Sys2Proof.Machine.execBpInit s
  | .bpAdd n => Sys2Proof.Machine.execBpAdd n s
  | .bpFinish => Sys2Proof.Machine.execBpFinish s
  | .blkEnc => Sys2Proof.Machine.execBlkEnc s
  | .blkDec => Sys2Proof.Machine.execBlkDec s
  | .pipeFwd => Sys2Proof.Machine.execPipeFwd s
  | .pipeInv => Sys2Proof.Machine.execPipeInv s
  | .compress => Sys2Proof.Machine.execCompress s
  | .decompress => Sys2Proof.Machine.execDecompress s
  | .cntPack => Sys2Proof.Machine.execCntPack s
  | .cntUnpack => Sys2Proof.Machine.execCntUnpack s

end Sys2Proof.Machine
end

