-- ==== Sys2Proof/Machine/Step.lean ====
section
/-! DEFINITION. One step of the machine: the next event of the inbox, or the engine's turn (log 4, log 5). -/

namespace Sys2Proof.Machine

/-- The sequencer's turn: a running command runs to its end; an idle engine, or one held in RST, waits
(10_state R32, 70_reset R370). -/
def engineTurn (s : State) : Host.Outcome State Fault Refusal :=
  if s.busy = true ∧ s.rst = false then exec s.seq.instr s else .next s

/-- The `run` of 30_encoding R149: the CMD write, then the engine's turn while the host waits. -/
def hostRun (w : Word) (s : State) : Host.Outcome State Fault Refusal :=
  if s.rst then .fault .accessDuringReset else engineTurn { s.issue w with reply := .written }

/-- What an event does. -/
def handleEvent (e : Event) (s : State) : Host.Outcome State Fault Refusal :=
  match e with
  | .engine => engineTurn s
  | .run w => hostRun w s
  | .worker w t => .next (workerTurn w t s)
  | .block => .next (blockTurn s)
  | .regRead off width => hostRegRead off width s
  | .regWrite off width v => hostRegWrite off width v s
  | .memRead a n => hostMemRead a n s
  | .memWrite a n v => hostMemWrite a n v s
  | .rst asserted => .next (if asserted then assertRst s else releaseRst s)
  | .powerOn => .next (powerUp s)

/-- One step. With no event to come the engine has its turn. -/
def step (s : State) : Host.Outcome State Fault Refusal :=
  match s.inbox with
  | [] => engineTurn s
  | e :: rest => handleEvent e { s with inbox := rest }

/-- The state in which the very next step runs the given command word: the host's `run` of it is the next
event, the engine is idle and RST is released (log 4). -/
def State.withFetchWord (s : State) (nbits w : Nat) : State :=
  { s with
    rst := false
    seq := Seq.idle
    inbox := .run (BitVec.ofNat 32 (w % 2 ^ nbits)) :: s.inbox }

end Sys2Proof.Machine
end

