-- ==== Sys2Proof/Safety.lean ====
section
/-! DEFINITION. The terms statements use: regions in order, what LMEM holds, streams of bits, the prechecks by
command, and the invariants of the machine. -/

namespace Sys2Proof.Machine

/-! ### Regions (20_memory R110, R111; 00_scope R16) -/

/-- A region passes its two checks: it is empty, or it lies in LMEM and is aligned (20_memory R110). -/
abbrev Region.Fits (lmemSize : Nat) (r : Region) : Prop :=
  r.size = 0 ∨ (r.base + r.size ≤ lmemSize ∧ r.base % r.align = 0)

/-- Two regions share no byte (20_memory R111, 00_scope R16). -/
abbrev Region.Apart (r q : Region) : Prop :=
  r.size = 0 ∨ q.size = 0 ∨ r.base + r.size ≤ q.base ∨ q.base + q.size ≤ r.base

/-- Every region of a command passes its checks and no two of them overlap. -/
abbrev State.RegionsOk (s : State) (rs : List Region) : Prop :=
  (∀ r ∈ rs, r.Fits s.params.lmemSize) ∧ rs.Pairwise Region.Apart

/-! ### What LMEM holds -/

/-- Every byte outside [a, a + n) reads in `t` as in `s`. -/
abbrev State.KeepsOutside (s t : State) (a n : Nat) : Prop :=
  ∀ x, x < a ∨ a + n ≤ x → t.readByte x = s.readByte x

/-- Every byte of memory reads in `t` as in `s`. -/
abbrev State.KeepsMemory (s t : State) : Prop := ∀ x, t.readByte x = s.readByte x

/-- The bytes `bs` stand at `a`, one after the other. -/
abbrev State.HoldsAt (t : State) (a : Nat) (bs : List Byte) : Prop :=
  ∀ (i : Nat) (h : i < bs.length), t.readByte (a + i) = bs[i]

/-- The 64 binary64 values `v` stand at `a`, natural index i at `a + 8·i`. -/
abbrev State.HoldsBlock (t : State) (a : Nat) (v : Vector F64 64) : Prop :=
  ∀ i : Fin 64, t.memReadF64 (a + 8 * i.val) = v[i]

/-- `ceil8(n)`: how many bytes hold n bits (00_scope R12). -/
abbrev ceil8 (n : Nat) : Nat := (n + 7) / 8

/-- The bits stand at `a`, MSB first (20_memory R103), and the pad bits of the last byte are 0. -/
abbrev State.HoldsBits (t : State) (a : Nat) (bits : List Bool) : Prop :=
  ∀ i, i < 8 * ceil8 bits.length → t.payloadBit a i = bits.getD i false

/-! ### Streams of bits -/

/-- The payload of a byte sequence under a code table: the codes one after the other, each MSB first
(44_huffman R250). -/
def codeBits (t : Vector CodeEntry 256) (bs : List Byte) : List Bool :=
  bs.flatMap (fun b => lowBits (atByte t b).code (atByte t b).len.toNat)

/-- The pending bits of the packer, oldest first (10_state R74). -/
def BitPacker.pending (b : BitPacker) : List Bool :=
  (List.range b.nacc.toNat).reverse.map (fun j => b.acc.getLsbD j)

/-- The flat buffer a forward pipeline makes of the image at `a`: block-major, then channel (46_pipeline R292,
R302). -/
def flatImage (s : State) (a w h : Nat) (qt : Vector Word 64) : List Byte :=
  (List.range (blockCount w h)).flatMap (fun t =>
    (List.range 3).flatMap (fun ch => (encBlock (s.readSamples a w t ch) qt).1))

/-- Whether some quotient of a forward pipeline over the image at `a` is non-finite (42_quant R215). -/
def imageQnf (s : State) (a w h : Nat) (qt : Vector Word 64) : Bool :=
  (List.range (blockCount w h)).any (fun t =>
    (List.range 3).any (fun ch => (encBlock (s.readSamples a w t ch) qt).2))

/-- The slice of block `t` and channel `ch` of a flat buffer (46_pipeline R292). -/
def flatSlice (flat : List Byte) (t ch : Nat) : Vector Byte 64 :=
  Vector.ofFn (fun i => flat.getD (flatOff t ch + i.val) 0)

/-- In the image at `a`, channel `ch` of block `b` holds the 64 samples `block b ch`, row by row (46_pipeline
R290, R291, R303). -/
abbrev State.HoldsImage (t : State) (a w h : Nat) (block : Nat → Nat → Vector F64 64) : Prop :=
  ∀ b ch : Nat, b < blockCount w h → ch < 3 → ∀ i : Fin 64,
    t.memReadF64 (a + 8 * (3 * ((8 * (b / (w / 8)) + i.val / 8) * w + (8 * (b % (w / 8)) + i.val % 8)) + ch)) =
      (block b ch)[i]

/-! ### The loops of the transforms (41_dct R193, R194) -/

/-- The cell in row `r` and column `c` of a block. -/
abbrev cellOf (m : Vector F64 64) (r c : Fin 8) : F64 := m[8 * r.val + c.val]

/-- `acc <- +0.0`, then the eight terms in ascending order, each sum rounded on its own. -/
def accumulate8 (f : Fin 8 → F64) : F64 :=
  fadd (fadd (fadd (fadd (fadd (fadd (fadd (fadd 0 (f 0)) (f 1)) (f 2)) (f 3)) (f 4)) (f 5)) (f 6)) (f 7)

/-! ### A malformed container (47_container R320, R324) -/

/-- The entry count a container at `a` declares. -/
abbrev State.entryCount (s : State) (a : Nat) : Int := (s.field32 (a + 12)).toInt

/-- `bits` of table entry `j`. -/
abbrev State.entryBits (s : State) (a j : Nat) : Word := s.field32 (a + 16 + 9 * j)

/-- `bitsCount` of table entry `j`. -/
abbrev State.entryLen (s : State) (a j : Nat) : Int := (s.field32 (a + 16 + 9 * j + 4)).toInt

/-- `mappedByte` of table entry `j`. -/
abbrev State.entryByte (s : State) (a j : Nat) : Byte := s.readByte (a + 16 + 9 * j + 8)

/-- The bit count in the trailer. -/
abbrev State.trailerBits (s : State) (a : Nat) : Int := (s.field64 (a + 16 + 9 * (s.entryCount a).toNat)).toInt

/-- The payload length in the trailer. -/
abbrev State.trailerLen (s : State) (a : Nat) : Int := (s.field32 (a + 24 + 9 * (s.entryCount a).toNat)).toInt

/-- Entry `j` passes M4, M5 and M6. -/
abbrev State.EntryLegal (s : State) (a j : Nat) : Prop :=
  0 ≤ s.entryLen a j ∧ s.entryLen a j ≤ 32 ∧
    ∀ i < j, s.entryByte a i ≠ s.entryByte a j ∧
      ¬(s.entryBits a i = s.entryBits a j ∧ s.entryLen a i = s.entryLen a j)

/-- The `n` bytes at `a` pass M1 to M3. -/
abbrev State.HeaderLegal (s : State) (a n : Nat) : Prop :=
  16 ≤ n ∧ 0 ≤ s.entryCount a ∧ s.entryCount a ≤ 256 ∧ 28 + 9 * s.entryCount a ≤ n

/-- The `n` bytes at `a` pass M1 to M6. -/
abbrev State.TableLegal (s : State) (a n : Nat) : Prop :=
  s.HeaderLegal a n ∧ ∀ j < (s.entryCount a).toNat, s.EntryLegal a j

/-- Entry `j` is the first that fails a check, and the header passes. -/
abbrev State.FailsAtEntry (s : State) (a n j : Nat) : Prop :=
  s.HeaderLegal a n ∧ j < (s.entryCount a).toNat ∧ ∀ i < j, s.EntryLegal a i

/-- Check M<k> is the first that the `n` bytes at `a` fail, as a container (R324); M11 and M12 are no checks of a
container alone (46_pipeline R306). -/
def State.Malformed (s : State) (a n k : Nat) : Prop :=
  match k with
  | 1 => n < 16
  | 2 => 16 ≤ n ∧ (s.entryCount a < 0 ∨ 256 < s.entryCount a)
  | 3 => 16 ≤ n ∧ 0 ≤ s.entryCount a ∧ s.entryCount a ≤ 256 ∧ n < 28 + 9 * s.entryCount a
  | 4 => ∃ j, s.FailsAtEntry a n j ∧ (s.entryLen a j < 0 ∨ 32 < s.entryLen a j)
  | 5 =>
    ∃ j, s.FailsAtEntry a n j ∧ 0 ≤ s.entryLen a j ∧ s.entryLen a j ≤ 32 ∧
      ∃ i < j, s.entryByte a i = s.entryByte a j
  | 6 =>
    ∃ j, s.FailsAtEntry a n j ∧ 0 ≤ s.entryLen a j ∧ s.entryLen a j ≤ 32 ∧
      (∀ i < j, s.entryByte a i ≠ s.entryByte a j) ∧
      ∃ i < j, s.entryBits a i = s.entryBits a j ∧ s.entryLen a i = s.entryLen a j
  | 7 => s.TableLegal a n ∧ s.trailerBits a < 0
  | 8 => s.TableLegal a n ∧ 0 ≤ s.trailerBits a ∧ s.trailerLen a < 0
  | 9 => s.TableLegal a n ∧ 0 ≤ s.trailerLen a ∧ 8 * s.trailerLen a < s.trailerBits a
  | 10 =>
    s.TableLegal a n ∧ 0 ≤ s.trailerBits a ∧ s.trailerBits a ≤ 8 * s.trailerLen a ∧
      n < 28 + 9 * s.entryCount a + s.trailerLen a
  | _ => False

/-! ### Commands that use the packer (70_reset R380) -/

/-- The command runs a packer session or changes one. -/
def usesPacker (i : Instr) : Bool :=
  match i with
  | .bpInit | .bpAdd _ | .bpFinish | .hufEmit | .hufEncode | .compress => true
  | .nop | .qtabBuild | .fdct | .idct | .quant | .dequant | .zzscan | .zzunscan | .hufFreq | .hufBuild | .hufDecode
  | .blkEnc | .blkDec | .pipeFwd | .pipeInv | .decompress | .cntPack | .cntUnpack => false

/-! ### The checks of each command, by command (60_exceptions R346) -/

/-- What a command checks before it changes any state. HUF_BUILD's errors are data errors, and so are CNT_UNPACK's
E_MALFORMED and DECOMPRESS's E_MALFORMED and E_QUALITY (60_exceptions R347); DECOMPRESS's stand here too, since a
DECOMPRESS checks its container before it writes anything (46_pipeline R306, log 16). -/
def precheck (i : Instr) (s : State) : Option Err :=
  match i with
  | .nop | .hufBuild => none
  | .qtabBuild => qualityCheck .qtab s.op.quality
  | .fdct | .idct => s.regionCheck .transform [s.srcRegion 512 8, s.dstRegion 512 8]
  | .quant | .blkEnc =>
    firstError [s.qtabCheck .transform, s.regionCheck .transform [s.srcRegion 512 8, s.dstRegion 64 1]]
  | .dequant | .blkDec =>
    firstError [s.qtabCheck .transform, s.regionCheck .transform [s.srcRegion 64 1, s.dstRegion 512 8]]
  | .zzscan | .zzunscan => s.regionCheck .transform [s.srcRegion 64 1, s.dstRegion 64 1]
  | .hufFreq => hufFreqCheck s
  | .hufEmit => hufEmitCheck s
  | .hufEncode => hufEncodeCheck s
  | .hufDecode => s.regionCheck .hufDecode (hufDecodeRegions s)
  | .bpInit => s.regionCheck .bitpack (bpInitRegions s)
  | .bpAdd n => bpAddCheck n s
  | .bpFinish => s.bpOpenCheck .bitpack
  | .pipeFwd => pipeFwdCheck s
  | .pipeInv => pipeInvCheck s
  | .compress => compressCheck s
  | .decompress =>
    match decompressParse s with
    | .error e => some e
    | .ok _ => none
  | .cntPack => cntPackCheck s
  | .cntUnpack => s.regionCheck .cntUnpack [streamRegion s]

/-- The state after an error with the record given, and nothing else changed (60_exceptions R346). -/
def State.afterError (s : State) (code : ErrCode) (stage : Stage) (info : Word) : State :=
  { s with errCode := code, errStage := stage, errInfo := info, err := true, seq := Seq.idle }

/-- `t` is `s` after a data error of a command that uses the packer: the record is written, BP is closed, and
nothing else has changed but LMEM, BP's other fields and the draws (60_exceptions R347, 10_state R76, log 3). -/
abbrev State.AfterPackerError (s t : State) (code : ErrCode) (stage : Stage) (info : Word) : Prop :=
  t.bp.isOpen = false ∧
    t = { s.afterError code stage info with lmem := t.lmem, bp := t.bp, draws := t.draws }

/-! ### Invariants -/

/-- LMEM is in its canonical form and lists no byte past its end (20_memory R100). -/
abbrev State.MemoryInv (s : State) : Prop := s.lmem.wf ∧ ∀ c ∈ s.lmem, c.1 < s.params.lmemSize

/-- An open packer session has a region that BP_INIT checked, has written no byte past its capacity, and holds
no bit above its pending ones (45_bitpack R273, 10_state R74). -/
abbrev State.SessionInv (s : State) : Prop :=
  s.bp.isOpen = true →
    s.bp.bytes.toNat ≤ s.bp.cap.toNat ∧
      (s.bp.cap = 0 ∨ s.bp.base.toNat + s.bp.cap.toNat ≤ s.params.lmemSize) ∧
      s.bp.acc.toNat < 2 ^ s.bp.nacc.toNat

/-- What STATUS and the error record say together (10_state R32, R41, R45, R46; 60_exceptions R344, R345). -/
abbrev State.StatusInv (s : State) : Prop :=
  (s.seq.state = .running → s.done = false ∧ s.err = false ∧ s.errCode = .noError) ∧
    (s.seq.state = .idle → s.seq = Seq.idle) ∧
    (s.done = true → s.err = false ∧ s.errCode = .noError) ∧
    (s.err = true → s.errCode ≠ .noError) ∧
    (s.errCode = .noError → s.errStage = .noStage ∧ s.errInfo = 0)

/-- A table that QTABFN builds for a legal quality (42_quant R212). -/
abbrev IsQtab (t : Vector Word 64) : Prop := ∃ q, 1 ≤ q ∧ q ≤ 99 ∧ t = qtabFn q

/-- QTAB is all zero until a command builds one, and from then on always a built table (10_state R66). -/
abbrev State.QtabInv (s : State) : Prop :=
  (s.qtabv = false → s.qtab = Vector.replicate 64 0) ∧ (s.qtabv = true → IsQtab s.qtab) ∧
    (∀ t, s.seq.work.qtab = some t → IsQtab t)

/-- CTRL.WORKERS stays legal (10_state R38), and while RST is asserted everything has its reset value
(70_reset R370). -/
abbrev State.ControlInv (s : State) : Prop :=
  s.params.Legal ∧ 1 ≤ s.workers.toNat ∧ s.workers.toNat ≤ s.params.nworkers ∧
    (s.rst = true → s = s.resetAll true)

end Sys2Proof.Machine
end

