-- ==== Sys2Proof/Certificates/Slice0/Obligations.lean ====
section
/-! DEFINITION. The statements for the provers, each with the rules of spec/ it rests on. -/

section
open Sys2Proof Sys2Proof.Machine

/-! ### Encoding -/

/-- 30_encoding R141, R142, R143, R145: decoding the word of any well-formed command gives it back, with BP_ADD's
n at every value its field admits. -/
def Obligations.EncodeThenDecode : Prop := ∀ i : Instr, i.WellFormed → decode (encode i) = .ok i

/-- 30_encoding R141, R142, R145: no bit of a legal word is dropped, since the command it decodes to encodes to
that word and no other. -/
def Obligations.DecodeThenEncode : Prop := ∀ (w : Word) (i : Instr), decode w = .ok i → i.WellFormed ∧ encode i = w

/-- 30_encoding R144, R146: exactly these words are rejected, by their number: an unassigned opcode in the low
byte, a bit at or above 14 with opcode 0x31, a bit at or above 8 with any other assigned opcode. -/
def Obligations.IllegalWordsRejected : Prop :=
  ∀ w : Word, (∃ e, decode w = .error e) ↔
    (w.toNat % 256 ∉
        [0x00, 0x01, 0x10, 0x11, 0x12, 0x13, 0x14, 0x15, 0x20, 0x21, 0x22, 0x23, 0x24, 0x30, 0x31, 0x32, 0x40,
          0x41, 0x42, 0x43, 0x44, 0x45, 0x50, 0x51]) ∨
      (w.toNat % 256 = 0x31 ∧ 2 ^ 14 ≤ w.toNat) ∨ (w.toNat % 256 ≠ 0x31 ∧ 2 ^ 8 ≤ w.toNat)

/-- 30_encoding R150 and the bit layouts of R141 and R142: words written out from the spec, one or more of each
family, and the words R150 says fail. -/
def Obligations.WrittenOutWordsDecode : Prop :=
  decode 0x00000000#32 = .ok .nop ∧ decode 0x00000001#32 = .ok .qtabBuild ∧
    decode 0x00000010#32 = .ok .fdct ∧ decode 0x00000014#32 = .ok .zzscan ∧
    decode 0x00000023#32 = .ok .hufEncode ∧ decode 0x00000331#32 = .ok (.bpAdd 3) ∧
    decode 0x00002031#32 = .ok (.bpAdd 32) ∧ decode 0x00003F31#32 = .ok (.bpAdd 63) ∧
    decode 0x00000044#32 = .ok .compress ∧ decode 0x00000051#32 = .ok .cntUnpack ∧
    decode 0x00004031#32 = .error (.reservedBits 0x31) ∧ decode 0x00000110#32 = .error (.reservedBits 0x10) ∧
    decode 0x00000002#32 = .error (.unassignedOpcode 0x02)

/-! ### A step, and the issue of a command -/

/-- 30_encoding R149, 10_state R32 (the order of events is the model's form, log 4 and log 5): `run` issues the
command its word decodes to and runs it on the accepted state; an engine turn, or a step with no event to come,
runs the running command; an idle engine waits; a host access is done as it comes. -/
def Obligations.StepRunsTheCommand : Prop :=
  ∀ (s : State) (rest : List Event),
    (∀ w i, s.rst = false → s.seq.state = .idle → s.inbox = .run w :: rest → decode w = .ok i →
      step s =
        exec i { (({ s with inbox := rest } : State).beginIssue w).accept i s.heldRecord with reply := .written }) ∧
    (s.rst = false → s.seq.state = .running →
      (s.inbox = [] → step s = exec s.seq.instr s) ∧
        (s.inbox = .engine :: rest → step s = exec s.seq.instr { s with inbox := rest })) ∧
    (s.seq.state = .idle → s.inbox = [] → step s = .next s) ∧
    (∀ o n, s.inbox = .regRead o n :: rest → step s = hostRegRead o n { s with inbox := rest }) ∧
    (∀ o n v, s.inbox = .regWrite o n v :: rest → step s = hostRegWrite o n v { s with inbox := rest }) ∧
    (∀ a n, s.inbox = .memRead a n :: rest → step s = hostMemRead a n { s with inbox := rest }) ∧
    (∀ a n v, s.inbox = .memWrite a n v :: rest → step s = hostMemWrite a n v { s with inbox := rest })

/-- 60_exceptions R344 and 10_state R44, R60: a write of w to CMD. While BUSY it is dropped and sets DROP. While
idle an illegal word is rejected with E_ILLEGAL(w), and a legal one is accepted with the operand snapshot. The error
record `h` that SEQ holds for the host's reads while BUSY is no part of R344; ReadOnlyRegisters says what it reads as. -/
def Obligations.CmdWriteIssues : Prop :=
  ∀ (s : State) (w : Word), s.rst = false →
    (s.seq.state = .running →
      hostRegWrite 0x014 4 w s = .next { s with drop := true, reply := .written }) ∧
    (∀ e, s.seq.state = .idle → decode w = .error e →
      hostRegWrite 0x014 4 w s =
        .next { s with
          done := false, err := true, errCode := .illegal, errStage := .decode, lastOp := w.setWidth 8
          errInfo := w, reply := .written }) ∧
    (∀ i, s.seq.state = .idle → decode w = .ok i →
      ∃ h : HeldRecord, hostRegWrite 0x014 4 w s =
        .next { s with
          done := false, err := false, errCode := .noError, errStage := .noStage, lastOp := w.setWidth 8
          errInfo := 0
          seq :=
            { state := .running, instr := i, op := { regs := s.opr, workers := s.workers }
              phase := homeStage i, work := Work.none, worklist := [], tasksDone := [], held := h }
          reply := .written }) ∧
    readReg s 0x014 = 0

/-- 10_state R60, R61, 40_control R174: a command reads its operands from the snapshot only. Whatever the host has put
into the operand registers and CTRL since the issue, the command ends the same in everything else, and each operand
register then holds the command's result where the command succeeds and writes one there, else what the host put. -/
def Obligations.CommandsReadOnlyTheSnapshot : Prop :=
  ∀ (i : Instr) (s t : State) (r : OperandRegs) (k : Byte) (d e : Bool), exec i s = .next t →
    ∃ u : State, exec i { s with opr := r, workers := k, ieDone := d, ieErr := e } = .next u ∧
      u = { t with opr := u.opr, workers := k, ieDone := d, ieErr := e } ∧
      (s.done = false → u.opr =
        if t.done then
          { r with
            bitcnt :=
              if i ∈ [Instr.hufEmit, Instr.hufEncode, Instr.bpFinish, Instr.compress, Instr.decompress,
                Instr.cntUnpack] then t.opr.bitcnt else r.bitcnt
            width := if i ∈ [Instr.decompress, Instr.cntUnpack] then t.opr.width else r.width
            height := if i ∈ [Instr.decompress, Instr.cntUnpack] then t.opr.height else r.height
            quality := if i ∈ [Instr.decompress, Instr.cntUnpack] then t.opr.quality else r.quality }
        else r)

/-- 60_exceptions R345, R391: every command ends, in exactly one of two ways, and leaves SEQ idle. -/
def Obligations.CommandEndsExactlyOnce : Prop :=
  ∀ (i : Instr) (s : State), ∃ t : State, exec i s = .next t ∧ t.seq = Seq.idle ∧
    ((t.done = true ∧ t.err = s.err ∧ t.errCode = s.errCode ∧ t.errStage = s.errStage ∧ t.errInfo = s.errInfo) ∨
      (t.err = true ∧ t.done = s.done ∧ t.errCode ≠ .noError))

/-- 10_state R61, R62, R76; 60_exceptions R345, R347, R349: a command that ends with an error changes nothing but
ERR, the error record, SEQ, LMEM (and the model's draw counter), QNF, which it can only set, and BP, which it
closes if it changes it. -/
def Obligations.FailedCommandKeepsRegistersAndTables : Prop :=
  ∀ (i : Instr) (s t : State), s.err = false → exec i s = .next t → t.err = true →
    t = { s with
      err := true, errCode := t.errCode, errStage := t.errStage, errInfo := t.errInfo, qnf := t.qnf, bp := t.bp
      lmem := t.lmem, draws := t.draws, seq := Seq.idle } ∧
    (s.qnf = true → t.qnf = true) ∧ (t.bp = s.bp ∨ t.bp.isOpen = false)

/-- 60_exceptions R346: a precheck error, of any command, changes nothing but BUSY (with SEQ), ERR, ERRSTAT and
ERRINFO. The checks counted here for DECOMPRESS include its E_MALFORMED and E_QUALITY, which R347 lists as data errors:
that they leave LMEM and all else unchanged rests on 46_pipeline R306 ("every error before step 6 leaves LMEM
unchanged"), followed over R347 by log 16. -/
def Obligations.PrecheckErrorChangesOnlyTheRecord : Prop :=
  ∀ (i : Instr) (s : State) (e : Err), precheck i s = some e →
    exec i s = .next (s.afterError e.code e.stage (BitVec.ofNat 32 e.info))

/-- 10_state R37, R41, R45: no command writes CTRL, DROP, LASTOP or the open parameters, and only QUANT, BLK_ENC,
PIPE_FWD and COMPRESS set QNF; none clears it. -/
def Obligations.CommandKeepsHostOwnedState : Prop :=
  ∀ (i : Instr) (s t : State), exec i s = .next t →
    t.params = s.params ∧ t.rst = s.rst ∧ t.ieDone = s.ieDone ∧ t.ieErr = s.ieErr ∧ t.workers = s.workers ∧
      t.drop = s.drop ∧ t.lastOp = s.lastOp ∧ t.epoch = s.epoch ∧ t.inbox = s.inbox ∧ t.reply = s.reply ∧
      (s.qnf = true → t.qnf = true) ∧
      (i ∉ [Instr.quant, Instr.blkEnc, Instr.pipeFwd, Instr.compress] → t.qnf = s.qnf)

/-- 70_reset R394, 60_exceptions R347: whatever way it ends, the running command leaves every byte outside the
regions it writes as it was. Which regions these are is the model's choice for BP_ADD and BP_FINISH (the bytes of the
session they may complete, log 7) and for a DECOMPRESS whose header is not legal: it has none (log 9), since 46_pipeline
R306 has every error before step 6 leave LMEM unchanged, where R347 calls its write regions unspecified after E_MALFORMED
and E_QUALITY; R306 is followed over R347 (DEDUCED, log 16). -/
def Obligations.CommandWritesOnlyItsRegions : Prop :=
  ∀ (s t : State) (x : Nat), s.seq.state = .running → exec s.seq.instr s = .next t →
    inWrittenRegion s x = false → t.readByte x = s.readByte x

/-! ### Region checks -/

/-- 20_memory R110: regions are checked in list order, range before alignment, in exact arithmetic; an empty
region passes both. -/
def Obligations.RegionsCheckedInOrder : Prop :=
  ∀ (n : Nat) (g : Stage) (before after : List Region) (r : Region), (∀ q ∈ before, q.Fits n) →
    (0 < r.size → n < r.base + r.size →
      regionChecks n g (before ++ r :: after) = some { code := .range, stage := g, info := r.id.num }) ∧
    (0 < r.size → r.base + r.size ≤ n → r.base % r.align ≠ 0 →
      regionChecks n g (before ++ r :: after) = some { code := .align, stage := g, info := r.id.num }) ∧
    (∀ rs : List Region, (∀ q ∈ rs, q.Fits n) → regionChecks n g rs = overlapChecks g rs) ∧
    RegionId.src.num = 1 ∧ RegionId.dst.num = 2 ∧ RegionId.tmp0.num = 3 ∧ RegionId.tmp1.num = 4

/-- 20_memory R111: after every region has passed, the first overlapping pair in pair order raises E_OVERLAP with
16·id1 + id2; with no two regions overlapping, the checks pass. -/
def Obligations.OverlapsCheckedInOrder : Prop :=
  ∀ (n : Nat) (g : Stage) (rs : List Region), (∀ q ∈ rs, q.Fits n) →
    (∀ (before after : List (Region × Region)) (r q : Region), pairsOf rs = before ++ (r, q) :: after →
      (∀ p ∈ before, p.1.Apart p.2) → 0 < r.size → 0 < q.size → r.base < q.base + q.size →
      q.base < r.base + r.size →
      regionChecks n g rs = some { code := .overlap, stage := g, info := 16 * r.id.num + q.id.num }) ∧
    (rs.Pairwise Region.Apart → regionChecks n g rs = none)

/-! ### Reset and the host's registers -/

/-- 70_reset R371, 10_state R34 to R36: what every register reads after reset, and the state behind them, for
every legal choice of the open parameters. -/
def Obligations.ResetValues : Prop :=
  ∀ p : Config.Params, p.Legal →
    readReg (State.resetWith p) 0x000 = 0x44435431#32 ∧
    (readReg (State.resetWith p) 0x004).toNat = 0x01082000 + p.nworkers ∧
    (readReg (State.resetWith p) 0x008).toNat = p.lmemSize ∧
    readReg (State.resetWith p) 0x00C = 0x00000100#32 ∧
    (∀ o, o ≠ 0x000 → o ≠ 0x004 → o ≠ 0x008 → o ≠ 0x00C → readReg (State.resetWith p) o = 0) ∧
    (State.resetWith p).seq.state = .idle ∧ (State.resetWith p).irq = false ∧
    (State.resetWith p).bp.isOpen = false ∧ (State.resetWith p).bp.rid = 0

/-- 70_reset R370, R371: asserting RST resets everything but LMEM, of which it leaves every byte outside the write
regions of an abandoned command; its release resets once more and leaves LMEM; power-on resets too. The model's
own fields (log 2, log 3, log 4) stay, but for the power-on epoch. Which bytes are the write regions of an abandoned
command is the model's choice for BP_ADD and BP_FINISH (the bytes of the session they may complete, log 7), for a
DECOMPRESS whose header is not legal (none, log 9), and for a command whose checks would have failed (as if they
passed, log 10). -/
def Obligations.RstAbandonsAndResets : Prop :=
  ∀ (s : State) (rest : List Event),
    (s.inbox = .rst true :: rest → ∃ t : State, step s = .next t ∧
      t = { State.resetWith s.params with
        rst := true, lmem := t.lmem, epoch := s.epoch, draws := t.draws, inbox := rest, reply := s.reply } ∧
      ∀ x, inWrittenRegion s x = false → t.readByte x = s.readByte x) ∧
    (s.inbox = .rst false :: rest → s.rst = true →
      step s = .next { State.resetWith s.params with
        lmem := s.lmem, epoch := s.epoch, draws := s.draws, inbox := rest, reply := s.reply }) ∧
    (s.inbox = .powerOn :: rest →
      step s = .next { State.resetWith s.params with
        lmem := [], epoch := s.epoch + 1, draws := s.draws, inbox := rest, reply := s.reply })

/-- 10_state R37, R38: a write of w to CTRL sets the enables and the clamped WORKERS, even while BUSY, and a read
returns them with every other bit 0. -/
def Obligations.CtrlWriteClampsWorkers : Prop :=
  ∀ (s : State) (w : Word), s.rst = false → s.params.Legal →
    ∃ t : State, hostRegWrite 0x00C 4 w s = .next t ∧
      t = { s with ieDone := w.getLsbD 0, ieErr := w.getLsbD 1, workers := t.workers, reply := .written } ∧
      t.workers.toNat = max 1 (min (w.toNat / 256 % 256) s.params.nworkers) ∧
      (readReg t 0x00C).toNat = 256 * t.workers.toNat + w.toNat % 4

/-- 10_state R40, 40_control R171, R174: a write of w to STATUS clears, of DONE, ERR, QNF and DROP, exactly the
bits written as 1, even while BUSY, and changes nothing else. -/
def Obligations.StatusWriteOneClears : Prop :=
  ∀ (s : State) (w : Word), s.rst = false →
    ∃ t : State, hostRegWrite 0x010 4 w s = .next t ∧
      t = { s with done := t.done, err := t.err, qnf := t.qnf, drop := t.drop, reply := .written } ∧
      readReg t 0x010 = readReg s 0x010 &&& ~~~(w &&& 0x0000001E#32)

/-- 60_exceptions R350: IRQ is (DONE and IE_DONE) or (ERR and IE_ERR), as STATUS and CTRL read; it rises with the
completion or the error whose enable is 1, falls with the acknowledge of both bits, and falls with the acceptance
of the next command. -/
def Obligations.IrqFollowsStatusAndEnables : Prop :=
  ∀ s : State,
    s.irq = (((readReg s 0x010).getLsbD 1 && (readReg s 0x00C).getLsbD 0) ||
      ((readReg s 0x010).getLsbD 2 && (readReg s 0x00C).getLsbD 1)) ∧
    (s.ieDone = true → s.complete.irq = true) ∧ (∀ e, s.ieErr = true → (s.raise e).irq = true) ∧
    (s.ackStatus 0x00000006#32).irq = false ∧
    (∀ w i, s.seq.state = .idle → decode w = .ok i → (s.issue w).irq = false) ∧
    (∀ w e, s.seq.state = .idle → decode w = .error e → (s.issue w).irq = s.ieErr)

/-- 40_control R171, 10_state R50 to R56: a write to an operand register stores the value, whatever BUSY is; every
other register reads as before and nothing else changes. -/
def Obligations.OperandRegisterWrites : Prop :=
  ∀ (s : State) (v : Word) (o : Nat), s.rst = false →
    o ∈ [0x020, 0x024, 0x028, 0x02C, 0x030, 0x034, 0x038, 0x03C, 0x040, 0x044, 0x048, 0x04C, 0x050] →
    ∃ t : State, hostRegWrite o 4 v s = .next t ∧ t = { s with opr := t.opr, reply := .written } ∧
      readReg t o = v ∧ ∀ q, q ≠ o → readReg t q = readReg s q

/-- 10_state R33, R35, R58, R75; 40_control R171; 70_reset R380: a read answers with the register and changes nothing,
BUSY or not, but for the packer views and STATUS.BPOPEN while a packer command runs, which are free values (log 3; of
STATUS every other bit is the register's). Every register but STATUS reads after an acceptance, and after any turn that
a worker or the sequencer takes before the command ends, what it read before the command, and while it runs a host's
write to one register changes no other; so OUTLEN, CWIDTH, CHEIGHT, PADDR, NSYM, ERRSTAT and ERRINFO read their values
from before it (that R380 decides this for ERRSTAT and ERRINFO, although R344 clears their fields, is log 18). A write to
a read-only register, a reserved offset or the QTAB window is ignored; ID, NSYM and the packer views read as the state
has them. -/
def Obligations.ReadOnlyRegisters : Prop :=
  ∀ (s : State) (v : Word),
    (∀ o, s.rst = false → o % 4 = 0 → o < 0x1000 →
      (s.seq.state = .idle ∨ usesPacker s.seq.instr = false ∨ (o ≠ 0x010 ∧ (o < 0x068 ∨ 0x07C < o))) →
      hostRegRead o 4 s = .next { s with reply := .value ((readReg s o).setWidth 64) }) ∧
    (∀ o, s.rst = false → o % 4 = 0 → (o = 0x010 ∨ (0x068 ≤ o ∧ o ≤ 0x07C)) →
      ∃ (x : Word) (d : Nat),
        hostRegRead o 4 s = .next { s with reply := .value (x.setWidth 64), draws := d } ∧
          (o = 0x010 → x &&& ~~~0x00000020#32 = readReg s o &&& ~~~0x00000020#32)) ∧
    (∀ o, o ≠ 0x010 → o < 0x400 →
      (∀ w i, s.seq.state = .idle → decode w = .ok i →
        (s.issue w).seq.state = .running ∧ readReg (s.issue w) o = readReg s o) ∧
      (∀ w t, readReg (workerTurn w t s) o = readReg s o) ∧ readReg (blockTurn s) o = readReg s o ∧
      (∀ q, s.seq.state = .running → q ≠ o → readReg (writeReg s q v) o = readReg s o)) ∧
    (∀ o, s.rst = false → o % 4 = 0 →
      (o ∈ [0x000, 0x004, 0x008, 0x018, 0x01C] ∨ (0x054 ≤ o ∧ o < 0x400)) →
      hostRegWrite o 4 v s = .next { s with reply := .written }) ∧
    readReg s 0x000 = 0x44435431#32 ∧
    (readReg s 0x058).toNat = ((List.finRange 256).filter (fun b => s.tab[b].valid)).length ∧
    (readReg s 0x068).toNat = s.bp.nacc.toNat + 256 * s.bp.acc.toNat ∧ readReg s 0x06C = s.bp.bytes ∧
    (readReg s 0x074).toNat * 2 ^ 32 + (readReg s 0x070).toNat = s.bp.total.toNat ∧
    readReg s 0x078 = s.bp.base ∧ readReg s 0x07C = s.bp.cap

/-- 40_control R173, 10_state R70 to R72: a write to the TAB or FREQ window is dropped with DROP while BUSY, and a
read returns the committed value, which is the one from before the running command: neither its acceptance nor a turn
that a worker or the sequencer takes before it ends changes it. While idle a write changes the committed entry at once
and no other register of the windows. -/
def Obligations.TableWindowWrites : Prop :=
  ∀ (s : State) (v : Word), s.rst = false →
    (∀ b : Fin 256, readReg s (0x400 + 8 * b.val) = s.tab[b].code ∧
      (readReg s (0x404 + 8 * b.val)).toNat = (if s.tab[b].valid then 2 ^ 31 else 0) + s.tab[b].len.toNat ∧
      readReg s (0xC00 + 4 * b.val) = s.freq[b]) ∧
    (∀ o, s.seq.state = .running → o % 4 = 0 → 0x400 ≤ o → o < 0x1000 →
      hostRegWrite o 4 v s = .next { s with drop := true, reply := .written } ∧
        hostRegRead o 4 s = .next { s with reply := .value ((readReg s o).setWidth 64) }) ∧
    (∀ o, 0x400 ≤ o → o < 0x1000 →
      (∀ w i, s.seq.state = .idle → decode w = .ok i →
        (s.issue w).seq.state = .running ∧ readReg (s.issue w) o = readReg s o) ∧
      (∀ w t, readReg (workerTurn w t s) o = readReg s o) ∧ readReg (blockTurn s) o = readReg s o) ∧
    (∀ b : Nat, s.seq.state = .idle → b < 256 →
      (∃ t : State, hostRegWrite (0x400 + 8 * b) 4 v s = .next t ∧ t = { s with tab := t.tab, reply := .written } ∧
        readReg t (0x400 + 8 * b) = v ∧
        ∀ q, 0x100 ≤ q → q % 4 = 0 → q ≠ 0x400 + 8 * b → readReg t q = readReg s q) ∧
      (∃ t : State, hostRegWrite (0x404 + 8 * b) 4 v s = .next t ∧ t = { s with tab := t.tab, reply := .written } ∧
        readReg t (0x404 + 8 * b) = v &&& 0x8000003F#32 ∧
        ∀ q, 0x100 ≤ q → q % 4 = 0 → q ≠ 0x404 + 8 * b → readReg t q = readReg s q) ∧
      (∃ t : State, hostRegWrite (0xC00 + 4 * b) 4 v s = .next t ∧ t = { s with freq := t.freq, reply := .written } ∧
        readReg t (0xC00 + 4 * b) = v ∧
        ∀ q, 0x100 ≤ q → q % 4 = 0 → q ≠ 0xC00 + 4 * b → readReg t q = readReg s q))

/-- 40_control R172, R175, 60_exceptions R359: an access of a wrong width, a misaligned one or one outside its
aperture is answered with a bus error and changes no state. And the model's two stops (93 V1 and V8, log 13): a host
access while RST is asserted, and an LMEM write into a region of the running command. -/
def Obligations.BusErrorsAndForbiddenAccesses : Prop :=
  ∀ s : State,
    (∀ o n v, s.rst = false → (n ≠ 4 ∨ o % 4 ≠ 0 ∨ 0x1000 ≤ o) →
      hostRegRead o n s = .next { s with reply := .busError } ∧
        hostRegWrite o n v s = .next { s with reply := .busError }) ∧
    (∀ a n v, s.rst = false → (n ∉ [1, 2, 4, 8] ∨ a % n ≠ 0 ∨ s.params.lmemSize < a + n) →
      hostMemRead a n s = .next { s with reply := .busError } ∧
        hostMemWrite a n v s = .next { s with reply := .busError }) ∧
    (∀ o n v u, s.rst = true →
      hostRegRead o n s = .fault .accessDuringReset ∧ hostRegWrite o n v s = .fault .accessDuringReset ∧
        hostMemRead o n s = .fault .accessDuringReset ∧ hostMemWrite o n u s = .fault .accessDuringReset) ∧
    (∀ a n v i, s.rst = false → n ∈ [1, 2, 4, 8] → a % n = 0 → a + n ≤ s.params.lmemSize → i < n →
      inCommandRegion s (a + i) = true → hostMemWrite a n v s = .fault .hostWriteInRegion)

/-- 40_control R175, 20_memory R102, R104, R120, R122: a host LMEM write that meets no region of a running command
stores its bytes little-endian and no other, and a read then returns what was written. A read, BUSY or not, returns the
stored bytes little-endian where the running command writes none of them (in a region it only reads that is the
model's choice, log 17), and answers in any case. -/
def Obligations.HostLmemWriteThenRead : Prop :=
  ∀ (s : State) (a n : Nat) (v : DWord), s.rst = false → n ∈ [1, 2, 4, 8] → a % n = 0 →
    a + n ≤ s.params.lmemSize →
    ((∀ i, i < n → inCommandRegion s (a + i) = false) →
      ∃ t : State, hostMemWrite a n v s = .next t ∧ t = { s with lmem := t.lmem, reply := .written } ∧
        s.KeepsOutside t a n ∧
        (∀ i, i < n → (t.readByte (a + i)).toNat = v.toNat / 2 ^ (8 * i) % 256) ∧
        ((∀ i, i < n → inWrittenRegion t (a + i) = false) →
          hostMemRead a n t = .next { t with reply := .value (BitVec.ofNat 64 (v.toNat % 2 ^ (8 * n))) })) ∧
    ((∀ i, i < n → inWrittenRegion s (a + i) = false) →
      ∃ x : DWord, hostMemRead a n s = .next { s with reply := .value x } ∧ x.toNat < 2 ^ (8 * n) ∧
        ∀ i, i < n → x.toNat / 2 ^ (8 * i) % 256 = (s.readByte (a + i)).toNat) ∧
    ∃ (x : DWord) (d : Nat), hostMemRead a n s = .next { s with reply := .value x, draws := d }

/-! ### The commands of one block -/

/-- 40_control R170: NOP only completes. -/
def Obligations.NopCompletes : Prop :=
  ∀ s : State, s.seq.work = Work.none → exec .nop s = .next { s with done := true, seq := Seq.idle }

/-- 42_quant R211, R212, R213: QTAB_BUILD with a legal quality commits the table, cell by cell the rule's integer
arithmetic, and sets QTABV; with any other it raises E_QUALITY with the quality. -/
def Obligations.QtabBuildResult : Prop :=
  ∀ s : State,
    (s.seq.work = Work.none → 1 ≤ s.op.quality.toInt → s.op.quality.toInt ≤ 99 →
      ∃ t : State, exec .qtabBuild s = .next t ∧
        t = { s with qtab := t.qtab, qtabv := true, done := true, seq := Seq.idle } ∧
        ∀ i : Fin 64, ((t.qtab[i]).toNat : Int) =
          ((if s.op.quality.toInt < 50 then 5000 / s.op.quality.toInt else 200 - 2 * s.op.quality.toInt) *
            (baseRom i : Int) + 50) / 100) ∧
    (s.op.quality.toInt < 1 ∨ 99 < s.op.quality.toInt →
      exec .qtabBuild s = .next (s.afterError .quality .qtab s.op.quality))

/-- 41_dct R193 to R196: FDCT and IDCT write the transform of the block at SRC to DST and set OUTLEN; no other byte
and no other register changes. The transforms are the loops of R193 and R194: rows first, each accumulation from +0.0
in ascending order with every product and sum rounded on its own, the scale last in the forward transform and first in
the inverse one. -/
def Obligations.TransformsComplete : Prop :=
  (∀ s : State, s.seq.work = Work.none → s.RegionsOk [s.srcRegion 512 8, s.dstRegion 512 8] →
    (∃ t : State, exec .fdct s = .next t ∧
      t = { s with lmem := t.lmem, outlen := 512, done := true, seq := Seq.idle } ∧
      t.HoldsBlock s.op.dst.toNat (fdct8 (s.readBlock s.op.src.toNat)) ∧
      s.KeepsOutside t s.op.dst.toNat 512) ∧
    (∃ t : State, exec .idct s = .next t ∧
      t = { s with lmem := t.lmem, outlen := 512, done := true, seq := Seq.idle } ∧
      t.HoldsBlock s.op.dst.toNat (idct8 (s.readBlock s.op.src.toNat)) ∧
      s.KeepsOutside t s.op.dst.toNat 512)) ∧
  (∀ (m : Vector F64 64) (v u : Fin 8),
    cellOf (fdct8 m) v u =
      fmul
        (accumulate8 (fun y =>
          fmul (accumulate8 (fun x => fmul (cellOf m y x) (cosRom u x))) (cosRom v y)))
        (scaleRom v u)) ∧
  (∀ (g : Vector F64 64) (y x : Fin 8),
    cellOf (idct8 g) y x =
      accumulate8 (fun v =>
        fmul
          (accumulate8 (fun u => fmul (fmul (cellOf g v u) (scaleRom v u)) (cosRom u x)))
          (cosRom v y)))

/-- 41_dct R190 (NaN): an operation yields no NaN but the canonical one, and always yields it for a NaN operand. -/
def Obligations.FloatNanIsCanonical : Prop :=
  ∀ (a b : F64), ∀ f ∈ [fadd, fsub, fmul, fdiv],
    (f64Class (f a b) = .nan → f a b = 0x7FF8000000000000#64) ∧
      (f64Class a = .nan ∨ f64Class b = .nan → f a b = 0x7FF8000000000000#64)

/-- 42_quant R216, R215: QUANT writes one byte per coefficient and sets QNF exactly where a quotient was
non-finite; no other byte and no other register but OUTLEN changes. -/
def Obligations.QuantCompletes : Prop :=
  ∀ s : State, s.seq.work = Work.none → s.seq.tasksDone = [] → s.qtabv = true →
    s.RegionsOk [s.srcRegion 512 8, s.dstRegion 64 1] →
    ∃ t : State, exec .quant s = .next t ∧
      t = { s with lmem := t.lmem, qnf := t.qnf, outlen := 64, done := true, seq := Seq.idle } ∧
      (∀ i : Fin 64, t.readByte (s.op.dst.toNat + i.val) =
        (qbyte (s.memReadF64 (s.op.src.toNat + 8 * i.val)) s.qtab[i]).1) ∧
      (t.qnf = true ↔
        s.qnf = true ∨ ∃ i : Fin 64, (qbyte (s.memReadF64 (s.op.src.toNat + 8 * i.val)) s.qtab[i]).2 = true) ∧
      s.KeepsOutside t s.op.dst.toNat 64

/-- 42_quant R218: DEQUANT writes one binary64 value per byte; no other byte and no other register but OUTLEN
changes. -/
def Obligations.DequantCompletes : Prop :=
  ∀ s : State, s.seq.work = Work.none → s.qtabv = true → s.RegionsOk [s.srcRegion 64 1, s.dstRegion 512 8] →
    ∃ t : State, exec .dequant s = .next t ∧
      t = { s with lmem := t.lmem, outlen := 512, done := true, seq := Seq.idle } ∧
      (∀ i : Fin 64, t.memReadF64 (s.op.dst.toNat + 8 * i.val) =
        dequantize (s.readByte (s.op.src.toNat + i.val)) s.qtab[i]) ∧
      s.KeepsOutside t s.op.dst.toNat 512

/-- 42_quant R215: a quotient is non-finite exactly for a zero step or a non-finite coefficient, whatever else the
operands are, and the byte is then 0x00. -/
def Obligations.NonFiniteQuotients : Prop :=
  ∀ (c : F64) (t : Word),
    ((qbyte c t).2 = true ↔ t = 0 ∨ ∀ neg m, f64Class c ≠ .fin neg m) ∧ ((qbyte c t).2 = true → (qbyte c t).1 = 0)

/-- 42_quant R217: the dequantizer's product is exact (its magnitude in units of 2^-1074), at most 128·6050 for a
cell QTABFN builds, and a zero product is +0.0. -/
def Obligations.DequantizerIsExact : Prop :=
  ∀ (b : Byte) (t : Word),
    f64Class (dequantize b t) =
      .fin (decide (b.toInt * (t.toNat : Int) < 0)) ((b.toInt * (t.toNat : Int)).natAbs * 2 ^ 1074) ∧
    (∀ q i, 1 ≤ q → q ≤ 99 → t = (qtabFn q)[(i : Fin 64)] → (b.toInt * (t.toNat : Int)).natAbs ≤ 128 * 6050) ∧
    (b.toInt * (t.toNat : Int) = 0 → dequantize b t = 0)

/-- 46_pipeline R294, R295: BLK_ENC and BLK_DEC write the encoded and the decoded block to DST and set OUTLEN;
BLK_ENC sets QNF exactly where a quotient was non-finite; nothing else changes. -/
def Obligations.BlockCommandsComplete : Prop :=
  ∀ s : State, s.seq.work = Work.none → s.seq.tasksDone = [] → s.qtabv = true →
    (s.RegionsOk [s.srcRegion 512 8, s.dstRegion 64 1] →
      ∃ t : State, exec .blkEnc s = .next t ∧
        t = { s with
          lmem := t.lmem, qnf := s.qnf || (encBlock (s.readBlock s.op.src.toNat) s.qtab).2, outlen := 64
          done := true, seq := Seq.idle } ∧
        (encBlock (s.readBlock s.op.src.toNat) s.qtab).1.length = 64 ∧
        t.HoldsAt s.op.dst.toNat (encBlock (s.readBlock s.op.src.toNat) s.qtab).1 ∧
        s.KeepsOutside t s.op.dst.toNat 64) ∧
    (s.RegionsOk [s.srcRegion 64 1, s.dstRegion 512 8] →
      ∃ t : State, exec .blkDec s = .next t ∧
        t = { s with lmem := t.lmem, outlen := 512, done := true, seq := Seq.idle } ∧
        t.HoldsBlock s.op.dst.toNat (decBlock (s.read64 s.op.src.toNat) s.qtab) ∧
        s.KeepsOutside t s.op.dst.toNat 512)

/-- 43_zigzag R232, R233: ZZSCAN writes to DST + k the byte at SRC + ZZ[k], ZZUNSCAN writes to DST + ZZ[k] the byte
at SRC + k; nothing else changes but OUTLEN. -/
def Obligations.ZigzagCommandsComplete : Prop :=
  ∀ s : State, s.seq.work = Work.none → s.RegionsOk [s.srcRegion 64 1, s.dstRegion 64 1] →
    (∃ t : State, exec .zzscan s = .next t ∧
      t = { s with lmem := t.lmem, outlen := 64, done := true, seq := Seq.idle } ∧
      (∀ k : Fin 64, t.readByte (s.op.dst.toNat + k.val) = s.readByte (s.op.src.toNat + (zzRom k).val)) ∧
      s.KeepsOutside t s.op.dst.toNat 64) ∧
    (∃ t : State, exec .zzunscan s = .next t ∧
      t = { s with lmem := t.lmem, outlen := 64, done := true, seq := Seq.idle } ∧
      (∀ k : Fin 64, t.readByte (s.op.dst.toNat + (zzRom k).val) = s.readByte (s.op.src.toNat + k.val)) ∧
      s.KeepsOutside t s.op.dst.toNat 64)

/-- 43_zigzag R234: ZZ is a permutation, so scan and unscan undo each other on entries of any type, and a ZZSCAN
followed by a ZZUNSCAN through a second buffer restores the 64 bytes. -/
def Obligations.ZigzagRoundTrip : Prop :=
  Function.Bijective zzRom ∧
  (∀ (α : Type) (m : Vector α 64), unscan (scan m) = m ∧ scan (unscan m) = m) ∧
  (∀ s t u v : State, s.RegionsOk [s.srcRegion 64 1, s.dstRegion 64 1] → exec .zzscan s = .next t →
    u.lmem = t.lmem → u.epoch = t.epoch → u.op.src = s.op.dst →
    u.RegionsOk [u.srcRegion 64 1, u.dstRegion 64 1] → exec .zzunscan u = .next v →
    ∀ i, i < 64 → v.readByte (u.op.dst.toNat + i) = s.readByte (s.op.src.toNat + i))

/-! ### Errors by their cause -/

/-- 42_quant R216, R218; 44_huffman R250, R253; 45_bitpack R272, R274; 46_pipeline R294, R295, R302, R303, R305: the
E_NOQTAB and E_STATE errors, with their stages and details, and nothing else changed. -/
def Obligations.StateTraps : Prop :=
  ∀ s : State,
    (s.qtabv = false →
      (∀ i ∈ [Instr.quant, Instr.dequant, Instr.blkEnc, Instr.blkDec],
        exec i s = .next (s.afterError .noQtab .transform 0)) ∧
      exec .pipeFwd s = .next (s.afterError .noQtab .pipe 0) ∧
      (s.op.width.toNat % 8 = 0 → s.op.height.toNat % 8 = 0 →
        exec .pipeInv s = .next (s.afterError .noQtab .pipe 0))) ∧
    (s.bp.isOpen = false →
      (∀ n, n ≤ 32 → exec (.bpAdd n) s = .next (s.afterError .state .bitpack 0)) ∧
      exec .bpFinish s = .next (s.afterError .state .bitpack 0)) ∧
    (s.bp.isOpen = true →
      exec .hufEmit s = .next (s.afterError .state .hufEmit 1) ∧
      exec .hufEncode s = .next (s.afterError .state .seq 1) ∧
      (1 ≤ s.op.quality.toInt → s.op.quality.toInt ≤ 99 →
        exec .compress s = .next (s.afterError .state .seq 1)))

/-- 45_bitpack R272; 46_pipeline R303, R305; 47_container R322: the E_PARAM errors and COMPRESS's E_QUALITY, in the
order of the checks, and nothing else changed. -/
def Obligations.OperandTraps : Prop :=
  ∀ s : State,
    (∀ n, 32 < n → exec (.bpAdd n) s = .next (s.afterError .param .bitpack 1)) ∧
    (s.op.width.toNat % 8 ≠ 0 → exec .pipeInv s = .next (s.afterError .param .pipe 1)) ∧
    (s.op.width.toNat % 8 = 0 → s.op.height.toNat % 8 ≠ 0 →
      exec .pipeInv s = .next (s.afterError .param .pipe 2)) ∧
    (s.op.quality.toInt < 1 ∨ 99 < s.op.quality.toInt →
      exec .compress s = .next (s.afterError .quality .seq s.op.quality)) ∧
    (8 * s.op.len.toNat < s.op.bitcnt.toNat → exec .cntPack s = .next (s.afterError .param .cntPack 1)) ∧
    (s.op.bitcnt.toNat ≤ 8 * s.op.len.toNat →
      (0x7FFFFFFF < s.op.len.toNat → exec .cntPack s = .next (s.afterError .param .cntPack 2)) ∧
      (s.op.len.toNat ≤ 0x7FFFFFFF →
        (∀ b : Fin 256, s.tab[b].valid = true → 32 < s.tab[b].len.toNat →
          exec .cntPack s = .next (s.afterError .param .cntPack 3)) ∧
        ((∀ b : Fin 256, s.tab[b].valid = true → s.tab[b].len.toNat ≤ 32) →
          ∀ b d : Fin 256, b ≠ d → s.tab[b].valid = true → s.tab[d].valid = true →
            s.tab[b].code = s.tab[d].code → s.tab[b].len = s.tab[d].len →
            exec .cntPack s = .next (s.afterError .param .cntPack 4))))

/-- 44_huffman R241, R244, R253; 46_pipeline R305, R306; 47_container R324, R325: the E_EMPTY errors, and
E_MALFORMED(1) to (10) of CNT_UNPACK and DECOMPRESS, by the first of the checks M1 to M10 that the stream fails; nothing
else changes (log 16). -/
def Obligations.EmptyAndTruncatedTraps : Prop :=
  ∀ s : State,
    (s.op.len = 0 →
      exec .hufFreq s = .next (s.afterError .empty .hufFreq 0) ∧
      (s.bp.isOpen = false → s.RegionsOk [s.srcRegion s.op.len.toNat 1, s.dstRegion s.op.cap.toNat 1] →
        exec .hufEncode s = .next (s.afterError .empty .hufFreq 0))) ∧
    ((∀ b : Fin 256, s.freq[b] = 0) → exec .hufBuild s = .next (s.afterError .empty .hufBuild 0)) ∧
    (1 ≤ s.op.quality.toInt → s.op.quality.toInt ≤ 99 → s.bp.isOpen = false →
      s.RegionsOk
        [s.srcRegion (24 * s.imgW * (s.imgH - s.imgH % 8)) 8, s.tmp0Region (192 * ((s.imgW / 8) * (s.imgH / 8))),
          s.tmp1Region s.op.tcap.toNat, s.dstRegion s.op.cap.toNat 1] →
      (s.imgW / 8) * (s.imgH / 8) = 0 → exec .compress s = .next (s.afterError .empty .seq 0)) ∧
    (s.op.len.toNat < 16 → s.RegionsOk [s.srcRegion s.op.len.toNat 1] →
      exec .cntUnpack s = .next (s.afterError .malformed .cntUnpack 1) ∧
      exec .decompress s = .next (s.afterError .malformed .cntUnpack 1)) ∧
    (∀ k, s.Malformed s.op.src.toNat s.op.len.toNat k → s.RegionsOk [s.srcRegion s.op.len.toNat 1] →
      exec .cntUnpack s = .next (s.afterError .malformed .cntUnpack (u32 k)) ∧
      exec .decompress s = .next (s.afterError .malformed .cntUnpack (u32 k)))

/-! ### Huffman -/

/-- 44_huffman R240, R241: HUF_FREQ counts the bytes of its region into FREQ, every absent byte value's counter to
0, and changes nothing else. -/
def Obligations.HufFreqCompletes : Prop :=
  ∀ s : State, s.seq.work = Work.none → s.RegionsOk [s.srcRegion s.op.len.toNat 1] → s.op.len ≠ 0 →
    ∃ t : State, exec .hufFreq s = .next t ∧
      t = { s with freq := t.freq, done := true, seq := Seq.idle } ∧
      ∀ b : Fin 256, (t.freq[b]).toNat =
        (List.range s.op.len.toNat).countP (fun i => (s.readByte (s.op.src.toNat + i)).toNat == b.val)

/-- 44_huffman R244, R247, R248: HUF_BUILD commits the table BUILDTAB gives for FREQ and changes nothing else, or
raises the build's error: E_CODELEN with the smallest byte value whose code is longer than 32 bits, if there is one.
For 1 to 33 symbols the build always succeeds, with an entry for each of them. -/
def Obligations.HufBuildCompletes : Prop :=
  ∀ s : State,
    (∀ tab, s.seq.work = Work.none → buildTab s.freq = .ok tab →
      exec .hufBuild s = .next { s with tab := tab, done := true, seq := Seq.idle }) ∧
    (∀ e, buildTab s.freq = .error e →
      exec .hufBuild s = .next (s.afterError e.code .hufBuild (BitVec.ofNat 32 e.info))) ∧
    (∀ root, buildTree (initialWorklist s.freq) = some root →
      (∀ c ∈ assignCodes root 0 0, 32 < c.2.2 → (∀ d ∈ assignCodes root 0 0, 32 < d.2.2 → c.1.toNat ≤ d.1.toNat) →
        buildTab s.freq = .error { code := .codeLen, stage := .hufBuild, info := c.1.toNat }) ∧
      ((∀ c ∈ assignCodes root 0 0, c.2.2 ≤ 32) → ∃ tab, buildTab s.freq = .ok tab)) ∧
    (1 ≤ (List.finRange 256).countP (fun b => s.freq[b] ≠ 0) →
      (List.finRange 256).countP (fun b => s.freq[b] ≠ 0) ≤ 33 →
      ∃ tab, buildTab s.freq = .ok tab ∧ ∀ b : Fin 256, tab[b].valid = true ↔ s.freq[b] ≠ 0)

/-- 44_huffman R246, R249 (2): the codes BUILDTAB gives are prefix-free, fit their lengths, and belong to the byte
values with a nonzero counter. -/
def Obligations.HuffmanCodesArePrefixFree : Prop :=
  ∀ (f : Vector Word 256) (t : Vector CodeEntry 256), buildTab f = .ok t →
    (∀ b : Fin 256, (t[b].valid = true ↔ f[b] ≠ 0) ∧ t[b].len.toNat ≤ 32 ∧
      t[b].code.toNat < 2 ^ t[b].len.toNat) ∧
    (∀ b d : Fin 256, b ≠ d → t[b].valid = true → t[d].valid = true → t[b].len.toNat ≤ t[d].len.toNat →
      t[d].code.toNat / 2 ^ (t[d].len.toNat - t[b].len.toNat) ≠ t[b].code.toNat)

/-- 44_huffman R250, 10_state R76, 60_exceptions R347: HUF_EMIT, once its checks pass. With a usable code for every
byte and room for them it writes the codes of its input, MSB first and zero padded, to DST, sets BITCNT and OUTLEN, and
leaves BP closed with its counters; nothing else changes. At the first byte i without a usable code it raises
E_NOCODE(i), and where a byte to write would pass CAP first, E_OVERFLOW(2); then BP is closed, and only DST's region,
BP's other fields (free values, log 3) and the record have changed. -/
def Obligations.HufEmitCompletes : Prop :=
  ∀ s : State, s.bp.isOpen = false →
    s.RegionsOk [s.srcRegion s.op.len.toNat 1, s.dstRegion s.op.cap.toNat 1] →
    ∀ bs : List Byte, bs = s.readBytes s.op.src.toNat s.op.len.toNat →
    ((∀ b ∈ bs, (atByte s.tab b).valid = true ∧ (atByte s.tab b).len.toNat ≤ 32) →
      (s.seq.work = Work.none → ceil8 (codeBits s.tab bs).length ≤ s.op.cap.toNat →
        ∃ t : State, exec .hufEmit s = .next t ∧
          ∃ bits, bits = codeBits s.tab bs ∧
            t = { s with
              lmem := t.lmem
              opr := { s.opr with bitcnt := BitVec.ofNat 64 bits.length }
              outlen := u32 (ceil8 bits.length)
              bp :=
                { isOpen := false, acc := 0, nacc := 0, bytes := u32 (ceil8 bits.length)
                  total := BitVec.ofNat 64 bits.length, base := s.op.dst, cap := s.op.cap, rid := 2 }
              done := true
              seq := Seq.idle } ∧
            t.HoldsBits s.op.dst.toNat bits ∧ s.KeepsOutside t s.op.dst.toNat (ceil8 bits.length)) ∧
      (s.op.cap.toNat < ceil8 (codeBits s.tab bs).length →
        ∃ t : State, exec .hufEmit s = .next t ∧ s.AfterPackerError t .overflow .hufEmit 2 ∧
          s.KeepsOutside t s.op.dst.toNat s.op.cap.toNat)) ∧
    (∀ (i : Nat) (h : i < bs.length),
      (∀ b ∈ bs.take i, (atByte s.tab b).valid = true ∧ (atByte s.tab b).len.toNat ≤ 32) →
      ((atByte s.tab bs[i]).valid = false ∨ 32 < (atByte s.tab bs[i]).len.toNat) →
      ∃ t : State, exec .hufEmit s = .next t ∧
        (if (codeBits s.tab (bs.take i)).length / 8 ≤ s.op.cap.toNat then
          s.AfterPackerError t .noCode .hufEmit (u32 i)
        else s.AfterPackerError t .overflow .hufEmit 2) ∧
        s.KeepsOutside t s.op.dst.toNat s.op.cap.toNat)

/-- 44_huffman R253, R247; 60_exceptions R347: HUF_ENCODE, once its checks pass. It commits the counts and the table
of its input and emits it with that table; the rest is HUF_EMIT's. Where the build finds a code longer than 32 bits it
raises E_CODELEN with the build's detail, and where the payload does not fit CAP, E_OVERFLOW(2); then BP is closed, and
only DST's region, BP's other fields (free values, log 3, log 8) and the record have changed. -/
def Obligations.HufEncodeCompletes : Prop :=
  ∀ s : State, s.bp.isOpen = false →
    s.RegionsOk [s.srcRegion s.op.len.toNat 1, s.dstRegion s.op.cap.toNat 1] → s.op.len ≠ 0 →
    ∀ bs : List Byte, bs = s.readBytes s.op.src.toNat s.op.len.toNat →
    (∀ tab, buildTab (freqFn bs) = .ok tab →
      (s.seq.work = Work.none → ceil8 (codeBits tab bs).length ≤ s.op.cap.toNat →
        ∃ t : State, exec .hufEncode s = .next t ∧
          ∃ bits, bits = codeBits tab bs ∧
            t = { s with
              lmem := t.lmem
              opr := { s.opr with bitcnt := BitVec.ofNat 64 bits.length }
              outlen := u32 (ceil8 bits.length)
              freq := freqFn bs
              tab := tab
              bp :=
                { isOpen := false, acc := 0, nacc := 0, bytes := u32 (ceil8 bits.length)
                  total := BitVec.ofNat 64 bits.length, base := s.op.dst, cap := s.op.cap, rid := 2 }
              done := true
              seq := Seq.idle } ∧
            t.HoldsBits s.op.dst.toNat bits ∧ s.KeepsOutside t s.op.dst.toNat (ceil8 bits.length)) ∧
      (s.op.cap.toNat < ceil8 (codeBits tab bs).length →
        ∃ t : State, exec .hufEncode s = .next t ∧ s.AfterPackerError t .overflow .hufEmit 2 ∧
          s.KeepsOutside t s.op.dst.toNat s.op.cap.toNat)) ∧
    (∀ e, buildTab (freqFn bs) = .error e →
      ∃ t : State, exec .hufEncode s = .next t ∧ s.AfterPackerError t .codeLen .hufBuild (BitVec.ofNat 32 e.info) ∧
        s.KeepsOutside t s.op.dst.toNat s.op.cap.toNat)

/-- 44_huffman R256, R257: HUF_DECODE writes the LEN decoded bytes to DST; where DECODE stops at bit k it raises
E_CORRUPT(k) (for a k that ERRINFO can hold, log 6) and changes no byte outside DST's region. -/
def Obligations.HufDecodeCompletes : Prop :=
  ∀ s : State, s.RegionsOk [s.srcRegion (ceil8 s.op.bitcnt.toNat) 1, s.dstRegion s.op.len.toNat 1] →
    (∀ out, s.seq.work = Work.none →
      s.decodePayload s.tab s.op.src.toNat s.op.bitcnt.toNat s.op.len.toNat = .ok out →
      ∃ t : State, exec .hufDecode s = .next t ∧
        t = { s with lmem := t.lmem, outlen := s.op.len, done := true, seq := Seq.idle } ∧
        out.length = s.op.len.toNat ∧ t.HoldsAt s.op.dst.toNat out ∧
        s.KeepsOutside t s.op.dst.toNat s.op.len.toNat) ∧
    (∀ k, s.decodePayload s.tab s.op.src.toNat s.op.bitcnt.toNat s.op.len.toNat = .error k →
      ∃ t : State, exec .hufDecode s = .next t ∧
        t = { s with
          lmem := t.lmem, draws := t.draws, errCode := .corrupt, errStage := .hufDecode, errInfo := t.errInfo
          err := true, seq := Seq.idle } ∧
        (k < 2 ^ 32 → t.errInfo.toNat = k) ∧ s.KeepsOutside t s.op.dst.toNat s.op.len.toNat)

/-- 44_huffman R257, R258, R259: with no valid entry DECODE succeeds only for no bits and no symbols; it stops at
the 33rd bit where there is one, else at the end of the bits. -/
def Obligations.DecodeWithoutValidEntry : Prop :=
  ∀ (s : State) (t : Vector CodeEntry 256) (a nbits n : Nat), (∀ b : Fin 256, t[b].valid = false) →
    s.decodePayload t a nbits n =
      if 32 < nbits then .error 32
      else if nbits = 0 ∧ n = 0 then .ok []
      else .error nbits

/-- 44_huffman R260: HUF_DECODE with the payload a successful HUF_ENCODE wrote at its SRC, with that TAB, that BITCNT
and the input's length, succeeds and writes the input. -/
def Obligations.HuffmanRoundTrip : Prop :=
  ∀ s t u : State, s.done = false → s.op.len ≠ 0 → exec .hufEncode s = .next t → t.done = true →
    (∀ i, i < t.outlen.toNat → u.readByte (u.op.src.toNat + i) = t.readByte (s.op.dst.toNat + i)) →
    u.tab = t.tab → u.op.bitcnt = t.opr.bitcnt → u.op.len = s.op.len → u.seq.work = Work.none →
    u.RegionsOk [u.srcRegion (ceil8 u.op.bitcnt.toNat) 1, u.dstRegion u.op.len.toNat 1] →
    ∃ v : State, exec .hufDecode u = .next v ∧ v.done = true ∧
      v.HoldsAt u.op.dst.toNat (s.readBytes s.op.src.toNat s.op.len.toNat)

/-! ### The bit packer -/

/-- 45_bitpack R271: BP_INIT opens a session on its region, whether or not one was open, and writes no byte. -/
def Obligations.BpInitCompletes : Prop :=
  ∀ s : State, s.seq.work = Work.none → s.RegionsOk [s.dstRegion s.op.cap.toNat 1] →
    exec .bpInit s =
      .next { s with
        bp :=
          { isOpen := true, acc := 0, nacc := 0, bytes := 0, total := 0, base := s.op.dst, cap := s.op.cap
            rid := 2 }
        done := true
        seq := Seq.idle }

/-- 45_bitpack R270, R272: BP_ADD n appends the n low-order bits of BPDATA to the pending ones, writes each byte
completed to the next bytes of the session, keeps the rest pending, and changes nothing else. -/
def Obligations.BpAddCompletes : Prop :=
  ∀ (s : State) (n : Nat), s.seq.work = Work.none → n ≤ 32 → s.bp.isOpen = true →
    s.bp.bytes.toNat + (s.bp.nacc.toNat + n) / 8 ≤ s.bp.cap.toNat →
    ∃ t : State, exec (.bpAdd n) s = .next t ∧
      ∃ stream, stream = s.bp.pending ++ lowBits s.op.bpdata n ∧
        t = { s with
          lmem := t.lmem
          bp :=
            { s.bp with
              acc := t.bp.acc
              nacc := BitVec.ofNat 3 (stream.length % 8)
              bytes := s.bp.bytes + u32 (stream.length / 8)
              total := s.bp.total + BitVec.ofNat 64 n }
          done := true
          seq := Seq.idle } ∧
        t.bp.pending = stream.drop (8 * (stream.length / 8)) ∧
        (∀ i, i < 8 * (stream.length / 8) →
          t.payloadBit (s.bp.base.toNat + s.bp.bytes.toNat) i = stream.getD i false) ∧
        s.KeepsOutside t (s.bp.base.toNat + s.bp.bytes.toNat) (stream.length / 8)

/-- 45_bitpack R270, R274: BP_FINISH writes the pending bits, zero padded, as the last byte if there are any, closes
the session with ACC and NACC 0, and sets BITCNT and OUTLEN. The premise on ACC is part of the session invariant. -/
def Obligations.BpFinishCompletes : Prop :=
  ∀ s : State, s.seq.work = Work.none → s.bp.isOpen = true → s.bp.acc.toNat < 2 ^ s.bp.nacc.toNat →
    s.bp.bytes.toNat + ceil8 s.bp.nacc.toNat ≤ s.bp.cap.toNat →
    ∃ t : State, exec .bpFinish s = .next t ∧
      t = { s with
        lmem := t.lmem
        opr := { s.opr with bitcnt := s.bp.total }
        outlen := s.bp.bytes + u32 (ceil8 s.bp.nacc.toNat)
        bp :=
          { s.bp with
            isOpen := false, acc := 0, nacc := 0, bytes := s.bp.bytes + u32 (ceil8 s.bp.nacc.toNat) }
        done := true
        seq := Seq.idle } ∧
      t.HoldsBits (s.bp.base.toNat + s.bp.bytes.toNat) s.bp.pending ∧
      s.KeepsOutside t (s.bp.base.toNat + s.bp.bytes.toNat) (ceil8 s.bp.nacc.toNat)

/-- 45_bitpack R272, R273, R274: the packer writes no byte at or beyond BASE + CAP; where one more byte would pass
it, BP_ADD and BP_FINISH raise E_OVERFLOW with the session's region id and leave BP closed. -/
def Obligations.PackerNeverPassesCapacity : Prop :=
  ∀ (s : State) (n : Nat), s.bp.isOpen = true → s.bp.bytes.toNat ≤ s.bp.cap.toNat →
    (∀ t : State, exec (.bpAdd n) s = .next t ∨ exec .bpFinish s = .next t →
      s.KeepsOutside t (s.bp.base.toNat + s.bp.bytes.toNat) (s.bp.cap.toNat - s.bp.bytes.toNat)) ∧
    (n ≤ 32 → s.bp.cap.toNat < s.bp.bytes.toNat + (s.bp.nacc.toNat + n) / 8 →
      ∃ t : State, exec (.bpAdd n) s = .next t ∧ t.bp.isOpen = false ∧
        t = { s with
          lmem := t.lmem, bp := t.bp, draws := t.draws, errCode := .overflow, errStage := .bitpack
          errInfo := s.bp.rid.setWidth 32, err := true, seq := Seq.idle }) ∧
    (s.bp.nacc ≠ 0 → s.bp.cap.toNat = s.bp.bytes.toNat →
      ∃ t : State, exec .bpFinish s = .next t ∧ t.bp.isOpen = false ∧
        t = { s with
          bp := t.bp, draws := t.draws, errCode := .overflow, errStage := .bitpack
          errInfo := s.bp.rid.setWidth 32, err := true, seq := Seq.idle })

/-! ### Images -/

/-- 46_pipeline R290 to R293, R302, R303: PIPE_FWD writes each block's and channel's encoded slice to the flat
buffer at DST, PIPE_INV each decoded slice to the image at DST; OUTLEN, CWIDTH and CHEIGHT are set, PIPE_FWD sets
QNF where a quotient was non-finite; nothing else changes. -/
def Obligations.PipelinesComplete : Prop :=
  ∀ s : State, s.seq.work = Work.none → s.seq.tasksDone = [] → s.qtabv = true →
    (s.RegionsOk
        [s.srcRegion (24 * s.imgW * (s.imgH - s.imgH % 8)) 8, s.dstRegion (192 * ((s.imgW / 8) * (s.imgH / 8))) 1] →
      ∃ t : State, exec .pipeFwd s = .next t ∧
        t = { s with
          lmem := t.lmem, qnf := s.qnf || imageQnf s s.op.src.toNat s.imgW s.imgH s.qtab
          outlen := u32 (192 * ((s.imgW / 8) * (s.imgH / 8)))
          cwidth := u32 (s.imgW - s.imgW % 8), cheight := u32 (s.imgH - s.imgH % 8)
          done := true, seq := Seq.idle } ∧
        t.HoldsAt s.op.dst.toNat (flatImage s s.op.src.toNat s.imgW s.imgH s.qtab) ∧
        s.KeepsOutside t s.op.dst.toNat (192 * ((s.imgW / 8) * (s.imgH / 8)))) ∧
    (s.imgW % 8 = 0 → s.imgH % 8 = 0 →
      s.RegionsOk [s.srcRegion (192 * ((s.imgW / 8) * (s.imgH / 8))) 1, s.dstRegion (24 * s.imgW * s.imgH) 8] →
      ∃ t : State, exec .pipeInv s = .next t ∧
        t = { s with
          lmem := t.lmem, outlen := u32 (24 * s.imgW * s.imgH), cwidth := s.op.width, cheight := s.op.height
          done := true, seq := Seq.idle } ∧
        t.HoldsImage s.op.dst.toNat s.imgW s.imgH
          (fun b ch => decBlock (s.read64 (s.op.src.toNat + 64 * (3 * b + ch))) s.qtab) ∧
        s.KeepsOutside t s.op.dst.toNat (24 * s.imgW * s.imgH))

/-- 46_pipeline R304, R305; 60_exceptions R347: COMPRESS, once its checks pass. Where the build succeeds and payload
and container fit, it leaves the flat buffer, the payload and the container in LMEM, commits the three tables, sets its
results and leaves BP closed; nothing else changes. Where the build finds a code longer than 32 bits it raises
E_CODELEN, where the payload does not fit TCAP, E_OVERFLOW(4), and where the container does not fit CAP,
E_OVERFLOW(2); then BP is closed, QNF is as the block phase left it, and only the regions at TMP0, TMP1 and DST, BP's
other fields (free values, log 3) and the record have changed. -/
def Obligations.CompressCompletes : Prop :=
  ∀ (s : State) (flat : List Byte) (q : Bool),
    s.seq.work = Work.none → s.seq.tasksDone = [] →
    1 ≤ s.op.quality.toInt → s.op.quality.toInt ≤ 99 → s.bp.isOpen = false →
    s.RegionsOk
      [s.srcRegion (24 * s.imgW * (s.imgH - s.imgH % 8)) 8, s.tmp0Region (192 * ((s.imgW / 8) * (s.imgH / 8))),
        s.tmp1Region s.op.tcap.toNat, s.dstRegion s.op.cap.toNat 1] →
    0 < (s.imgW / 8) * (s.imgH / 8) →
    flat = flatImage s s.op.src.toNat s.imgW s.imgH (qtabFn s.op.quality.toNat) →
    q = imageQnf s s.op.src.toNat s.imgW s.imgH (qtabFn s.op.quality.toNat) →
    ∃ t : State, exec .compress s = .next t ∧
      match buildTab (freqFn flat) with
      | .error e =>
        State.AfterPackerError { s with qnf := s.qnf || q } t e.code .hufBuild (BitVec.ofNat 32 e.info) ∧
          (s.params.Legal → e.code = .codeLen) ∧
          ∀ x, (x < s.op.tmp0.toNat ∨ s.op.tmp0.toNat + 192 * ((s.imgW / 8) * (s.imgH / 8)) ≤ x) →
            (x < s.op.tmp1.toNat ∨ s.op.tmp1.toNat + s.op.tcap.toNat ≤ x) →
            (x < s.op.dst.toNat ∨ s.op.dst.toNat + s.op.cap.toNat ≤ x) → t.readByte x = s.readByte x
      | .ok tab =>
        ∀ bits, bits = codeBits tab flat →
        (ceil8 bits.length ≤ s.op.tcap.toNat → containerSize tab (ceil8 bits.length) ≤ s.op.cap.toNat →
          t = { s with
            lmem := t.lmem
            qnf := s.qnf || q
            opr := { s.opr with bitcnt := BitVec.ofNat 64 bits.length }
            outlen := u32 (containerSize tab (ceil8 bits.length))
            cwidth := u32 (s.imgW - s.imgW % 8)
            cheight := u32 (s.imgH - s.imgH % 8)
            qtab := qtabFn s.op.quality.toNat
            qtabv := true
            freq := freqFn flat
            tab := tab
            bp :=
              { isOpen := false, acc := 0, nacc := 0, bytes := u32 (ceil8 bits.length)
                total := BitVec.ofNat 64 bits.length, base := s.op.tmp1, cap := s.op.tcap, rid := 4 }
            done := true
            seq := Seq.idle } ∧
          t.HoldsAt s.op.tmp0.toNat flat ∧ t.HoldsBits s.op.tmp1.toNat bits ∧
          t.HoldsAt s.op.dst.toNat
            (containerHead (u32 (s.imgW - s.imgW % 8)) (u32 (s.imgH - s.imgH % 8)) s.op.quality tab
                (BitVec.ofNat 64 bits.length) (ceil8 bits.length) ++
              t.readBytes s.op.tmp1.toNat (ceil8 bits.length)) ∧
          ∀ x, (x < s.op.tmp0.toNat ∨ s.op.tmp0.toNat + 192 * ((s.imgW / 8) * (s.imgH / 8)) ≤ x) →
            (x < s.op.tmp1.toNat ∨ s.op.tmp1.toNat + ceil8 bits.length ≤ x) →
            (x < s.op.dst.toNat ∨ s.op.dst.toNat + containerSize tab (ceil8 bits.length) ≤ x) →
            t.readByte x = s.readByte x) ∧
        (s.op.tcap.toNat < ceil8 bits.length ∨ s.op.cap.toNat < containerSize tab (ceil8 bits.length) →
          (if s.op.tcap.toNat < ceil8 bits.length then
            State.AfterPackerError { s with qnf := s.qnf || q } t .overflow .hufEmit 4
          else State.AfterPackerError { s with qnf := s.qnf || q } t .overflow .cntPack 2) ∧
          ∀ x, (x < s.op.tmp0.toNat ∨ s.op.tmp0.toNat + 192 * ((s.imgW / 8) * (s.imgH / 8)) ≤ x) →
            (x < s.op.tmp1.toNat ∨ s.op.tmp1.toNat + s.op.tcap.toNat ≤ x) →
            (x < s.op.dst.toNat ∨ s.op.dst.toNat + s.op.cap.toNat ≤ x) → t.readByte x = s.readByte x)

/-- 46_pipeline R304, R306; 60_exceptions R347: DECOMPRESS of a container that parses to p. With an illegal quality it
raises E_QUALITY, then with an illegal width E_MALFORMED(11), then with an illegal height E_MALFORMED(12), then the
error of its output regions, and nothing else changes (R306, log 16). Past these, with a payload that decodes, it
leaves the flat buffer and the image in LMEM, commits TAB and QTAB, and loads and sets its registers; nothing else
changes. Where the decoding stops at bit k it raises E_CORRUPT(k) (for a k that ERRINFO can hold, log 6), and only the
regions at TMP0 and DST and the record have changed. -/
def Obligations.DecompressCompletes : Prop :=
  ∀ (s : State) (p : Parsed) (rs : List Region), s.RegionsOk [s.srcRegion s.op.len.toNat 1] →
    s.parse s.op.src.toNat s.op.len.toNat = .ok p →
    rs =
      [s.srcRegion s.op.len.toNat 1, s.tmp0Region (192 * ((p.width.toNat / 8) * (p.height.toNat / 8))),
        s.dstRegion (24 * p.width.toNat * p.height.toNat) 8] →
    (p.quality.toInt < 1 ∨ 99 < p.quality.toInt →
      exec .decompress s = .next (s.afterError .quality .qtab p.quality)) ∧
    (1 ≤ p.quality.toInt → p.quality.toInt ≤ 99 →
      (p.width.toInt < 0 ∨ p.width.toInt % 8 ≠ 0 →
        exec .decompress s = .next (s.afterError .malformed .cntUnpack 11)) ∧
      (0 ≤ p.width.toInt → p.width.toInt % 8 = 0 →
        (p.height.toInt < 0 ∨ p.height.toInt % 8 ≠ 0 →
          exec .decompress s = .next (s.afterError .malformed .cntUnpack 12)) ∧
        (0 ≤ p.height.toInt → p.height.toInt % 8 = 0 →
          (∀ e, regionChecks s.params.lmemSize .seq rs = some e →
            exec .decompress s = .next (s.afterError e.code .seq (u32 e.info))) ∧
          (s.RegionsOk rs →
            (∀ k, s.decodePayload p.tab p.paddr p.nbits.toNat
                (192 * ((p.width.toNat / 8) * (p.height.toNat / 8))) = .error k →
              ∃ t : State, exec .decompress s = .next t ∧
                t = { s.afterError .corrupt .hufDecode t.errInfo with lmem := t.lmem, draws := t.draws } ∧
                (k < 2 ^ 32 → t.errInfo.toNat = k) ∧
                ∀ x, (x < s.op.tmp0.toNat ∨
                    s.op.tmp0.toNat + 192 * ((p.width.toNat / 8) * (p.height.toNat / 8)) ≤ x) →
                  (x < s.op.dst.toNat ∨ s.op.dst.toNat + 24 * p.width.toNat * p.height.toNat ≤ x) →
                  t.readByte x = s.readByte x) ∧
            (∀ flat, s.seq.work = Work.none → s.seq.tasksDone = [] →
              s.decodePayload p.tab p.paddr p.nbits.toNat
                (192 * ((p.width.toNat / 8) * (p.height.toNat / 8))) = .ok flat →
              ∃ t : State, exec .decompress s = .next t ∧
                t = { s with
                  lmem := t.lmem
                  opr :=
                    { s.opr with width := p.width, height := p.height, quality := p.quality, bitcnt := p.nbits }
                  outlen := u32 (24 * p.width.toNat * p.height.toNat)
                  cwidth := p.width
                  cheight := p.height
                  paddr := u32 p.paddr
                  qtab := qtabFn p.quality.toNat
                  qtabv := true
                  tab := p.tab
                  done := true
                  seq := Seq.idle } ∧
                t.HoldsAt s.op.tmp0.toNat flat ∧
                t.HoldsImage s.op.dst.toNat p.width.toNat p.height.toNat
                  (fun b ch => decBlock (flatSlice flat b ch) (qtabFn p.quality.toNat)) ∧
                ∀ x, (x < s.op.tmp0.toNat ∨
                    s.op.tmp0.toNat + 192 * ((p.width.toNat / 8) * (p.height.toNat / 8)) ≤ x) →
                  (x < s.op.dst.toNat ∨ s.op.dst.toNat + 24 * p.width.toNat * p.height.toNat ≤ x) →
                  t.readByte x = s.readByte x)))))

/-! ### Containers -/

/-- 47_container R320 to R325: CNT_PACK, where its checks pass, writes the head of the container and the payload to
DST and sets OUTLEN, and where only the last check fails, that of CAP, raises E_OVERFLOW(2); CNT_UNPACK of a stream that parses to p commits p's table and loads its registers and writes
no byte; nothing else changes. -/
def Obligations.ContainerCommandsComplete : Prop :=
  ∀ s : State, s.seq.work = Work.none →
    (s.op.bitcnt.toNat ≤ 8 * s.op.len.toNat → s.op.len.toNat ≤ 0x7FFFFFFF →
      (∀ b : Fin 256, s.tab[b].valid = true → s.tab[b].len.toNat ≤ 32) →
      (∀ b d : Fin 256, b ≠ d → s.tab[b].valid = true → s.tab[d].valid = true →
        ¬(s.tab[b].code = s.tab[d].code ∧ s.tab[b].len = s.tab[d].len)) →
      s.RegionsOk [s.srcRegion s.op.len.toNat 1, s.dstRegion s.op.cap.toNat 1] →
      (s.op.cap.toNat < 28 + 9 * nsym s + s.op.len.toNat →
        exec .cntPack s = .next (s.afterError .overflow .cntPack 2)) ∧
      (28 + 9 * nsym s + s.op.len.toNat ≤ s.op.cap.toNat →
        ∃ t : State, exec .cntPack s = .next t ∧
          t = { s with
            lmem := t.lmem, outlen := u32 (28 + 9 * nsym s + s.op.len.toNat), done := true, seq := Seq.idle } ∧
          t.HoldsAt s.op.dst.toNat
            (containerHead s.op.width s.op.height s.op.quality s.tab s.op.bitcnt s.op.len.toNat ++
              s.readBytes s.op.src.toNat s.op.len.toNat) ∧
          s.KeepsOutside t s.op.dst.toNat (28 + 9 * nsym s + s.op.len.toNat))) ∧
    (∀ p, s.RegionsOk [s.srcRegion s.op.len.toNat 1] → s.parse s.op.src.toNat s.op.len.toNat = .ok p →
      exec .cntUnpack s =
        .next { s with
          tab := p.tab
          opr := { s.opr with width := p.width, height := p.height, quality := p.quality, bitcnt := p.nbits }
          outlen := u32 p.plen
          paddr := u32 p.paddr
          done := true
          seq := Seq.idle })

/-- 47_container R326: CNT_UNPACK of the container a successful CNT_PACK wrote gives back width, height, quality,
BITCNT and every valid entry, and PADDR and OUTLEN give a copy of the payload. -/
def Obligations.ContainerRoundTrip : Prop :=
  ∀ s t u : State, s.params.Legal → s.done = false → exec .cntPack s = .next t → t.done = true →
    u.lmem = t.lmem → u.epoch = t.epoch → u.params = s.params → u.op.src = s.op.dst → u.op.len = t.outlen →
    u.seq.work = Work.none →
    ∃ v : State, exec .cntUnpack u = .next v ∧ v.done = true ∧
      v.opr.width = s.op.width ∧ v.opr.height = s.op.height ∧ v.opr.quality = s.op.quality ∧
      v.opr.bitcnt = s.op.bitcnt ∧ v.outlen = s.op.len ∧
      (∀ b : Fin 256, v.tab[b] = if s.tab[b].valid then s.tab[b] else CodeEntry.none) ∧
      v.HoldsAt v.paddr.toNat (s.readBytes s.op.src.toNat s.op.len.toNat)

/-! ### Workers and invariants -/

/-- 46_pipeline R301, R300; 60_exceptions R356: no worker's task, run early at any moment, changes how the command
ends, and neither does op.WORKERS; nor does the block of a QUANT or BLK_ENC that the sequencer does before the turn
that ends the command (log 5). -/
def Obligations.WorkerScheduleIsInvisible : Prop :=
  (∀ (s : State) (w t : Nat), s.lmem.wf → engineTurn (workerTurn w t s) = engineTurn s) ∧
  (∀ s : State, s.lmem.wf → engineTurn (blockTurn s) = engineTurn s) ∧
  (∀ (i : Instr) (s : State) (k : Byte),
    exec i { s with seq := { s.seq with op := { s.seq.op with workers := k } } } = exec i s)

/-- 20_memory R100, 45_bitpack R273: every step keeps LMEM canonical and inside its size, and an open packer session
inside its checked region. -/
def Obligations.MemoryInvariantKept : Prop :=
  ∀ s t : State, s.MemoryInv → s.SessionInv → step s = .next t → t.MemoryInv ∧ t.SessionInv

/-- 10_state R32, R41, R45, R46; 60_exceptions R344, R345: every step keeps BUSY, DONE, ERR and the error record
consistent, with an idle SEQ empty. That ERRCODE, ERRSTAGE and ERRINFO are zero while BUSY is said of the fields of the
state, as an acceptance clears them (R344); a host's read of ERRSTAT and ERRINFO while BUSY answers their values from
before the command (R380), and that the two rules agree so is the model's reading (DEDUCED, log 18). -/
def Obligations.StatusInvariantKept : Prop := ∀ s t : State, s.StatusInv → step s = .next t → t.StatusInv

/-- 10_state R38, R66; 70_reset R370: every step keeps QTAB a built table or all zero, CTRL.WORKERS legal, and
everything at its reset value while RST is asserted. -/
def Obligations.TableAndControlInvariantKept : Prop :=
  ∀ s t : State, step s = .next t → (s.QtabInv → t.QtabInv) ∧ (s.ControlInv → t.ControlInv)

/-- 70_reset R371: the state after reset meets every invariant (its open parameters are log 1's choice). -/
def Obligations.InvariantsHoldAtReset : Prop :=
  State.reset.MemoryInv ∧ State.reset.SessionInv ∧ State.reset.StatusInv ∧ State.reset.QtabInv ∧
    State.reset.ControlInv

end
end

