-- ==== Sys2Proof/Laws/State.lean ====
section
/-! SUPPORT. One lemma per field per named update of State, each true by unfolding the update, so that no later
proof opens a record update. -/

namespace Sys2Proof.Machine

/-! ### State.writeBytes -/

@[simp] theorem State.writeBytes_params (s : State) (a : Nat) (bs : List Byte) :
    (s.writeBytes a bs).params =
      s.params := rfl
@[simp] theorem State.writeBytes_rst (s : State) (a : Nat) (bs : List Byte) :
    (s.writeBytes a bs).rst =
      s.rst := rfl
@[simp] theorem State.writeBytes_ieDone (s : State) (a : Nat) (bs : List Byte) :
    (s.writeBytes a bs).ieDone =
      s.ieDone := rfl
@[simp] theorem State.writeBytes_ieErr (s : State) (a : Nat) (bs : List Byte) :
    (s.writeBytes a bs).ieErr =
      s.ieErr := rfl
@[simp] theorem State.writeBytes_workers (s : State) (a : Nat) (bs : List Byte) :
    (s.writeBytes a bs).workers =
      s.workers := rfl
@[simp] theorem State.writeBytes_done (s : State) (a : Nat) (bs : List Byte) :
    (s.writeBytes a bs).done =
      s.done := rfl
@[simp] theorem State.writeBytes_err (s : State) (a : Nat) (bs : List Byte) :
    (s.writeBytes a bs).err =
      s.err := rfl
@[simp] theorem State.writeBytes_qnf (s : State) (a : Nat) (bs : List Byte) :
    (s.writeBytes a bs).qnf =
      s.qnf := rfl
@[simp] theorem State.writeBytes_drop (s : State) (a : Nat) (bs : List Byte) :
    (s.writeBytes a bs).drop =
      s.drop := rfl
@[simp] theorem State.writeBytes_errCode (s : State) (a : Nat) (bs : List Byte) :
    (s.writeBytes a bs).errCode =
      s.errCode := rfl
@[simp] theorem State.writeBytes_errStage (s : State) (a : Nat) (bs : List Byte) :
    (s.writeBytes a bs).errStage =
      s.errStage := rfl
@[simp] theorem State.writeBytes_lastOp (s : State) (a : Nat) (bs : List Byte) :
    (s.writeBytes a bs).lastOp =
      s.lastOp := rfl
@[simp] theorem State.writeBytes_errInfo (s : State) (a : Nat) (bs : List Byte) :
    (s.writeBytes a bs).errInfo =
      s.errInfo := rfl
@[simp] theorem State.writeBytes_opr (s : State) (a : Nat) (bs : List Byte) :
    (s.writeBytes a bs).opr =
      s.opr := rfl
@[simp] theorem State.writeBytes_outlen (s : State) (a : Nat) (bs : List Byte) :
    (s.writeBytes a bs).outlen =
      s.outlen := rfl
@[simp] theorem State.writeBytes_cwidth (s : State) (a : Nat) (bs : List Byte) :
    (s.writeBytes a bs).cwidth =
      s.cwidth := rfl
@[simp] theorem State.writeBytes_cheight (s : State) (a : Nat) (bs : List Byte) :
    (s.writeBytes a bs).cheight =
      s.cheight := rfl
@[simp] theorem State.writeBytes_paddr (s : State) (a : Nat) (bs : List Byte) :
    (s.writeBytes a bs).paddr =
      s.paddr := rfl
@[simp] theorem State.writeBytes_qtab (s : State) (a : Nat) (bs : List Byte) :
    (s.writeBytes a bs).qtab =
      s.qtab := rfl
@[simp] theorem State.writeBytes_qtabv (s : State) (a : Nat) (bs : List Byte) :
    (s.writeBytes a bs).qtabv =
      s.qtabv := rfl
@[simp] theorem State.writeBytes_tab (s : State) (a : Nat) (bs : List Byte) :
    (s.writeBytes a bs).tab =
      s.tab := rfl
@[simp] theorem State.writeBytes_freq (s : State) (a : Nat) (bs : List Byte) :
    (s.writeBytes a bs).freq =
      s.freq := rfl
@[simp] theorem State.writeBytes_bp (s : State) (a : Nat) (bs : List Byte) : (s.writeBytes a bs).bp = s.bp := rfl
@[simp] theorem State.writeBytes_seq (s : State) (a : Nat) (bs : List Byte) :
    (s.writeBytes a bs).seq =
      s.seq := rfl
@[simp] theorem State.writeBytes_lmem (s : State) (a : Nat) (bs : List Byte) :
    (s.writeBytes a bs).lmem =
      LMem.store s.lmem a bs := rfl
@[simp] theorem State.writeBytes_epoch (s : State) (a : Nat) (bs : List Byte) :
    (s.writeBytes a bs).epoch =
      s.epoch := rfl
@[simp] theorem State.writeBytes_draws (s : State) (a : Nat) (bs : List Byte) :
    (s.writeBytes a bs).draws =
      s.draws := rfl
@[simp] theorem State.writeBytes_inbox (s : State) (a : Nat) (bs : List Byte) :
    (s.writeBytes a bs).inbox =
      s.inbox := rfl
@[simp] theorem State.writeBytes_reply (s : State) (a : Nat) (bs : List Byte) :
    (s.writeBytes a bs).reply =
      s.reply := rfl

/-! ### State.memWrite -/

@[simp] theorem State.memWrite_params (s : State) (a n v : Nat) : (s.memWrite a n v).params = s.params := rfl
@[simp] theorem State.memWrite_rst (s : State) (a n v : Nat) : (s.memWrite a n v).rst = s.rst := rfl
@[simp] theorem State.memWrite_ieDone (s : State) (a n v : Nat) : (s.memWrite a n v).ieDone = s.ieDone := rfl
@[simp] theorem State.memWrite_ieErr (s : State) (a n v : Nat) : (s.memWrite a n v).ieErr = s.ieErr := rfl
@[simp] theorem State.memWrite_workers (s : State) (a n v : Nat) : (s.memWrite a n v).workers = s.workers := rfl
@[simp] theorem State.memWrite_done (s : State) (a n v : Nat) : (s.memWrite a n v).done = s.done := rfl
@[simp] theorem State.memWrite_err (s : State) (a n v : Nat) : (s.memWrite a n v).err = s.err := rfl
@[simp] theorem State.memWrite_qnf (s : State) (a n v : Nat) : (s.memWrite a n v).qnf = s.qnf := rfl
@[simp] theorem State.memWrite_drop (s : State) (a n v : Nat) : (s.memWrite a n v).drop = s.drop := rfl
@[simp] theorem State.memWrite_errCode (s : State) (a n v : Nat) : (s.memWrite a n v).errCode = s.errCode := rfl
@[simp] theorem State.memWrite_errStage (s : State) (a n v : Nat) : (s.memWrite a n v).errStage = s.errStage := rfl
@[simp] theorem State.memWrite_lastOp (s : State) (a n v : Nat) : (s.memWrite a n v).lastOp = s.lastOp := rfl
@[simp] theorem State.memWrite_errInfo (s : State) (a n v : Nat) : (s.memWrite a n v).errInfo = s.errInfo := rfl
@[simp] theorem State.memWrite_opr (s : State) (a n v : Nat) : (s.memWrite a n v).opr = s.opr := rfl
@[simp] theorem State.memWrite_outlen (s : State) (a n v : Nat) : (s.memWrite a n v).outlen = s.outlen := rfl
@[simp] theorem State.memWrite_cwidth (s : State) (a n v : Nat) : (s.memWrite a n v).cwidth = s.cwidth := rfl
@[simp] theorem State.memWrite_cheight (s : State) (a n v : Nat) : (s.memWrite a n v).cheight = s.cheight := rfl
@[simp] theorem State.memWrite_paddr (s : State) (a n v : Nat) : (s.memWrite a n v).paddr = s.paddr := rfl
@[simp] theorem State.memWrite_qtab (s : State) (a n v : Nat) : (s.memWrite a n v).qtab = s.qtab := rfl
@[simp] theorem State.memWrite_qtabv (s : State) (a n v : Nat) : (s.memWrite a n v).qtabv = s.qtabv := rfl
@[simp] theorem State.memWrite_tab (s : State) (a n v : Nat) : (s.memWrite a n v).tab = s.tab := rfl
@[simp] theorem State.memWrite_freq (s : State) (a n v : Nat) : (s.memWrite a n v).freq = s.freq := rfl
@[simp] theorem State.memWrite_bp (s : State) (a n v : Nat) : (s.memWrite a n v).bp = s.bp := rfl
@[simp] theorem State.memWrite_seq (s : State) (a n v : Nat) : (s.memWrite a n v).seq = s.seq := rfl
@[simp] theorem State.memWrite_lmem (s : State) (a n v : Nat) :
    (s.memWrite a n v).lmem =
      LMem.store s.lmem a (leBytes n v) := rfl
@[simp] theorem State.memWrite_epoch (s : State) (a n v : Nat) : (s.memWrite a n v).epoch = s.epoch := rfl
@[simp] theorem State.memWrite_draws (s : State) (a n v : Nat) : (s.memWrite a n v).draws = s.draws := rfl
@[simp] theorem State.memWrite_inbox (s : State) (a n v : Nat) : (s.memWrite a n v).inbox = s.inbox := rfl
@[simp] theorem State.memWrite_reply (s : State) (a n v : Nat) : (s.memWrite a n v).reply = s.reply := rfl

/-! ### State.writeBlock -/

@[simp] theorem State.writeBlock_params (s : State) (a : Nat) (v : Vector F64 64) :
    (s.writeBlock a v).params =
      s.params := rfl
@[simp] theorem State.writeBlock_rst (s : State) (a : Nat) (v : Vector F64 64) :
    (s.writeBlock a v).rst =
      s.rst := rfl
@[simp] theorem State.writeBlock_ieDone (s : State) (a : Nat) (v : Vector F64 64) :
    (s.writeBlock a v).ieDone =
      s.ieDone := rfl
@[simp] theorem State.writeBlock_ieErr (s : State) (a : Nat) (v : Vector F64 64) :
    (s.writeBlock a v).ieErr =
      s.ieErr := rfl
@[simp] theorem State.writeBlock_workers (s : State) (a : Nat) (v : Vector F64 64) :
    (s.writeBlock a v).workers =
      s.workers := rfl
@[simp] theorem State.writeBlock_done (s : State) (a : Nat) (v : Vector F64 64) :
    (s.writeBlock a v).done =
      s.done := rfl
@[simp] theorem State.writeBlock_err (s : State) (a : Nat) (v : Vector F64 64) :
    (s.writeBlock a v).err =
      s.err := rfl
@[simp] theorem State.writeBlock_qnf (s : State) (a : Nat) (v : Vector F64 64) :
    (s.writeBlock a v).qnf =
      s.qnf := rfl
@[simp] theorem State.writeBlock_drop (s : State) (a : Nat) (v : Vector F64 64) :
    (s.writeBlock a v).drop =
      s.drop := rfl
@[simp] theorem State.writeBlock_errCode (s : State) (a : Nat) (v : Vector F64 64) :
    (s.writeBlock a v).errCode =
      s.errCode := rfl
@[simp] theorem State.writeBlock_errStage (s : State) (a : Nat) (v : Vector F64 64) :
    (s.writeBlock a v).errStage =
      s.errStage := rfl
@[simp] theorem State.writeBlock_lastOp (s : State) (a : Nat) (v : Vector F64 64) :
    (s.writeBlock a v).lastOp =
      s.lastOp := rfl
@[simp] theorem State.writeBlock_errInfo (s : State) (a : Nat) (v : Vector F64 64) :
    (s.writeBlock a v).errInfo =
      s.errInfo := rfl
@[simp] theorem State.writeBlock_opr (s : State) (a : Nat) (v : Vector F64 64) :
    (s.writeBlock a v).opr =
      s.opr := rfl
@[simp] theorem State.writeBlock_outlen (s : State) (a : Nat) (v : Vector F64 64) :
    (s.writeBlock a v).outlen =
      s.outlen := rfl
@[simp] theorem State.writeBlock_cwidth (s : State) (a : Nat) (v : Vector F64 64) :
    (s.writeBlock a v).cwidth =
      s.cwidth := rfl
@[simp] theorem State.writeBlock_cheight (s : State) (a : Nat) (v : Vector F64 64) :
    (s.writeBlock a v).cheight =
      s.cheight := rfl
@[simp] theorem State.writeBlock_paddr (s : State) (a : Nat) (v : Vector F64 64) :
    (s.writeBlock a v).paddr =
      s.paddr := rfl
@[simp] theorem State.writeBlock_qtab (s : State) (a : Nat) (v : Vector F64 64) :
    (s.writeBlock a v).qtab =
      s.qtab := rfl
@[simp] theorem State.writeBlock_qtabv (s : State) (a : Nat) (v : Vector F64 64) :
    (s.writeBlock a v).qtabv =
      s.qtabv := rfl
@[simp] theorem State.writeBlock_tab (s : State) (a : Nat) (v : Vector F64 64) :
    (s.writeBlock a v).tab =
      s.tab := rfl
@[simp] theorem State.writeBlock_freq (s : State) (a : Nat) (v : Vector F64 64) :
    (s.writeBlock a v).freq =
      s.freq := rfl
@[simp] theorem State.writeBlock_bp (s : State) (a : Nat) (v : Vector F64 64) : (s.writeBlock a v).bp = s.bp := rfl
@[simp] theorem State.writeBlock_seq (s : State) (a : Nat) (v : Vector F64 64) :
    (s.writeBlock a v).seq =
      s.seq := rfl
@[simp] theorem State.writeBlock_lmem (s : State) (a : Nat) (v : Vector F64 64) :
    (s.writeBlock a v).lmem =
      LMem.store s.lmem a (v.toList.flatMap (fun x => leBytes 8 x.toNat)) := rfl
@[simp] theorem State.writeBlock_epoch (s : State) (a : Nat) (v : Vector F64 64) :
    (s.writeBlock a v).epoch =
      s.epoch := rfl
@[simp] theorem State.writeBlock_draws (s : State) (a : Nat) (v : Vector F64 64) :
    (s.writeBlock a v).draws =
      s.draws := rfl
@[simp] theorem State.writeBlock_inbox (s : State) (a : Nat) (v : Vector F64 64) :
    (s.writeBlock a v).inbox =
      s.inbox := rfl
@[simp] theorem State.writeBlock_reply (s : State) (a : Nat) (v : Vector F64 64) :
    (s.writeBlock a v).reply =
      s.reply := rfl

/-! ### State.scramble -/

@[simp] theorem State.scramble_params (s : State) (a n : Nat) : (s.scramble a n).params = s.params := rfl
@[simp] theorem State.scramble_rst (s : State) (a n : Nat) : (s.scramble a n).rst = s.rst := rfl
@[simp] theorem State.scramble_ieDone (s : State) (a n : Nat) : (s.scramble a n).ieDone = s.ieDone := rfl
@[simp] theorem State.scramble_ieErr (s : State) (a n : Nat) : (s.scramble a n).ieErr = s.ieErr := rfl
@[simp] theorem State.scramble_workers (s : State) (a n : Nat) : (s.scramble a n).workers = s.workers := rfl
@[simp] theorem State.scramble_done (s : State) (a n : Nat) : (s.scramble a n).done = s.done := rfl
@[simp] theorem State.scramble_err (s : State) (a n : Nat) : (s.scramble a n).err = s.err := rfl
@[simp] theorem State.scramble_qnf (s : State) (a n : Nat) : (s.scramble a n).qnf = s.qnf := rfl
@[simp] theorem State.scramble_drop (s : State) (a n : Nat) : (s.scramble a n).drop = s.drop := rfl
@[simp] theorem State.scramble_errCode (s : State) (a n : Nat) : (s.scramble a n).errCode = s.errCode := rfl
@[simp] theorem State.scramble_errStage (s : State) (a n : Nat) : (s.scramble a n).errStage = s.errStage := rfl
@[simp] theorem State.scramble_lastOp (s : State) (a n : Nat) : (s.scramble a n).lastOp = s.lastOp := rfl
@[simp] theorem State.scramble_errInfo (s : State) (a n : Nat) : (s.scramble a n).errInfo = s.errInfo := rfl
@[simp] theorem State.scramble_opr (s : State) (a n : Nat) : (s.scramble a n).opr = s.opr := rfl
@[simp] theorem State.scramble_outlen (s : State) (a n : Nat) : (s.scramble a n).outlen = s.outlen := rfl
@[simp] theorem State.scramble_cwidth (s : State) (a n : Nat) : (s.scramble a n).cwidth = s.cwidth := rfl
@[simp] theorem State.scramble_cheight (s : State) (a n : Nat) : (s.scramble a n).cheight = s.cheight := rfl
@[simp] theorem State.scramble_paddr (s : State) (a n : Nat) : (s.scramble a n).paddr = s.paddr := rfl
@[simp] theorem State.scramble_qtab (s : State) (a n : Nat) : (s.scramble a n).qtab = s.qtab := rfl
@[simp] theorem State.scramble_qtabv (s : State) (a n : Nat) : (s.scramble a n).qtabv = s.qtabv := rfl
@[simp] theorem State.scramble_tab (s : State) (a n : Nat) : (s.scramble a n).tab = s.tab := rfl
@[simp] theorem State.scramble_freq (s : State) (a n : Nat) : (s.scramble a n).freq = s.freq := rfl
@[simp] theorem State.scramble_bp (s : State) (a n : Nat) : (s.scramble a n).bp = s.bp := rfl
@[simp] theorem State.scramble_seq (s : State) (a n : Nat) : (s.scramble a n).seq = s.seq := rfl
@[simp] theorem State.scramble_lmem (s : State) (a n : Nat) :
    (s.scramble a n).lmem =
      LMem.store s.lmem a (freeBytes s.draws (s.clip a n)) := rfl
@[simp] theorem State.scramble_epoch (s : State) (a n : Nat) : (s.scramble a n).epoch = s.epoch := rfl
@[simp] theorem State.scramble_draws (s : State) (a n : Nat) : (s.scramble a n).draws = s.draws + s.clip a n := rfl
@[simp] theorem State.scramble_inbox (s : State) (a n : Nat) : (s.scramble a n).inbox = s.inbox := rfl
@[simp] theorem State.scramble_reply (s : State) (a n : Nat) : (s.scramble a n).reply = s.reply := rfl

/-! ### State.scrambleBp -/

@[simp] theorem State.scrambleBp_params (s : State) : (s.scrambleBp).params = s.params := rfl
@[simp] theorem State.scrambleBp_rst (s : State) : (s.scrambleBp).rst = s.rst := rfl
@[simp] theorem State.scrambleBp_ieDone (s : State) : (s.scrambleBp).ieDone = s.ieDone := rfl
@[simp] theorem State.scrambleBp_ieErr (s : State) : (s.scrambleBp).ieErr = s.ieErr := rfl
@[simp] theorem State.scrambleBp_workers (s : State) : (s.scrambleBp).workers = s.workers := rfl
@[simp] theorem State.scrambleBp_done (s : State) : (s.scrambleBp).done = s.done := rfl
@[simp] theorem State.scrambleBp_err (s : State) : (s.scrambleBp).err = s.err := rfl
@[simp] theorem State.scrambleBp_qnf (s : State) : (s.scrambleBp).qnf = s.qnf := rfl
@[simp] theorem State.scrambleBp_drop (s : State) : (s.scrambleBp).drop = s.drop := rfl
@[simp] theorem State.scrambleBp_errCode (s : State) : (s.scrambleBp).errCode = s.errCode := rfl
@[simp] theorem State.scrambleBp_errStage (s : State) : (s.scrambleBp).errStage = s.errStage := rfl
@[simp] theorem State.scrambleBp_lastOp (s : State) : (s.scrambleBp).lastOp = s.lastOp := rfl
@[simp] theorem State.scrambleBp_errInfo (s : State) : (s.scrambleBp).errInfo = s.errInfo := rfl
@[simp] theorem State.scrambleBp_opr (s : State) : (s.scrambleBp).opr = s.opr := rfl
@[simp] theorem State.scrambleBp_outlen (s : State) : (s.scrambleBp).outlen = s.outlen := rfl
@[simp] theorem State.scrambleBp_cwidth (s : State) : (s.scrambleBp).cwidth = s.cwidth := rfl
@[simp] theorem State.scrambleBp_cheight (s : State) : (s.scrambleBp).cheight = s.cheight := rfl
@[simp] theorem State.scrambleBp_paddr (s : State) : (s.scrambleBp).paddr = s.paddr := rfl
@[simp] theorem State.scrambleBp_qtab (s : State) : (s.scrambleBp).qtab = s.qtab := rfl
@[simp] theorem State.scrambleBp_qtabv (s : State) : (s.scrambleBp).qtabv = s.qtabv := rfl
@[simp] theorem State.scrambleBp_tab (s : State) : (s.scrambleBp).tab = s.tab := rfl
@[simp] theorem State.scrambleBp_freq (s : State) : (s.scrambleBp).freq = s.freq := rfl
@[simp] theorem State.scrambleBp_bp_isOpen (s : State) : (s.scrambleBp).bp.isOpen = false := rfl
@[simp] theorem State.scrambleBp_seq (s : State) : (s.scrambleBp).seq = s.seq := rfl
@[simp] theorem State.scrambleBp_lmem (s : State) : (s.scrambleBp).lmem = s.lmem := rfl
@[simp] theorem State.scrambleBp_epoch (s : State) : (s.scrambleBp).epoch = s.epoch := rfl
@[simp] theorem State.scrambleBp_draws (s : State) : (s.scrambleBp).draws = s.draws + 7 := rfl
@[simp] theorem State.scrambleBp_inbox (s : State) : (s.scrambleBp).inbox = s.inbox := rfl
@[simp] theorem State.scrambleBp_reply (s : State) : (s.scrambleBp).reply = s.reply := rfl
@[simp] theorem State.scrambleBp_readByte (s : State) (x : Nat) :
    (s.scrambleBp).readByte x = s.readByte x := rfl

/-! ### State.raise -/

@[simp] theorem State.raise_params (s : State) (e : Err) : (s.raise e).params = s.params := rfl
@[simp] theorem State.raise_rst (s : State) (e : Err) : (s.raise e).rst = s.rst := rfl
@[simp] theorem State.raise_ieDone (s : State) (e : Err) : (s.raise e).ieDone = s.ieDone := rfl
@[simp] theorem State.raise_ieErr (s : State) (e : Err) : (s.raise e).ieErr = s.ieErr := rfl
@[simp] theorem State.raise_workers (s : State) (e : Err) : (s.raise e).workers = s.workers := rfl
@[simp] theorem State.raise_done (s : State) (e : Err) : (s.raise e).done = s.done := rfl
@[simp] theorem State.raise_err (s : State) (e : Err) : (s.raise e).err = true := rfl
@[simp] theorem State.raise_qnf (s : State) (e : Err) : (s.raise e).qnf = s.qnf := rfl
@[simp] theorem State.raise_drop (s : State) (e : Err) : (s.raise e).drop = s.drop := rfl
@[simp] theorem State.raise_errCode (s : State) (e : Err) : (s.raise e).errCode = e.code := rfl
@[simp] theorem State.raise_errStage (s : State) (e : Err) : (s.raise e).errStage = e.stage := rfl
@[simp] theorem State.raise_lastOp (s : State) (e : Err) : (s.raise e).lastOp = s.lastOp := rfl
@[simp] theorem State.raise_errInfo (s : State) (e : Err) : (s.raise e).errInfo = infoWord s.draws e.info := rfl
@[simp] theorem State.raise_opr (s : State) (e : Err) : (s.raise e).opr = s.opr := rfl
@[simp] theorem State.raise_outlen (s : State) (e : Err) : (s.raise e).outlen = s.outlen := rfl
@[simp] theorem State.raise_cwidth (s : State) (e : Err) : (s.raise e).cwidth = s.cwidth := rfl
@[simp] theorem State.raise_cheight (s : State) (e : Err) : (s.raise e).cheight = s.cheight := rfl
@[simp] theorem State.raise_paddr (s : State) (e : Err) : (s.raise e).paddr = s.paddr := rfl
@[simp] theorem State.raise_qtab (s : State) (e : Err) : (s.raise e).qtab = s.qtab := rfl
@[simp] theorem State.raise_qtabv (s : State) (e : Err) : (s.raise e).qtabv = s.qtabv := rfl
@[simp] theorem State.raise_tab (s : State) (e : Err) : (s.raise e).tab = s.tab := rfl
@[simp] theorem State.raise_freq (s : State) (e : Err) : (s.raise e).freq = s.freq := rfl
@[simp] theorem State.raise_bp (s : State) (e : Err) : (s.raise e).bp = s.bp := rfl
@[simp] theorem State.raise_seq (s : State) (e : Err) : (s.raise e).seq = Seq.idle := rfl
@[simp] theorem State.raise_lmem (s : State) (e : Err) : (s.raise e).lmem = s.lmem := rfl
@[simp] theorem State.raise_epoch (s : State) (e : Err) : (s.raise e).epoch = s.epoch := rfl
@[simp] theorem State.raise_draws (s : State) (e : Err) : (s.raise e).draws = s.draws + infoDraws e.info := rfl
@[simp] theorem State.raise_inbox (s : State) (e : Err) : (s.raise e).inbox = s.inbox := rfl
@[simp] theorem State.raise_reply (s : State) (e : Err) : (s.raise e).reply = s.reply := rfl
@[simp] theorem State.raise_readByte (s : State) (e : Err) (x : Nat) :
    (s.raise e).readByte x = s.readByte x := rfl

/-! ### State.complete -/

@[simp] theorem State.complete_params (s : State) : (s.complete).params = s.params := rfl
@[simp] theorem State.complete_rst (s : State) : (s.complete).rst = s.rst := rfl
@[simp] theorem State.complete_ieDone (s : State) : (s.complete).ieDone = s.ieDone := rfl
@[simp] theorem State.complete_ieErr (s : State) : (s.complete).ieErr = s.ieErr := rfl
@[simp] theorem State.complete_workers (s : State) : (s.complete).workers = s.workers := rfl
@[simp] theorem State.complete_done (s : State) : (s.complete).done = true := rfl
@[simp] theorem State.complete_err (s : State) : (s.complete).err = s.err := rfl
@[simp] theorem State.complete_qnf (s : State) : (s.complete).qnf = s.qnf := rfl
@[simp] theorem State.complete_drop (s : State) : (s.complete).drop = s.drop := rfl
@[simp] theorem State.complete_errCode (s : State) : (s.complete).errCode = s.errCode := rfl
@[simp] theorem State.complete_errStage (s : State) : (s.complete).errStage = s.errStage := rfl
@[simp] theorem State.complete_lastOp (s : State) : (s.complete).lastOp = s.lastOp := rfl
@[simp] theorem State.complete_errInfo (s : State) : (s.complete).errInfo = s.errInfo := rfl
@[simp] theorem State.complete_opr (s : State) : (s.complete).opr = s.opr := rfl
@[simp] theorem State.complete_outlen (s : State) : (s.complete).outlen = s.outlen := rfl
@[simp] theorem State.complete_cwidth (s : State) : (s.complete).cwidth = s.cwidth := rfl
@[simp] theorem State.complete_cheight (s : State) : (s.complete).cheight = s.cheight := rfl
@[simp] theorem State.complete_paddr (s : State) : (s.complete).paddr = s.paddr := rfl
@[simp] theorem State.complete_qtab (s : State) : (s.complete).qtab = s.seq.work.qtab.getD s.qtab := rfl
@[simp] theorem State.complete_qtabv (s : State) : (s.complete).qtabv = (s.qtabv || s.seq.work.qtab.isSome) := rfl
@[simp] theorem State.complete_tab (s : State) : (s.complete).tab = s.seq.work.tab.getD s.tab := rfl
@[simp] theorem State.complete_freq (s : State) : (s.complete).freq = s.seq.work.freq.getD s.freq := rfl
@[simp] theorem State.complete_bp (s : State) : (s.complete).bp = s.bp := rfl
@[simp] theorem State.complete_seq (s : State) : (s.complete).seq = Seq.idle := rfl
@[simp] theorem State.complete_lmem (s : State) : (s.complete).lmem = s.lmem := rfl
@[simp] theorem State.complete_epoch (s : State) : (s.complete).epoch = s.epoch := rfl
@[simp] theorem State.complete_draws (s : State) : (s.complete).draws = s.draws := rfl
@[simp] theorem State.complete_inbox (s : State) : (s.complete).inbox = s.inbox := rfl
@[simp] theorem State.complete_reply (s : State) : (s.complete).reply = s.reply := rfl
@[simp] theorem State.complete_readByte (s : State) (x : Nat) :
    (s.complete).readByte x = s.readByte x := rfl

/-! ### State.enterPhase -/

@[simp] theorem State.enterPhase_params (s : State) (g : Stage) : (s.enterPhase g).params = s.params := rfl
@[simp] theorem State.enterPhase_rst (s : State) (g : Stage) : (s.enterPhase g).rst = s.rst := rfl
@[simp] theorem State.enterPhase_ieDone (s : State) (g : Stage) : (s.enterPhase g).ieDone = s.ieDone := rfl
@[simp] theorem State.enterPhase_ieErr (s : State) (g : Stage) : (s.enterPhase g).ieErr = s.ieErr := rfl
@[simp] theorem State.enterPhase_workers (s : State) (g : Stage) : (s.enterPhase g).workers = s.workers := rfl
@[simp] theorem State.enterPhase_done (s : State) (g : Stage) : (s.enterPhase g).done = s.done := rfl
@[simp] theorem State.enterPhase_err (s : State) (g : Stage) : (s.enterPhase g).err = s.err := rfl
@[simp] theorem State.enterPhase_qnf (s : State) (g : Stage) : (s.enterPhase g).qnf = s.qnf := rfl
@[simp] theorem State.enterPhase_drop (s : State) (g : Stage) : (s.enterPhase g).drop = s.drop := rfl
@[simp] theorem State.enterPhase_errCode (s : State) (g : Stage) : (s.enterPhase g).errCode = s.errCode := rfl
@[simp] theorem State.enterPhase_errStage (s : State) (g : Stage) : (s.enterPhase g).errStage = s.errStage := rfl
@[simp] theorem State.enterPhase_lastOp (s : State) (g : Stage) : (s.enterPhase g).lastOp = s.lastOp := rfl
@[simp] theorem State.enterPhase_errInfo (s : State) (g : Stage) : (s.enterPhase g).errInfo = s.errInfo := rfl
@[simp] theorem State.enterPhase_opr (s : State) (g : Stage) : (s.enterPhase g).opr = s.opr := rfl
@[simp] theorem State.enterPhase_outlen (s : State) (g : Stage) : (s.enterPhase g).outlen = s.outlen := rfl
@[simp] theorem State.enterPhase_cwidth (s : State) (g : Stage) : (s.enterPhase g).cwidth = s.cwidth := rfl
@[simp] theorem State.enterPhase_cheight (s : State) (g : Stage) : (s.enterPhase g).cheight = s.cheight := rfl
@[simp] theorem State.enterPhase_paddr (s : State) (g : Stage) : (s.enterPhase g).paddr = s.paddr := rfl
@[simp] theorem State.enterPhase_qtab (s : State) (g : Stage) : (s.enterPhase g).qtab = s.qtab := rfl
@[simp] theorem State.enterPhase_qtabv (s : State) (g : Stage) : (s.enterPhase g).qtabv = s.qtabv := rfl
@[simp] theorem State.enterPhase_tab (s : State) (g : Stage) : (s.enterPhase g).tab = s.tab := rfl
@[simp] theorem State.enterPhase_freq (s : State) (g : Stage) : (s.enterPhase g).freq = s.freq := rfl
@[simp] theorem State.enterPhase_bp (s : State) (g : Stage) : (s.enterPhase g).bp = s.bp := rfl
@[simp] theorem State.enterPhase_seq (s : State) (g : Stage) :
    (s.enterPhase g).seq =
      { s.seq with phase := g } := rfl
@[simp] theorem State.enterPhase_lmem (s : State) (g : Stage) : (s.enterPhase g).lmem = s.lmem := rfl
@[simp] theorem State.enterPhase_epoch (s : State) (g : Stage) : (s.enterPhase g).epoch = s.epoch := rfl
@[simp] theorem State.enterPhase_draws (s : State) (g : Stage) : (s.enterPhase g).draws = s.draws := rfl
@[simp] theorem State.enterPhase_inbox (s : State) (g : Stage) : (s.enterPhase g).inbox = s.inbox := rfl
@[simp] theorem State.enterPhase_reply (s : State) (g : Stage) : (s.enterPhase g).reply = s.reply := rfl
@[simp] theorem State.enterPhase_readByte (s : State) (g : Stage) (x : Nat) :
    (s.enterPhase g).readByte x = s.readByte x := rfl

/-! ### State.setWorkQtab -/

@[simp] theorem State.setWorkQtab_params (s : State) (t : Vector Word 64) :
    (s.setWorkQtab t).params =
      s.params := rfl
@[simp] theorem State.setWorkQtab_rst (s : State) (t : Vector Word 64) : (s.setWorkQtab t).rst = s.rst := rfl
@[simp] theorem State.setWorkQtab_ieDone (s : State) (t : Vector Word 64) :
    (s.setWorkQtab t).ieDone =
      s.ieDone := rfl
@[simp] theorem State.setWorkQtab_ieErr (s : State) (t : Vector Word 64) : (s.setWorkQtab t).ieErr = s.ieErr := rfl
@[simp] theorem State.setWorkQtab_workers (s : State) (t : Vector Word 64) :
    (s.setWorkQtab t).workers =
      s.workers := rfl
@[simp] theorem State.setWorkQtab_done (s : State) (t : Vector Word 64) : (s.setWorkQtab t).done = s.done := rfl
@[simp] theorem State.setWorkQtab_err (s : State) (t : Vector Word 64) : (s.setWorkQtab t).err = s.err := rfl
@[simp] theorem State.setWorkQtab_qnf (s : State) (t : Vector Word 64) : (s.setWorkQtab t).qnf = s.qnf := rfl
@[simp] theorem State.setWorkQtab_drop (s : State) (t : Vector Word 64) : (s.setWorkQtab t).drop = s.drop := rfl
@[simp] theorem State.setWorkQtab_errCode (s : State) (t : Vector Word 64) :
    (s.setWorkQtab t).errCode =
      s.errCode := rfl
@[simp] theorem State.setWorkQtab_errStage (s : State) (t : Vector Word 64) :
    (s.setWorkQtab t).errStage =
      s.errStage := rfl
@[simp] theorem State.setWorkQtab_lastOp (s : State) (t : Vector Word 64) :
    (s.setWorkQtab t).lastOp =
      s.lastOp := rfl
@[simp] theorem State.setWorkQtab_errInfo (s : State) (t : Vector Word 64) :
    (s.setWorkQtab t).errInfo =
      s.errInfo := rfl
@[simp] theorem State.setWorkQtab_opr (s : State) (t : Vector Word 64) : (s.setWorkQtab t).opr = s.opr := rfl
@[simp] theorem State.setWorkQtab_outlen (s : State) (t : Vector Word 64) :
    (s.setWorkQtab t).outlen =
      s.outlen := rfl
@[simp] theorem State.setWorkQtab_cwidth (s : State) (t : Vector Word 64) :
    (s.setWorkQtab t).cwidth =
      s.cwidth := rfl
@[simp] theorem State.setWorkQtab_cheight (s : State) (t : Vector Word 64) :
    (s.setWorkQtab t).cheight =
      s.cheight := rfl
@[simp] theorem State.setWorkQtab_paddr (s : State) (t : Vector Word 64) : (s.setWorkQtab t).paddr = s.paddr := rfl
@[simp] theorem State.setWorkQtab_qtab (s : State) (t : Vector Word 64) : (s.setWorkQtab t).qtab = s.qtab := rfl
@[simp] theorem State.setWorkQtab_qtabv (s : State) (t : Vector Word 64) : (s.setWorkQtab t).qtabv = s.qtabv := rfl
@[simp] theorem State.setWorkQtab_tab (s : State) (t : Vector Word 64) : (s.setWorkQtab t).tab = s.tab := rfl
@[simp] theorem State.setWorkQtab_freq (s : State) (t : Vector Word 64) : (s.setWorkQtab t).freq = s.freq := rfl
@[simp] theorem State.setWorkQtab_bp (s : State) (t : Vector Word 64) : (s.setWorkQtab t).bp = s.bp := rfl
@[simp] theorem State.setWorkQtab_seq (s : State) (t : Vector Word 64) :
    (s.setWorkQtab t).seq =
      { s.seq with work := { s.seq.work with qtab := some t } } := rfl
@[simp] theorem State.setWorkQtab_lmem (s : State) (t : Vector Word 64) : (s.setWorkQtab t).lmem = s.lmem := rfl
@[simp] theorem State.setWorkQtab_epoch (s : State) (t : Vector Word 64) : (s.setWorkQtab t).epoch = s.epoch := rfl
@[simp] theorem State.setWorkQtab_draws (s : State) (t : Vector Word 64) : (s.setWorkQtab t).draws = s.draws := rfl
@[simp] theorem State.setWorkQtab_inbox (s : State) (t : Vector Word 64) : (s.setWorkQtab t).inbox = s.inbox := rfl
@[simp] theorem State.setWorkQtab_reply (s : State) (t : Vector Word 64) : (s.setWorkQtab t).reply = s.reply := rfl
@[simp] theorem State.setWorkQtab_readByte (s : State) (t : Vector Word 64) (x : Nat) :
    (s.setWorkQtab t).readByte x = s.readByte x := rfl

/-! ### State.setWorkFreq -/

@[simp] theorem State.setWorkFreq_params (s : State) (f : Vector Word 256) :
    (s.setWorkFreq f).params =
      s.params := rfl
@[simp] theorem State.setWorkFreq_rst (s : State) (f : Vector Word 256) : (s.setWorkFreq f).rst = s.rst := rfl
@[simp] theorem State.setWorkFreq_ieDone (s : State) (f : Vector Word 256) :
    (s.setWorkFreq f).ieDone =
      s.ieDone := rfl
@[simp] theorem State.setWorkFreq_ieErr (s : State) (f : Vector Word 256) :
    (s.setWorkFreq f).ieErr =
      s.ieErr := rfl
@[simp] theorem State.setWorkFreq_workers (s : State) (f : Vector Word 256) :
    (s.setWorkFreq f).workers =
      s.workers := rfl
@[simp] theorem State.setWorkFreq_done (s : State) (f : Vector Word 256) : (s.setWorkFreq f).done = s.done := rfl
@[simp] theorem State.setWorkFreq_err (s : State) (f : Vector Word 256) : (s.setWorkFreq f).err = s.err := rfl
@[simp] theorem State.setWorkFreq_qnf (s : State) (f : Vector Word 256) : (s.setWorkFreq f).qnf = s.qnf := rfl
@[simp] theorem State.setWorkFreq_drop (s : State) (f : Vector Word 256) : (s.setWorkFreq f).drop = s.drop := rfl
@[simp] theorem State.setWorkFreq_errCode (s : State) (f : Vector Word 256) :
    (s.setWorkFreq f).errCode =
      s.errCode := rfl
@[simp] theorem State.setWorkFreq_errStage (s : State) (f : Vector Word 256) :
    (s.setWorkFreq f).errStage =
      s.errStage := rfl
@[simp] theorem State.setWorkFreq_lastOp (s : State) (f : Vector Word 256) :
    (s.setWorkFreq f).lastOp =
      s.lastOp := rfl
@[simp] theorem State.setWorkFreq_errInfo (s : State) (f : Vector Word 256) :
    (s.setWorkFreq f).errInfo =
      s.errInfo := rfl
@[simp] theorem State.setWorkFreq_opr (s : State) (f : Vector Word 256) : (s.setWorkFreq f).opr = s.opr := rfl
@[simp] theorem State.setWorkFreq_outlen (s : State) (f : Vector Word 256) :
    (s.setWorkFreq f).outlen =
      s.outlen := rfl
@[simp] theorem State.setWorkFreq_cwidth (s : State) (f : Vector Word 256) :
    (s.setWorkFreq f).cwidth =
      s.cwidth := rfl
@[simp] theorem State.setWorkFreq_cheight (s : State) (f : Vector Word 256) :
    (s.setWorkFreq f).cheight =
      s.cheight := rfl
@[simp] theorem State.setWorkFreq_paddr (s : State) (f : Vector Word 256) :
    (s.setWorkFreq f).paddr =
      s.paddr := rfl
@[simp] theorem State.setWorkFreq_qtab (s : State) (f : Vector Word 256) : (s.setWorkFreq f).qtab = s.qtab := rfl
@[simp] theorem State.setWorkFreq_qtabv (s : State) (f : Vector Word 256) :
    (s.setWorkFreq f).qtabv =
      s.qtabv := rfl
@[simp] theorem State.setWorkFreq_tab (s : State) (f : Vector Word 256) : (s.setWorkFreq f).tab = s.tab := rfl
@[simp] theorem State.setWorkFreq_freq (s : State) (f : Vector Word 256) : (s.setWorkFreq f).freq = s.freq := rfl
@[simp] theorem State.setWorkFreq_bp (s : State) (f : Vector Word 256) : (s.setWorkFreq f).bp = s.bp := rfl
@[simp] theorem State.setWorkFreq_seq (s : State) (f : Vector Word 256) :
    (s.setWorkFreq f).seq =
      { s.seq with work := { s.seq.work with freq := some f } } := rfl
@[simp] theorem State.setWorkFreq_lmem (s : State) (f : Vector Word 256) : (s.setWorkFreq f).lmem = s.lmem := rfl
@[simp] theorem State.setWorkFreq_epoch (s : State) (f : Vector Word 256) :
    (s.setWorkFreq f).epoch =
      s.epoch := rfl
@[simp] theorem State.setWorkFreq_draws (s : State) (f : Vector Word 256) :
    (s.setWorkFreq f).draws =
      s.draws := rfl
@[simp] theorem State.setWorkFreq_inbox (s : State) (f : Vector Word 256) :
    (s.setWorkFreq f).inbox =
      s.inbox := rfl
@[simp] theorem State.setWorkFreq_reply (s : State) (f : Vector Word 256) :
    (s.setWorkFreq f).reply =
      s.reply := rfl
@[simp] theorem State.setWorkFreq_readByte (s : State) (f : Vector Word 256) (x : Nat) :
    (s.setWorkFreq f).readByte x = s.readByte x := rfl

/-! ### State.setWorkTab -/

@[simp] theorem State.setWorkTab_params (s : State) (t : Vector CodeEntry 256) :
    (s.setWorkTab t).params =
      s.params := rfl
@[simp] theorem State.setWorkTab_rst (s : State) (t : Vector CodeEntry 256) : (s.setWorkTab t).rst = s.rst := rfl
@[simp] theorem State.setWorkTab_ieDone (s : State) (t : Vector CodeEntry 256) :
    (s.setWorkTab t).ieDone =
      s.ieDone := rfl
@[simp] theorem State.setWorkTab_ieErr (s : State) (t : Vector CodeEntry 256) :
    (s.setWorkTab t).ieErr =
      s.ieErr := rfl
@[simp] theorem State.setWorkTab_workers (s : State) (t : Vector CodeEntry 256) :
    (s.setWorkTab t).workers =
      s.workers := rfl
@[simp] theorem State.setWorkTab_done (s : State) (t : Vector CodeEntry 256) :
    (s.setWorkTab t).done =
      s.done := rfl
@[simp] theorem State.setWorkTab_err (s : State) (t : Vector CodeEntry 256) : (s.setWorkTab t).err = s.err := rfl
@[simp] theorem State.setWorkTab_qnf (s : State) (t : Vector CodeEntry 256) : (s.setWorkTab t).qnf = s.qnf := rfl
@[simp] theorem State.setWorkTab_drop (s : State) (t : Vector CodeEntry 256) :
    (s.setWorkTab t).drop =
      s.drop := rfl
@[simp] theorem State.setWorkTab_errCode (s : State) (t : Vector CodeEntry 256) :
    (s.setWorkTab t).errCode =
      s.errCode := rfl
@[simp] theorem State.setWorkTab_errStage (s : State) (t : Vector CodeEntry 256) :
    (s.setWorkTab t).errStage =
      s.errStage := rfl
@[simp] theorem State.setWorkTab_lastOp (s : State) (t : Vector CodeEntry 256) :
    (s.setWorkTab t).lastOp =
      s.lastOp := rfl
@[simp] theorem State.setWorkTab_errInfo (s : State) (t : Vector CodeEntry 256) :
    (s.setWorkTab t).errInfo =
      s.errInfo := rfl
@[simp] theorem State.setWorkTab_opr (s : State) (t : Vector CodeEntry 256) : (s.setWorkTab t).opr = s.opr := rfl
@[simp] theorem State.setWorkTab_outlen (s : State) (t : Vector CodeEntry 256) :
    (s.setWorkTab t).outlen =
      s.outlen := rfl
@[simp] theorem State.setWorkTab_cwidth (s : State) (t : Vector CodeEntry 256) :
    (s.setWorkTab t).cwidth =
      s.cwidth := rfl
@[simp] theorem State.setWorkTab_cheight (s : State) (t : Vector CodeEntry 256) :
    (s.setWorkTab t).cheight =
      s.cheight := rfl
@[simp] theorem State.setWorkTab_paddr (s : State) (t : Vector CodeEntry 256) :
    (s.setWorkTab t).paddr =
      s.paddr := rfl
@[simp] theorem State.setWorkTab_qtab (s : State) (t : Vector CodeEntry 256) :
    (s.setWorkTab t).qtab =
      s.qtab := rfl
@[simp] theorem State.setWorkTab_qtabv (s : State) (t : Vector CodeEntry 256) :
    (s.setWorkTab t).qtabv =
      s.qtabv := rfl
@[simp] theorem State.setWorkTab_tab (s : State) (t : Vector CodeEntry 256) : (s.setWorkTab t).tab = s.tab := rfl
@[simp] theorem State.setWorkTab_freq (s : State) (t : Vector CodeEntry 256) :
    (s.setWorkTab t).freq =
      s.freq := rfl
@[simp] theorem State.setWorkTab_bp (s : State) (t : Vector CodeEntry 256) : (s.setWorkTab t).bp = s.bp := rfl
@[simp] theorem State.setWorkTab_seq (s : State) (t : Vector CodeEntry 256) :
    (s.setWorkTab t).seq =
      { s.seq with work := { s.seq.work with tab := some t } } := rfl
@[simp] theorem State.setWorkTab_lmem (s : State) (t : Vector CodeEntry 256) :
    (s.setWorkTab t).lmem =
      s.lmem := rfl
@[simp] theorem State.setWorkTab_epoch (s : State) (t : Vector CodeEntry 256) :
    (s.setWorkTab t).epoch =
      s.epoch := rfl
@[simp] theorem State.setWorkTab_draws (s : State) (t : Vector CodeEntry 256) :
    (s.setWorkTab t).draws =
      s.draws := rfl
@[simp] theorem State.setWorkTab_inbox (s : State) (t : Vector CodeEntry 256) :
    (s.setWorkTab t).inbox =
      s.inbox := rfl
@[simp] theorem State.setWorkTab_reply (s : State) (t : Vector CodeEntry 256) :
    (s.setWorkTab t).reply =
      s.reply := rfl
@[simp] theorem State.setWorkTab_readByte (s : State) (t : Vector CodeEntry 256) (x : Nat) :
    (s.setWorkTab t).readByte x = s.readByte x := rfl

/-! ### State.setWorklist -/

@[simp] theorem State.setWorklist_params (s : State) (l : List (Nat × HufTree)) :
    (s.setWorklist l).params =
      s.params := rfl
@[simp] theorem State.setWorklist_rst (s : State) (l : List (Nat × HufTree)) : (s.setWorklist l).rst = s.rst := rfl
@[simp] theorem State.setWorklist_ieDone (s : State) (l : List (Nat × HufTree)) :
    (s.setWorklist l).ieDone =
      s.ieDone := rfl
@[simp] theorem State.setWorklist_ieErr (s : State) (l : List (Nat × HufTree)) :
    (s.setWorklist l).ieErr =
      s.ieErr := rfl
@[simp] theorem State.setWorklist_workers (s : State) (l : List (Nat × HufTree)) :
    (s.setWorklist l).workers =
      s.workers := rfl
@[simp] theorem State.setWorklist_done (s : State) (l : List (Nat × HufTree)) :
    (s.setWorklist l).done =
      s.done := rfl
@[simp] theorem State.setWorklist_err (s : State) (l : List (Nat × HufTree)) : (s.setWorklist l).err = s.err := rfl
@[simp] theorem State.setWorklist_qnf (s : State) (l : List (Nat × HufTree)) : (s.setWorklist l).qnf = s.qnf := rfl
@[simp] theorem State.setWorklist_drop (s : State) (l : List (Nat × HufTree)) :
    (s.setWorklist l).drop =
      s.drop := rfl
@[simp] theorem State.setWorklist_errCode (s : State) (l : List (Nat × HufTree)) :
    (s.setWorklist l).errCode =
      s.errCode := rfl
@[simp] theorem State.setWorklist_errStage (s : State) (l : List (Nat × HufTree)) :
    (s.setWorklist l).errStage =
      s.errStage := rfl
@[simp] theorem State.setWorklist_lastOp (s : State) (l : List (Nat × HufTree)) :
    (s.setWorklist l).lastOp =
      s.lastOp := rfl
@[simp] theorem State.setWorklist_errInfo (s : State) (l : List (Nat × HufTree)) :
    (s.setWorklist l).errInfo =
      s.errInfo := rfl
@[simp] theorem State.setWorklist_opr (s : State) (l : List (Nat × HufTree)) : (s.setWorklist l).opr = s.opr := rfl
@[simp] theorem State.setWorklist_outlen (s : State) (l : List (Nat × HufTree)) :
    (s.setWorklist l).outlen =
      s.outlen := rfl
@[simp] theorem State.setWorklist_cwidth (s : State) (l : List (Nat × HufTree)) :
    (s.setWorklist l).cwidth =
      s.cwidth := rfl
@[simp] theorem State.setWorklist_cheight (s : State) (l : List (Nat × HufTree)) :
    (s.setWorklist l).cheight =
      s.cheight := rfl
@[simp] theorem State.setWorklist_paddr (s : State) (l : List (Nat × HufTree)) :
    (s.setWorklist l).paddr =
      s.paddr := rfl
@[simp] theorem State.setWorklist_qtab (s : State) (l : List (Nat × HufTree)) :
    (s.setWorklist l).qtab =
      s.qtab := rfl
@[simp] theorem State.setWorklist_qtabv (s : State) (l : List (Nat × HufTree)) :
    (s.setWorklist l).qtabv =
      s.qtabv := rfl
@[simp] theorem State.setWorklist_tab (s : State) (l : List (Nat × HufTree)) : (s.setWorklist l).tab = s.tab := rfl
@[simp] theorem State.setWorklist_freq (s : State) (l : List (Nat × HufTree)) :
    (s.setWorklist l).freq =
      s.freq := rfl
@[simp] theorem State.setWorklist_bp (s : State) (l : List (Nat × HufTree)) : (s.setWorklist l).bp = s.bp := rfl
@[simp] theorem State.setWorklist_seq (s : State) (l : List (Nat × HufTree)) :
    (s.setWorklist l).seq =
      { s.seq with worklist := l } := rfl
@[simp] theorem State.setWorklist_lmem (s : State) (l : List (Nat × HufTree)) :
    (s.setWorklist l).lmem =
      s.lmem := rfl
@[simp] theorem State.setWorklist_epoch (s : State) (l : List (Nat × HufTree)) :
    (s.setWorklist l).epoch =
      s.epoch := rfl
@[simp] theorem State.setWorklist_draws (s : State) (l : List (Nat × HufTree)) :
    (s.setWorklist l).draws =
      s.draws := rfl
@[simp] theorem State.setWorklist_inbox (s : State) (l : List (Nat × HufTree)) :
    (s.setWorklist l).inbox =
      s.inbox := rfl
@[simp] theorem State.setWorklist_reply (s : State) (l : List (Nat × HufTree)) :
    (s.setWorklist l).reply =
      s.reply := rfl
@[simp] theorem State.setWorklist_readByte (s : State) (l : List (Nat × HufTree)) (x : Nat) :
    (s.setWorklist l).readByte x = s.readByte x := rfl

/-! ### State.qnfEvent -/

@[simp] theorem State.qnfEvent_params (s : State) (happened : Bool) :
    (s.qnfEvent happened).params =
      s.params := rfl
@[simp] theorem State.qnfEvent_rst (s : State) (happened : Bool) : (s.qnfEvent happened).rst = s.rst := rfl
@[simp] theorem State.qnfEvent_ieDone (s : State) (happened : Bool) :
    (s.qnfEvent happened).ieDone =
      s.ieDone := rfl
@[simp] theorem State.qnfEvent_ieErr (s : State) (happened : Bool) : (s.qnfEvent happened).ieErr = s.ieErr := rfl
@[simp] theorem State.qnfEvent_workers (s : State) (happened : Bool) :
    (s.qnfEvent happened).workers =
      s.workers := rfl
@[simp] theorem State.qnfEvent_done (s : State) (happened : Bool) : (s.qnfEvent happened).done = s.done := rfl
@[simp] theorem State.qnfEvent_err (s : State) (happened : Bool) : (s.qnfEvent happened).err = s.err := rfl
@[simp] theorem State.qnfEvent_qnf (s : State) (happened : Bool) :
    (s.qnfEvent happened).qnf =
      (s.qnf || happened) := rfl
@[simp] theorem State.qnfEvent_drop (s : State) (happened : Bool) : (s.qnfEvent happened).drop = s.drop := rfl
@[simp] theorem State.qnfEvent_errCode (s : State) (happened : Bool) :
    (s.qnfEvent happened).errCode =
      s.errCode := rfl
@[simp] theorem State.qnfEvent_errStage (s : State) (happened : Bool) :
    (s.qnfEvent happened).errStage =
      s.errStage := rfl
@[simp] theorem State.qnfEvent_lastOp (s : State) (happened : Bool) :
    (s.qnfEvent happened).lastOp =
      s.lastOp := rfl
@[simp] theorem State.qnfEvent_errInfo (s : State) (happened : Bool) :
    (s.qnfEvent happened).errInfo =
      s.errInfo := rfl
@[simp] theorem State.qnfEvent_opr (s : State) (happened : Bool) : (s.qnfEvent happened).opr = s.opr := rfl
@[simp] theorem State.qnfEvent_outlen (s : State) (happened : Bool) :
    (s.qnfEvent happened).outlen =
      s.outlen := rfl
@[simp] theorem State.qnfEvent_cwidth (s : State) (happened : Bool) :
    (s.qnfEvent happened).cwidth =
      s.cwidth := rfl
@[simp] theorem State.qnfEvent_cheight (s : State) (happened : Bool) :
    (s.qnfEvent happened).cheight =
      s.cheight := rfl
@[simp] theorem State.qnfEvent_paddr (s : State) (happened : Bool) : (s.qnfEvent happened).paddr = s.paddr := rfl
@[simp] theorem State.qnfEvent_qtab (s : State) (happened : Bool) : (s.qnfEvent happened).qtab = s.qtab := rfl
@[simp] theorem State.qnfEvent_qtabv (s : State) (happened : Bool) : (s.qnfEvent happened).qtabv = s.qtabv := rfl
@[simp] theorem State.qnfEvent_tab (s : State) (happened : Bool) : (s.qnfEvent happened).tab = s.tab := rfl
@[simp] theorem State.qnfEvent_freq (s : State) (happened : Bool) : (s.qnfEvent happened).freq = s.freq := rfl
@[simp] theorem State.qnfEvent_bp (s : State) (happened : Bool) : (s.qnfEvent happened).bp = s.bp := rfl
@[simp] theorem State.qnfEvent_seq (s : State) (happened : Bool) : (s.qnfEvent happened).seq = s.seq := rfl
@[simp] theorem State.qnfEvent_lmem (s : State) (happened : Bool) : (s.qnfEvent happened).lmem = s.lmem := rfl
@[simp] theorem State.qnfEvent_epoch (s : State) (happened : Bool) : (s.qnfEvent happened).epoch = s.epoch := rfl
@[simp] theorem State.qnfEvent_draws (s : State) (happened : Bool) : (s.qnfEvent happened).draws = s.draws := rfl
@[simp] theorem State.qnfEvent_inbox (s : State) (happened : Bool) : (s.qnfEvent happened).inbox = s.inbox := rfl
@[simp] theorem State.qnfEvent_reply (s : State) (happened : Bool) : (s.qnfEvent happened).reply = s.reply := rfl
@[simp] theorem State.qnfEvent_readByte (s : State) (happened : Bool) (x : Nat) :
    (s.qnfEvent happened).readByte x = s.readByte x := rfl

/-! ### State.markTask -/

@[simp] theorem State.markTask_params (s : State) (t : Nat) : (s.markTask t).params = s.params := rfl
@[simp] theorem State.markTask_rst (s : State) (t : Nat) : (s.markTask t).rst = s.rst := rfl
@[simp] theorem State.markTask_ieDone (s : State) (t : Nat) : (s.markTask t).ieDone = s.ieDone := rfl
@[simp] theorem State.markTask_ieErr (s : State) (t : Nat) : (s.markTask t).ieErr = s.ieErr := rfl
@[simp] theorem State.markTask_workers (s : State) (t : Nat) : (s.markTask t).workers = s.workers := rfl
@[simp] theorem State.markTask_done (s : State) (t : Nat) : (s.markTask t).done = s.done := rfl
@[simp] theorem State.markTask_err (s : State) (t : Nat) : (s.markTask t).err = s.err := rfl
@[simp] theorem State.markTask_qnf (s : State) (t : Nat) : (s.markTask t).qnf = s.qnf := rfl
@[simp] theorem State.markTask_drop (s : State) (t : Nat) : (s.markTask t).drop = s.drop := rfl
@[simp] theorem State.markTask_errCode (s : State) (t : Nat) : (s.markTask t).errCode = s.errCode := rfl
@[simp] theorem State.markTask_errStage (s : State) (t : Nat) : (s.markTask t).errStage = s.errStage := rfl
@[simp] theorem State.markTask_lastOp (s : State) (t : Nat) : (s.markTask t).lastOp = s.lastOp := rfl
@[simp] theorem State.markTask_errInfo (s : State) (t : Nat) : (s.markTask t).errInfo = s.errInfo := rfl
@[simp] theorem State.markTask_opr (s : State) (t : Nat) : (s.markTask t).opr = s.opr := rfl
@[simp] theorem State.markTask_outlen (s : State) (t : Nat) : (s.markTask t).outlen = s.outlen := rfl
@[simp] theorem State.markTask_cwidth (s : State) (t : Nat) : (s.markTask t).cwidth = s.cwidth := rfl
@[simp] theorem State.markTask_cheight (s : State) (t : Nat) : (s.markTask t).cheight = s.cheight := rfl
@[simp] theorem State.markTask_paddr (s : State) (t : Nat) : (s.markTask t).paddr = s.paddr := rfl
@[simp] theorem State.markTask_qtab (s : State) (t : Nat) : (s.markTask t).qtab = s.qtab := rfl
@[simp] theorem State.markTask_qtabv (s : State) (t : Nat) : (s.markTask t).qtabv = s.qtabv := rfl
@[simp] theorem State.markTask_tab (s : State) (t : Nat) : (s.markTask t).tab = s.tab := rfl
@[simp] theorem State.markTask_freq (s : State) (t : Nat) : (s.markTask t).freq = s.freq := rfl
@[simp] theorem State.markTask_bp (s : State) (t : Nat) : (s.markTask t).bp = s.bp := rfl
@[simp] theorem State.markTask_seq (s : State) (t : Nat) :
    (s.markTask t).seq =
      { s.seq with tasksDone := t :: s.seq.tasksDone } := rfl
@[simp] theorem State.markTask_lmem (s : State) (t : Nat) : (s.markTask t).lmem = s.lmem := rfl
@[simp] theorem State.markTask_epoch (s : State) (t : Nat) : (s.markTask t).epoch = s.epoch := rfl
@[simp] theorem State.markTask_draws (s : State) (t : Nat) : (s.markTask t).draws = s.draws := rfl
@[simp] theorem State.markTask_inbox (s : State) (t : Nat) : (s.markTask t).inbox = s.inbox := rfl
@[simp] theorem State.markTask_reply (s : State) (t : Nat) : (s.markTask t).reply = s.reply := rfl
@[simp] theorem State.markTask_readByte (s : State) (t : Nat) (x : Nat) :
    (s.markTask t).readByte x = s.readByte x := rfl

/-! ### State.setOutlen -/

@[simp] theorem State.setOutlen_params (s : State) (n : Nat) : (s.setOutlen n).params = s.params := rfl
@[simp] theorem State.setOutlen_rst (s : State) (n : Nat) : (s.setOutlen n).rst = s.rst := rfl
@[simp] theorem State.setOutlen_ieDone (s : State) (n : Nat) : (s.setOutlen n).ieDone = s.ieDone := rfl
@[simp] theorem State.setOutlen_ieErr (s : State) (n : Nat) : (s.setOutlen n).ieErr = s.ieErr := rfl
@[simp] theorem State.setOutlen_workers (s : State) (n : Nat) : (s.setOutlen n).workers = s.workers := rfl
@[simp] theorem State.setOutlen_done (s : State) (n : Nat) : (s.setOutlen n).done = s.done := rfl
@[simp] theorem State.setOutlen_err (s : State) (n : Nat) : (s.setOutlen n).err = s.err := rfl
@[simp] theorem State.setOutlen_qnf (s : State) (n : Nat) : (s.setOutlen n).qnf = s.qnf := rfl
@[simp] theorem State.setOutlen_drop (s : State) (n : Nat) : (s.setOutlen n).drop = s.drop := rfl
@[simp] theorem State.setOutlen_errCode (s : State) (n : Nat) : (s.setOutlen n).errCode = s.errCode := rfl
@[simp] theorem State.setOutlen_errStage (s : State) (n : Nat) : (s.setOutlen n).errStage = s.errStage := rfl
@[simp] theorem State.setOutlen_lastOp (s : State) (n : Nat) : (s.setOutlen n).lastOp = s.lastOp := rfl
@[simp] theorem State.setOutlen_errInfo (s : State) (n : Nat) : (s.setOutlen n).errInfo = s.errInfo := rfl
@[simp] theorem State.setOutlen_opr (s : State) (n : Nat) : (s.setOutlen n).opr = s.opr := rfl
@[simp] theorem State.setOutlen_outlen (s : State) (n : Nat) : (s.setOutlen n).outlen = u32 n := rfl
@[simp] theorem State.setOutlen_cwidth (s : State) (n : Nat) : (s.setOutlen n).cwidth = s.cwidth := rfl
@[simp] theorem State.setOutlen_cheight (s : State) (n : Nat) : (s.setOutlen n).cheight = s.cheight := rfl
@[simp] theorem State.setOutlen_paddr (s : State) (n : Nat) : (s.setOutlen n).paddr = s.paddr := rfl
@[simp] theorem State.setOutlen_qtab (s : State) (n : Nat) : (s.setOutlen n).qtab = s.qtab := rfl
@[simp] theorem State.setOutlen_qtabv (s : State) (n : Nat) : (s.setOutlen n).qtabv = s.qtabv := rfl
@[simp] theorem State.setOutlen_tab (s : State) (n : Nat) : (s.setOutlen n).tab = s.tab := rfl
@[simp] theorem State.setOutlen_freq (s : State) (n : Nat) : (s.setOutlen n).freq = s.freq := rfl
@[simp] theorem State.setOutlen_bp (s : State) (n : Nat) : (s.setOutlen n).bp = s.bp := rfl
@[simp] theorem State.setOutlen_seq (s : State) (n : Nat) : (s.setOutlen n).seq = s.seq := rfl
@[simp] theorem State.setOutlen_lmem (s : State) (n : Nat) : (s.setOutlen n).lmem = s.lmem := rfl
@[simp] theorem State.setOutlen_epoch (s : State) (n : Nat) : (s.setOutlen n).epoch = s.epoch := rfl
@[simp] theorem State.setOutlen_draws (s : State) (n : Nat) : (s.setOutlen n).draws = s.draws := rfl
@[simp] theorem State.setOutlen_inbox (s : State) (n : Nat) : (s.setOutlen n).inbox = s.inbox := rfl
@[simp] theorem State.setOutlen_reply (s : State) (n : Nat) : (s.setOutlen n).reply = s.reply := rfl
@[simp] theorem State.setOutlen_readByte (s : State) (n : Nat) (x : Nat) :
    (s.setOutlen n).readByte x = s.readByte x := rfl

/-! ### State.setBitcnt -/

@[simp] theorem State.setBitcnt_params (s : State) (n : DWord) : (s.setBitcnt n).params = s.params := rfl
@[simp] theorem State.setBitcnt_rst (s : State) (n : DWord) : (s.setBitcnt n).rst = s.rst := rfl
@[simp] theorem State.setBitcnt_ieDone (s : State) (n : DWord) : (s.setBitcnt n).ieDone = s.ieDone := rfl
@[simp] theorem State.setBitcnt_ieErr (s : State) (n : DWord) : (s.setBitcnt n).ieErr = s.ieErr := rfl
@[simp] theorem State.setBitcnt_workers (s : State) (n : DWord) : (s.setBitcnt n).workers = s.workers := rfl
@[simp] theorem State.setBitcnt_done (s : State) (n : DWord) : (s.setBitcnt n).done = s.done := rfl
@[simp] theorem State.setBitcnt_err (s : State) (n : DWord) : (s.setBitcnt n).err = s.err := rfl
@[simp] theorem State.setBitcnt_qnf (s : State) (n : DWord) : (s.setBitcnt n).qnf = s.qnf := rfl
@[simp] theorem State.setBitcnt_drop (s : State) (n : DWord) : (s.setBitcnt n).drop = s.drop := rfl
@[simp] theorem State.setBitcnt_errCode (s : State) (n : DWord) : (s.setBitcnt n).errCode = s.errCode := rfl
@[simp] theorem State.setBitcnt_errStage (s : State) (n : DWord) : (s.setBitcnt n).errStage = s.errStage := rfl
@[simp] theorem State.setBitcnt_lastOp (s : State) (n : DWord) : (s.setBitcnt n).lastOp = s.lastOp := rfl
@[simp] theorem State.setBitcnt_errInfo (s : State) (n : DWord) : (s.setBitcnt n).errInfo = s.errInfo := rfl
@[simp] theorem State.setBitcnt_opr (s : State) (n : DWord) :
    (s.setBitcnt n).opr =
      { s.opr with bitcnt := n } := rfl
@[simp] theorem State.setBitcnt_outlen (s : State) (n : DWord) : (s.setBitcnt n).outlen = s.outlen := rfl
@[simp] theorem State.setBitcnt_cwidth (s : State) (n : DWord) : (s.setBitcnt n).cwidth = s.cwidth := rfl
@[simp] theorem State.setBitcnt_cheight (s : State) (n : DWord) : (s.setBitcnt n).cheight = s.cheight := rfl
@[simp] theorem State.setBitcnt_paddr (s : State) (n : DWord) : (s.setBitcnt n).paddr = s.paddr := rfl
@[simp] theorem State.setBitcnt_qtab (s : State) (n : DWord) : (s.setBitcnt n).qtab = s.qtab := rfl
@[simp] theorem State.setBitcnt_qtabv (s : State) (n : DWord) : (s.setBitcnt n).qtabv = s.qtabv := rfl
@[simp] theorem State.setBitcnt_tab (s : State) (n : DWord) : (s.setBitcnt n).tab = s.tab := rfl
@[simp] theorem State.setBitcnt_freq (s : State) (n : DWord) : (s.setBitcnt n).freq = s.freq := rfl
@[simp] theorem State.setBitcnt_bp (s : State) (n : DWord) : (s.setBitcnt n).bp = s.bp := rfl
@[simp] theorem State.setBitcnt_seq (s : State) (n : DWord) : (s.setBitcnt n).seq = s.seq := rfl
@[simp] theorem State.setBitcnt_lmem (s : State) (n : DWord) : (s.setBitcnt n).lmem = s.lmem := rfl
@[simp] theorem State.setBitcnt_epoch (s : State) (n : DWord) : (s.setBitcnt n).epoch = s.epoch := rfl
@[simp] theorem State.setBitcnt_draws (s : State) (n : DWord) : (s.setBitcnt n).draws = s.draws := rfl
@[simp] theorem State.setBitcnt_inbox (s : State) (n : DWord) : (s.setBitcnt n).inbox = s.inbox := rfl
@[simp] theorem State.setBitcnt_reply (s : State) (n : DWord) : (s.setBitcnt n).reply = s.reply := rfl
@[simp] theorem State.setBitcnt_readByte (s : State) (n : DWord) (x : Nat) :
    (s.setBitcnt n).readByte x = s.readByte x := rfl

/-! ### State.setCropped -/

@[simp] theorem State.setCropped_params (s : State) (w h : Nat) : (s.setCropped w h).params = s.params := rfl
@[simp] theorem State.setCropped_rst (s : State) (w h : Nat) : (s.setCropped w h).rst = s.rst := rfl
@[simp] theorem State.setCropped_ieDone (s : State) (w h : Nat) : (s.setCropped w h).ieDone = s.ieDone := rfl
@[simp] theorem State.setCropped_ieErr (s : State) (w h : Nat) : (s.setCropped w h).ieErr = s.ieErr := rfl
@[simp] theorem State.setCropped_workers (s : State) (w h : Nat) : (s.setCropped w h).workers = s.workers := rfl
@[simp] theorem State.setCropped_done (s : State) (w h : Nat) : (s.setCropped w h).done = s.done := rfl
@[simp] theorem State.setCropped_err (s : State) (w h : Nat) : (s.setCropped w h).err = s.err := rfl
@[simp] theorem State.setCropped_qnf (s : State) (w h : Nat) : (s.setCropped w h).qnf = s.qnf := rfl
@[simp] theorem State.setCropped_drop (s : State) (w h : Nat) : (s.setCropped w h).drop = s.drop := rfl
@[simp] theorem State.setCropped_errCode (s : State) (w h : Nat) : (s.setCropped w h).errCode = s.errCode := rfl
@[simp] theorem State.setCropped_errStage (s : State) (w h : Nat) : (s.setCropped w h).errStage = s.errStage := rfl
@[simp] theorem State.setCropped_lastOp (s : State) (w h : Nat) : (s.setCropped w h).lastOp = s.lastOp := rfl
@[simp] theorem State.setCropped_errInfo (s : State) (w h : Nat) : (s.setCropped w h).errInfo = s.errInfo := rfl
@[simp] theorem State.setCropped_opr (s : State) (w h : Nat) : (s.setCropped w h).opr = s.opr := rfl
@[simp] theorem State.setCropped_outlen (s : State) (w h : Nat) : (s.setCropped w h).outlen = s.outlen := rfl
@[simp] theorem State.setCropped_cwidth (s : State) (w h : Nat) : (s.setCropped w h).cwidth = u32 w := rfl
@[simp] theorem State.setCropped_cheight (s : State) (w h : Nat) : (s.setCropped w h).cheight = u32 h := rfl
@[simp] theorem State.setCropped_paddr (s : State) (w h : Nat) : (s.setCropped w h).paddr = s.paddr := rfl
@[simp] theorem State.setCropped_qtab (s : State) (w h : Nat) : (s.setCropped w h).qtab = s.qtab := rfl
@[simp] theorem State.setCropped_qtabv (s : State) (w h : Nat) : (s.setCropped w h).qtabv = s.qtabv := rfl
@[simp] theorem State.setCropped_tab (s : State) (w h : Nat) : (s.setCropped w h).tab = s.tab := rfl
@[simp] theorem State.setCropped_freq (s : State) (w h : Nat) : (s.setCropped w h).freq = s.freq := rfl
@[simp] theorem State.setCropped_bp (s : State) (w h : Nat) : (s.setCropped w h).bp = s.bp := rfl
@[simp] theorem State.setCropped_seq (s : State) (w h : Nat) : (s.setCropped w h).seq = s.seq := rfl
@[simp] theorem State.setCropped_lmem (s : State) (w h : Nat) : (s.setCropped w h).lmem = s.lmem := rfl
@[simp] theorem State.setCropped_epoch (s : State) (w h : Nat) : (s.setCropped w h).epoch = s.epoch := rfl
@[simp] theorem State.setCropped_draws (s : State) (w h : Nat) : (s.setCropped w h).draws = s.draws := rfl
@[simp] theorem State.setCropped_inbox (s : State) (w h : Nat) : (s.setCropped w h).inbox = s.inbox := rfl
@[simp] theorem State.setCropped_reply (s : State) (w h : Nat) : (s.setCropped w h).reply = s.reply := rfl
@[simp] theorem State.setCropped_readByte (s : State) (w h : Nat) (x : Nat) :
    (s.setCropped w h).readByte x = s.readByte x := rfl

/-! ### State.setPaddr -/

@[simp] theorem State.setPaddr_params (s : State) (a : Nat) : (s.setPaddr a).params = s.params := rfl
@[simp] theorem State.setPaddr_rst (s : State) (a : Nat) : (s.setPaddr a).rst = s.rst := rfl
@[simp] theorem State.setPaddr_ieDone (s : State) (a : Nat) : (s.setPaddr a).ieDone = s.ieDone := rfl
@[simp] theorem State.setPaddr_ieErr (s : State) (a : Nat) : (s.setPaddr a).ieErr = s.ieErr := rfl
@[simp] theorem State.setPaddr_workers (s : State) (a : Nat) : (s.setPaddr a).workers = s.workers := rfl
@[simp] theorem State.setPaddr_done (s : State) (a : Nat) : (s.setPaddr a).done = s.done := rfl
@[simp] theorem State.setPaddr_err (s : State) (a : Nat) : (s.setPaddr a).err = s.err := rfl
@[simp] theorem State.setPaddr_qnf (s : State) (a : Nat) : (s.setPaddr a).qnf = s.qnf := rfl
@[simp] theorem State.setPaddr_drop (s : State) (a : Nat) : (s.setPaddr a).drop = s.drop := rfl
@[simp] theorem State.setPaddr_errCode (s : State) (a : Nat) : (s.setPaddr a).errCode = s.errCode := rfl
@[simp] theorem State.setPaddr_errStage (s : State) (a : Nat) : (s.setPaddr a).errStage = s.errStage := rfl
@[simp] theorem State.setPaddr_lastOp (s : State) (a : Nat) : (s.setPaddr a).lastOp = s.lastOp := rfl
@[simp] theorem State.setPaddr_errInfo (s : State) (a : Nat) : (s.setPaddr a).errInfo = s.errInfo := rfl
@[simp] theorem State.setPaddr_opr (s : State) (a : Nat) : (s.setPaddr a).opr = s.opr := rfl
@[simp] theorem State.setPaddr_outlen (s : State) (a : Nat) : (s.setPaddr a).outlen = s.outlen := rfl
@[simp] theorem State.setPaddr_cwidth (s : State) (a : Nat) : (s.setPaddr a).cwidth = s.cwidth := rfl
@[simp] theorem State.setPaddr_cheight (s : State) (a : Nat) : (s.setPaddr a).cheight = s.cheight := rfl
@[simp] theorem State.setPaddr_paddr (s : State) (a : Nat) : (s.setPaddr a).paddr = u32 a := rfl
@[simp] theorem State.setPaddr_qtab (s : State) (a : Nat) : (s.setPaddr a).qtab = s.qtab := rfl
@[simp] theorem State.setPaddr_qtabv (s : State) (a : Nat) : (s.setPaddr a).qtabv = s.qtabv := rfl
@[simp] theorem State.setPaddr_tab (s : State) (a : Nat) : (s.setPaddr a).tab = s.tab := rfl
@[simp] theorem State.setPaddr_freq (s : State) (a : Nat) : (s.setPaddr a).freq = s.freq := rfl
@[simp] theorem State.setPaddr_bp (s : State) (a : Nat) : (s.setPaddr a).bp = s.bp := rfl
@[simp] theorem State.setPaddr_seq (s : State) (a : Nat) : (s.setPaddr a).seq = s.seq := rfl
@[simp] theorem State.setPaddr_lmem (s : State) (a : Nat) : (s.setPaddr a).lmem = s.lmem := rfl
@[simp] theorem State.setPaddr_epoch (s : State) (a : Nat) : (s.setPaddr a).epoch = s.epoch := rfl
@[simp] theorem State.setPaddr_draws (s : State) (a : Nat) : (s.setPaddr a).draws = s.draws := rfl
@[simp] theorem State.setPaddr_inbox (s : State) (a : Nat) : (s.setPaddr a).inbox = s.inbox := rfl
@[simp] theorem State.setPaddr_reply (s : State) (a : Nat) : (s.setPaddr a).reply = s.reply := rfl
@[simp] theorem State.setPaddr_readByte (s : State) (a : Nat) (x : Nat) :
    (s.setPaddr a).readByte x = s.readByte x := rfl

/-! ### State.writeCtrl -/

@[simp] theorem State.writeCtrl_params (s : State) (w : Word) : (s.writeCtrl w).params = s.params := rfl
@[simp] theorem State.writeCtrl_rst (s : State) (w : Word) : (s.writeCtrl w).rst = s.rst := rfl
@[simp] theorem State.writeCtrl_ieDone (s : State) (w : Word) : (s.writeCtrl w).ieDone = w.getLsbD 0 := rfl
@[simp] theorem State.writeCtrl_ieErr (s : State) (w : Word) : (s.writeCtrl w).ieErr = w.getLsbD 1 := rfl
@[simp] theorem State.writeCtrl_workers (s : State) (w : Word) :
    (s.writeCtrl w).workers =
      clampWorkers s.params (w.extractLsb' 8 8) := rfl
@[simp] theorem State.writeCtrl_done (s : State) (w : Word) : (s.writeCtrl w).done = s.done := rfl
@[simp] theorem State.writeCtrl_err (s : State) (w : Word) : (s.writeCtrl w).err = s.err := rfl
@[simp] theorem State.writeCtrl_qnf (s : State) (w : Word) : (s.writeCtrl w).qnf = s.qnf := rfl
@[simp] theorem State.writeCtrl_drop (s : State) (w : Word) : (s.writeCtrl w).drop = s.drop := rfl
@[simp] theorem State.writeCtrl_errCode (s : State) (w : Word) : (s.writeCtrl w).errCode = s.errCode := rfl
@[simp] theorem State.writeCtrl_errStage (s : State) (w : Word) : (s.writeCtrl w).errStage = s.errStage := rfl
@[simp] theorem State.writeCtrl_lastOp (s : State) (w : Word) : (s.writeCtrl w).lastOp = s.lastOp := rfl
@[simp] theorem State.writeCtrl_errInfo (s : State) (w : Word) : (s.writeCtrl w).errInfo = s.errInfo := rfl
@[simp] theorem State.writeCtrl_opr (s : State) (w : Word) : (s.writeCtrl w).opr = s.opr := rfl
@[simp] theorem State.writeCtrl_outlen (s : State) (w : Word) : (s.writeCtrl w).outlen = s.outlen := rfl
@[simp] theorem State.writeCtrl_cwidth (s : State) (w : Word) : (s.writeCtrl w).cwidth = s.cwidth := rfl
@[simp] theorem State.writeCtrl_cheight (s : State) (w : Word) : (s.writeCtrl w).cheight = s.cheight := rfl
@[simp] theorem State.writeCtrl_paddr (s : State) (w : Word) : (s.writeCtrl w).paddr = s.paddr := rfl
@[simp] theorem State.writeCtrl_qtab (s : State) (w : Word) : (s.writeCtrl w).qtab = s.qtab := rfl
@[simp] theorem State.writeCtrl_qtabv (s : State) (w : Word) : (s.writeCtrl w).qtabv = s.qtabv := rfl
@[simp] theorem State.writeCtrl_tab (s : State) (w : Word) : (s.writeCtrl w).tab = s.tab := rfl
@[simp] theorem State.writeCtrl_freq (s : State) (w : Word) : (s.writeCtrl w).freq = s.freq := rfl
@[simp] theorem State.writeCtrl_bp (s : State) (w : Word) : (s.writeCtrl w).bp = s.bp := rfl
@[simp] theorem State.writeCtrl_seq (s : State) (w : Word) : (s.writeCtrl w).seq = s.seq := rfl
@[simp] theorem State.writeCtrl_lmem (s : State) (w : Word) : (s.writeCtrl w).lmem = s.lmem := rfl
@[simp] theorem State.writeCtrl_epoch (s : State) (w : Word) : (s.writeCtrl w).epoch = s.epoch := rfl
@[simp] theorem State.writeCtrl_draws (s : State) (w : Word) : (s.writeCtrl w).draws = s.draws := rfl
@[simp] theorem State.writeCtrl_inbox (s : State) (w : Word) : (s.writeCtrl w).inbox = s.inbox := rfl
@[simp] theorem State.writeCtrl_reply (s : State) (w : Word) : (s.writeCtrl w).reply = s.reply := rfl
@[simp] theorem State.writeCtrl_readByte (s : State) (w : Word) (x : Nat) :
    (s.writeCtrl w).readByte x = s.readByte x := rfl

/-! ### State.ackStatus -/

@[simp] theorem State.ackStatus_params (s : State) (w : Word) : (s.ackStatus w).params = s.params := rfl
@[simp] theorem State.ackStatus_rst (s : State) (w : Word) : (s.ackStatus w).rst = s.rst := rfl
@[simp] theorem State.ackStatus_ieDone (s : State) (w : Word) : (s.ackStatus w).ieDone = s.ieDone := rfl
@[simp] theorem State.ackStatus_ieErr (s : State) (w : Word) : (s.ackStatus w).ieErr = s.ieErr := rfl
@[simp] theorem State.ackStatus_workers (s : State) (w : Word) : (s.ackStatus w).workers = s.workers := rfl
@[simp] theorem State.ackStatus_done (s : State) (w : Word) :
    (s.ackStatus w).done =
      (s.done && !w.getLsbD 1) := rfl
@[simp] theorem State.ackStatus_err (s : State) (w : Word) : (s.ackStatus w).err = (s.err && !w.getLsbD 2) := rfl
@[simp] theorem State.ackStatus_qnf (s : State) (w : Word) : (s.ackStatus w).qnf = (s.qnf && !w.getLsbD 3) := rfl
@[simp] theorem State.ackStatus_drop (s : State) (w : Word) :
    (s.ackStatus w).drop =
      (s.drop && !w.getLsbD 4) := rfl
@[simp] theorem State.ackStatus_errCode (s : State) (w : Word) : (s.ackStatus w).errCode = s.errCode := rfl
@[simp] theorem State.ackStatus_errStage (s : State) (w : Word) : (s.ackStatus w).errStage = s.errStage := rfl
@[simp] theorem State.ackStatus_lastOp (s : State) (w : Word) : (s.ackStatus w).lastOp = s.lastOp := rfl
@[simp] theorem State.ackStatus_errInfo (s : State) (w : Word) : (s.ackStatus w).errInfo = s.errInfo := rfl
@[simp] theorem State.ackStatus_opr (s : State) (w : Word) : (s.ackStatus w).opr = s.opr := rfl
@[simp] theorem State.ackStatus_outlen (s : State) (w : Word) : (s.ackStatus w).outlen = s.outlen := rfl
@[simp] theorem State.ackStatus_cwidth (s : State) (w : Word) : (s.ackStatus w).cwidth = s.cwidth := rfl
@[simp] theorem State.ackStatus_cheight (s : State) (w : Word) : (s.ackStatus w).cheight = s.cheight := rfl
@[simp] theorem State.ackStatus_paddr (s : State) (w : Word) : (s.ackStatus w).paddr = s.paddr := rfl
@[simp] theorem State.ackStatus_qtab (s : State) (w : Word) : (s.ackStatus w).qtab = s.qtab := rfl
@[simp] theorem State.ackStatus_qtabv (s : State) (w : Word) : (s.ackStatus w).qtabv = s.qtabv := rfl
@[simp] theorem State.ackStatus_tab (s : State) (w : Word) : (s.ackStatus w).tab = s.tab := rfl
@[simp] theorem State.ackStatus_freq (s : State) (w : Word) : (s.ackStatus w).freq = s.freq := rfl
@[simp] theorem State.ackStatus_bp (s : State) (w : Word) : (s.ackStatus w).bp = s.bp := rfl
@[simp] theorem State.ackStatus_seq (s : State) (w : Word) : (s.ackStatus w).seq = s.seq := rfl
@[simp] theorem State.ackStatus_lmem (s : State) (w : Word) : (s.ackStatus w).lmem = s.lmem := rfl
@[simp] theorem State.ackStatus_epoch (s : State) (w : Word) : (s.ackStatus w).epoch = s.epoch := rfl
@[simp] theorem State.ackStatus_draws (s : State) (w : Word) : (s.ackStatus w).draws = s.draws := rfl
@[simp] theorem State.ackStatus_inbox (s : State) (w : Word) : (s.ackStatus w).inbox = s.inbox := rfl
@[simp] theorem State.ackStatus_reply (s : State) (w : Word) : (s.ackStatus w).reply = s.reply := rfl
@[simp] theorem State.ackStatus_readByte (s : State) (w : Word) (x : Nat) :
    (s.ackStatus w).readByte x = s.readByte x := rfl

/-! ### State.beginIssue -/

@[simp] theorem State.beginIssue_params (s : State) (w : Word) : (s.beginIssue w).params = s.params := rfl
@[simp] theorem State.beginIssue_rst (s : State) (w : Word) : (s.beginIssue w).rst = s.rst := rfl
@[simp] theorem State.beginIssue_ieDone (s : State) (w : Word) : (s.beginIssue w).ieDone = s.ieDone := rfl
@[simp] theorem State.beginIssue_ieErr (s : State) (w : Word) : (s.beginIssue w).ieErr = s.ieErr := rfl
@[simp] theorem State.beginIssue_workers (s : State) (w : Word) : (s.beginIssue w).workers = s.workers := rfl
@[simp] theorem State.beginIssue_done (s : State) (w : Word) : (s.beginIssue w).done = false := rfl
@[simp] theorem State.beginIssue_err (s : State) (w : Word) : (s.beginIssue w).err = false := rfl
@[simp] theorem State.beginIssue_qnf (s : State) (w : Word) : (s.beginIssue w).qnf = s.qnf := rfl
@[simp] theorem State.beginIssue_drop (s : State) (w : Word) : (s.beginIssue w).drop = s.drop := rfl
@[simp] theorem State.beginIssue_errCode (s : State) (w : Word) : (s.beginIssue w).errCode = .noError := rfl
@[simp] theorem State.beginIssue_errStage (s : State) (w : Word) : (s.beginIssue w).errStage = .noStage := rfl
@[simp] theorem State.beginIssue_lastOp (s : State) (w : Word) : (s.beginIssue w).lastOp = opcField w := rfl
@[simp] theorem State.beginIssue_errInfo (s : State) (w : Word) : (s.beginIssue w).errInfo = 0 := rfl
@[simp] theorem State.beginIssue_opr (s : State) (w : Word) : (s.beginIssue w).opr = s.opr := rfl
@[simp] theorem State.beginIssue_outlen (s : State) (w : Word) : (s.beginIssue w).outlen = s.outlen := rfl
@[simp] theorem State.beginIssue_cwidth (s : State) (w : Word) : (s.beginIssue w).cwidth = s.cwidth := rfl
@[simp] theorem State.beginIssue_cheight (s : State) (w : Word) : (s.beginIssue w).cheight = s.cheight := rfl
@[simp] theorem State.beginIssue_paddr (s : State) (w : Word) : (s.beginIssue w).paddr = s.paddr := rfl
@[simp] theorem State.beginIssue_qtab (s : State) (w : Word) : (s.beginIssue w).qtab = s.qtab := rfl
@[simp] theorem State.beginIssue_qtabv (s : State) (w : Word) : (s.beginIssue w).qtabv = s.qtabv := rfl
@[simp] theorem State.beginIssue_tab (s : State) (w : Word) : (s.beginIssue w).tab = s.tab := rfl
@[simp] theorem State.beginIssue_freq (s : State) (w : Word) : (s.beginIssue w).freq = s.freq := rfl
@[simp] theorem State.beginIssue_bp (s : State) (w : Word) : (s.beginIssue w).bp = s.bp := rfl
@[simp] theorem State.beginIssue_seq (s : State) (w : Word) : (s.beginIssue w).seq = s.seq := rfl
@[simp] theorem State.beginIssue_lmem (s : State) (w : Word) : (s.beginIssue w).lmem = s.lmem := rfl
@[simp] theorem State.beginIssue_epoch (s : State) (w : Word) : (s.beginIssue w).epoch = s.epoch := rfl
@[simp] theorem State.beginIssue_draws (s : State) (w : Word) : (s.beginIssue w).draws = s.draws := rfl
@[simp] theorem State.beginIssue_inbox (s : State) (w : Word) : (s.beginIssue w).inbox = s.inbox := rfl
@[simp] theorem State.beginIssue_reply (s : State) (w : Word) : (s.beginIssue w).reply = s.reply := rfl
@[simp] theorem State.beginIssue_readByte (s : State) (w : Word) (x : Nat) :
    (s.beginIssue w).readByte x = s.readByte x := rfl

/-! ### State.reject -/

@[simp] theorem State.reject_params (s : State) (w : Word) : (s.reject w).params = s.params := rfl
@[simp] theorem State.reject_rst (s : State) (w : Word) : (s.reject w).rst = s.rst := rfl
@[simp] theorem State.reject_ieDone (s : State) (w : Word) : (s.reject w).ieDone = s.ieDone := rfl
@[simp] theorem State.reject_ieErr (s : State) (w : Word) : (s.reject w).ieErr = s.ieErr := rfl
@[simp] theorem State.reject_workers (s : State) (w : Word) : (s.reject w).workers = s.workers := rfl
@[simp] theorem State.reject_done (s : State) (w : Word) : (s.reject w).done = s.done := rfl
@[simp] theorem State.reject_err (s : State) (w : Word) : (s.reject w).err = true := rfl
@[simp] theorem State.reject_qnf (s : State) (w : Word) : (s.reject w).qnf = s.qnf := rfl
@[simp] theorem State.reject_drop (s : State) (w : Word) : (s.reject w).drop = s.drop := rfl
@[simp] theorem State.reject_errCode (s : State) (w : Word) : (s.reject w).errCode = .illegal := rfl
@[simp] theorem State.reject_errStage (s : State) (w : Word) : (s.reject w).errStage = .decode := rfl
@[simp] theorem State.reject_lastOp (s : State) (w : Word) : (s.reject w).lastOp = s.lastOp := rfl
@[simp] theorem State.reject_errInfo (s : State) (w : Word) : (s.reject w).errInfo = w := rfl
@[simp] theorem State.reject_opr (s : State) (w : Word) : (s.reject w).opr = s.opr := rfl
@[simp] theorem State.reject_outlen (s : State) (w : Word) : (s.reject w).outlen = s.outlen := rfl
@[simp] theorem State.reject_cwidth (s : State) (w : Word) : (s.reject w).cwidth = s.cwidth := rfl
@[simp] theorem State.reject_cheight (s : State) (w : Word) : (s.reject w).cheight = s.cheight := rfl
@[simp] theorem State.reject_paddr (s : State) (w : Word) : (s.reject w).paddr = s.paddr := rfl
@[simp] theorem State.reject_qtab (s : State) (w : Word) : (s.reject w).qtab = s.qtab := rfl
@[simp] theorem State.reject_qtabv (s : State) (w : Word) : (s.reject w).qtabv = s.qtabv := rfl
@[simp] theorem State.reject_tab (s : State) (w : Word) : (s.reject w).tab = s.tab := rfl
@[simp] theorem State.reject_freq (s : State) (w : Word) : (s.reject w).freq = s.freq := rfl
@[simp] theorem State.reject_bp (s : State) (w : Word) : (s.reject w).bp = s.bp := rfl
@[simp] theorem State.reject_seq (s : State) (w : Word) : (s.reject w).seq = s.seq := rfl
@[simp] theorem State.reject_lmem (s : State) (w : Word) : (s.reject w).lmem = s.lmem := rfl
@[simp] theorem State.reject_epoch (s : State) (w : Word) : (s.reject w).epoch = s.epoch := rfl
@[simp] theorem State.reject_draws (s : State) (w : Word) : (s.reject w).draws = s.draws := rfl
@[simp] theorem State.reject_inbox (s : State) (w : Word) : (s.reject w).inbox = s.inbox := rfl
@[simp] theorem State.reject_reply (s : State) (w : Word) : (s.reject w).reply = s.reply := rfl
@[simp] theorem State.reject_readByte (s : State) (w : Word) (x : Nat) :
    (s.reject w).readByte x = s.readByte x := rfl

/-! ### State.accept -/

@[simp] theorem State.heldRecord_errstat (s : State) : s.heldRecord.errstat = errstatWord s := rfl
@[simp] theorem State.heldRecord_errinfo (s : State) : s.heldRecord.errinfo = s.errInfo := rfl

@[simp] theorem State.accept_params (s : State) (i : Instr) (h : HeldRecord) : (s.accept i h).params = s.params := rfl
@[simp] theorem State.accept_rst (s : State) (i : Instr) (h : HeldRecord) : (s.accept i h).rst = s.rst := rfl
@[simp] theorem State.accept_ieDone (s : State) (i : Instr) (h : HeldRecord) : (s.accept i h).ieDone = s.ieDone := rfl
@[simp] theorem State.accept_ieErr (s : State) (i : Instr) (h : HeldRecord) : (s.accept i h).ieErr = s.ieErr := rfl
@[simp] theorem State.accept_workers (s : State) (i : Instr) (h : HeldRecord) :
    (s.accept i h).workers = s.workers := rfl
@[simp] theorem State.accept_done (s : State) (i : Instr) (h : HeldRecord) : (s.accept i h).done = s.done := rfl
@[simp] theorem State.accept_err (s : State) (i : Instr) (h : HeldRecord) : (s.accept i h).err = s.err := rfl
@[simp] theorem State.accept_qnf (s : State) (i : Instr) (h : HeldRecord) : (s.accept i h).qnf = s.qnf := rfl
@[simp] theorem State.accept_drop (s : State) (i : Instr) (h : HeldRecord) : (s.accept i h).drop = s.drop := rfl
@[simp] theorem State.accept_errCode (s : State) (i : Instr) (h : HeldRecord) :
    (s.accept i h).errCode = s.errCode := rfl
@[simp] theorem State.accept_errStage (s : State) (i : Instr) (h : HeldRecord) :
    (s.accept i h).errStage = s.errStage := rfl
@[simp] theorem State.accept_lastOp (s : State) (i : Instr) (h : HeldRecord) : (s.accept i h).lastOp = s.lastOp := rfl
@[simp] theorem State.accept_errInfo (s : State) (i : Instr) (h : HeldRecord) :
    (s.accept i h).errInfo = s.errInfo := rfl
@[simp] theorem State.accept_opr (s : State) (i : Instr) (h : HeldRecord) : (s.accept i h).opr = s.opr := rfl
@[simp] theorem State.accept_outlen (s : State) (i : Instr) (h : HeldRecord) : (s.accept i h).outlen = s.outlen := rfl
@[simp] theorem State.accept_cwidth (s : State) (i : Instr) (h : HeldRecord) : (s.accept i h).cwidth = s.cwidth := rfl
@[simp] theorem State.accept_cheight (s : State) (i : Instr) (h : HeldRecord) :
    (s.accept i h).cheight = s.cheight := rfl
@[simp] theorem State.accept_paddr (s : State) (i : Instr) (h : HeldRecord) : (s.accept i h).paddr = s.paddr := rfl
@[simp] theorem State.accept_qtab (s : State) (i : Instr) (h : HeldRecord) : (s.accept i h).qtab = s.qtab := rfl
@[simp] theorem State.accept_qtabv (s : State) (i : Instr) (h : HeldRecord) : (s.accept i h).qtabv = s.qtabv := rfl
@[simp] theorem State.accept_tab (s : State) (i : Instr) (h : HeldRecord) : (s.accept i h).tab = s.tab := rfl
@[simp] theorem State.accept_freq (s : State) (i : Instr) (h : HeldRecord) : (s.accept i h).freq = s.freq := rfl
@[simp] theorem State.accept_bp (s : State) (i : Instr) (h : HeldRecord) : (s.accept i h).bp = s.bp := rfl
@[simp] theorem State.accept_seq (s : State) (i : Instr) (h : HeldRecord) :
    (s.accept i h).seq =
      { state := .running, instr := i, op := s.snapshot, phase := homeStage i, work := Work.none, worklist := [], tasksDone := [], held := h } := rfl
@[simp] theorem State.accept_lmem (s : State) (i : Instr) (h : HeldRecord) : (s.accept i h).lmem = s.lmem := rfl
@[simp] theorem State.accept_epoch (s : State) (i : Instr) (h : HeldRecord) : (s.accept i h).epoch = s.epoch := rfl
@[simp] theorem State.accept_draws (s : State) (i : Instr) (h : HeldRecord) : (s.accept i h).draws = s.draws := rfl
@[simp] theorem State.accept_inbox (s : State) (i : Instr) (h : HeldRecord) : (s.accept i h).inbox = s.inbox := rfl
@[simp] theorem State.accept_reply (s : State) (i : Instr) (h : HeldRecord) : (s.accept i h).reply = s.reply := rfl
@[simp] theorem State.accept_readByte (s : State) (i : Instr) (h : HeldRecord) (x : Nat) :
    (s.accept i h).readByte x = s.readByte x := rfl

/-! ### State.bpStart -/

@[simp] theorem State.bpStart_params (s : State) (base cap : Word) (rid : RegionId) :
    (s.bpStart base cap rid).params =
      s.params := rfl
@[simp] theorem State.bpStart_rst (s : State) (base cap : Word) (rid : RegionId) :
    (s.bpStart base cap rid).rst =
      s.rst := rfl
@[simp] theorem State.bpStart_ieDone (s : State) (base cap : Word) (rid : RegionId) :
    (s.bpStart base cap rid).ieDone =
      s.ieDone := rfl
@[simp] theorem State.bpStart_ieErr (s : State) (base cap : Word) (rid : RegionId) :
    (s.bpStart base cap rid).ieErr =
      s.ieErr := rfl
@[simp] theorem State.bpStart_workers (s : State) (base cap : Word) (rid : RegionId) :
    (s.bpStart base cap rid).workers =
      s.workers := rfl
@[simp] theorem State.bpStart_done (s : State) (base cap : Word) (rid : RegionId) :
    (s.bpStart base cap rid).done =
      s.done := rfl
@[simp] theorem State.bpStart_err (s : State) (base cap : Word) (rid : RegionId) :
    (s.bpStart base cap rid).err =
      s.err := rfl
@[simp] theorem State.bpStart_qnf (s : State) (base cap : Word) (rid : RegionId) :
    (s.bpStart base cap rid).qnf =
      s.qnf := rfl
@[simp] theorem State.bpStart_drop (s : State) (base cap : Word) (rid : RegionId) :
    (s.bpStart base cap rid).drop =
      s.drop := rfl
@[simp] theorem State.bpStart_errCode (s : State) (base cap : Word) (rid : RegionId) :
    (s.bpStart base cap rid).errCode =
      s.errCode := rfl
@[simp] theorem State.bpStart_errStage (s : State) (base cap : Word) (rid : RegionId) :
    (s.bpStart base cap rid).errStage =
      s.errStage := rfl
@[simp] theorem State.bpStart_lastOp (s : State) (base cap : Word) (rid : RegionId) :
    (s.bpStart base cap rid).lastOp =
      s.lastOp := rfl
@[simp] theorem State.bpStart_errInfo (s : State) (base cap : Word) (rid : RegionId) :
    (s.bpStart base cap rid).errInfo =
      s.errInfo := rfl
@[simp] theorem State.bpStart_opr (s : State) (base cap : Word) (rid : RegionId) :
    (s.bpStart base cap rid).opr =
      s.opr := rfl
@[simp] theorem State.bpStart_outlen (s : State) (base cap : Word) (rid : RegionId) :
    (s.bpStart base cap rid).outlen =
      s.outlen := rfl
@[simp] theorem State.bpStart_cwidth (s : State) (base cap : Word) (rid : RegionId) :
    (s.bpStart base cap rid).cwidth =
      s.cwidth := rfl
@[simp] theorem State.bpStart_cheight (s : State) (base cap : Word) (rid : RegionId) :
    (s.bpStart base cap rid).cheight =
      s.cheight := rfl
@[simp] theorem State.bpStart_paddr (s : State) (base cap : Word) (rid : RegionId) :
    (s.bpStart base cap rid).paddr =
      s.paddr := rfl
@[simp] theorem State.bpStart_qtab (s : State) (base cap : Word) (rid : RegionId) :
    (s.bpStart base cap rid).qtab =
      s.qtab := rfl
@[simp] theorem State.bpStart_qtabv (s : State) (base cap : Word) (rid : RegionId) :
    (s.bpStart base cap rid).qtabv =
      s.qtabv := rfl
@[simp] theorem State.bpStart_tab (s : State) (base cap : Word) (rid : RegionId) :
    (s.bpStart base cap rid).tab =
      s.tab := rfl
@[simp] theorem State.bpStart_freq (s : State) (base cap : Word) (rid : RegionId) :
    (s.bpStart base cap rid).freq =
      s.freq := rfl
@[simp] theorem State.bpStart_bp (s : State) (base cap : Word) (rid : RegionId) :
    (s.bpStart base cap rid).bp =
      { isOpen := true, acc := 0, nacc := 0, bytes := 0, total := 0, base := base, cap := cap, rid := BitVec.ofNat 3 rid.num } := rfl
@[simp] theorem State.bpStart_seq (s : State) (base cap : Word) (rid : RegionId) :
    (s.bpStart base cap rid).seq =
      s.seq := rfl
@[simp] theorem State.bpStart_lmem (s : State) (base cap : Word) (rid : RegionId) :
    (s.bpStart base cap rid).lmem =
      s.lmem := rfl
@[simp] theorem State.bpStart_epoch (s : State) (base cap : Word) (rid : RegionId) :
    (s.bpStart base cap rid).epoch =
      s.epoch := rfl
@[simp] theorem State.bpStart_draws (s : State) (base cap : Word) (rid : RegionId) :
    (s.bpStart base cap rid).draws =
      s.draws := rfl
@[simp] theorem State.bpStart_inbox (s : State) (base cap : Word) (rid : RegionId) :
    (s.bpStart base cap rid).inbox =
      s.inbox := rfl
@[simp] theorem State.bpStart_reply (s : State) (base cap : Word) (rid : RegionId) :
    (s.bpStart base cap rid).reply =
      s.reply := rfl
@[simp] theorem State.bpStart_readByte (s : State) (base cap : Word) (rid : RegionId) (x : Nat) :
    (s.bpStart base cap rid).readByte x = s.readByte x := rfl

/-! ### State.bpFlush -/

@[simp] theorem State.bpFlush_params (s : State) (b : Byte) : (s.bpFlush b).params = s.params := rfl
@[simp] theorem State.bpFlush_rst (s : State) (b : Byte) : (s.bpFlush b).rst = s.rst := rfl
@[simp] theorem State.bpFlush_ieDone (s : State) (b : Byte) : (s.bpFlush b).ieDone = s.ieDone := rfl
@[simp] theorem State.bpFlush_ieErr (s : State) (b : Byte) : (s.bpFlush b).ieErr = s.ieErr := rfl
@[simp] theorem State.bpFlush_workers (s : State) (b : Byte) : (s.bpFlush b).workers = s.workers := rfl
@[simp] theorem State.bpFlush_done (s : State) (b : Byte) : (s.bpFlush b).done = s.done := rfl
@[simp] theorem State.bpFlush_err (s : State) (b : Byte) : (s.bpFlush b).err = s.err := rfl
@[simp] theorem State.bpFlush_qnf (s : State) (b : Byte) : (s.bpFlush b).qnf = s.qnf := rfl
@[simp] theorem State.bpFlush_drop (s : State) (b : Byte) : (s.bpFlush b).drop = s.drop := rfl
@[simp] theorem State.bpFlush_errCode (s : State) (b : Byte) : (s.bpFlush b).errCode = s.errCode := rfl
@[simp] theorem State.bpFlush_errStage (s : State) (b : Byte) : (s.bpFlush b).errStage = s.errStage := rfl
@[simp] theorem State.bpFlush_lastOp (s : State) (b : Byte) : (s.bpFlush b).lastOp = s.lastOp := rfl
@[simp] theorem State.bpFlush_errInfo (s : State) (b : Byte) : (s.bpFlush b).errInfo = s.errInfo := rfl
@[simp] theorem State.bpFlush_opr (s : State) (b : Byte) : (s.bpFlush b).opr = s.opr := rfl
@[simp] theorem State.bpFlush_outlen (s : State) (b : Byte) : (s.bpFlush b).outlen = s.outlen := rfl
@[simp] theorem State.bpFlush_cwidth (s : State) (b : Byte) : (s.bpFlush b).cwidth = s.cwidth := rfl
@[simp] theorem State.bpFlush_cheight (s : State) (b : Byte) : (s.bpFlush b).cheight = s.cheight := rfl
@[simp] theorem State.bpFlush_paddr (s : State) (b : Byte) : (s.bpFlush b).paddr = s.paddr := rfl
@[simp] theorem State.bpFlush_qtab (s : State) (b : Byte) : (s.bpFlush b).qtab = s.qtab := rfl
@[simp] theorem State.bpFlush_qtabv (s : State) (b : Byte) : (s.bpFlush b).qtabv = s.qtabv := rfl
@[simp] theorem State.bpFlush_tab (s : State) (b : Byte) : (s.bpFlush b).tab = s.tab := rfl
@[simp] theorem State.bpFlush_freq (s : State) (b : Byte) : (s.bpFlush b).freq = s.freq := rfl
@[simp] theorem State.bpFlush_bp (s : State) (b : Byte) :
    (s.bpFlush b).bp =
      { s.bp with bytes := s.bp.bytes + 1, acc := 0, nacc := 0 } := rfl
@[simp] theorem State.bpFlush_seq (s : State) (b : Byte) : (s.bpFlush b).seq = s.seq := rfl
@[simp] theorem State.bpFlush_lmem (s : State) (b : Byte) :
    (s.bpFlush b).lmem =
      LMem.store s.lmem (s.bp.base.toNat + s.bp.bytes.toNat) [b] := rfl
@[simp] theorem State.bpFlush_epoch (s : State) (b : Byte) : (s.bpFlush b).epoch = s.epoch := rfl
@[simp] theorem State.bpFlush_draws (s : State) (b : Byte) : (s.bpFlush b).draws = s.draws := rfl
@[simp] theorem State.bpFlush_inbox (s : State) (b : Byte) : (s.bpFlush b).inbox = s.inbox := rfl
@[simp] theorem State.bpFlush_reply (s : State) (b : Byte) : (s.bpFlush b).reply = s.reply := rfl

/-! ### State.bpResults -/

@[simp] theorem State.bpResults_params (s : State) : (s.bpResults).params = s.params := rfl
@[simp] theorem State.bpResults_rst (s : State) : (s.bpResults).rst = s.rst := rfl
@[simp] theorem State.bpResults_ieDone (s : State) : (s.bpResults).ieDone = s.ieDone := rfl
@[simp] theorem State.bpResults_ieErr (s : State) : (s.bpResults).ieErr = s.ieErr := rfl
@[simp] theorem State.bpResults_workers (s : State) : (s.bpResults).workers = s.workers := rfl
@[simp] theorem State.bpResults_done (s : State) : (s.bpResults).done = s.done := rfl
@[simp] theorem State.bpResults_err (s : State) : (s.bpResults).err = s.err := rfl
@[simp] theorem State.bpResults_qnf (s : State) : (s.bpResults).qnf = s.qnf := rfl
@[simp] theorem State.bpResults_drop (s : State) : (s.bpResults).drop = s.drop := rfl
@[simp] theorem State.bpResults_errCode (s : State) : (s.bpResults).errCode = s.errCode := rfl
@[simp] theorem State.bpResults_errStage (s : State) : (s.bpResults).errStage = s.errStage := rfl
@[simp] theorem State.bpResults_lastOp (s : State) : (s.bpResults).lastOp = s.lastOp := rfl
@[simp] theorem State.bpResults_errInfo (s : State) : (s.bpResults).errInfo = s.errInfo := rfl
@[simp] theorem State.bpResults_opr (s : State) : (s.bpResults).opr = { s.opr with bitcnt := s.bp.total } := rfl
@[simp] theorem State.bpResults_outlen (s : State) : (s.bpResults).outlen = u32 s.bp.bytes.toNat := rfl
@[simp] theorem State.bpResults_cwidth (s : State) : (s.bpResults).cwidth = s.cwidth := rfl
@[simp] theorem State.bpResults_cheight (s : State) : (s.bpResults).cheight = s.cheight := rfl
@[simp] theorem State.bpResults_paddr (s : State) : (s.bpResults).paddr = s.paddr := rfl
@[simp] theorem State.bpResults_qtab (s : State) : (s.bpResults).qtab = s.qtab := rfl
@[simp] theorem State.bpResults_qtabv (s : State) : (s.bpResults).qtabv = s.qtabv := rfl
@[simp] theorem State.bpResults_tab (s : State) : (s.bpResults).tab = s.tab := rfl
@[simp] theorem State.bpResults_freq (s : State) : (s.bpResults).freq = s.freq := rfl
@[simp] theorem State.bpResults_bp (s : State) : (s.bpResults).bp = s.bp := rfl
@[simp] theorem State.bpResults_seq (s : State) : (s.bpResults).seq = s.seq := rfl
@[simp] theorem State.bpResults_lmem (s : State) : (s.bpResults).lmem = s.lmem := rfl
@[simp] theorem State.bpResults_epoch (s : State) : (s.bpResults).epoch = s.epoch := rfl
@[simp] theorem State.bpResults_draws (s : State) : (s.bpResults).draws = s.draws := rfl
@[simp] theorem State.bpResults_inbox (s : State) : (s.bpResults).inbox = s.inbox := rfl
@[simp] theorem State.bpResults_reply (s : State) : (s.bpResults).reply = s.reply := rfl
@[simp] theorem State.bpResults_readByte (s : State) (x : Nat) :
    (s.bpResults).readByte x = s.readByte x := rfl

/-! ### State.loadHeader -/

@[simp] theorem State.loadHeader_params (s : State) (p : Parsed) : (s.loadHeader p).params = s.params := rfl
@[simp] theorem State.loadHeader_rst (s : State) (p : Parsed) : (s.loadHeader p).rst = s.rst := rfl
@[simp] theorem State.loadHeader_ieDone (s : State) (p : Parsed) : (s.loadHeader p).ieDone = s.ieDone := rfl
@[simp] theorem State.loadHeader_ieErr (s : State) (p : Parsed) : (s.loadHeader p).ieErr = s.ieErr := rfl
@[simp] theorem State.loadHeader_workers (s : State) (p : Parsed) : (s.loadHeader p).workers = s.workers := rfl
@[simp] theorem State.loadHeader_done (s : State) (p : Parsed) : (s.loadHeader p).done = s.done := rfl
@[simp] theorem State.loadHeader_err (s : State) (p : Parsed) : (s.loadHeader p).err = s.err := rfl
@[simp] theorem State.loadHeader_qnf (s : State) (p : Parsed) : (s.loadHeader p).qnf = s.qnf := rfl
@[simp] theorem State.loadHeader_drop (s : State) (p : Parsed) : (s.loadHeader p).drop = s.drop := rfl
@[simp] theorem State.loadHeader_errCode (s : State) (p : Parsed) : (s.loadHeader p).errCode = s.errCode := rfl
@[simp] theorem State.loadHeader_errStage (s : State) (p : Parsed) : (s.loadHeader p).errStage = s.errStage := rfl
@[simp] theorem State.loadHeader_lastOp (s : State) (p : Parsed) : (s.loadHeader p).lastOp = s.lastOp := rfl
@[simp] theorem State.loadHeader_errInfo (s : State) (p : Parsed) : (s.loadHeader p).errInfo = s.errInfo := rfl
@[simp] theorem State.loadHeader_opr (s : State) (p : Parsed) :
    (s.loadHeader p).opr =
      { s.opr with width := p.width, height := p.height, quality := p.quality, bitcnt := p.nbits } := rfl
@[simp] theorem State.loadHeader_outlen (s : State) (p : Parsed) : (s.loadHeader p).outlen = s.outlen := rfl
@[simp] theorem State.loadHeader_cwidth (s : State) (p : Parsed) : (s.loadHeader p).cwidth = s.cwidth := rfl
@[simp] theorem State.loadHeader_cheight (s : State) (p : Parsed) : (s.loadHeader p).cheight = s.cheight := rfl
@[simp] theorem State.loadHeader_paddr (s : State) (p : Parsed) : (s.loadHeader p).paddr = s.paddr := rfl
@[simp] theorem State.loadHeader_qtab (s : State) (p : Parsed) : (s.loadHeader p).qtab = s.qtab := rfl
@[simp] theorem State.loadHeader_qtabv (s : State) (p : Parsed) : (s.loadHeader p).qtabv = s.qtabv := rfl
@[simp] theorem State.loadHeader_tab (s : State) (p : Parsed) : (s.loadHeader p).tab = s.tab := rfl
@[simp] theorem State.loadHeader_freq (s : State) (p : Parsed) : (s.loadHeader p).freq = s.freq := rfl
@[simp] theorem State.loadHeader_bp (s : State) (p : Parsed) : (s.loadHeader p).bp = s.bp := rfl
@[simp] theorem State.loadHeader_seq (s : State) (p : Parsed) : (s.loadHeader p).seq = s.seq := rfl
@[simp] theorem State.loadHeader_lmem (s : State) (p : Parsed) : (s.loadHeader p).lmem = s.lmem := rfl
@[simp] theorem State.loadHeader_epoch (s : State) (p : Parsed) : (s.loadHeader p).epoch = s.epoch := rfl
@[simp] theorem State.loadHeader_draws (s : State) (p : Parsed) : (s.loadHeader p).draws = s.draws := rfl
@[simp] theorem State.loadHeader_inbox (s : State) (p : Parsed) : (s.loadHeader p).inbox = s.inbox := rfl
@[simp] theorem State.loadHeader_reply (s : State) (p : Parsed) : (s.loadHeader p).reply = s.reply := rfl
@[simp] theorem State.loadHeader_readByte (s : State) (p : Parsed) (x : Nat) :
    (s.loadHeader p).readByte x = s.readByte x := rfl

/-! ### State.answerError -/

@[simp] theorem State.answerError_params (s : State) : (s.answerError).params = s.params := rfl
@[simp] theorem State.answerError_rst (s : State) : (s.answerError).rst = s.rst := rfl
@[simp] theorem State.answerError_ieDone (s : State) : (s.answerError).ieDone = s.ieDone := rfl
@[simp] theorem State.answerError_ieErr (s : State) : (s.answerError).ieErr = s.ieErr := rfl
@[simp] theorem State.answerError_workers (s : State) : (s.answerError).workers = s.workers := rfl
@[simp] theorem State.answerError_done (s : State) : (s.answerError).done = s.done := rfl
@[simp] theorem State.answerError_err (s : State) : (s.answerError).err = s.err := rfl
@[simp] theorem State.answerError_qnf (s : State) : (s.answerError).qnf = s.qnf := rfl
@[simp] theorem State.answerError_drop (s : State) : (s.answerError).drop = s.drop := rfl
@[simp] theorem State.answerError_errCode (s : State) : (s.answerError).errCode = s.errCode := rfl
@[simp] theorem State.answerError_errStage (s : State) : (s.answerError).errStage = s.errStage := rfl
@[simp] theorem State.answerError_lastOp (s : State) : (s.answerError).lastOp = s.lastOp := rfl
@[simp] theorem State.answerError_errInfo (s : State) : (s.answerError).errInfo = s.errInfo := rfl
@[simp] theorem State.answerError_opr (s : State) : (s.answerError).opr = s.opr := rfl
@[simp] theorem State.answerError_outlen (s : State) : (s.answerError).outlen = s.outlen := rfl
@[simp] theorem State.answerError_cwidth (s : State) : (s.answerError).cwidth = s.cwidth := rfl
@[simp] theorem State.answerError_cheight (s : State) : (s.answerError).cheight = s.cheight := rfl
@[simp] theorem State.answerError_paddr (s : State) : (s.answerError).paddr = s.paddr := rfl
@[simp] theorem State.answerError_qtab (s : State) : (s.answerError).qtab = s.qtab := rfl
@[simp] theorem State.answerError_qtabv (s : State) : (s.answerError).qtabv = s.qtabv := rfl
@[simp] theorem State.answerError_tab (s : State) : (s.answerError).tab = s.tab := rfl
@[simp] theorem State.answerError_freq (s : State) : (s.answerError).freq = s.freq := rfl
@[simp] theorem State.answerError_bp (s : State) : (s.answerError).bp = s.bp := rfl
@[simp] theorem State.answerError_seq (s : State) : (s.answerError).seq = s.seq := rfl
@[simp] theorem State.answerError_lmem (s : State) : (s.answerError).lmem = s.lmem := rfl
@[simp] theorem State.answerError_epoch (s : State) : (s.answerError).epoch = s.epoch := rfl
@[simp] theorem State.answerError_draws (s : State) : (s.answerError).draws = s.draws := rfl
@[simp] theorem State.answerError_inbox (s : State) : (s.answerError).inbox = s.inbox := rfl
@[simp] theorem State.answerError_reply (s : State) : (s.answerError).reply = .busError := rfl
@[simp] theorem State.answerError_readByte (s : State) (x : Nat) :
    (s.answerError).readByte x = s.readByte x := rfl

end Sys2Proof.Machine
end

