-- ==== Sys2Proof/Laws/Memory.lean ====
section
/-! SUPPORT. The laws of LMEM: a read after a write to the same byte gives what was written, a write leaves every
other byte alone, every store keeps the canonical form and the bounds. -/

namespace Sys2Proof.Machine

/-! ### Cells -/

theorem cellsAt_bounds (a : Nat) (bs : List Byte) (c : Host.Cell) (h : c ∈ cellsAt a bs) :
    a ≤ c.1 ∧ c.1 < a + bs.length := by
  induction bs generalizing a with
  | nil => simp [cellsAt] at h
  | cons b rest ih =>
    simp only [cellsAt, List.mem_cons] at h
    rcases h with rfl | h
    · simp
    · have := ih (a + 1) h
      simp only [List.length_cons]; omega

theorem cellsAt_pairwise (a : Nat) (bs : List Byte) :
    (cellsAt a bs).Pairwise (fun c d => c.1 < d.1) := by
  induction bs generalizing a with
  | nil => simp [cellsAt]
  | cons b rest ih =>
    simp only [cellsAt, List.pairwise_cons]
    refine ⟨fun c hc => ?_, ih (a + 1)⟩
    have := cellsAt_bounds (a + 1) rest c hc
    show a < c.1
    omega

theorem mem_store {m : LMem} {a : Nat} {bs : List Byte} {c : Host.Cell} (h : c ∈ LMem.store m a bs) :
    (c ∈ m ∧ (c.1 < a ∨ a + bs.length ≤ c.1)) ∨ (a ≤ c.1 ∧ c.1 < a + bs.length) := by
  simp only [LMem.store, List.mem_append, List.mem_filter, decide_eq_true_eq] at h
  rcases h with (⟨h1, h2⟩ | h) | ⟨h1, h2⟩
  · exact .inl ⟨h1, .inl h2⟩
  · exact .inr (cellsAt_bounds a bs c h)
  · exact .inl ⟨h1, .inr h2⟩

/-- A store keeps the canonical form (log 2). -/
theorem LMem.store_wf {m : LMem} (a : Nat) (bs : List Byte) (h : m.wf) : (LMem.store m a bs).wf := by
  unfold LMem.wf LMem.store at *
  rw [List.pairwise_append, List.pairwise_append]
  refine ⟨⟨h.filter _, cellsAt_pairwise a bs, ?_⟩, h.filter _, ?_⟩
  · intro c hc d hd
    have := cellsAt_bounds a bs d hd
    simp only [List.mem_filter, decide_eq_true_eq] at hc
    omega
  · intro c hc d hd
    simp only [List.mem_append, List.mem_filter, decide_eq_true_eq] at hc hd
    rcases hc with hc | hc
    · omega
    · have := cellsAt_bounds a bs c hc
      omega

/-- A store inside `[0, n)` keeps every listed address below `n` (20_memory R100). -/
theorem LMem.store_below {m : LMem} {a n : Nat} {bs : List Byte} (h : ∀ c ∈ m, c.1 < n)
    (hb : bs = [] ∨ a + bs.length ≤ n) : ∀ c ∈ LMem.store m a bs, c.1 < n := by
  intro c hc
  rcases mem_store hc with ⟨hm, -⟩ | ⟨h1, h2⟩
  · exact h c hm
  · rcases hb with rfl | hb
    · simp at h2; omega
    · omega

/-! ### Lookup after a store -/

theorem lookup_append (m n : LMem) (x : Nat) :
    LMem.lookup (m ++ n) x = (LMem.lookup m x).or (LMem.lookup n x) := by
  simp only [LMem.lookup, List.find?_append]
  cases m.find? (fun c => c.1 == x) <;> simp

theorem lookup_filter (m : LMem) (p : Nat → Bool) (x : Nat) :
    LMem.lookup (m.filter (fun c => p c.1)) x = if p x then LMem.lookup m x else none := by
  induction m with
  | nil => simp [LMem.lookup]
  | cons c rest ih =>
    have hcons : ∀ l : LMem, LMem.lookup (c :: l) x = if c.1 = x then some c.2 else LMem.lookup l x := by
      intro l
      by_cases hc : c.1 = x <;> simp [LMem.lookup, hc]
    by_cases hp : p c.1 = true
    · rw [List.filter_cons_of_pos (by simpa using hp), hcons, hcons, ih]
      by_cases hc : c.1 = x
      · subst hc; simp [hp]
      · simp [hc]
    · rw [List.filter_cons_of_neg (by simpa using hp), hcons, ih]
      by_cases hc : c.1 = x
      · subst hc; simp [hp]
      · simp [hc]

theorem lookup_cellsAt_inside (a : Nat) (bs : List Byte) (i : Nat) (h : i < bs.length) :
    LMem.lookup (cellsAt a bs) (a + i) = some bs[i] := by
  induction bs generalizing a i with
  | nil => simp at h
  | cons b rest ih =>
    cases i with
    | zero => simp [cellsAt, LMem.lookup]
    | succ j =>
      have := ih (a + 1) j (by simpa using h)
      simp only [LMem.lookup, cellsAt, List.getElem_cons_succ] at this ⊢
      rw [List.find?_cons_of_neg (by simp), ← this, show a + (j + 1) = a + 1 + j by omega]

theorem lookup_cellsAt_outside (a : Nat) (bs : List Byte) (x : Nat) (h : x < a ∨ a + bs.length ≤ x) :
    LMem.lookup (cellsAt a bs) x = none := by
  simp only [LMem.lookup, Option.map_eq_none_iff, List.find?_eq_none]
  intro c hc
  have := cellsAt_bounds a bs c hc
  simp; omega

theorem LMem.lookup_store_inside (m : LMem) (a : Nat) (bs : List Byte) (i : Nat) (h : i < bs.length) :
    LMem.lookup (LMem.store m a bs) (a + i) = some bs[i] := by
  simp only [LMem.store, lookup_append, lookup_filter m (fun x => decide (x < a)),
    lookup_filter m (fun x => decide (a + bs.length ≤ x)), lookup_cellsAt_inside a bs i h]
  simp

theorem LMem.lookup_store_outside (m : LMem) (a : Nat) (bs : List Byte) (x : Nat)
    (h : x < a ∨ a + bs.length ≤ x) : LMem.lookup (LMem.store m a bs) x = LMem.lookup m x := by
  simp only [LMem.store, lookup_append, lookup_filter m (fun x => decide (x < a)),
    lookup_filter m (fun x => decide (a + bs.length ≤ x)), lookup_cellsAt_outside a bs x h]
  rcases h with h | h
  · have : ¬ a + bs.length ≤ x := by omega
    simp [h, this]
  · have : ¬ x < a := by omega
    simp [h, this]

/-! ### Bytes as the machine reads them -/

/-- READ AFTER WRITE, the same byte (20_memory R120). -/
theorem State.readByte_writeBytes_inside (s : State) (a : Nat) (bs : List Byte) (i : Nat) (h : i < bs.length) :
    (s.writeBytes a bs).readByte (a + i) = bs[i] := by
  simp [State.readByte, LMem.lookup_store_inside _ a bs i h]

/-- READ AFTER WRITE, another byte. -/
theorem State.readByte_writeBytes_outside (s : State) (a : Nat) (bs : List Byte) (x : Nat)
    (h : x < a ∨ a + bs.length ≤ x) : (s.writeBytes a bs).readByte x = s.readByte x := by
  simp [State.readByte, LMem.lookup_store_outside _ a bs x h]

/-- One byte after a write, wherever it lies. -/
theorem State.readByte_writeBytes (s : State) (a : Nat) (bs : List Byte) (x : Nat) :
    (s.writeBytes a bs).readByte x =
      if h : a ≤ x ∧ x < a + bs.length then bs[x - a]'(by omega) else s.readByte x := by
  split
  · rename_i h
    obtain ⟨i, rfl⟩ : ∃ i, x = a + i := ⟨x - a, by omega⟩
    rw [State.readByte_writeBytes_inside s a bs i (by omega)]
    congr 1; omega
  · exact State.readByte_writeBytes_outside s a bs x (by omega)

/-- A byte depends on LMEM and the power-on epoch only. -/
theorem State.readByte_congr {s t : State} (h : t.lmem = s.lmem) (he : t.epoch = s.epoch) (x : Nat) :
    t.readByte x = s.readByte x := by
  simp [State.readByte, h, he]

@[simp] theorem leBytes_length (n v : Nat) : (leBytes n v).length = n := by simp [leBytes]

@[simp] theorem State.readBytes_length (s : State) (a n : Nat) : (s.readBytes a n).length = n := by
  simp [State.readBytes]

@[simp] theorem freeBytes_length (d n : Nat) : (freeBytes d n).length = n := by simp [freeBytes]

theorem blockBytes_length (v : List F64) : (v.flatMap (fun x => leBytes 8 x.toNat)).length = 8 * v.length := by
  induction v with
  | nil => rfl
  | cons x rest ih => simp [ih]; omega

/-- Bytes read over a region that holds the same bytes in both states. -/
theorem State.readBytes_congr {s t : State} {a n : Nat} (h : ∀ x, a ≤ x → x < a + n → t.readByte x = s.readByte x) :
    t.readBytes a n = s.readBytes a n := by
  refine List.map_congr_left fun i hi => h _ (by omega) ?_
  have := List.mem_range.1 hi
  omega

/-- `MemRead` and `MemWrite` agree: the little-endian bytes of v stand for v (20_memory R102). -/
theorem leNat_leBytes (n v : Nat) : leNat (leBytes n v) = v % 2 ^ (8 * n) := by
  induction n generalizing v with
  | zero => simp [leNat, leBytes, Nat.mod_one]
  | succ k ih =>
    have hs : leBytes (k + 1) v = BitVec.ofNat 8 v :: leBytes k (v / 256) := by
      simp only [leBytes, List.range_succ_eq_map, List.map_cons, List.map_map, Nat.mul_zero, pow_zero,
        Nat.div_one]
      congr 1
      refine List.map_congr_left fun i _ => ?_
      simp only [Function.comp_apply, Nat.succ_eq_add_one, Nat.div_div_eq_div_mul]
      congr 2
      rw [show 8 * (i + 1) = 8 + 8 * i by ring, pow_add]
      norm_num
    have hc : leNat (leBytes (k + 1) v) = (BitVec.ofNat 8 v).toNat + 256 * leNat (leBytes k (v / 256)) := by
      rw [hs]; rfl
    rw [hc, ih, BitVec.toNat_ofNat, show 8 * (k + 1) = 8 + 8 * k by ring, pow_add]
    norm_num [Nat.mod_mul]

theorem readBytes_writeBytes_same (s : State) (a : Nat) (bs : List Byte) :
    (s.writeBytes a bs).readBytes a bs.length = bs := by
  refine List.ext_getElem (by simp) fun i h1 h2 => ?_
  simp only [State.readBytes, List.getElem_map, List.getElem_range]
  exact State.readByte_writeBytes_inside s a bs i h2

/-- `MemRead` after `MemWrite` at the same place (00_scope R14, 20_memory R104). -/
theorem memRead_memWrite_same (s : State) (a n v : Nat) (h : v < 2 ^ (8 * n)) :
    (s.memWrite a n v).memRead a n = v := by
  have := readBytes_writeBytes_same s a (leBytes n v)
  rw [leBytes_length] at this
  rw [State.memRead, State.memWrite, this, leNat_leBytes, Nat.mod_eq_of_lt h]

/-! ### The canonical form and the bounds, operation by operation -/

theorem State.reset_lmem_wf : State.reset.lmem.wf := by simp [State.reset, State.resetWith, LMem.wf]

theorem State.writeBytes_wf {s : State} (a : Nat) (bs : List Byte) (h : s.lmem.wf) :
    (s.writeBytes a bs).lmem.wf := LMem.store_wf a bs h

theorem State.memWrite_wf {s : State} (a n v : Nat) (h : s.lmem.wf) : (s.memWrite a n v).lmem.wf :=
  LMem.store_wf a _ h

theorem State.writeBlock_wf {s : State} (a : Nat) (v : Vector F64 64) (h : s.lmem.wf) :
    (s.writeBlock a v).lmem.wf := LMem.store_wf a _ h

theorem State.scramble_wf {s : State} (a n : Nat) (h : s.lmem.wf) : (s.scramble a n).lmem.wf :=
  LMem.store_wf a _ h

theorem State.bpFlush_wf {s : State} (b : Byte) (h : s.lmem.wf) : (s.bpFlush b).lmem.wf := LMem.store_wf _ _ h

/-- `scramble` writes inside LMEM only, whatever region it is given (log 3). -/
theorem State.scramble_below {s : State} (a n : Nat) (h : ∀ c ∈ s.lmem, c.1 < s.params.lmemSize) :
    ∀ c ∈ (s.scramble a n).lmem, c.1 < s.params.lmemSize := by
  refine LMem.store_below h ?_
  rw [freeBytes_length]
  by_cases hz : s.clip a n = 0
  · left; simp [hz, freeBytes]
  · right
    have : s.clip a n ≤ s.params.lmemSize - a := by simp [State.clip]
    omega

/-- `scramble` leaves every byte outside its region alone (60_exceptions R347). -/
theorem State.readByte_scramble_outside (s : State) (a n x : Nat) (h : x < a ∨ a + n ≤ x) :
    (s.scramble a n).readByte x = s.readByte x := by
  have : s.clip a n ≤ n := by simp [State.clip]
  have hw := State.readByte_writeBytes_outside s a (freeBytes s.draws (s.clip a n)) x
    (by rw [freeBytes_length]; omega)
  exact hw

/-- Two canonical memories with the same lookups are equal. -/
theorem LMem.ext_of_lookup {m n : LMem} (hm : m.wf) (hn : n.wf) (h : ∀ x, LMem.lookup m x = LMem.lookup n x) :
    m = n := by
  induction m generalizing n with
  | nil =>
    cases n with
    | nil => rfl
    | cons d rest => have := h d.1; simp [LMem.lookup] at this
  | cons c mr ih =>
    cases n with
    | nil => have := h c.1; simp [LMem.lookup] at this
    | cons d nr =>
      have hm2 := List.pairwise_cons.1 hm
      have hn2 := List.pairwise_cons.1 hn
      have habs : ∀ (l : LMem) (x : Nat), (∀ e ∈ l, x < e.1) → LMem.lookup l x = none := by
        intro l x hl
        simp only [LMem.lookup, Option.map_eq_none_iff, List.find?_eq_none]
        intro e he
        have := hl e he
        simp; omega
      have hcons : ∀ (e : Host.Cell) (l : LMem) (x : Nat),
          LMem.lookup (e :: l) x = if e.1 = x then some e.2 else LMem.lookup l x := by
        intro e l x
        by_cases hx : e.1 = x <;> simp [LMem.lookup, hx]
      have h1 := h c.1
      have h2 := h d.1
      rw [hcons, hcons] at h1 h2
      simp only [if_true] at h1 h2
      have hcd : c.1 = d.1 := by
        rcases Nat.lt_trichotomy c.1 d.1 with hlt | he | hgt
        · rw [if_neg (by omega), habs nr c.1 (fun e he => by have := hn2.1 e he; omega)] at h1
          cases h1
        · exact he
        · rw [if_neg (by omega), habs mr d.1 (fun e he => by have := hm2.1 e he; omega)] at h2
          cases h2
      rw [if_pos hcd.symm] at h1
      have hce : c = d := Prod.ext hcd (Option.some.inj h1)
      subst hce
      congr 1
      refine ih hm2.2 hn2.2 fun x => ?_
      have h3 := h x
      rw [hcons, hcons] at h3
      by_cases hx : c.1 = x
      · subst hx
        rw [habs mr c.1 hm2.1, habs nr c.1 hn2.1]
      · rwa [if_neg hx, if_neg hx] at h3

end Sys2Proof.Machine
end

