-- ==== Sys2Proof/Laws/Ops.lean ====
section
/-! SUPPORT. What each shared operation can do, said once: the prechecks, the phases, the packer, the loops. -/

namespace Sys2Proof.Machine

/-! ### Checks (60_exceptions R346, R348) -/

@[simp] theorem State.checked_none (s : State) (body : State → Host.Outcome State Fault Refusal) :
    s.checked none body = body s := rfl

@[simp] theorem State.checked_some (s : State) (e : Err) (body : State → Host.Outcome State Fault Refusal) :
    s.checked (some e) body = .next (s.raise e) := rfl

/-- A checked command either raises its first failing check or runs its body. -/
theorem State.checked_cases {s t : State} {c : Option Err} {body : State → Host.Outcome State Fault Refusal}
    (h : s.checked c body = .next t) :
    (∃ e, c = some e ∧ t = s.raise e) ∨ (c = none ∧ body s = .next t) := by
  cases c with
  | none => exact .inr ⟨rfl, h⟩
  | some e => exact .inl ⟨e, rfl, by simpa using h.symm⟩

theorem failIf_eq_none {bad : Prop} [Decidable bad] {e : Err} : failIf bad e = none ↔ ¬bad := by
  unfold failIf; split <;> simp_all

theorem failIf_eq_some {bad : Prop} [Decidable bad] {e d : Err} : failIf bad e = some d ↔ bad ∧ e = d := by
  unfold failIf; split <;> simp_all

theorem firstError_eq_none {cs : List (Option Err)} : firstError cs = none ↔ ∀ c ∈ cs, c = none := by
  simp [firstError]

@[simp] theorem firstError_nil : firstError [] = none := rfl

@[simp] theorem firstError_cons_none (cs : List (Option Err)) : firstError (none :: cs) = firstError cs := rfl

@[simp] theorem firstError_cons_some (e : Err) (cs : List (Option Err)) : firstError (some e :: cs) = some e := rfl

/-! ### Phases (46_pipeline R300) -/

/-- What every task and every task mark keeps, a block phase keeps. -/
theorem State.blockPhase_induction {P : State → Prop} {nb : Nat} {task : Nat → State → State}
    (ht : ∀ t s, t < nb → P s → P (task t s)) (hm : ∀ t s, P s → P (s.markTask t)) {s : State} (h : P s) :
    P (s.blockPhase nb task) := by
  unfold State.blockPhase
  have key : ∀ (l : List Nat) (s : State), (∀ t ∈ l, t < nb) → P s →
      P (l.foldl (fun s t => s.runTask t (task t)) s) := by
    intro l
    induction l with
    | nil => intro s _ h; exact h
    | cons t rest ih =>
      intro s hl h
      refine ih _ (fun u hu => hl u (List.mem_cons_of_mem _ hu)) ?_
      show P (s.runTask t (task t))
      unfold State.runTask
      split
      · exact h
      · exact hm _ _ (ht _ _ (hl t List.mem_cons_self) h)
  exact key _ s (fun t h => List.mem_range.1 h) h

/-- What scrambling one region keeps, scrambling a list of regions keeps. -/
theorem State.scrambleRegions_induction {P : State → Prop} {rs : List Region}
    (hp : ∀ r s, r ∈ rs → r.written = true → P s → P (s.scramble r.base r.size)) {s : State} (h : P s) :
    P (s.scrambleRegions rs) := by
  unfold State.scrambleRegions
  have key : ∀ (l : List Region) (s : State), (∀ r ∈ l, r ∈ rs ∧ r.written = true) → P s →
      P (l.foldl (fun s r => s.scramble r.base r.size) s) := by
    intro l
    induction l with
    | nil => intro s _ h; exact h
    | cons r rest ih =>
      intro s hl h
      have hr := hl r List.mem_cons_self
      exact ih _ (fun q hq => hl q (List.mem_cons_of_mem _ hq)) (hp r s hr.1 hr.2 h)
  exact key _ s (fun r hr => List.mem_filter.1 hr) h

/-- Scrambling regions changes LMEM and the draw counter, nothing else. -/
theorem State.scrambleRegions_frame (s : State) (rs : List Region) :
    s.scrambleRegions rs =
      { s with lmem := (s.scrambleRegions rs).lmem, draws := (s.scrambleRegions rs).draws } := by
  have h : ∃ l d, s.scrambleRegions rs = { s with lmem := l, draws := d } := by
    refine State.scrambleRegions_induction (P := fun t => ∃ l d, t = { s with lmem := l, draws := d })
      (fun r t _ _ ht => ?_) ⟨s.lmem, s.draws, rfl⟩
    obtain ⟨l, d, rfl⟩ := ht
    exact ⟨_, _, rfl⟩
  obtain ⟨l, d, h⟩ := h
  rw [h]

/-- A block phase of tasks that change LMEM and QNF only changes LMEM, QNF and the task progress only. -/
theorem State.blockPhase_frame {nb : Nat} {task : Nat → State → State}
    (ht : ∀ t s, ∃ l q, task t s = { s with lmem := l, qnf := q }) (s : State) :
    ∃ l q d, s.blockPhase nb task =
      { s with lmem := l, qnf := q, seq := { s.seq with tasksDone := d } } := by
  refine State.blockPhase_induction
    (P := fun u => ∃ l q d, u = { s with lmem := l, qnf := q, seq := { s.seq with tasksDone := d } })
    (fun t u _ hu => ?_) (fun t u hu => ?_) ⟨s.lmem, s.qnf, s.seq.tasksDone, rfl⟩
  · obtain ⟨l, q, d, rfl⟩ := hu
    obtain ⟨l2, q2, h2⟩ := ht t { s with lmem := l, qnf := q, seq := { s.seq with tasksDone := d } }
    exact ⟨l2, q2, d, h2⟩
  · obtain ⟨l, q, d, rfl⟩ := hu
    exact ⟨l, q, t :: d, rfl⟩

/-! ### The packer (45_bitpack R270) -/

/-- A push adds one bit to the counters, and flushes the remainder where it was the eighth. -/
theorem State.bpPush_cases {s t : State} {bit : Bool} (h : s.bpPush bit = some t) :
    (s.bp.nacc ≠ 7 ∧ t.lmem = s.lmem ∧ t.bp.bytes = s.bp.bytes ∧ t.bp.nacc = s.bp.nacc + 1) ∨
      (s.bp.nacc = 7 ∧ s.bp.bytes.toNat < s.bp.cap.toNat ∧ t.bp.bytes = s.bp.bytes + 1 ∧ t.bp.nacc = 0 ∧
        ∃ b, t.lmem = LMem.store s.lmem (s.bp.base.toNat + s.bp.bytes.toNat) [b]) := by
  unfold State.bpPush at h
  simp only at h
  split at h
  · rename_i h7
    split at h
    · cases h
    · rename_i hf
      simp only [Option.some.injEq] at h
      subst h
      simp only [BitPacker.full, decide_eq_true_eq, not_le] at hf
      exact .inr ⟨h7, hf, rfl, rfl, _, rfl⟩
  · rename_i h7
    simp only [Option.some.injEq] at h
    subst h
    exact .inl ⟨h7, rfl, rfl, rfl⟩

/-- A push changes LMEM and the packer's remainder and counters, nothing else; it keeps the session's base,
capacity and region id, and leaves the session open. -/
theorem State.bpPush_frame {s t : State} {bit : Bool} (h : s.bpPush bit = some t) :
    t = { s with
      lmem := t.lmem
      bp := { s.bp with acc := t.bp.acc, nacc := t.bp.nacc, bytes := t.bp.bytes, total := s.bp.total + 1 } } := by
  unfold State.bpPush at h
  simp only at h
  split at h
  · split at h
    · cases h
    · simp only [Option.some.injEq] at h
      subst h
      rfl
  · simp only [Option.some.injEq] at h
    subst h
    rfl

/-- What every push keeps, a run of pushes keeps, whether or not it is stopped. -/
theorem State.bpPushAll_induction {P : State → Prop} (hp : ∀ s t bit, P s → s.bpPush bit = some t → P t)
    (bits : List Bool) {s : State} (h : P s) : P (s.bpPushAll bits).1 := by
  induction bits generalizing s with
  | nil => exact h
  | cons b rest ih =>
    unfold State.bpPushAll
    cases hb : s.bpPush b with
    | none => exact h
    | some t => exact ih (hp s t b h hb)

/-- Pushing two lists of bits, one after the other. -/
theorem State.bpPushAll_append (s : State) (xs ys : List Bool) :
    s.bpPushAll (xs ++ ys) =
      match s.bpPushAll xs with
      | (t, true) => t.bpPushAll ys
      | (t, false) => (t, false) := by
  induction xs generalizing s with
  | nil => rfl
  | cons b rest ih =>
    simp only [List.cons_append, State.bpPushAll]
    cases s.bpPush b with
    | none => rfl
    | some t => exact ih t

@[simp] theorem lowBits_length (v : Word) (n : Nat) : (lowBits v n).length = n := by simp [lowBits]

/-- What every push keeps, an emission keeps, whether or not it is stopped (44_huffman R250). -/
theorem State.emitBytes_induction {P : State → Prop} (hp : ∀ s t bit, P s → s.bpPush bit = some t → P t)
    (tab : Vector CodeEntry 256) (bs : List Byte) (i : Nat) {s : State} (h : P s) :
    P (s.emitBytes tab i bs).1 := by
  induction bs generalizing s i with
  | nil => exact h
  | cons b rest ih =>
    unfold State.emitBytes
    split
    · have hadd : P (s.bpAdd (atByte tab b).code (atByte tab b).len.toNat).1 :=
        State.bpPushAll_induction hp _ h
      rcases hb : s.bpAdd (atByte tab b).code (atByte tab b).len.toNat with ⟨t, ok⟩
      rw [hb] at hadd
      cases ok with
      | true => exact ih (i + 1) hadd
      | false => exact hadd
    · exact h

/-- The end of a session: the last byte is flushed where bits are pending, and the session closes. -/
theorem State.bpEnd_cases {s t : State} (h : s.bpEnd = some t) :
    (s.bp.nacc = 0 ∧ t = { s with bp := { s.bp with isOpen := false } }) ∨
      (s.bp.nacc ≠ 0 ∧ s.bp.bytes.toNat < s.bp.cap.toNat ∧
        t = { s.bpFlush s.bp.padded with bp := { (s.bpFlush s.bp.padded).bp with isOpen := false } }) := by
  unfold State.bpEnd at h
  split at h
  · rename_i h0
    exact .inl ⟨h0, by simpa using h.symm⟩
  · rename_i h0
    split at h
    · cases h
    · rename_i hf
      simp only [BitPacker.full, decide_eq_true_eq, not_le] at hf
      exact .inr ⟨h0, hf, by simpa using h.symm⟩

/-! ### The Huffman build (44_huffman R248) -/

/-- The build phase ends with the table as the working TAB, and nothing else changed but SEQ's phase and
scratch. -/
theorem State.hufBuildPhase_ok {s t : State} {f : Vector Word 256} (h : s.hufBuildPhase f = .ok t) :
    ∃ tab, buildTab f = .ok tab ∧
      t = (((s.enterPhase .hufBuild).setWorklist []).setWorkTab tab) := by
  unfold State.hufBuildPhase at h
  simp only [State.setWorklist_seq] at h
  cases hb : tabOfWorklist (initialWorklist f) with
  | error e => rw [hb] at h; cases h
  | ok tab =>
    rw [hb] at h
    simp only [Except.ok.injEq] at h
    exact ⟨tab, hb, h.symm⟩

theorem State.hufBuildPhase_error {s : State} {f : Vector Word 256} {e : Err}
    (h : s.hufBuildPhase f = .error e) : buildTab f = .error e := by
  unfold State.hufBuildPhase at h
  simp only [State.setWorklist_seq] at h
  cases hb : tabOfWorklist (initialWorklist f) with
  | error d => rw [hb] at h; simpa [buildTab, hb] using h
  | ok tab => rw [hb] at h; cases h

/-! ### Decoding (44_huffman R257, R259) -/

/-- A successful decoding loop produces exactly the symbols it wants. -/
theorem decodeLoop_length {t : Vector CodeEntry 256} {bit : Nat → Bool} {left i sv sl want : Nat}
    {out : List Byte} (h : decodeLoop t bit left i sv sl want = .ok out) : out.length = want := by
  induction left generalizing i sv sl want out with
  | zero =>
    unfold decodeLoop at h
    split at h
    · cases h
    · simp only [Except.ok.injEq] at h
      subst h
      simp_all
  | succ left ih =>
    unfold decodeLoop at h
    simp only at h
    split at h
    · cases h
    · split at h
      · exact ih h
      · cases want with
        | zero => cases h
        | succ w =>
          simp only at h
          split at h
          · cases h
          · rename_i hr
            simp only [Except.ok.injEq] at h
            subst h
            simp [ih hr]

/-- A successful DECODE produces exactly N symbols (44_huffman R257, R259). -/
theorem State.decodePayload_length {s : State} {t : Vector CodeEntry 256} {a nbits n : Nat} {out : List Byte}
    (h : s.decodePayload t a nbits n = .ok out) : out.length = n := by
  unfold State.decodePayload at h
  split at h
  · split at h
    · cases h
    · simp only [Except.ok.injEq] at h
      subst h
      simp
  · exact decodeLoop_length h

/-! ### The zigzag tables (43_zigzag R230) -/

theorem zzInv_zzRom (k : Fin 64) : zzInv (zzRom k) = k := by revert k; decide

theorem zzRom_zzInv (i : Fin 64) : zzRom (zzInv i) = i := by revert i; decide

end Sys2Proof.Machine
end

