-- ==== Sys2Proof/Laws/Blocks.lean ====
section
/-! SUPPORT. The cells of a block, what the early turns can do, and what a NaN sample does to its whole block
(41_dct R190, R193). -/

namespace Sys2Proof.Machine

@[simp] theorem rowOf_cellIx (r c : Fin 8) : rowOf (cellIx r c) = r := by
  apply Fin.ext; simp only [rowOf, cellIx]; omega

@[simp] theorem colOf_cellIx (r c : Fin 8) : colOf (cellIx r c) = c := by
  apply Fin.ext; simp only [colOf, cellIx]; omega

@[simp] theorem cellIx_rowOf_colOf (i : Fin 64) : cellIx (rowOf i) (colOf i) = i := by
  apply Fin.ext; simp only [cellIx, rowOf, colOf]; omega

/-- A block from its cells, read at any index. -/
@[simp] theorem grid_get (f : Fin 8 → Fin 8 → F64) (i : Fin 64) : (grid f)[i] = f (rowOf i) (colOf i) := by
  simp [grid]

/-- A block from its cells, read at one cell. -/
theorem grid_cell (f : Fin 8 → Fin 8 → F64) (r c : Fin 8) : (grid f)[cellIx r c] = f r c :=
  (grid_get f _).trans (by rw [rowOf_cellIx, colOf_cellIx])

/-! ### Work done before the turn that ends the command (46_pipeline R300, log 5) -/

/-- A worker's turn does nothing, or runs one early task of the running command with RST released. -/
theorem workerTurn_cases (w t : Nat) (s : State) :
    workerTurn w t s = s ∨ (s.busy = true ∧ s.rst = false ∧ earlyTask s t = some (workerTurn w t s)) := by
  unfold workerTurn
  split
  · rename_i h
    cases he : earlyTask s t with
    | none => exact .inl rfl
    | some u => exact .inr ⟨h.1, h.2.1, rfl⟩
  · exact .inl rfl

/-- The sequencer's early turn does nothing, or does the one block of a running QUANT or BLK_ENC. -/
theorem blockTurn_cases (s : State) :
    blockTurn s = s ∨
      (s.busy = true ∧ s.rst = false ∧ quantCheck s = none ∧
        ((s.seq.instr = .quant ∧ blockTurn s = s.runTask 0 quantBody) ∨
          (s.seq.instr = .blkEnc ∧ blockTurn s = s.runTask 0 blkEncBody))) := by
  unfold blockTurn
  split
  · rename_i h
    unfold earlyBlock
    cases hi : s.seq.instr with
    | quant =>
      by_cases hc : quantCheck s = none
      · exact .inr ⟨h.1, h.2, hc, .inl ⟨rfl, by simp [hc]⟩⟩
      · exact .inl (by simp [hc])
    | blkEnc =>
      by_cases hc : quantCheck s = none
      · exact .inr ⟨h.1, h.2, hc, .inr ⟨rfl, by simp [hc]⟩⟩
      · exact .inl (by simp [hc])
    | _ => exact .inl rfl
  · exact .inl rfl

/-! ### NaN -/

theorem f64Class_nan : f64Class f64NaN = .nan := by decide +kernel

theorem fadd_nan_left {a : F64} (b : F64) (h : f64Class a = .nan) : fadd a b = f64NaN := by
  simp [fadd, h]

theorem fadd_nan_right (a : F64) {b : F64} (h : f64Class b = .nan) : fadd a b = f64NaN := by
  unfold fadd
  rw [h]
  cases f64Class a <;> rfl

theorem fmul_nan_left {a : F64} (b : F64) (h : f64Class a = .nan) : fmul a b = f64NaN := by
  simp [fmul, h]

theorem fdiv_nan_left {a : F64} (b : F64) (h : f64Class a = .nan) : fdiv a b = f64NaN := by
  simp [fdiv, h]

/-- A sum of products whose first factor is a NaN is the NaN. -/
theorem dot8_nan (f g : Fin 8 → F64) (h : f64Class (f 0) = .nan) : dot8 f g = f64NaN := by
  have keep : ∀ (l : List (Fin 8)), l.foldl (fun acc i => fadd acc (fmul (f i) (g i))) f64NaN = f64NaN := by
    intro l
    induction l with
    | nil => rfl
    | cons i rest ih => simp only [List.foldl_cons, fadd_nan_left _ f64Class_nan, ih]
  have hl : List.finRange 8 = 0 :: [1, 2, 3, 4, 5, 6, 7] := by decide
  rw [dot8, hl, List.foldl_cons, fmul_nan_left _ h, fadd_nan_right _ f64Class_nan, keep]

/-- Every coefficient of a block whose first sample is a NaN is the NaN. -/
theorem fdct8_nan (s : Vector F64 64) (h : f64Class s[cellIx 0 0] = .nan) (i : Fin 64) : (fdct8 s)[i] = f64NaN := by
  have hr : ∀ u, (fdctRows s)[cellIx 0 u] = f64NaN := by
    intro u
    rw [fdctRows, grid_cell]
    exact dot8_nan _ _ h
  rw [fdct8, grid_get]
  rw [dot8_nan _ _ (by rw [hr]; exact f64Class_nan), fmul_nan_left _ f64Class_nan]

theorem qbyte_nan {c : F64} (t : Word) (h : f64Class c = .nan) : qbyte c t = (0, true) := by
  rw [qbyte, fdiv_nan_left _ h, f64Trunc, f64Class_nan]

/-- A block whose first sample is a NaN encodes to 64 zero bytes and a QNF event. -/
theorem encBlock_nan (s : Vector F64 64) (qt : Vector Word 64) (h : f64Class s[cellIx 0 0] = .nan) :
    encBlock s qt = (List.replicate 64 0, true) := by
  have hf : ∀ i : Fin 64, (fdct8 (s.map (fun x => fsub x levelShift)))[i] = f64NaN := by
    refine fdct8_nan _ ?_
    have : (s.map (fun x => fsub x levelShift))[cellIx 0 0] = f64NaN := by
      simp only [Fin.getElem_fin, Vector.getElem_map]
      exact fadd_nan_left _ h
    rw [this]
    exact f64Class_nan
  have hq : (Vector.ofFn (fun i : Fin 64 => qbyte (fdct8 (s.map (fun x => fsub x levelShift)))[i] qt[i])) =
      Vector.replicate 64 (0, true) := by
    apply Vector.ext
    intro i hi
    simp only [Vector.getElem_ofFn, Vector.getElem_replicate]
    rw [hf ⟨i, hi⟩]
    exact qbyte_nan _ f64Class_nan
  unfold encBlock
  simp only
  rw [hq]
  refine Prod.ext ?_ ?_
  · simp [scan, Vector.map_replicate]
    decide +kernel
  · decide +kernel

end Sys2Proof.Machine
end

