-- ==== Sys2Proof/Laws/PerInstr.lean ====
section
/-! SUPPORT. One law per constructor: where a command's word has its bits (30_encoding R141, R142). -/

namespace Sys2Proof.Laws.WordFields

/-- The word of a command has its opcode in [7:0], its six-bit argument in [13:8], and 0 above (R141, R142). -/
def Statement (i : Instr) : Prop :=
  (encode i).toNat % 2 ^ 8 = (opcode i).toNat ∧ (encode i).toNat / 2 ^ 8 = (argField i).toNat ∧
    (encode i).toNat < 2 ^ 14

theorem nop : Statement .nop := by unfold Statement; decide

theorem qtabBuild : Statement .qtabBuild := by unfold Statement; decide

theorem fdct : Statement .fdct := by unfold Statement; decide

theorem idct : Statement .idct := by unfold Statement; decide

theorem quant : Statement .quant := by unfold Statement; decide

theorem dequant : Statement .dequant := by unfold Statement; decide

theorem zzscan : Statement .zzscan := by unfold Statement; decide

theorem zzunscan : Statement .zzunscan := by unfold Statement; decide

theorem hufFreq : Statement .hufFreq := by unfold Statement; decide

theorem hufBuild : Statement .hufBuild := by unfold Statement; decide

theorem hufEmit : Statement .hufEmit := by unfold Statement; decide

theorem hufEncode : Statement .hufEncode := by unfold Statement; decide

theorem hufDecode : Statement .hufDecode := by unfold Statement; decide

theorem bpInit : Statement .bpInit := by unfold Statement; decide

theorem bpAdd (n : Nat) : Statement (.bpAdd n) := by
  have h : ∀ m : BitVec 6, (0#18 ++ m ++ 0x31#8).toNat % 2 ^ 8 = 0x31 ∧
      (0#18 ++ m ++ 0x31#8).toNat / 2 ^ 8 = m.toNat ∧ (0#18 ++ m ++ 0x31#8).toNat < 2 ^ 14 := by decide
  exact h (BitVec.ofNat 6 n)

theorem bpFinish : Statement .bpFinish := by unfold Statement; decide

theorem blkEnc : Statement .blkEnc := by unfold Statement; decide

theorem blkDec : Statement .blkDec := by unfold Statement; decide

theorem pipeFwd : Statement .pipeFwd := by unfold Statement; decide

theorem pipeInv : Statement .pipeInv := by unfold Statement; decide

theorem compress : Statement .compress := by unfold Statement; decide

theorem decompress : Statement .decompress := by unfold Statement; decide

theorem cntPack : Statement .cntPack := by unfold Statement; decide

theorem cntUnpack : Statement .cntUnpack := by unfold Statement; decide

end Sys2Proof.Laws.WordFields
end

