-- ==== Sys2Proof/Tests/Slice0.lean ====
section
/-! SUPPORT. The model's own tests: expected results are the spec's (95_test_vectors and the rules' examples). -/

namespace Sys2Proof.Tests

set_option Elab.async false

open Sys2Proof Sys2Proof.Machine

/-! ### Helpers -/

/-- Operand registers with SRC, DST, LEN and CAP. -/
def ops (src dst len cap : Word) : OperandRegs :=
  { OperandRegs.reset with src := src, dst := dst, len := len, cap := cap }

/-- The state after reset with the command accepted on the given operands, and these bytes of LMEM written. -/
def running (i : Instr) (r : OperandRegs) (m : LMem) : State :=
  { State.reset with
    seq :=
      { state := .running, instr := i, op := { regs := r, workers := 1 }, phase := homeStage i, work := Work.none
        worklist := [], tasksDone := [], held := HeldRecord.none }
    lmem := m }

/-- The answer is a next state with this property. -/
def ends (o : Host.Outcome State Fault Refusal) (p : State → Bool) : Bool :=
  match o with
  | .next s => p s
  | _ => false

/-- The error record of a state: ERR, ERRCODE, ERRSTAGE, ERRINFO. -/
def failed (s : State) (c : ErrCode) (g : Stage) (info : Word) : Bool :=
  s.err && !s.done && decide (s.errCode = c) && decide (s.errStage = g) && decide (s.errInfo = info)

/-- With QTAB built for q. -/
def withQtab (s : State) (q : Nat) : State := { s with qtab := qtabFn q, qtabv := true }

/-! ### Well-formedness and decoding -/

theorem test_wellFormed_refuses_n64 : ¬ (Instr.bpAdd 64).WellFormed := by decide

theorem test_wellFormed_admits_n63 : (Instr.bpAdd 63).WellFormed := by decide

theorem test_decode_nop : decode 0x00000000#32 = .ok .nop := by decide
theorem test_decode_qtabBuild : decode 0x00000001#32 = .ok .qtabBuild := by decide
theorem test_decode_fdct : decode 0x00000010#32 = .ok .fdct := by decide
theorem test_decode_idct : decode 0x00000011#32 = .ok .idct := by decide
theorem test_decode_quant : decode 0x00000012#32 = .ok .quant := by decide
theorem test_decode_dequant : decode 0x00000013#32 = .ok .dequant := by decide
theorem test_decode_zzscan : decode 0x00000014#32 = .ok .zzscan := by decide
theorem test_decode_zzunscan : decode 0x00000015#32 = .ok .zzunscan := by decide
theorem test_decode_hufFreq : decode 0x00000020#32 = .ok .hufFreq := by decide
theorem test_decode_hufBuild : decode 0x00000021#32 = .ok .hufBuild := by decide
theorem test_decode_hufEmit : decode 0x00000022#32 = .ok .hufEmit := by decide
theorem test_decode_hufEncode : decode 0x00000023#32 = .ok .hufEncode := by decide
theorem test_decode_hufDecode : decode 0x00000024#32 = .ok .hufDecode := by decide
theorem test_decode_bpInit : decode 0x00000030#32 = .ok .bpInit := by decide
theorem test_decode_bpAdd3 : decode 0x00000331#32 = .ok (.bpAdd 3) := by decide
theorem test_decode_bpAdd63 : decode 0x00003F31#32 = .ok (.bpAdd 63) := by decide
theorem test_decode_bpFinish : decode 0x00000032#32 = .ok .bpFinish := by decide
theorem test_decode_blkEnc : decode 0x00000040#32 = .ok .blkEnc := by decide
theorem test_decode_blkDec : decode 0x00000041#32 = .ok .blkDec := by decide
theorem test_decode_pipeFwd : decode 0x00000042#32 = .ok .pipeFwd := by decide
theorem test_decode_pipeInv : decode 0x00000043#32 = .ok .pipeInv := by decide
theorem test_decode_compress : decode 0x00000044#32 = .ok .compress := by decide
theorem test_decode_decompress : decode 0x00000045#32 = .ok .decompress := by decide
theorem test_decode_cntPack : decode 0x00000050#32 = .ok .cntPack := by decide
theorem test_decode_cntUnpack : decode 0x00000051#32 = .ok .cntUnpack := by decide

/-- L2.1: the words that are illegal, with the reason. -/
theorem test_decode_rejects :
    decode 0x00000110#32 = .error (.reservedBits 0x10) ∧ decode 0x00004031#32 = .error (.reservedBits 0x31) ∧
      decode 0x80000044#32 = .error (.reservedBits 0x44) ∧ decode 0x00000002#32 = .error (.unassignedOpcode 2) ∧
      decode 0x000000FF#32 = .error (.unassignedOpcode 0xFF) := by decide

theorem test_decodeTableWord : decodeTableWord 32 0x331 = some (.bpAdd 3) := by decide

/-- The first step after reset runs the word placed for it. -/
theorem test_withFetchWord :
    ends (step (State.reset.withFetchWord 32 0)) (fun s => s.done && !s.busy) = true := by decide +kernel

/-! ### Issue and control -/

/-- L2.1: 0x00000110 raises E_ILLEGAL with the word, LASTOP 0x10. -/
theorem test_illegal :
    ends (hostRegWrite 0x14 4 0x110 State.reset)
      (fun s => failed s .illegal .decode 0x110 && decide (s.lastOp = 0x10) && !s.busy) = true := by decide +kernel

/-- L2.2: CTRL writes with NWORKERS = 4. The last row of L2.2 differs from R38 (log 14): by the rule, a WORKERS
field of 0 gives 1. -/
theorem test_ctrl :
    ctrlWord (State.reset.writeCtrl 0x00000002) = 0x00000102#32 ∧
      ctrlWord (State.reset.writeCtrl 0x0000FF00) = 0x00000400#32 ∧
      ctrlWord (State.reset.writeCtrl 0xFFFF0003) = 0x00000103#32 := by decide +kernel

/-- R170: `cmd NOP ; wait` leaves STATUS = 0x00000002. -/
theorem test_nop : ends (hostRun 0 State.reset) (fun s => decide (statusWord s = 0x00000002#32)) = true := by
  decide +kernel

/-- A CMD write while BUSY is dropped with DROP (R44). -/
theorem test_drop :
    ends (hostRegWrite 0x14 4 0 (running .hufBuild OperandRegs.reset []))
      (fun s => s.drop && decide (s.seq.instr = .hufBuild)) = true := by decide +kernel

/-! ### One block -/

/-- R213: q = 90 gives QTAB[0] = 3, QTAB[1] = 2, QTAB[63] = 20. -/
theorem test_qtabBuild :
    ends (exec .qtabBuild (running .qtabBuild { OperandRegs.reset with quality := 90 } []))
      (fun s => s.done && s.qtabv && decide (s.qtab[0] = 3 ∧ s.qtab[1] = 2 ∧ s.qtab[63] = 20)) = true := by
  decide +kernel

/-- R213: q = 0x80000000 is negative and fails. -/
theorem test_qtabBuild_negative :
    ends (exec .qtabBuild (running .qtabBuild { OperandRegs.reset with quality := 0x80000000 } []))
      (fun s => failed s .quality .qtab 0x80000000 && !s.qtabv) = true := by decide +kernel

/-- R219 (1): the multiplier strictly decreases over [1, 99]. -/
theorem test_qualityMult_decreases : ∀ q < 99, 1 ≤ q → qualityMult (q + 1) < qualityMult q := by decide +kernel

/-- L2.4: SRC = 4 raises E_ALIGN(1), and SRC = DST raises E_OVERLAP(0x12). -/
theorem test_fdct_regions :
    ends (exec .fdct (running .fdct (ops 4 1024 0 0) [])) (fun s => failed s .align .transform 1) = true ∧
      ends (exec .fdct (running .fdct (ops 512 512 0 0) [])) (fun s => failed s .overlap .transform 0x12) = true := by
  decide +kernel

/-- L2.4: the DC coefficient of the impulse s[0][0] = 1.0 is 0.125. -/
theorem test_fdct_impulse :
    (fdct8 (Vector.ofFn (fun i => if i = 0 then 0x3FF0000000000000#64 else 0)))[0] = 0x3FC0000000000000#64 := by
  decide +kernel

/-- L2.4: G[0][1] = 1.0 gives r[0][0] = 0.17337998066526844. -/
theorem test_idct_single :
    (idct8 (Vector.ofFn (fun i => if i = 1 then 0x3FF0000000000000#64 else 0)))[0] = 0x3FC63150B15E8536#64 := by
  decide +kernel

/-- R196: an IDCT region past the end of LMEM raises E_RANGE(2). -/
theorem test_idct_range :
    ends (exec .idct (running .idct (ops 0 0xFE08 0 0) [])) (fun s => failed s .range .transform 2) = true := by
  decide +kernel

/-- L2.5: −8.0 by 3 is FE; −129.0 by 1 wraps to 7F; 5.0 by 0 is 00 with QNF. -/
theorem test_qbyte :
    qbyte 0xC020000000000000 3 = (0xFE, false) ∧ qbyte 0xC060200000000000 1 = (0x7F, false) ∧
      qbyte 0x4014000000000000 0 = (0, true) := by decide +kernel

/-- L2.5: QUANT with QTABV = 0 raises E_NOQTAB(0), before any region check. -/
theorem test_quant_noQtab :
    ends (exec .quant (running .quant (ops 0 0 0 0) [])) (fun s => failed s .noQtab .transform 0) = true := by
  decide +kernel

/-- L2.5: FE by 3 is −6.0, 7F by 6050 is 768350.0, 00 by 0 is +0.0. -/
theorem test_dequantize :
    dequantize 0xFE 3 = 0xC018000000000000#64 ∧ dequantize 0x7F 6050 = 0x412772BC00000000#64 ∧
      dequantize 0 0 = 0 := by decide +kernel

/-- R218: DEQUANT of a byte FE with QTAB[0] = 3 writes −6.0. -/
theorem test_dequant :
    ends (exec .dequant (withQtab (running .dequant (ops 0 512 0 0) (cellsAt 0 (0xFE :: List.replicate 63 0))) 90))
      (fun s => s.done && decide (s.memReadF64 512 = 0xC018000000000000#64) && decide (s.outlen = 512)) = true := by
  decide +kernel

/-- The block whose byte i is i. -/
def ramp : List Byte := (List.range 64).map (fun i => BitVec.ofNat 8 i)

/-- L1.2: ZZSCAN of byte i = i gives 00 01 08 10 09 … 3F. -/
theorem test_zzscan :
    ends (exec .zzscan (running .zzscan (ops 0 64 0 0) (cellsAt 0 ramp)))
      (fun s => s.done && decide (s.readBytes 64 5 = [0x00, 0x01, 0x08, 0x10, 0x09]) &&
        decide (s.readByte 127 = 0x3F)) = true := by decide +kernel

/-- L2.6: ZZUNSCAN of 00 01 02 … puts 02 at natural index 8 and 3F at 63. -/
theorem test_zzunscan :
    ends (exec .zzunscan (running .zzunscan (ops 0 64 0 0) (cellsAt 0 ramp)))
      (fun s => s.done && decide (s.readByte 72 = 0x02) && decide (s.readByte 127 = 0x3F)) = true := by
  decide +kernel

/-- R294: BLK_ENC with no table raises E_NOQTAB(0). -/
theorem test_blkEnc_noQtab :
    ends (exec .blkEnc (running .blkEnc (ops 0 512 0 0) [])) (fun s => failed s .noQtab .transform 0) = true := by
  decide +kernel

/-- R295: BLK_DEC overlaps where SRC lies in DST's block. -/
theorem test_blkDec_overlap :
    ends (exec .blkDec (withQtab (running .blkDec (ops 0x100 0 0 0) []) 90))
      (fun s => failed s .overlap .transform 0x12) = true := by decide +kernel

/-! ### Huffman -/

/-- The input of H1. -/
def h1 : List Byte := [5, 5, 5, 5, 7, 7, 9]

/-- R241: the counts of H1. -/
theorem test_hufFreq :
    ends (exec .hufFreq (running .hufFreq (ops 0 0 7 0) (cellsAt 0 h1)))
      (fun s => s.done && decide (s.freq[5] = 4 ∧ s.freq[6] = 0)) = true := by
  decide +kernel

/-- R244: the codes of H1: 5 "1", 7 "01", 9 "00". -/
theorem test_hufBuild :
    ends (exec .hufBuild { running .hufBuild OperandRegs.reset [] with freq := freqFn h1 })
      (fun s => s.done && decide (s.tab[5] = { code := 1, len := 1, valid := true } ∧
        s.tab[7] = { code := 1, len := 2, valid := true } ∧
        s.tab[9] = { code := 0, len := 2, valid := true } ∧ nsym s = 3)) = true := by decide +kernel

/-- HUF_BUILD with every counter 0 raises E_EMPTY(0). -/
theorem test_hufBuild_empty :
    ends (exec .hufBuild (running .hufBuild OperandRegs.reset [])) (fun s => failed s .empty .hufBuild 0) = true := by
  decide +kernel

/-- The table of H1. -/
def h1Tab : Vector CodeEntry 256 :=
  ((Vector.replicate 256 CodeEntry.none).set 5 { code := 1, len := 1, valid := true }).set 7
    { code := 1, len := 2, valid := true } |>.set 9 { code := 0, len := 2, valid := true }

/-- R250: H1 emits F5 00, 10 bits. -/
theorem test_hufEmit :
    ends (exec .hufEmit { running .hufEmit (ops 0 16 7 4) (cellsAt 0 h1) with tab := h1Tab })
      (fun s => s.done && decide (s.readBytes 16 2 = [0xF5, 0x00]) &&
        decide (s.opr.bitcnt = 10 ∧ s.outlen = 2 ∧ s.bp.isOpen = false)) = true := by decide +kernel

/-- L2.8: H1's table and the input 05 06 raise E_NOCODE(1). -/
theorem test_hufEmit_noCode :
    ends (exec .hufEmit { running .hufEmit (ops 0 16 2 4) (cellsAt 0 [5, 6]) with tab := h1Tab })
      (fun s => failed s .noCode .hufEmit 1 && !s.bp.isOpen) = true := by decide +kernel

/-- H2: 00 01 02 03 encodes to 1B with BITCNT 8. -/
theorem test_hufEncode :
    ends (exec .hufEncode (running .hufEncode (ops 0 16 4 4) (cellsAt 0 [0, 1, 2, 3])))
      (fun s => s.done && decide (s.readByte 16 = 0x1B) && decide (s.opr.bitcnt = 8 ∧ s.freq[3] = 1)) = true := by
  decide +kernel

/-- D2: F5 00 decodes to H1. -/
theorem test_hufDecode :
    ends (exec .hufDecode
        { running .hufDecode { ops 0 16 7 0 with bitcnt := 10 } (cellsAt 0 [0xF5, 0x00]) with tab := h1Tab })
      (fun s => s.done && decide (s.readBytes 16 7 = h1)) = true := by decide +kernel

/-- D5: with BITCNT = 9 the sample "0" is pending at the end: E_CORRUPT(9). -/
theorem test_hufDecode_corrupt :
    ends (exec .hufDecode
        { running .hufDecode { ops 0 16 7 0 with bitcnt := 9 } (cellsAt 0 [0xF5, 0x00]) with tab := h1Tab })
      (fun s => failed s .corrupt .hufDecode 9) = true := by decide +kernel

/-! ### Bit packer -/

/-- A state with an open session at 0x100 of the given capacity. -/
def session (i : Instr) (v cap : Word) : State :=
  (running i { OperandRegs.reset with bpdata := v } []).bpStart 0x100 cap .dst

/-- R271: BP_INIT with DST = 0x100 and CAP = 16. -/
theorem test_bpInit :
    ends (exec .bpInit (running .bpInit (ops 0 0x100 0 16) []))
      (fun s => s.done && decide (s.bp = BitPacker.mk true 0 0 0 0 0x100 16 2)) = true := by decide +kernel

/-- BP3: 32 bits of 0xDEADBEEF. -/
theorem test_bpAdd :
    ends (exec (.bpAdd 32) (session (.bpAdd 32) 0xDEADBEEF 16))
      (fun s => s.done && decide (s.readBytes 0x100 4 = [0xDE, 0xAD, 0xBE, 0xEF]) && decide (s.bp.total = 32)) =
        true := by decide +kernel

/-- BP8: with CAP = 0 the eighth bit raises E_OVERFLOW(2). -/
theorem test_bpAdd_overflow :
    ends (exec (.bpAdd 8) (session (.bpAdd 8) 0xFF 0))
      (fun s => failed s .overflow .bitpack 2 && !s.bp.isOpen && decide (s.lmem = [])) = true := by decide +kernel

/-- BP5: after 0xFFFFFFF5 with n = 4, BP_FINISH writes 50. -/
theorem test_bpFinish :
    ends (exec .bpFinish ((session .bpFinish 0 16).bpAdd 0xFFFFFFF5 4).1)
      (fun s => s.done && decide (s.readByte 0x100 = 0x50) && decide (s.opr.bitcnt = 4 ∧ s.outlen = 1)) = true := by
  decide +kernel

/-- BP_FINISH with BP closed raises E_STATE(0). -/
theorem test_bpFinish_closed :
    ends (exec .bpFinish (running .bpFinish OperandRegs.reset [])) (fun s => failed s .state .bitpack 0) = true := by
  decide +kernel

/-! ### Images and containers -/

/-- L2.9: PIPE_FWD with W = 7 succeeds with OUTLEN = 0, CWIDTH = 0 and CHEIGHT = 8. -/
theorem test_pipeFwd_empty :
    ends (exec .pipeFwd (withQtab (running .pipeFwd { ops 0 0 0 0 with width := 7, height := 8 } []) 50))
      (fun s => s.done && decide (s.outlen = 0 ∧ s.cwidth = 0 ∧ s.cheight = 8 ∧ s.lmem = [])) = true := by
  decide +kernel

/-- L2.9: PIPE_INV with H = 12 raises E_PARAM(2). -/
theorem test_pipeInv_param :
    ends (exec .pipeInv (running .pipeInv { ops 0 0 0 0 with width := 8, height := 12 } []))
      (fun s => failed s .param .pipe 2) = true := by decide +kernel

/-- L2.9: COMPRESS with W = 7 raises E_EMPTY(0) at stage SEQ. -/
theorem test_compress_empty :
    ends (exec .compress (running .compress { ops 0 0 0 0 with width := 7, height := 8, quality := 50 } []))
      (fun s => failed s .empty .seq 0) = true := by decide +kernel

/-- The 28-byte container of R327. -/
def container28 : List Byte :=
  [0, 0, 0, 0, 0, 0, 0, 0, 0x32, 0, 0, 0, 0, 0, 0, 0] ++ List.replicate 12 0

/-- R306: the 28-byte container decompresses to an empty image at quality 50. -/
theorem test_decompress_empty :
    ends (exec .decompress (running .decompress (ops 0 64 28 0) (cellsAt 0 container28)))
      (fun s => s.done && s.qtabv && decide (s.opr.quality = 50 ∧ s.outlen = 0 ∧ s.paddr = 28)) = true := by
  decide +kernel

/-- L2.10 M1: 15 bytes are a truncated header. -/
theorem test_cntUnpack_short :
    ends (exec .cntUnpack (running .cntUnpack (ops 0 0 15 0) [])) (fun s => failed s .malformed .cntUnpack 1) =
      true := by decide +kernel

/-- The 57-byte container of R327. -/
def container57 : List Byte :=
  [8, 0, 0, 0, 8, 0, 0, 0, 0x5A, 0, 0, 0, 3, 0, 0, 0] ++ [1, 0, 0, 0, 1, 0, 0, 0, 5] ++
    [1, 0, 0, 0, 2, 0, 0, 0, 7] ++ [0, 0, 0, 0, 2, 0, 0, 0, 9] ++ [0x0A, 0, 0, 0, 0, 0, 0, 0, 2, 0, 0, 0] ++
    [0xF5, 0]

/-- R327: the table of H1 with the payload F5 00 packs to the 57 bytes. -/
theorem test_cntPack :
    ends (exec .cntPack
        { running .cntPack { ops 0 16 2 64 with width := 8, height := 8, quality := 90, bitcnt := 10 }
            (cellsAt 0 [0xF5, 0x00]) with tab := h1Tab })
      (fun s => s.done && decide (s.readBytes 16 57 = container57) && decide (s.outlen = 57)) = true := by
  decide +kernel

/-- R325: CNT_UNPACK of the 57 bytes. -/
theorem test_cntUnpack :
    ends (exec .cntUnpack (running .cntUnpack (ops 0 0 57 0) (cellsAt 0 container57)))
      (fun s => s.done && decide (s.tab = h1Tab) &&
        decide (s.opr.width = 8 ∧ s.opr.quality = 90 ∧ s.opr.bitcnt = 10 ∧ s.outlen = 2 ∧ s.paddr = 55)) = true := by
  decide +kernel

/-! ### Witnesses: a state and operands that meet all hypotheses of each obligation, clause by clause -/

/-- An answer that ends with a property gives the next state that has it. -/
theorem ends_elim {o : Host.Outcome State Fault Refusal} {p : State → Bool} (h : ends o p = true) :
    ∃ t, o = .next t ∧ p t = true := by
  cases o with
  | next t => exact ⟨t, rfl, h⟩
  | fault _ => cases h
  | refused _ => cases h

/-- A computation succeeds, with a value of this property. -/
def okEnds {ε α : Type} (e : Except ε α) (p : α → Bool) : Bool :=
  match e with
  | .ok x => p x
  | .error _ => false

theorem okEnds_elim {ε α : Type} {e : Except ε α} {p : α → Bool} (h : okEnds e p = true) :
    ∃ x, e = .ok x ∧ p x = true := by
  cases e with
  | ok x => exact ⟨x, rfl, h⟩
  | error _ => cases h

theorem errEnds_elim {ε α : Type} {e : Except ε α} {p : ε → Bool}
    (h : (match e with | .ok _ => false | .error x => p x) = true) : ∃ x, e = .error x ∧ p x = true := by
  cases e with
  | ok _ => cases h
  | error x => exact ⟨x, rfl, h⟩

/-- An idle state with the given event next. -/
def pendingEvent (e : Event) : State := { State.reset with inbox := [e] }

/-- H1 at SRC, CAP exactly the two bytes its payload takes. -/
def h1State (i : Instr) : State := { running i (ops 0 16 7 2) (cellsAt 0 h1) with tab := h1Tab }

theorem witness_EncodeThenDecode : (Instr.bpAdd 63).WellFormed := by decide

theorem witness_DecodeThenEncode : decode 0x00003F31#32 = .ok (.bpAdd 63) := by decide

theorem witness_StepRunsTheCommand :
    ((pendingEvent (.run 0x00002031)).rst = false ∧ (pendingEvent (.run 0x00002031)).seq.state = .idle ∧
      decode 0x00002031#32 = .ok (.bpAdd 32)) ∧
    ((running .nop OperandRegs.reset []).rst = false ∧ (running .nop OperandRegs.reset []).seq.state = .running ∧
      (running .nop OperandRegs.reset []).inbox = []) ∧
    ({ running .nop OperandRegs.reset [] with inbox := [.engine] } : State).inbox = .engine :: [] ∧
    (State.reset.seq.state = .idle ∧ State.reset.inbox = []) ∧
    (pendingEvent (.regRead 0 4)).inbox = .regRead 0 4 :: [] ∧
    (pendingEvent (.regWrite 0x14 4 0)).inbox = .regWrite 0x14 4 0 :: [] ∧
    (pendingEvent (.memRead 0 8)).inbox = .memRead 0 8 :: [] ∧
    (pendingEvent (.memWrite 0 8 1)).inbox = .memWrite 0 8 1 :: [] := by decide +kernel

theorem witness_CmdWriteIssues :
    (running .nop OperandRegs.reset []).seq.state = .running ∧ State.reset.rst = false ∧
      State.reset.seq.state = .idle ∧ decode 0x00000052#32 = .error (.unassignedOpcode 0x52) ∧
      decode 0x00000051#32 = .ok .cntUnpack := by decide +kernel

/-- 70_reset R380: after a rejected word, a CNT_UNPACK that has been accepted leaves E_ILLEGAL (1) at stage 1 with LASTOP
0x52 and the word to be read; when it ends, E_MALFORMED (13) at stage 11 with LASTOP 0x51 and detail 1 (R324, R340). -/
theorem test_errstat_while_busy :
    let s := (State.reset.issue 0x00000052#32).issue 0x00000051#32
    s.busy = true ∧ readReg s 0x018 = 0x00520101#32 ∧ readReg s 0x01C = 0x00000052#32 ∧
      ends (step s) (fun t => readReg t 0x018 == 0x00510B0D#32 && readReg t 0x01C == 0x00000001#32) = true := by
  decide +kernel

theorem witness_CommandsReadOnlyTheSnapshot :
    (running .bpInit (ops 0 0x100 0 16) []).done = false ∧
      (∃ t, exec .bpInit (running .bpInit (ops 0 0x100 0 16) []) = .next t ∧ t.done = true) ∧
      ((h1State .hufEmit).done = false ∧ ∃ t, exec .hufEmit (h1State .hufEmit) = .next t ∧ t.done = true) ∧
      (running .bpFinish OperandRegs.reset []).done = false ∧
      ∃ t, exec .bpFinish (running .bpFinish OperandRegs.reset []) = .next t ∧ (!t.done) = true :=
  ⟨by decide +kernel, ends_elim (p := fun t => t.done) (by decide +kernel),
    ⟨by decide +kernel, ends_elim (p := fun t => t.done) (by decide +kernel)⟩, by decide +kernel,
    ends_elim (p := fun t => !t.done) (by decide +kernel)⟩

theorem witness_FailedCommandKeepsRegistersAndTables :
    (running .idct (ops 0 0xFE08 0 0) []).err = false ∧
      ∃ t, exec .idct (running .idct (ops 0 0xFE08 0 0) []) = .next t ∧ t.err = true :=
  ⟨by decide +kernel, ends_elim (p := fun t => t.err) (by decide +kernel)⟩

theorem witness_PrecheckErrorChangesOnlyTheRecord :
    precheck .bpFinish (running .bpFinish OperandRegs.reset []) =
        some { code := .state, stage := .bitpack, info := 0 } ∧
      precheck .decompress (running .decompress (ops 0 0 15 0) []) =
        some { code := .malformed, stage := .cntUnpack, info := 1 } := by decide +kernel

theorem witness_CommandKeepsHostOwnedState :
    ∃ t, exec .zzscan (running .zzscan (ops 0 64 0 0) (cellsAt 0 ramp)) = .next t ∧ t.done = true :=
  ends_elim (p := fun t => t.done) (by decide +kernel)

theorem witness_CommandWritesOnlyItsRegions :
    (running .zzscan (ops 0 64 0 0) (cellsAt 0 ramp)).seq.state = .running ∧
      (∃ t, exec .zzscan (running .zzscan (ops 0 64 0 0) (cellsAt 0 ramp)) = .next t ∧ t.done = true) ∧
      inWrittenRegion (running .zzscan (ops 0 64 0 0) (cellsAt 0 ramp)) 63 = false ∧
      inWrittenRegion (running .zzscan (ops 0 64 0 0) (cellsAt 0 ramp)) 128 = false :=
  ⟨by decide +kernel, ends_elim (p := fun t => t.done) (by decide +kernel), by decide +kernel, by decide +kernel⟩

/-- A region at SRC for the region witnesses. -/
def regionAt (base size align : Nat) : Region :=
  { id := .src, base := base, size := size, align := align, written := false }

theorem witness_RegionsCheckedInOrder :
    (∀ q ∈ [regionAt 0 8 8, regionAt 999 0 8], q.Fits 16) ∧
      (0 < (regionAt 9 8 8).size ∧ 16 < (regionAt 9 8 8).base + (regionAt 9 8 8).size) ∧
      (0 < (regionAt 4 8 8).size ∧ (regionAt 4 8 8).base + (regionAt 4 8 8).size ≤ 16 ∧
        (regionAt 4 8 8).base % (regionAt 4 8 8).align ≠ 0) ∧
      (regionAt 8 8 8).Fits 16 := by decide +kernel

theorem witness_OverlapsCheckedInOrder :
    (∀ q ∈ [regionAt 0 8 8, regionAt 8 4 1, regionAt 11 5 1], q.Fits 16) ∧
      pairsOf [regionAt 0 8 8, regionAt 8 4 1, regionAt 11 5 1] =
        [(regionAt 0 8 8, regionAt 8 4 1), (regionAt 0 8 8, regionAt 11 5 1)] ++
          (regionAt 8 4 1, regionAt 11 5 1) :: [] ∧
      (∀ p ∈ [(regionAt 0 8 8, regionAt 8 4 1), (regionAt 0 8 8, regionAt 11 5 1)], p.1.Apart p.2) ∧
      (regionAt 8 4 1).base < (regionAt 11 5 1).base + (regionAt 11 5 1).size ∧
      (regionAt 11 5 1).base < (regionAt 8 4 1).base + (regionAt 8 4 1).size ∧
      [regionAt 0 8 8, regionAt 8 4 1, regionAt 12 4 1].Pairwise Region.Apart := by decide +kernel

theorem witness_ResetValues :
    Config.Params.chosen.Legal ∧ (Config.Params.mk 1 1).Legal ∧ (Config.Params.mk 255 (2 ^ 31 - 1)).Legal := by
  decide +kernel

theorem witness_RstAbandonsAndResets :
    (pendingEvent (.rst true)).inbox = .rst true :: [] ∧
      ({ pendingEvent (.rst false) with rst := true } : State).rst = true ∧
      (pendingEvent .powerOn).inbox = .powerOn :: [] ∧
      inWrittenRegion (running .zzscan (ops 0 64 0 0) []) 63 = false := by decide +kernel

theorem witness_CtrlWriteClampsWorkers : State.reset.rst = false ∧ State.reset.params.Legal := by decide +kernel

theorem witness_StatusWriteOneClears : State.reset.rst = false := by decide

theorem witness_IrqFollowsStatusAndEnables :
    ({ State.reset with ieDone := true, ieErr := true } : State).ieDone = true ∧
      ({ State.reset with ieDone := true, ieErr := true } : State).ieErr = true ∧
      State.reset.seq.state = .idle ∧ decode 0x00000000#32 = .ok .nop ∧
      decode 0x00000002#32 = .error (.unassignedOpcode 2) := by decide +kernel

theorem witness_OperandRegisterWrites :
    State.reset.rst = false ∧ (running .nop OperandRegs.reset []).rst = false ∧
      0x04C ∈ [0x020, 0x024, 0x028, 0x02C, 0x030, 0x034, 0x038, 0x03C, 0x040, 0x044, 0x048, 0x04C, 0x050] := by
  decide +kernel

theorem witness_ReadOnlyRegisters :
    State.reset.rst = false ∧ State.reset.seq.state = .idle ∧ 0xFFC % 4 = 0 ∧ 0xFFC < 0x1000 ∧
      ((running .decompress OperandRegs.reset []).seq.state = .running ∧
        usesPacker (running .decompress OperandRegs.reset []).seq.instr = false) ∧
      (usesPacker (running .compress OperandRegs.reset []).seq.instr = true ∧ 0x064 ≠ 0x010 ∧ 0x064 < 0x068 ∧
        0x07C < 0x080) ∧
      (0x07C % 4 = 0 ∧ 0x068 ≤ 0x07C ∧ 0x07C ≤ 0x07C) ∧
      (0x018 ≠ 0x010 ∧ 0x018 < 0x400 ∧ 0x3FC < 0x400 ∧ decode 0x00000051#32 = .ok .cntUnpack ∧ 0x01C ≠ 0x018) ∧
      0x018 ∈ [0x000, 0x004, 0x008, 0x018, 0x01C] ∧ 0x054 % 4 = 0 ∧
      (0x054 ≤ 0x3FC ∧ 0x3FC < 0x400) := by decide +kernel

theorem witness_TableWindowWrites :
    (running .nop OperandRegs.reset []).rst = false ∧ (running .nop OperandRegs.reset []).seq.state = .running ∧
      (0xFFC % 4 = 0 ∧ 0x400 ≤ 0xFFC ∧ 0xFFC < 0x1000) ∧ State.reset.seq.state = .idle ∧ 255 < 256 ∧
      (0x400 ≤ 0x400 ∧ 0x400 < 0x1000 ∧ decode 0x00000051#32 = .ok .cntUnpack) := by
  decide +kernel

theorem witness_BusErrorsAndForbiddenAccesses :
    State.reset.rst = false ∧ (0x1000 : Nat) ≤ 0x1000 ∧ 2 % 4 ≠ 0 ∧ 3 ∉ [1, 2, 4, 8] ∧
      State.reset.params.lmemSize < 0xFFFC + 8 ∧ ({ State.reset with rst := true } : State).rst = true ∧
      inCommandRegion (running .zzscan (ops 0 64 0 0) []) (0 + 63) = true := by decide +kernel

theorem witness_HostLmemWriteThenRead :
    State.reset.rst = false ∧ 8 ∈ [1, 2, 4, 8] ∧ 0xFFF8 % 8 = 0 ∧ 0xFFF8 + 8 ≤ State.reset.params.lmemSize ∧
      (∀ i, i < 8 → inCommandRegion State.reset (0xFFF8 + i) = false) ∧ State.reset.seq.state = .idle ∧
      (∀ i, i < 8 → inCommandRegion (running .zzscan (ops 0 64 0 0) []) (128 + i) = false) ∧
      (∀ i, i < 8 → inWrittenRegion (running .zzscan (ops 0 64 0 0) []) (56 + i) = false) := by
  decide +kernel

theorem witness_NopCompletes : (running .nop OperandRegs.reset []).seq.work = Work.none := by decide +kernel

theorem witness_QtabBuildResult :
    (running .qtabBuild { OperandRegs.reset with quality := 1 } []).seq.work = Work.none ∧
      (1 : Int) ≤ (1 : Word).toInt ∧ (99 : Word).toInt ≤ 99 ∧ (0 : Word).toInt < 1 ∧ 99 < (100 : Word).toInt := by
  decide +kernel

theorem witness_TransformsComplete :
    (running .fdct (ops 0xFC00 0xFE00 0 0) []).seq.work = Work.none ∧
      (running .fdct (ops 0xFC00 0xFE00 0 0) []).RegionsOk
        [(running .fdct (ops 0xFC00 0xFE00 0 0) []).srcRegion 512 8,
          (running .fdct (ops 0xFC00 0xFE00 0 0) []).dstRegion 512 8] := by decide +kernel

theorem witness_FloatNanIsCanonical : f64Class 0xFFF0000000000001#64 = .nan ∧ fadd ∈ [fadd, fsub, fmul, fdiv] :=
  ⟨by decide +kernel, by simp⟩

/-- The witness of the commands on one block: QTAB built, 512 bytes at SRC, 64 or 512 at DST. -/
def blockState (i : Instr) (src dst : Word) : State := withQtab (running i (ops src dst 0 0) []) 99

theorem witness_QuantCompletes :
    (blockState .quant 0xFC00 0xFFC0).seq.work = Work.none ∧ (blockState .quant 0xFC00 0xFFC0).seq.tasksDone = [] ∧
      (blockState .quant 0xFC00 0xFFC0).qtabv = true ∧
      (blockState .quant 0xFC00 0xFFC0).RegionsOk
        [(blockState .quant 0xFC00 0xFFC0).srcRegion 512 8, (blockState .quant 0xFC00 0xFFC0).dstRegion 64 1] := by
  decide +kernel

theorem witness_DequantCompletes :
    (blockState .dequant 0x101 0xFE00).seq.work = Work.none ∧ (blockState .dequant 0x101 0xFE00).qtabv = true ∧
      (blockState .dequant 0x101 0xFE00).RegionsOk
        [(blockState .dequant 0x101 0xFE00).srcRegion 64 1, (blockState .dequant 0x101 0xFE00).dstRegion 512 8] := by
  decide +kernel

theorem witness_NonFiniteQuotients : (qbyte 0x7FF0000000000000 5).2 = true ∧ (qbyte 0 0).2 = true := by
  decide +kernel

theorem witness_DequantizerIsExact :
    1 ≤ 1 ∧ 99 ≤ 99 ∧ (6050 : Word) = (qtabFn 1)[(53 : Fin 64)] ∧ (0 : Byte).toInt * ((6050 : Word).toNat : Int) = 0 := by
  decide +kernel

theorem witness_BlockCommandsComplete :
    (blockState .blkEnc 0 512).seq.work = Work.none ∧ (blockState .blkEnc 0 512).seq.tasksDone = [] ∧
      (blockState .blkEnc 0 512).qtabv = true ∧
      (blockState .blkEnc 0 512).RegionsOk
        [(blockState .blkEnc 0 512).srcRegion 512 8, (blockState .blkEnc 0 512).dstRegion 64 1] ∧
      (blockState .blkDec 0 512).RegionsOk
        [(blockState .blkDec 0 512).srcRegion 64 1, (blockState .blkDec 0 512).dstRegion 512 8] := by
  decide +kernel

theorem witness_ZigzagCommandsComplete :
    (running .zzscan (ops 0xFFC0 0xFF80 0 0) []).seq.work = Work.none ∧
      (running .zzscan (ops 0xFFC0 0xFF80 0 0) []).RegionsOk
        [(running .zzscan (ops 0xFFC0 0xFF80 0 0) []).srcRegion 64 1,
          (running .zzscan (ops 0xFFC0 0xFF80 0 0) []).dstRegion 64 1] := by decide +kernel

/-- A ZZUNSCAN on the LMEM a step has left. -/
def unscanAfter (t : State) : State := running .zzunscan (ops 64 128 0 0) t.lmem

theorem witness_ZigzagRoundTrip :
    (running .zzscan (ops 0 64 0 0) (cellsAt 0 ramp)).RegionsOk
        [(running .zzscan (ops 0 64 0 0) (cellsAt 0 ramp)).srcRegion 64 1,
          (running .zzscan (ops 0 64 0 0) (cellsAt 0 ramp)).dstRegion 64 1] ∧
      ∃ t, exec .zzscan (running .zzscan (ops 0 64 0 0) (cellsAt 0 ramp)) = .next t ∧
        (decide (t.epoch = 0) && decide ((unscanAfter t).op.src = 64) &&
          decide ((unscanAfter t).RegionsOk [(unscanAfter t).srcRegion 64 1, (unscanAfter t).dstRegion 64 1]) &&
          ends (exec .zzunscan (unscanAfter t)) (fun v => v.done && decide (v.readByte 129 = 1))) = true :=
  ⟨by decide +kernel, ends_elim (by decide +kernel)⟩

theorem witness_StateTraps :
    State.reset.qtabv = false ∧
      ((running .pipeInv { ops 0 0 0 0 with width := 8, height := 8 } []).op.width.toNat % 8 = 0) ∧
      State.reset.bp.isOpen = false ∧ 32 ≤ 32 ∧ (session .hufEmit 0 16).bp.isOpen = true ∧
      (1 : Int) ≤ (99 : Word).toInt ∧ (99 : Word).toInt ≤ 99 := by decide +kernel

/-- CNT_PACK with a table of two entries, a length and a bit count. -/
def packState (e d : CodeEntry) (len : Word) (bitcnt : DWord) : State :=
  { running .cntPack { ops 0 64 len 64 with bitcnt := bitcnt } [] with
    tab := ((Vector.replicate 256 CodeEntry.none).set 0 e).set 255 d }

theorem witness_OperandTraps :
    32 < 33 ∧ (running .pipeInv { ops 0 0 0 0 with width := 12, height := 8 } []).op.width.toNat % 8 ≠ 0 ∧
      (running .pipeInv { ops 0 0 0 0 with width := 8, height := 12 } []).op.height.toNat % 8 ≠ 0 ∧
      99 < (running .compress { ops 0 0 0 0 with quality := 100 } []).op.quality.toInt ∧
      8 * (packState CodeEntry.none CodeEntry.none 1 9).op.len.toNat <
        (packState CodeEntry.none CodeEntry.none 1 9).op.bitcnt.toNat ∧
      0x7FFFFFFF < (packState CodeEntry.none CodeEntry.none 0x80000000 8).op.len.toNat ∧
      ((packState ⟨0, 33, true⟩ CodeEntry.none 1 8).tab[(0 : Fin 256)].valid = true ∧
        32 < (packState ⟨0, 33, true⟩ CodeEntry.none 1 8).tab[(0 : Fin 256)].len.toNat ∧
        (packState ⟨0, 33, true⟩ CodeEntry.none 1 8).op.bitcnt.toNat ≤
          8 * (packState ⟨0, 33, true⟩ CodeEntry.none 1 8).op.len.toNat) ∧
      (∀ b : Fin 256, (packState ⟨1, 32, true⟩ ⟨1, 32, true⟩ 1 8).tab[b].valid = true →
        (packState ⟨1, 32, true⟩ ⟨1, 32, true⟩ 1 8).tab[b].len.toNat ≤ 32) ∧
      (packState ⟨1, 32, true⟩ ⟨1, 32, true⟩ 1 8).tab[(0 : Fin 256)] =
        (packState ⟨1, 32, true⟩ ⟨1, 32, true⟩ 1 8).tab[(255 : Fin 256)] := by decide +kernel

/-- COMPRESS on an image of the given width and height 8, with scratch and container behind it. -/
def compressState (w : Word) (m : LMem) : State :=
  running .compress
    { ops 0 0x2000 0 0x100 with
      quality := 50, width := w, height := 8, tmp0 := 0x1000, tmp1 := 0x1800, tcap := 0x100 } m

theorem witness_EmptyAndTruncatedTraps :
    ((running .hufEncode (ops 0 16 0 4) []).op.len = 0 ∧ (running .hufEncode (ops 0 16 0 4) []).bp.isOpen = false ∧
      (running .hufEncode (ops 0 16 0 4) []).RegionsOk
        [(running .hufEncode (ops 0 16 0 4) []).srcRegion 0 1, (running .hufEncode (ops 0 16 0 4) []).dstRegion 4 1]) ∧
    (∀ b : Fin 256, State.reset.freq[b] = 0) ∧
    ((compressState 7 []).bp.isOpen = false ∧
      (compressState 7 []).RegionsOk
        [(compressState 7 []).srcRegion (24 * 7 * (8 - 8 % 8)) 8, (compressState 7 []).tmp0Region (192 * ((7 / 8) * (8 / 8))),
          (compressState 7 []).tmp1Region 0x100, (compressState 7 []).dstRegion 0x100 1] ∧
      ((compressState 7 []).imgW / 8) * ((compressState 7 []).imgH / 8) = 0) ∧
    ((running .cntUnpack (ops 0 0 15 0) []).op.len.toNat < 16 ∧
      (running .cntUnpack (ops 0 0 15 0) []).RegionsOk [(running .cntUnpack (ops 0 0 15 0) []).srcRegion 15 1]) := by
  decide +kernel

/-- A container of these entries, width and height 8, quality 50, and `extra` bytes of payload. -/
def containerOf (cnt : Nat) (entries : List (Nat × Nat × Byte)) (nbits plen : Nat) (extra : List Byte) : List Byte :=
  [8, 0, 0, 0, 8, 0, 0, 0, 0x32, 0, 0, 0] ++ leBytes 4 cnt ++
    entries.flatMap (fun e => leBytes 4 e.1 ++ leBytes 4 e.2.1 ++ [e.2.2]) ++ leBytes 8 nbits ++ leBytes 4 plen ++ extra

/-- CNT_UNPACK of a stream at address 0. -/
def streamState (bs : List Byte) : State := running .cntUnpack (ops 0 0 (u32 bs.length) 0) (cellsAt 0 bs)

/-- L2.10: for each of M1 to M10 a stream that fails it first. -/
theorem witness_EmptyAndTruncatedTraps_malformed :
    (streamState (List.replicate 15 0)).Malformed 0 15 1 ∧
    (streamState (containerOf 257 [] 0 0 [])).Malformed 0 28 2 ∧
    (streamState (containerOf 1 [] 0 0 [])).Malformed 0 28 3 ∧
    (streamState (containerOf 1 [(0, 33, 0)] 0 0 [])).Malformed 0 37 4 ∧
    (streamState (containerOf 2 [(0, 1, 5), (1, 1, 5)] 0 0 [])).Malformed 0 46 5 ∧
    (streamState (containerOf 2 [(1, 1, 5), (1, 1, 6)] 0 0 [])).Malformed 0 46 6 ∧
    (streamState (containerOf 1 [(0, 0, 0)] (2 ^ 63) 0 [])).Malformed 0 37 7 ∧
    (streamState (containerOf 1 [(0, 0, 0)] 0 (2 ^ 31) [])).Malformed 0 37 8 ∧
    (streamState (containerOf 1 [(0, 0, 0)] 9 1 [0])).Malformed 0 38 9 ∧
    (streamState (containerOf 1 [(0, 0, 0)] 8 1 [])).Malformed 0 37 10 ∧
    (streamState (containerOf 1 [(0, 0, 0)] 8 1 [])).RegionsOk
      [(streamState (containerOf 1 [(0, 0, 0)] 8 1 [])).srcRegion 37 1] := by
  refine ⟨?_, ?_, ?_, ?_, ?_, ?_, ?_, ?_, ?_, ?_, by decide +kernel⟩
  · show 15 < 16; decide
  · show _ ∧ _; decide +kernel
  · show _ ∧ _; decide +kernel
  · exact ⟨0, by decide +kernel, by decide +kernel⟩
  · exact ⟨1, by decide +kernel, by decide +kernel, by decide +kernel, 0, by decide, by decide +kernel⟩
  · exact ⟨1, by decide +kernel, by decide +kernel, by decide +kernel, by decide +kernel, 0, by decide, by decide +kernel⟩
  · show _ ∧ _; decide +kernel
  · show _ ∧ _; decide +kernel
  · show _ ∧ _; decide +kernel
  · show _ ∧ _; decide +kernel

theorem witness_HufFreqCompletes :
    (running .hufFreq (ops 0 0 7 0) (cellsAt 0 h1)).seq.work = Work.none ∧
      (running .hufFreq (ops 0 0 7 0) (cellsAt 0 h1)).RegionsOk
        [(running .hufFreq (ops 0 0 7 0) (cellsAt 0 h1)).srcRegion 7 1] ∧
      (running .hufFreq (ops 0 0 7 0) (cellsAt 0 h1)).op.len ≠ 0 := by decide +kernel

theorem witness_HufBuildCompletes :
    (∃ tab, buildTab (freqFn h1) = .ok tab ∧ decide (tab[7].len = 2) = true) ∧
      (∃ e, buildTab (Vector.replicate 256 0) = .error e ∧ decide (e.code = .empty) = true) ∧
      1 ≤ (List.finRange 256).countP (fun b => decide ((freqFn h1)[b] ≠ 0)) ∧
      (List.finRange 256).countP (fun b => decide ((freqFn h1)[b] ≠ 0)) ≤ 33 :=
  ⟨okEnds_elim (by decide +kernel), errEnds_elim (by decide +kernel), by decide +kernel, by decide +kernel⟩

/-- L2.8: the Fibonacci weights of 34 byte values, whose tree has a code of 33 bits. -/
def fibWeights : List Nat :=
  [1, 1, 2, 3, 5, 8, 13, 21, 34, 55, 89, 144, 233, 377, 610, 987, 1597] ++
    [2584, 4181, 6765, 10946, 17711, 28657, 46368, 75025, 121393, 196418, 317811, 514229, 832040, 1346269] ++
    [2178309, 3524578, 5702887]

/-- FREQ with those weights. -/
def fibFreq : Vector Word 256 := Vector.ofFn (fun b => u32 (fibWeights.getD b.val 0))

theorem someEnds_elim {α : Type} {o : Option α} {p : α → Bool} (h : (o.map p) = some true) :
    ∃ x, o = some x ∧ p x = true := by
  cases o with
  | none => cases h
  | some x => exact ⟨x, rfl, by simpa using h⟩

theorem witness_HufBuildCompletes_codeLen :
    ∃ root, buildTree (initialWorklist fibFreq) = some root ∧
      ((assignCodes root 0 0).any (fun c => decide (c.1 = 0 ∧ 32 < c.2.2)) &&
        (assignCodes root 0 0).all (fun d => decide (0 ≤ d.1.toNat))) = true :=
  someEnds_elim (by decide +kernel)

theorem witness_HuffmanCodesArePrefixFree :
    (7 : Fin 256) ≠ 9 ∧ ∃ t, buildTab (freqFn h1) = .ok t ∧
      (t[(7 : Fin 256)].valid && t[(9 : Fin 256)].valid &&
        decide (t[(7 : Fin 256)].len.toNat ≤ t[(9 : Fin 256)].len.toNat)) = true :=
  ⟨by decide, okEnds_elim (by decide +kernel)⟩

theorem witness_HufEmitCompletes :
    (h1State .hufEmit).seq.work = Work.none ∧ (h1State .hufEmit).bp.isOpen = false ∧
      (h1State .hufEmit).RegionsOk [(h1State .hufEmit).srcRegion 7 1, (h1State .hufEmit).dstRegion 2 1] ∧
      (∀ b ∈ (h1State .hufEmit).readBytes 0 7,
        (atByte (h1State .hufEmit).tab b).valid = true ∧ (atByte (h1State .hufEmit).tab b).len.toNat ≤ 32) ∧
      ceil8 (codeBits (h1State .hufEmit).tab ((h1State .hufEmit).readBytes 0 7)).length ≤
        (h1State .hufEmit).op.cap.toNat := by decide +kernel

theorem witness_HufEncodeCompletes :
    ((h1State .hufEncode).seq.work = Work.none ∧ (h1State .hufEncode).bp.isOpen = false ∧
      (h1State .hufEncode).RegionsOk [(h1State .hufEncode).srcRegion 7 1, (h1State .hufEncode).dstRegion 2 1] ∧
      (h1State .hufEncode).op.len ≠ 0) ∧
      ∃ tab, buildTab (freqFn ((h1State .hufEncode).readBytes 0 7)) = .ok tab ∧
        decide (ceil8 (codeBits tab ((h1State .hufEncode).readBytes 0 7)).length ≤
          (h1State .hufEncode).op.cap.toNat) = true :=
  ⟨by decide +kernel, okEnds_elim (by decide +kernel)⟩

/-- HUF_EMIT of `bs` at 0 with H1's table and the given CAP, DST at 16. -/
def emitState (bs : List Byte) (cap : Word) : State :=
  { running .hufEmit (ops 0 16 (u32 bs.length) cap) (cellsAt 0 bs) with tab := h1Tab }

/-- The errors of HUF_EMIT: a full region, a byte without a code at index 1, and a region full before a byte
without a code. -/
theorem witness_HufEmitCompletes_errors :
    ((emitState h1 1).bp.isOpen = false ∧
      (emitState h1 1).RegionsOk [(emitState h1 1).srcRegion 7 1, (emitState h1 1).dstRegion 1 1] ∧
      (emitState h1 1).readBytes 0 7 = h1 ∧ 1 < ceil8 (codeBits h1Tab h1).length) ∧
    ((emitState [5, 6] 4).readBytes 0 2 = [5, 6] ∧
      (∀ b ∈ [(5 : Byte), 6].take 1, (atByte h1Tab b).valid = true ∧ (atByte h1Tab b).len.toNat ≤ 32) ∧
      (atByte h1Tab ([(5 : Byte), 6][1])).valid = false ∧ (codeBits h1Tab ([(5 : Byte), 6].take 1)).length / 8 ≤ 4) ∧
    (codeBits h1Tab ((h1 ++ [6]).take 7)).length / 8 = 1 ∧ (atByte h1Tab 6).valid = false := by decide +kernel

/-- `w[j]` copies of the byte `k + j`, for each j. -/
def spread (w : List Nat) (k : Nat) : List Byte :=
  match w with
  | [] => []
  | x :: rest => List.replicate x (BitVec.ofNat 8 k) ++ spread rest (k + 1)

theorem spread_length (w : List Nat) (k : Nat) : (spread w k).length = w.sum := by
  induction w generalizing k with
  | nil => rfl
  | cons x rest ih => simp [spread, ih]

theorem byteCount_spread (w : List Nat) (k b : Nat) (h : k + w.length ≤ 256) :
    byteCount (spread w k) b = if k ≤ b then w.getD (b - k) 0 else 0 := by
  induction w generalizing k with
  | nil => simp [spread, byteCount]
  | cons x rest ih =>
    simp only [List.length_cons] at h
    have hr := ih (k + 1) (by omega)
    simp only [byteCount, spread, List.countP_append, List.countP_replicate] at hr ⊢
    rw [hr]
    have hk : (BitVec.ofNat 8 k).toNat = k := by simp; omega
    rw [hk]
    rcases Nat.lt_trichotomy k b with hkb | hkb | hkb
    · have hn : k ≠ b := by omega
      have h1 : b - k = (b - (k + 1)) + 1 := by omega
      simp [hn, show k + 1 ≤ b by omega, show k ≤ b by omega, h1]
    · subst hkb
      simp
    · simp [show k ≠ b by omega, show ¬k + 1 ≤ b by omega, show ¬k ≤ b by omega]

/-- An input with the weights of L2.8: its counts are `fibFreq`. -/
theorem freqFn_fib : freqFn (spread fibWeights 0) = fibFreq := by
  apply Vector.ext
  intro i hi
  simp only [freqFn, fibFreq, Vector.getElem_ofFn]
  rw [byteCount_spread fibWeights 0 i (by decide)]
  simp

/-- HUF_ENCODE of that input, in an LMEM that holds it. -/
def fibState : State :=
  ({ running .hufEncode (ops 0 0x00F00000 14930351 16) [] with params := { nworkers := 4, lmemSize := 0x01000000 } } :
    State).writeBytes 0 (spread fibWeights 0)

theorem witness_HufEncodeCompletes_codeLen :
    fibState.bp.isOpen = false ∧ fibState.op.len ≠ 0 ∧
      fibState.RegionsOk [fibState.srcRegion 14930351 1, fibState.dstRegion 16 1] ∧
      fibState.op.len.toNat = 14930351 ∧ fibState.readBytes 0 14930351 = spread fibWeights 0 ∧
      ∃ e, buildTab (freqFn (spread fibWeights 0)) = .error e ∧ decide (e.code = .codeLen ∧ e.info = 0) = true := by
  refine ⟨rfl, by decide, ?_, by decide, ?_, ?_⟩
  · show ({ running .hufEncode (ops 0 0x00F00000 14930351 16) [] with
      params := { nworkers := 4, lmemSize := 0x01000000 } } : State).RegionsOk _
    decide +kernel
  · have h : (spread fibWeights 0).length = 14930351 := by rw [spread_length]; decide
    rw [← h]
    exact readBytes_writeBytes_same _ 0 _
  · rw [freqFn_fib]
    exact errEnds_elim (by decide +kernel)

theorem witness_HufEncodeCompletes_overflow :
    ∃ tab, buildTab (freqFn h1) = .ok tab ∧ decide (1 < ceil8 (codeBits tab h1).length) = true :=
  okEnds_elim (by decide +kernel)

/-- The payload of H1 at SRC, DST behind it, and a bit count. -/
def h1Payload (n : DWord) : State :=
  { running .hufDecode { ops 16 32 7 0 with bitcnt := n } (cellsAt 16 [0xF5, 0x00]) with tab := h1Tab }

theorem witness_HufDecodeCompletes :
    (h1Payload 10).RegionsOk [(h1Payload 10).srcRegion (ceil8 10) 1, (h1Payload 10).dstRegion 7 1] ∧
      (h1Payload 10).decodePayload (h1Payload 10).tab 16 10 7 = .ok h1 ∧
      (h1Payload 9).RegionsOk [(h1Payload 9).srcRegion (ceil8 9) 1, (h1Payload 9).dstRegion 7 1] ∧
      (h1Payload 9).decodePayload (h1Payload 9).tab 16 9 7 = .error 9 := by decide +kernel

theorem witness_DecodeWithoutValidEntry : ∀ b : Fin 256, State.reset.tab[b].valid = false := by decide +kernel

/-- HUF_DECODE of what a HUF_ENCODE of H1 has left. -/
def decodeAfter (t : State) : State :=
  { running .hufDecode { ops 16 32 7 0 with bitcnt := t.opr.bitcnt } t.lmem with tab := t.tab }

theorem witness_HuffmanRoundTrip :
    (h1State .hufEncode).done = false ∧ (h1State .hufEncode).op.len ≠ 0 ∧
      ∃ t, exec .hufEncode (h1State .hufEncode) = .next t ∧
        (t.done && (List.range t.outlen.toNat).all (fun i => (decodeAfter t).readByte
            ((decodeAfter t).op.src.toNat + i) == t.readByte ((h1State .hufEncode).op.dst.toNat + i)) &&
          decide ((decodeAfter t).tab = t.tab) && decide ((decodeAfter t).op.bitcnt = t.opr.bitcnt) &&
          decide ((decodeAfter t).op.len = (h1State .hufEncode).op.len) &&
          decide ((decodeAfter t).seq.work = Work.none) &&
          decide ((decodeAfter t).RegionsOk
            [(decodeAfter t).srcRegion (ceil8 (decodeAfter t).op.bitcnt.toNat) 1,
              (decodeAfter t).dstRegion (decodeAfter t).op.len.toNat 1]) &&
          ends (exec .hufDecode (decodeAfter t)) (fun v => v.done && decide (v.readBytes 32 7 = h1))) = true :=
  ⟨by decide +kernel, by decide +kernel, ends_elim (by decide +kernel)⟩

theorem witness_BpInitCompletes :
    (running .bpInit (ops 0 0xFFF0 0 16) []).seq.work = Work.none ∧
      (running .bpInit (ops 0 0xFFF0 0 16) []).RegionsOk [(running .bpInit (ops 0 0xFFF0 0 16) []).dstRegion 16 1] := by
  decide +kernel

theorem witness_BpAddCompletes :
    (session (.bpAdd 32) 0xDEADBEEF 4).seq.work = Work.none ∧ (session (.bpAdd 32) 0xDEADBEEF 4).bp.isOpen = true ∧
      (session (.bpAdd 32) 0xDEADBEEF 4).bp.bytes.toNat +
          ((session (.bpAdd 32) 0xDEADBEEF 4).bp.nacc.toNat + 32) / 8 ≤
        (session (.bpAdd 32) 0xDEADBEEF 4).bp.cap.toNat := by decide +kernel

/-- A session with three bits pending and room for one byte. -/
def pendingSession : State := ((session .bpFinish 0 1).bpAdd 5 3).1

theorem witness_BpFinishCompletes :
    pendingSession.seq.work = Work.none ∧ pendingSession.bp.isOpen = true ∧ pendingSession.bp.nacc = 3 ∧
      pendingSession.bp.acc.toNat < 2 ^ pendingSession.bp.nacc.toNat ∧
      pendingSession.bp.bytes.toNat + ceil8 pendingSession.bp.nacc.toNat ≤ pendingSession.bp.cap.toNat := by
  decide +kernel

theorem witness_PackerNeverPassesCapacity :
    ((session (.bpAdd 8) 0xFF 0).bp.isOpen = true ∧
      (session (.bpAdd 8) 0xFF 0).bp.bytes.toNat ≤ (session (.bpAdd 8) 0xFF 0).bp.cap.toNat ∧
      (∃ t, exec (.bpAdd 8) (session (.bpAdd 8) 0xFF 0) = .next t ∧ t.err = true) ∧
      (session (.bpAdd 8) 0xFF 0).bp.cap.toNat <
        (session (.bpAdd 8) 0xFF 0).bp.bytes.toNat + ((session (.bpAdd 8) 0xFF 0).bp.nacc.toNat + 8) / 8) ∧
    (((session .bpFinish 0 0).bpAdd 0x7F 7).1.bp.isOpen = true ∧ ((session .bpFinish 0 0).bpAdd 0x7F 7).1.bp.nacc ≠ 0 ∧
      ((session .bpFinish 0 0).bpAdd 0x7F 7).1.bp.cap.toNat =
        ((session .bpFinish 0 0).bpAdd 0x7F 7).1.bp.bytes.toNat) :=
  ⟨⟨by decide +kernel, by decide +kernel, ends_elim (p := fun t => t.err) (by decide +kernel), by decide +kernel⟩,
    by decide +kernel⟩

/-- A pipeline command on a grid of the given size with QTAB built. -/
def pipeState (i : Instr) (w h : Word) : State :=
  withQtab (running i { ops 0 0x4000 0 0 with width := w, height := h } []) 50

theorem witness_PipelinesComplete :
    (pipeState .pipeFwd 9 15).seq.work = Work.none ∧ (pipeState .pipeFwd 9 15).seq.tasksDone = [] ∧
      (pipeState .pipeFwd 9 15).qtabv = true ∧
      (pipeState .pipeFwd 9 15).RegionsOk
        [(pipeState .pipeFwd 9 15).srcRegion (24 * 9 * (15 - 15 % 8)) 8,
          (pipeState .pipeFwd 9 15).dstRegion (192 * ((9 / 8) * (15 / 8))) 1] ∧
      ((pipeState .pipeInv 16 8).imgW % 8 = 0 ∧ (pipeState .pipeInv 16 8).imgH % 8 = 0 ∧
        (pipeState .pipeInv 16 8).RegionsOk
          [(pipeState .pipeInv 16 8).srcRegion (192 * ((16 / 8) * (8 / 8))) 1,
            (pipeState .pipeInv 16 8).dstRegion (24 * 16 * 8) 8]) := by decide +kernel

/-- COMPRESS of an 8 × 8 image whose pixel (0, 0) has a NaN in each channel; the rest of the image need not be
known, since the NaN reaches every coefficient. -/
def nanImage : State :=
  compressState 8 (cellsAt 0 (leBytes 8 f64NaN.toNat ++ leBytes 8 f64NaN.toNat ++ leBytes 8 f64NaN.toNat))

theorem nanImage_flat :
    flatImage nanImage nanImage.op.src.toNat nanImage.imgW nanImage.imgH (qtabFn nanImage.op.quality.toNat) =
      List.replicate 192 0 := by
  have h0 : ∀ ch : Fin 3, f64Class (nanImage.readSamples 0 8 0 ch.val)[cellIx 0 0] = .nan := by decide +kernel
  have hr : flatImage nanImage 0 8 8 (qtabFn 50) =
      (encBlock (nanImage.readSamples 0 8 0 0) (qtabFn 50)).1 ++
        ((encBlock (nanImage.readSamples 0 8 0 1) (qtabFn 50)).1 ++
          ((encBlock (nanImage.readSamples 0 8 0 2) (qtabFn 50)).1 ++ [])) ++ [] := rfl
  show flatImage nanImage 0 8 8 (qtabFn 50) = _
  rw [hr, encBlock_nan (nanImage.readSamples 0 8 0 0) _ (h0 0), encBlock_nan (nanImage.readSamples 0 8 0 1) _ (h0 1),
    encBlock_nan (nanImage.readSamples 0 8 0 2) _ (h0 2)]
  decide +kernel

theorem witness_CompressCompletes :
    (nanImage.seq.work = Work.none ∧ nanImage.seq.tasksDone = [] ∧ 1 ≤ nanImage.op.quality.toInt ∧
      nanImage.op.quality.toInt ≤ 99 ∧ nanImage.bp.isOpen = false ∧
      nanImage.RegionsOk
        [nanImage.srcRegion (24 * 8 * (8 - 8 % 8)) 8, nanImage.tmp0Region (192 * ((8 / 8) * (8 / 8))),
          nanImage.tmp1Region 0x100, nanImage.dstRegion 0x100 1] ∧
      0 < (nanImage.imgW / 8) * (nanImage.imgH / 8)) ∧
      ∃ tab, buildTab (freqFn (flatImage nanImage nanImage.op.src.toNat nanImage.imgW nanImage.imgH
          (qtabFn nanImage.op.quality.toNat))) = .ok tab ∧
        (decide (ceil8 (codeBits tab (List.replicate 192 0)).length ≤ nanImage.op.tcap.toNat) &&
          decide (containerSize tab (ceil8 (codeBits tab (List.replicate 192 0)).length) ≤
            nanImage.op.cap.toNat)) = true := by
  rw [nanImage_flat]
  exact ⟨by decide +kernel, okEnds_elim (by decide +kernel)⟩

/-- COMPRESS of an 8 × 8 image whose channel 0 is 192.0 everywhere and whose other channels have a NaN at (0, 0), with
the given TCAP and CAP. -/
def grayImage (tcap cap : Word) : State :=
  running .compress
    { ops 0 0x2000 0 cap with
      quality := 50, width := 8, height := 8, tmp0 := 0x1000, tmp1 := 0x1800, tcap := tcap }
    (cellsAt 0 (leBytes 8 0x4068000000000000 ++ leBytes 8 f64NaN.toNat ++ leBytes 8 f64NaN.toNat) ++
      (List.range 63).flatMap (fun i => cellsAt (24 * (i + 1)) (leBytes 8 0x4068000000000000)))

/-- At q = 50 the DC step is 16, and the DC of the level-shifted block is 64.0 · 8 = 512.0, so its byte is 0x20. -/
theorem grayBlock :
    (encBlock (Vector.replicate 64 0x4068000000000000#64) (qtabFn 50)).1 = 0x20 :: List.replicate 63 0 := by
  decide +kernel

theorem grayImage_flat (tcap cap : Word) :
    flatImage (grayImage tcap cap) 0 8 8 (qtabFn 50) = 0x20 :: List.replicate 191 0 := by
  have h0 : (grayImage tcap cap).readSamples 0 8 0 0 = Vector.replicate 64 0x4068000000000000#64 := by
    show (grayImage 0 0).readSamples 0 8 0 0 = _
    decide +kernel
  have h1 : ∀ ch : Fin 3, ch ≠ 0 → f64Class ((grayImage tcap cap).readSamples 0 8 0 ch.val)[cellIx 0 0] = .nan := by
    show ∀ ch : Fin 3, ch ≠ 0 → f64Class ((grayImage 0 0).readSamples 0 8 0 ch.val)[cellIx 0 0] = .nan
    decide +kernel
  have hr : flatImage (grayImage tcap cap) 0 8 8 (qtabFn 50) =
      (encBlock ((grayImage tcap cap).readSamples 0 8 0 0) (qtabFn 50)).1 ++
        ((encBlock ((grayImage tcap cap).readSamples 0 8 0 1) (qtabFn 50)).1 ++
          ((encBlock ((grayImage tcap cap).readSamples 0 8 0 2) (qtabFn 50)).1 ++ [])) ++ [] := rfl
  rw [hr, h0, grayBlock, encBlock_nan ((grayImage tcap cap).readSamples 0 8 0 1) _ (h1 1 (by decide)),
    encBlock_nan ((grayImage tcap cap).readSamples 0 8 0 2) _ (h1 2 (by decide))]
  decide +kernel

/-- COMPRESS whose payload of 24 bytes does not fit TCAP = 23, or whose container does not fit CAP = 69. -/
theorem witness_CompressCompletes_overflow :
    ((grayImage 23 0x100).RegionsOk
        [(grayImage 23 0x100).srcRegion (24 * 8 * (8 - 8 % 8)) 8,
          (grayImage 23 0x100).tmp0Region (192 * ((8 / 8) * (8 / 8))), (grayImage 23 0x100).tmp1Region 23,
          (grayImage 23 0x100).dstRegion 0x100 1] ∧
      (grayImage 24 69).RegionsOk
        [(grayImage 24 69).srcRegion (24 * 8 * (8 - 8 % 8)) 8,
          (grayImage 24 69).tmp0Region (192 * ((8 / 8) * (8 / 8))), (grayImage 24 69).tmp1Region 24,
          (grayImage 24 69).dstRegion 69 1]) ∧
      ∃ tab, buildTab (freqFn (0x20 :: List.replicate 191 0)) = .ok tab ∧
        (decide (23 < ceil8 (codeBits tab (0x20 :: List.replicate 191 0)).length) &&
          decide (ceil8 (codeBits tab (0x20 :: List.replicate 191 0)).length ≤ 24) &&
          decide (69 < containerSize tab (ceil8 (codeBits tab (0x20 :: List.replicate 191 0)).length))) = true :=
  ⟨⟨by decide +kernel, by decide +kernel⟩, okEnds_elim (by decide +kernel)⟩

/-- The 37-byte degenerate container of R327: 8 × 8, quality 75, the one byte value 42 of length 0. -/
def container37 : List Byte :=
  [8, 0, 0, 0, 8, 0, 0, 0, 0x4B, 0, 0, 0, 1, 0, 0, 0] ++ [0, 0, 0, 0, 0, 0, 0, 0, 0x2A] ++ List.replicate 12 0

/-- DECOMPRESS of the degenerate container. -/
def degenerateState : State :=
  running .decompress { ops 0 0x1000 37 0 with tmp0 := 0x100 } (cellsAt 0 container37)

theorem witness_DecompressCompletes :
    (degenerateState.seq.work = Work.none ∧ degenerateState.seq.tasksDone = [] ∧
      degenerateState.RegionsOk
        [degenerateState.srcRegion 37 1, degenerateState.tmp0Region (192 * ((8 / 8) * (8 / 8))),
          degenerateState.dstRegion (24 * 8 * 8) 8]) ∧
      ∃ p, degenerateState.parse 0 37 = .ok p ∧
        (decide (p.width = 8 ∧ p.height = 8 ∧ 1 ≤ p.quality.toInt ∧ p.quality.toInt ≤ 99 ∧ 0 ≤ p.width.toInt ∧
          p.width.toInt % 8 = 0 ∧ 0 ≤ p.height.toInt ∧ p.height.toInt % 8 = 0) &&
          okEnds (degenerateState.decodePayload p.tab p.paddr p.nbits.toNat (192 * ((8 / 8) * (8 / 8))))
            (fun flat => decide (flat.length = 192))) = true :=
  ⟨by decide +kernel, okEnds_elim (by decide +kernel)⟩

/-- DECOMPRESS of a stream at 0, with the image at the given address. -/
def decompressState (bs : List Byte) (dst : Word) : State :=
  running .decompress { ops 0 dst (u32 bs.length) 0 with tmp0 := 0x100 } (cellsAt 0 bs)

/-- The degenerate container with the quality 100, the width 12, the height 12, an image over the container, and one
bit of payload. -/
theorem witness_DecompressCompletes_errors :
    (∃ p, (decompressState (container37.set 8 100) 0x1000).parse 0 37 = .ok p ∧
      decide (99 < p.quality.toInt) = true) ∧
    (∃ p, (decompressState (container37.set 0 12) 0x1000).parse 0 37 = .ok p ∧
      decide (1 ≤ p.quality.toInt ∧ p.quality.toInt ≤ 99 ∧ p.width.toInt % 8 ≠ 0) = true) ∧
    (∃ p, (decompressState (container37.set 4 12) 0x1000).parse 0 37 = .ok p ∧
      decide (1 ≤ p.quality.toInt ∧ p.quality.toInt ≤ 99 ∧ 0 ≤ p.width.toInt ∧ p.width.toInt % 8 = 0 ∧
        p.height.toInt % 8 ≠ 0) = true) ∧
    regionChecks 0x10000 .seq
        [(decompressState container37 32).srcRegion 37 1, (decompressState container37 32).tmp0Region 192,
          (decompressState container37 32).dstRegion 1536 8] =
      some { code := .overlap, stage := .seq, info := 0x12 } ∧
    (∃ p, (decompressState ((container37.set 25 1).set 33 1 ++ [0]) 0x1000).parse 0 38 = .ok p ∧
      (match (decompressState ((container37.set 25 1).set 33 1 ++ [0]) 0x1000).decodePayload p.tab p.paddr
          p.nbits.toNat 192 with
        | .error k => k == 0
        | .ok _ => false) = true) :=
  ⟨okEnds_elim (by decide +kernel), okEnds_elim (by decide +kernel), okEnds_elim (by decide +kernel), by decide +kernel,
    okEnds_elim (by decide +kernel)⟩

/-- CNT_PACK of H1's payload, CAP exactly the container's 57 bytes. -/
def h1Pack : State :=
  { running .cntPack { ops 0 16 2 57 with width := 8, height := 8, quality := 90, bitcnt := 10 }
      (cellsAt 0 [0xF5, 0x00]) with tab := h1Tab }

theorem witness_ContainerCommandsComplete :
    h1Pack.seq.work = Work.none ∧ h1Pack.op.bitcnt.toNat ≤ 8 * h1Pack.op.len.toNat ∧
      h1Pack.op.len.toNat ≤ 0x7FFFFFFF ∧
      (∀ b : Fin 256, h1Pack.tab[b].valid = true → h1Pack.tab[b].len.toNat ≤ 32) ∧
      duplicateKeys h1Pack.tab = false ∧
      h1Pack.RegionsOk [h1Pack.srcRegion 2 1, h1Pack.dstRegion 57 1] ∧
      28 + 9 * nsym h1Pack + 2 ≤ h1Pack.op.cap.toNat ∧ 56 < 28 + 9 * nsym h1Pack + 2 ∧
      degenerateState.RegionsOk [degenerateState.srcRegion 37 1] ∧ ∃ p, degenerateState.parse 0 37 = .ok p :=
  ⟨by decide +kernel, by decide +kernel, by decide +kernel, by decide +kernel, by decide +kernel, by decide +kernel,
    by decide +kernel, by decide +kernel, by decide +kernel,
    (okEnds_elim (p := fun _ => true) (by decide +kernel)).imp fun _ h => h.1⟩

/-- CNT_UNPACK of the container a CNT_PACK has left. -/
def unpackAfter (t : State) : State := running .cntUnpack (ops 16 0 t.outlen 0) t.lmem

theorem witness_ContainerRoundTrip :
    h1Pack.params.Legal ∧ h1Pack.done = false ∧
      ∃ t, exec .cntPack h1Pack = .next t ∧
        (t.done && decide (t.epoch = 0) && decide ((unpackAfter t).op.src = h1Pack.op.dst) &&
          decide ((unpackAfter t).op.len = t.outlen) && decide ((unpackAfter t).params = h1Pack.params)) = true :=
  ⟨by decide +kernel, by decide +kernel, ends_elim (by decide +kernel)⟩

theorem witness_WorkerScheduleIsInvisible : (pipeState .pipeFwd 8 8).lmem.wf := by decide +kernel

/-- R356: no worker starts in a QUANT, which has no block phase, though its operands pass; the sequencer does its
block. -/
theorem test_worker_not_in_quant :
    (workerTurn 0 0 (blockState .quant 0 512)).seq.tasksDone = [] ∧
      (blockTurn (blockState .quant 0 512)).seq.tasksDone = [0] := by decide +kernel

/-- The step of an idle engine, which every invariant's witness takes. -/
theorem witness_MemoryInvariantKept :
    State.reset.MemoryInv ∧ State.reset.SessionInv ∧ step State.reset = .next State.reset :=
  ⟨by decide +kernel, by decide +kernel, rfl⟩

theorem witness_TableAndControlInvariantKept :
    State.reset.QtabInv ∧ State.reset.ControlInv ∧ step State.reset = .next State.reset :=
  ⟨⟨fun _ => rfl, fun h => (by cases h), fun _ h => (by cases h)⟩,
    ⟨by decide, by decide, by decide, fun h => (by cases h)⟩, rfl⟩

theorem witness_StatusInvariantKept :
    (running .nop OperandRegs.reset []).StatusInv ∧
      ∃ t, step (running .nop OperandRegs.reset []) = .next t ∧ t.done = true :=
  ⟨by decide +kernel, ends_elim (p := fun t => t.done) (by decide +kernel)⟩

end Sys2Proof.Tests
end

section
/-! PROOFS. What the body of a command may change before it ends, and the two ways it ends (60_exceptions R345). -/

namespace Sys2Proof.Machine

/-! ### The codes of the errors that checks raise (60_exceptions R340) -/

/-- Every error this check can raise has a code of its own. -/
def Coded (c : Option Err) : Prop := ∀ e, c = some e → e.code ≠ .noError

theorem coded_none : Coded none := fun _ h => nomatch h

theorem coded_some {e : Err} (h : e.code ≠ .noError) : Coded (some e) := fun _ hd => Option.some.inj hd ▸ h

theorem coded_failIf {bad : Prop} [Decidable bad] {e : Err} (h : e.code ≠ .noError) : Coded (failIf bad e) :=
  fun _ hd => (failIf_eq_some.1 hd).2 ▸ h

theorem coded_findSome {α : Type} {f : α → Option Err} {l : List α} (h : ∀ x ∈ l, Coded (f x)) :
    Coded (l.findSome? f) := fun e he =>
  have ⟨x, hx, hf⟩ := List.exists_of_findSome?_eq_some he
  h x hx e hf

theorem coded_firstError {cs : List (Option Err)} (h : ∀ c ∈ cs, Coded c) : Coded (firstError cs) :=
  coded_findSome h

theorem coded_regionCheck (n : Nat) (g : Stage) (r : Region) : Coded (Region.check n g r) := by
  unfold Region.check
  split
  · exact coded_some (by simp)
  · split
    · exact coded_some (by simp)
    · exact coded_none

theorem coded_overlapChecks (g : Stage) (rs : List Region) : Coded (overlapChecks g rs) := by
  refine coded_findSome fun p _ => ?_
  unfold Region.overlapCheck
  split
  · exact coded_some (by simp)
  · exact coded_none

theorem State.coded_regionCheck (s : State) (g : Stage) (rs : List Region) : Coded (s.regionCheck g rs) :=
  coded_firstError (by
    simpa using ⟨coded_findSome fun r _ => Machine.coded_regionCheck _ g r, coded_overlapChecks g rs⟩)

theorem coded_qualityCheck (g : Stage) (q : Word) : Coded (qualityCheck g q) := by
  unfold qualityCheck
  split
  · exact coded_some (by simp)
  · exact coded_none

theorem State.coded_qtabCheck (s : State) (g : Stage) : Coded (s.qtabCheck g) := coded_failIf (by simp)

theorem State.coded_bpClosedCheck (s : State) (g : Stage) : Coded (s.bpClosedCheck g) := coded_failIf (by simp)

theorem State.coded_bpOpenCheck (s : State) (g : Stage) : Coded (s.bpOpenCheck g) := coded_failIf (by simp)

theorem coded_emptyCheck (s : State) : Coded (emptyCheck s) := coded_failIf (by simp)

theorem coded_hufFreqCheck (s : State) : Coded (hufFreqCheck s) :=
  coded_firstError (by simpa using ⟨s.coded_regionCheck _ _, coded_emptyCheck s⟩)

theorem coded_hufEmitCheck (s : State) : Coded (hufEmitCheck s) :=
  coded_firstError (by simpa using ⟨s.coded_bpClosedCheck _, s.coded_regionCheck _ _⟩)

theorem coded_hufEncodeCheck (s : State) : Coded (hufEncodeCheck s) :=
  coded_firstError (by simpa using ⟨s.coded_bpClosedCheck _, s.coded_regionCheck _ _, coded_emptyCheck s⟩)

theorem coded_bpAddCheck (n : Nat) (s : State) : Coded (bpAddCheck n s) :=
  coded_firstError (by simpa using ⟨coded_failIf (by simp), s.coded_bpOpenCheck _⟩)

theorem coded_quantCheck (s : State) : Coded (quantCheck s) :=
  coded_firstError (by simpa using ⟨s.coded_qtabCheck _, s.coded_regionCheck _ _⟩)

theorem coded_dequantCheck (s : State) : Coded (dequantCheck s) :=
  coded_firstError (by simpa using ⟨s.coded_qtabCheck _, s.coded_regionCheck _ _⟩)

theorem coded_pipeFwdCheck (s : State) : Coded (pipeFwdCheck s) :=
  coded_firstError (by simpa using ⟨s.coded_qtabCheck _, s.coded_regionCheck _ _⟩)

theorem coded_pipeInvCheck (s : State) : Coded (pipeInvCheck s) :=
  coded_firstError (by
    simpa using ⟨coded_failIf (by simp), coded_failIf (by simp), s.coded_qtabCheck _, s.coded_regionCheck _ _⟩)

theorem coded_compressCheck (s : State) : Coded (compressCheck s) :=
  coded_firstError (by
    simpa using ⟨coded_qualityCheck _ _, s.coded_bpClosedCheck _, s.coded_regionCheck _ _, coded_failIf (by simp)⟩)

theorem coded_cntPackCheck (s : State) : Coded (cntPackCheck s) :=
  coded_firstError (by
    simpa [packParamChecks] using
      ⟨coded_failIf (by simp [packParam]), coded_failIf (by simp [packParam]), coded_failIf (by simp [packParam]),
        coded_failIf (by simp [packParam]), s.coded_regionCheck _ _, coded_failIf (by simp [packOverflow])⟩)

theorem coded_decompressHeaderCheck (p : Parsed) : Coded (decompressHeaderCheck p) :=
  coded_firstError (by
    simpa using
      ⟨coded_qualityCheck _ _, coded_failIf (by simp [malformedErr]), coded_failIf (by simp [malformedErr])⟩)

theorem coded_decompressOutCheck (s : State) (p : Parsed) : Coded (decompressOutCheck s p) :=
  coded_firstError (by
    simpa using ⟨coded_findSome fun r _ => coded_regionCheck _ _ r, coded_overlapChecks _ _⟩)

theorem decompressHeader_error_code {s : State} {e : Err} (h : decompressHeader s = .error e) :
    e.code ≠ .noError := by
  unfold decompressHeader at h
  split at h
  · rename_i hc
    cases h
    exact s.coded_regionCheck _ _ _ hc
  · split at h
    · cases h; simp [malformedErr]
    · split at h
      · rename_i hc
        cases h
        exact coded_decompressHeaderCheck _ _ hc
      · cases h

/-- Steps 1 to 5 of DECOMPRESS accept only a container whose quality is legal (46_pipeline R306 step 3). -/
theorem decompressHeader_ok_quality {s : State} {p : Parsed} (h : decompressHeader s = .ok p) :
    qualityCheck .qtab p.quality = none := by
  unfold decompressHeader at h
  split at h
  · cases h
  · split at h
    · cases h
    · split at h
      · cases h
      · rename_i hc
        cases h
        exact firstError_eq_none.1 hc _ (by simp)

theorem decompressParse_error_code {s : State} {e : Err} (h : decompressParse s = .error e) :
    e.code ≠ .noError := by
  unfold decompressParse at h
  split at h
  · rename_i he
    cases h
    exact decompressHeader_error_code he
  · split at h
    · rename_i hc
      cases h
      exact coded_decompressOutCheck _ _ _ hc
    · cases h

theorem decompressParse_ok_header {s : State} {p : Parsed} (h : decompressParse s = .ok p) :
    decompressHeader s = .ok p := by
  unfold decompressParse at h
  split at h
  · cases h
  · rename_i hp
    split at h
    · cases h
    · cases h; exact hp

theorem buildTab_error_code {f : Vector Word 256} {e : Err} (h : buildTab f = .error e) : e.code ≠ .noError := by
  unfold buildTab tabOfWorklist at h
  split at h
  · cases h; simp
  · split at h <;> cases h
    simp

theorem EmitStop.err_code (x : EmitStop) (r : RegionId) : (x.err r).code ≠ .noError := by
  cases x <;> simp [EmitStop.err]

/-- A quality that passes its check is one whose table QTABFN builds (42_quant R212, 60_exceptions R341). -/
theorem isQtab_of_qualityCheck {g : Stage} {q : Word} (h : qualityCheck g q = none) : IsQtab (qtabFn q.toNat) := by
  unfold qualityCheck at h
  split at h
  · cases h
  · rename_i hq
    refine ⟨q.toNat, ?_, ?_, rfl⟩ <;> (rw [BitVec.toInt_eq_toNat_cond] at hq; split at hq <;> omega)

/-! ### What a body may change -/

/-- The commands that quantize, which alone have QNF events (42_quant R215). -/
abbrev quantizingCommands : List Instr := [.quant, .blkEnc, .pipeFwd, .compress]

/-- `u` is a state that the running command `i` may reach from `s` before it writes its register results: only
LMEM, QNF, BP, the draws and SEQ's progress have changed, QNF can only have been set, and only by a quantizing
command, and a working QTAB that has come up is a built one (10_state R62, R66). -/
structure State.Touches (i : Instr) (s u : State) : Prop where
  frame : u = { s with
    lmem := u.lmem, qnf := u.qnf, bp := u.bp, draws := u.draws
    seq :=
      { s.seq with
        phase := u.seq.phase, work := u.seq.work, worklist := u.seq.worklist, tasksDone := u.seq.tasksDone } }
  qnf_rises : s.qnf = true → u.qnf = true
  qnf_owner : i ∉ quantizingCommands → u.qnf = s.qnf
  work_qtab : ∀ t, u.seq.work.qtab = some t → s.seq.work.qtab = some t ∨ IsQtab t

namespace State.Touches

variable {i : Instr} {s m u : State}

theorem trans (h : Touches i s m) (k : Touches i m u) : Touches i s u where
  frame := by
    refine k.frame.trans ?_
    rw [h.frame]
  qnf_rises hs := k.qnf_rises (h.qnf_rises hs)
  qnf_owner hi := (k.qnf_owner hi).trans (h.qnf_owner hi)
  work_qtab t ht := (k.work_qtab t ht).elim (h.work_qtab t) .inr

/-- An operation that leaves QNF and the working QTAB alone. -/
theorem of_frame
    (hf : u = { s with
      lmem := u.lmem, bp := u.bp, draws := u.draws
      seq :=
        { s.seq with
          phase := u.seq.phase, work := u.seq.work, worklist := u.seq.worklist, tasksDone := u.seq.tasksDone } })
    (hw : u.seq.work.qtab = s.seq.work.qtab) : Touches i s u :=
  have hq : u.qnf = s.qnf := by rw [hf]
  ⟨by rw [hq]; exact hf, fun h => hq.trans h, fun _ => hq, fun _ ht => .inl (hw ▸ ht)⟩

theorem refl (i : Instr) (s : State) : Touches i s s := of_frame rfl rfl

theorem writeBytes (h : Touches i s m) (a : Nat) (bs : List Byte) : Touches i s (m.writeBytes a bs) :=
  h.trans (of_frame rfl rfl)

theorem memWrite (h : Touches i s m) (a n v : Nat) : Touches i s (m.memWrite a n v) := h.writeBytes a _

theorem scrambleRegions (h : Touches i s m) (rs : List Region) : Touches i s (m.scrambleRegions rs) :=
  h.trans (of_frame (by rw [State.scrambleRegions_frame]) (by rw [State.scrambleRegions_frame]))

theorem scrambleBp (h : Touches i s m) : Touches i s m.scrambleBp := h.trans (of_frame rfl rfl)

theorem enterPhase (h : Touches i s m) (g : Stage) : Touches i s (m.enterPhase g) := h.trans (of_frame rfl rfl)

theorem setWorkFreq (h : Touches i s m) (f : Vector Word 256) : Touches i s (m.setWorkFreq f) :=
  h.trans (of_frame rfl rfl)

theorem setWorkTab (h : Touches i s m) (t : Vector CodeEntry 256) : Touches i s (m.setWorkTab t) :=
  h.trans (of_frame rfl rfl)

theorem setWorklist (h : Touches i s m) (l : List (Nat × HufTree)) : Touches i s (m.setWorklist l) :=
  h.trans (of_frame rfl rfl)

theorem setWorkQtab (h : Touches i s m) {t : Vector Word 64} (ht : IsQtab t) : Touches i s (m.setWorkQtab t) :=
  h.trans ⟨rfl, id, fun _ => rfl, fun _ hu => .inr (Option.some.inj hu ▸ ht)⟩

theorem markTask (h : Touches i s m) (t : Nat) : Touches i s (m.markTask t) := h.trans (of_frame rfl rfl)

theorem qnfEvent (h : Touches i s m) (hi : i ∈ quantizingCommands) (b : Bool) : Touches i s (m.qnfEvent b) :=
  h.trans ⟨rfl, fun hs => by simp [hs], fun hn => absurd hi hn, fun _ => .inl⟩

theorem bpStart (h : Touches i s m) (base cap : Word) (r : RegionId) : Touches i s (m.bpStart base cap r) :=
  h.trans (of_frame rfl rfl)

theorem bpPush (h : Touches i s m) {bit : Bool} (hp : m.bpPush bit = some u) : Touches i s u :=
  h.trans (of_frame (by rw [State.bpPush_frame hp]) (by rw [State.bpPush_frame hp]))

theorem bpAdd (h : Touches i s m) (v : Word) (n : Nat) : Touches i s (m.bpAdd v n).1 :=
  State.bpPushAll_induction (fun _ _ _ hs hp => hs.bpPush hp) _ h

theorem emitBytes (h : Touches i s m) (t : Vector CodeEntry 256) (n : Nat) (bs : List Byte) :
    Touches i s (m.emitBytes t n bs).1 :=
  State.emitBytes_induction (fun _ _ _ hs hp => hs.bpPush hp) t bs n h

theorem bpEnd (h : Touches i s m) (he : m.bpEnd = some u) : Touches i s u := by
  obtain ⟨-, rfl⟩ | ⟨-, -, rfl⟩ := State.bpEnd_cases he
  · exact h.trans (of_frame rfl rfl)
  · exact h.trans (of_frame rfl rfl)

theorem emitPhase (h : Touches i s m) (t : Vector CodeEntry 256) (bs : List Byte) (base cap : Word) (r : RegionId) :
    Touches i s (m.emitPhase t bs base cap r).1 := by
  have hb := ((h.enterPhase .hufEmit).bpStart base cap r).emitBytes t 0 bs
  unfold State.emitPhase
  split
  · rename_i he
    rwa [he] at hb
  · rename_i he
    rw [he] at hb
    split
    · rename_i hend
      exact hb.bpEnd hend
    · exact hb

theorem hufFreqPhase (h : Touches i s m) (bs : List Byte) : Touches i s (m.hufFreqPhase bs) :=
  (h.enterPhase .hufFreq).setWorkFreq _

theorem hufBuildPhase (h : Touches i s m) {f : Vector Word 256} (hb : m.hufBuildPhase f = .ok u) :
    Touches i s u := by
  obtain ⟨t, -, rfl⟩ := State.hufBuildPhase_ok hb
  exact ((h.enterPhase _).setWorklist _).setWorkTab t

theorem runTask (h : Touches i s m) {body : State → State} (hb : ∀ v, Touches i v (body v)) (t : Nat) :
    Touches i s (m.runTask t body) := by
  unfold State.runTask
  split
  · exact h
  · exact (h.trans (hb m)).markTask t

theorem blockPhase (h : Touches i s m) {task : Nat → State → State} (ht : ∀ t v, Touches i v (task t v))
    (nb : Nat) : Touches i s (m.blockPhase nb task) :=
  State.blockPhase_induction (fun t v _ hv => hv.trans (ht t v)) (fun t _ hv => hv.markTask t) h

theorem foldl {α : Type} {f : State → α → State} (hf : ∀ v x, Touches i v (f v x)) (l : List α)
    (h : Touches i s m) : Touches i s (l.foldl f m) := by
  induction l generalizing m with
  | nil => exact h
  | cons x rest ih => exact ih (h.trans (hf m x))

end State.Touches

/-! ### The bodies of the block commands (46_pipeline R300, R302, R303) -/

theorem quantBody_touches {i : Instr} (hi : i ∈ quantizingCommands) (s : State) : s.Touches i (quantBody s) :=
  ((State.Touches.refl i s).writeBytes _ _).qnfEvent hi _

theorem blkEncBody_touches {i : Instr} (hi : i ∈ quantizingCommands) (s : State) : s.Touches i (blkEncBody s) :=
  ((State.Touches.refl i s).writeBytes _ _).qnfEvent hi _

theorem fwdTask_touches {i : Instr} (hi : i ∈ quantizingCommands) (a w flat t : Nat) (s : State) :
    s.Touches i (fwdTask a w flat t s) :=
  have channel (ch : Nat) (v : State) : v.Touches i (fwdChannel a w flat t ch v) :=
    ((State.Touches.refl i v).writeBytes _ _).qnfEvent hi _
  ((channel 0 s).trans (channel 1 _)).trans (channel 2 _)

theorem invTask_touches (i : Instr) (flat a w t : Nat) (s : State) : s.Touches i (invTask flat a w t s) :=
  have channel (ch : Nat) (v : State) : v.Touches i (invChannel flat a w t ch v) :=
    .foldl (fun v _ => .foldl (fun v _ => (State.Touches.refl i v).memWrite _ _ _) _ (.refl i v)) _ (.refl i v)
  ((channel 0 s).trans (channel 1 _)).trans (channel 2 _)

theorem compressEnter_touches {s : State} (h : compressCheck s = none) : s.Touches .compress (compressEnter s) :=
  have hq : qualityCheck .seq s.op.quality = none := firstError_eq_none.1 h _ (by simp)
  (((State.Touches.refl _ s).enterPhase .qtab).setWorkQtab (isQtab_of_qualityCheck hq)).enterPhase .pipe

theorem decompressDecode_touches {s u : State} {p : Parsed} (hp : decompressParse s = .ok p)
    (h : decompressDecode s p = .ok u) : s.Touches .decompress u := by
  have hq := isQtab_of_qualityCheck (decompressHeader_ok_quality (decompressParse_ok_header hp))
  unfold decompressDecode at h
  split at h
  · cases h
  · cases h
    exact ((((State.Touches.refl _ s).setWorkTab p.tab).setWorkQtab hq).writeBytes _ _).enterPhase .pipe

/-! ### The two ends of a command -/

/-- `u` is `m` with register results written: no more than these have changed (10_state R55, R57, R59, R61). -/
abbrev State.WithResults (m u : State) : Prop :=
  u = { m with opr := u.opr, outlen := u.outlen, cwidth := u.cwidth, cheight := u.cheight, paddr := u.paddr }

/-- The two ways a run of command `i` from `s` ends (60_exceptions R345): with its results and its commit, or with
an error record and BP unchanged or closed. -/
inductive State.Ends (i : Instr) (s : State) : State → Prop
  | completes {m u : State} (body : s.Touches i m) (results : m.WithResults u) : Ends i s u.complete
  | fails {u : State} {e : Err} (body : s.Touches i u) (results : u.bp = s.bp ∨ u.bp.isOpen = false)
      (code : e.code ≠ .noError) : Ends i s (u.raise e)

namespace State.Ends

variable {i : Instr} {s t : State}

theorem raise (s : State) {e : Err} (he : e.code ≠ .noError) : Ends i s (s.raise e) :=
  .fails (.refl i s) (.inl rfl) he

theorem dataError (s : State) (rs : List Region) {e : Err} (he : e.code ≠ .noError) : Ends i s (s.dataError rs e) :=
  .fails ((Touches.refl i s).scrambleRegions rs) (.inl (by rw [State.scrambleRegions_frame])) he

theorem packerError {m : State} (h : Touches i s m) (rs : List Region) {e : Err} (he : e.code ≠ .noError) :
    Ends i s (m.packerError rs e) :=
  .fails (h.scrambleRegions rs).scrambleBp (.inr rfl) he

/-- A checked command ends with its failing check's error, or as its body does. -/
theorem of_checked {c : Option Err} {body : State → Host.Outcome State Fault Refusal} (h : s.checked c body = .next t)
    (hc : Coded c) (hb : c = none → body s = .next t → Ends i s t) : Ends i s t := by
  obtain ⟨e, he, rfl⟩ | ⟨hn, h⟩ := State.checked_cases h
  · exact raise s (hc e he)
  · exact hb hn h

theorem of_next {u : State} (h : Host.Outcome.next u = (.next t : Host.Outcome State Fault Refusal))
    (hu : Ends i s u) : Ends i s t := by
  cases h; exact hu

/-- A checked command whose body answers one state. -/
theorem of_checked_next {c : Option Err} {f : State → State} (h : s.checked c (fun s => .next (f s)) = .next t)
    (hc : Coded c) (hf : c = none → Ends i s (f s)) : Ends i s t :=
  of_checked h hc fun hn h => of_next h (hf hn)

theorem emitAndEnd {m : State} (h : Touches i s m) (tab : Vector CodeEntry 256) : Ends i s (m.emitAndEnd tab) := by
  have hp := h.emitPhase tab (inputBytes m) m.op.dst m.op.cap .dst
  unfold State.emitAndEnd
  split <;> rename_i he <;> rw [he] at hp
  · exact .completes hp rfl
  · exact packerError hp _ (EmitStop.err_code _ _)

theorem compressPack {m : State} (h : Touches i s m) : Ends i s (compressPack m) := by
  unfold Machine.compressPack
  simp only
  split
  · exact packerError (h.enterPhase _) _ (by simp [packOverflow])
  · exact .completes ((h.enterPhase .cntPack).writeBytes _ _) rfl

theorem compressEncode {m : State} (h : Touches i s m) : Ends i s (compressEncode m) := by
  unfold Machine.compressEncode
  simp only
  split
  · rename_i he
    exact packerError h _ (buildTab_error_code (State.hufBuildPhase_error he))
  · rename_i hb
    split <;> rename_i he <;>
      have hp := congrArg Prod.fst he ▸ ((h.hufFreqPhase _).hufBuildPhase hb).emitPhase _ _ _ _ _
    · exact packerError hp _ (EmitStop.err_code _ _)
    · exact compressPack hp

end State.Ends

/-! ### Every command ends in one of the two ways -/

theorem execBpAdd_ends {n : Nat} {s t : State} (h : execBpAdd n s = .next t) : s.Ends (.bpAdd n) t := by
  refine .of_checked h (coded_bpAddCheck n s) fun _ h => ?_
  have hb := (State.Touches.refl (.bpAdd n) s).bpAdd s.op.bpdata n
  split at h <;> rename_i he <;> rw [he] at hb
  · exact .of_next h (.completes hb rfl)
  · exact .of_next h (.packerError hb _ (by simp [bpOverflow]))

theorem execBpFinish_ends {s t : State} (h : execBpFinish s = .next t) : s.Ends .bpFinish t := by
  refine .of_checked h (s.coded_bpOpenCheck _) fun _ h => ?_
  split at h
  · rename_i he
    exact .of_next h (.completes ((State.Touches.refl _ s).bpEnd he) rfl)
  · exact .of_next h (.packerError (.refl _ s) _ (by simp [bpOverflow]))

theorem execHufBuild_ends {s t : State} (h : execHufBuild s = .next t) : s.Ends .hufBuild t := by
  unfold execHufBuild at h
  split at h
  · rename_i he
    exact .of_next h (.dataError s _ (buildTab_error_code (State.hufBuildPhase_error he)))
  · rename_i hb
    exact .of_next h (.completes ((State.Touches.refl _ s).hufBuildPhase hb) rfl)

theorem execHufEncode_ends {s t : State} (h : execHufEncode s = .next t) : s.Ends .hufEncode t := by
  refine .of_checked h (coded_hufEncodeCheck s) fun _ h => ?_
  split at h
  · rename_i he
    exact .of_next h (.packerError (.refl _ s) _ (buildTab_error_code (State.hufBuildPhase_error he)))
  · rename_i hb
    exact .of_next h (.emitAndEnd (((State.Touches.refl _ s).hufFreqPhase _).hufBuildPhase hb) _)

theorem execHufDecode_ends {s t : State} (h : execHufDecode s = .next t) : s.Ends .hufDecode t := by
  refine .of_checked h (s.coded_regionCheck _ _) fun _ h => ?_
  split at h
  · exact .of_next h (.dataError s _ (by simp [corruptErr]))
  · exact .of_next h (.completes ((State.Touches.refl _ s).writeBytes _ _) rfl)

theorem execCntUnpack_ends {s t : State} (h : execCntUnpack s = .next t) : s.Ends .cntUnpack t := by
  refine .of_checked h (s.coded_regionCheck _ _) fun _ h => ?_
  split at h
  · exact .of_next h (.dataError s _ (by simp [malformedErr]))
  · exact .of_next h (.completes ((State.Touches.refl _ s).setWorkTab _) rfl)

theorem execDecompress_ends {s t : State} (h : execDecompress s = .next t) : s.Ends .decompress t := by
  unfold execDecompress at h
  split at h
  · rename_i he
    exact .of_next h (.dataError s _ (decompressParse_error_code he))
  · rename_i hp
    split at h
    · exact .of_next h (.dataError s _ (by simp [corruptErr]))
    · rename_i hd
      exact .of_next h
        (.completes ((decompressDecode_touches hp hd).blockPhase (fun k v => invTask_touches _ _ _ _ k v) _) rfl)

/-- A command that ends at all ends in one of the two ways. -/
theorem exec_ends {i : Instr} {s t : State} (h : exec i s = .next t) : s.Ends i t := by
  have idle : s.Touches i s := .refl i s
  unfold exec at h
  cases i with
  | nop => exact .of_next h (.completes idle rfl)
  | qtabBuild =>
    exact .of_checked_next h (coded_qualityCheck _ _)
      (fun hq => .completes (idle.setWorkQtab (isQtab_of_qualityCheck hq)) rfl)
  | fdct | idct | zzscan | zzunscan =>
    exact .of_checked_next h (s.coded_regionCheck _ _) (fun _ => .completes (idle.writeBytes _ _) rfl)
  | quant =>
    exact .of_checked_next h (coded_quantCheck s)
      (fun _ => .completes (idle.runTask (quantBody_touches (by simp)) 0) rfl)
  | blkEnc =>
    exact .of_checked_next h (coded_quantCheck s)
      (fun _ => .completes (idle.runTask (blkEncBody_touches (by simp)) 0) rfl)
  | dequant | blkDec =>
    exact .of_checked_next h (coded_dequantCheck s) (fun _ => .completes (idle.writeBytes _ _) rfl)
  | hufFreq =>
    exact .of_checked_next h (coded_hufFreqCheck s) (fun _ => .completes (idle.setWorkFreq _) rfl)
  | hufBuild => exact execHufBuild_ends h
  | hufEmit => exact .of_checked_next h (coded_hufEmitCheck s) (fun _ => .emitAndEnd idle _)
  | hufEncode => exact execHufEncode_ends h
  | hufDecode => exact execHufDecode_ends h
  | bpInit =>
    exact .of_checked_next h (s.coded_regionCheck _ _) (fun _ => .completes (idle.bpStart _ _ _) rfl)
  | bpAdd n => exact execBpAdd_ends h
  | bpFinish => exact execBpFinish_ends h
  | pipeFwd =>
    exact .of_checked_next h (coded_pipeFwdCheck s)
      (fun _ => .completes (idle.blockPhase (fun t v => fwdTask_touches (by simp) _ _ _ t v) _) rfl)
  | pipeInv =>
    exact .of_checked_next h (coded_pipeInvCheck s)
      (fun _ => .completes (idle.blockPhase (fun t v => invTask_touches _ _ _ _ t v) _) rfl)
  | compress =>
    exact .of_checked_next h (coded_compressCheck s)
      (fun hc => .compressEncode
        ((compressEnter_touches hc).blockPhase (fun t v => fwdTask_touches (by simp) _ _ _ t v) _))
  | decompress => exact execDecompress_ends h
  | cntPack => exact .of_checked_next h (coded_cntPackCheck s) (fun _ => .completes (idle.writeBytes _ _) rfl)
  | cntUnpack => exact execCntUnpack_ends h

end Sys2Proof.Machine
end

section
/-! PROOFS. The frame of a command that ends, its invariants, and the invariants every step keeps. -/

namespace Sys2Proof.Machine

/-! ### Frames of a command that ends (10_state R61, R62) -/

/-- A command that ends leaves the host's registers and the model's own fields alone, and QNF to the quantizing
commands. -/
theorem State.Ends.host_owned {i : Instr} {s t : State} (h : s.Ends i t) :
    t.params = s.params ∧ t.rst = s.rst ∧ t.ieDone = s.ieDone ∧ t.ieErr = s.ieErr ∧ t.workers = s.workers ∧
      t.drop = s.drop ∧ t.lastOp = s.lastOp ∧ t.epoch = s.epoch ∧ t.inbox = s.inbox ∧ t.reply = s.reply ∧
      (s.qnf = true → t.qnf = true) ∧ (i ∉ quantizingCommands → t.qnf = s.qnf) := by
  cases h with
  | completes body results =>
    obtain ⟨hf, hrises, howner, -⟩ := body
    rw [results, hf]
    exact ⟨rfl, rfl, rfl, rfl, rfl, rfl, rfl, rfl, rfl, rfl, hrises, howner⟩
  | fails body _ _ =>
    obtain ⟨hf, hrises, howner, -⟩ := body
    rw [hf]
    exact ⟨rfl, rfl, rfl, rfl, rfl, rfl, rfl, rfl, rfl, rfl, hrises, howner⟩

/-- Settles O11: the frame of the two ways a command ends. -/
theorem commandKeepsHostOwnedState : Obligations.CommandKeepsHostOwnedState :=
  fun _ _ _ h => (exec_ends h).host_owned

/-- Settles O9: of the two ends only the error leaves ERR set, and its frame has no register result. -/
theorem failedCommandKeepsRegistersAndTables : Obligations.FailedCommandKeepsRegistersAndTables := by
  intro i s t hs h ht
  cases exec_ends h with
  | completes body results =>
    rw [results, body.frame] at ht
    exact absurd (hs.symm.trans ht) (by simp)
  | fails body bp _ =>
    refine ⟨?_, body.qnf_rises, bp⟩
    rw [body.frame]
    rfl

/-- What STATUS and the error record say after a command that ended (60_exceptions R345). -/
theorem State.Ends.status {i : Instr} {s t : State} (h : s.Ends i t) :
    t.seq = Seq.idle ∧
      ((t.done = true ∧ t.err = s.err ∧ t.errCode = s.errCode ∧ t.errStage = s.errStage ∧
          t.errInfo = s.errInfo) ∨
        (t.err = true ∧ t.done = s.done ∧ t.errCode ≠ .noError)) := by
  cases h with
  | completes body results =>
    rw [results, body.frame]
    exact ⟨rfl, .inl ⟨rfl, rfl, rfl, rfl, rfl⟩⟩
  | fails body _ code =>
    rw [body.frame]
    exact ⟨rfl, .inr ⟨rfl, rfl, code⟩⟩

theorem State.complete_qtabInv {s : State} (h : s.QtabInv) : s.complete.QtabInv := by
  obtain ⟨hzero, hbuilt, hwork⟩ := h
  rw [State.complete, State.QtabInv]
  cases hw : s.seq.work.qtab with
  | none => simpa [hw, Seq.idle, Work.none] using ⟨hzero, hbuilt⟩
  | some t => simpa [hw, Seq.idle, Work.none] using hwork t hw

/-- What a body keeps of the QTAB invariant (10_state R66). -/
theorem State.Touches.qtabInv {i : Instr} {s u : State} (h : s.Touches i u) (hs : s.QtabInv) : u.QtabInv := by
  obtain ⟨hzero, hbuilt, hwork⟩ := hs
  have hv : u.qtabv = s.qtabv := by rw [h.frame]
  have hq : u.qtab = s.qtab := by rw [h.frame]
  exact ⟨hq ▸ hv ▸ hzero, hq ▸ hv ▸ hbuilt, fun t ht => (h.work_qtab t ht).elim (hwork t) id⟩

theorem State.Ends.qtabInv {i : Instr} {s t : State} (h : s.Ends i t) (hs : s.QtabInv) : t.QtabInv := by
  cases h with
  | completes body results =>
    refine State.complete_qtabInv ?_
    rw [results]
    exact body.qtabInv hs
  | fails body _ _ =>
    obtain ⟨hzero, hbuilt, -⟩ := body.qtabInv hs
    exact ⟨hzero, hbuilt, fun _ ht => nomatch ht⟩

theorem State.Touches.done {i : Instr} {s u : State} (h : s.Touches i u) : u.done = s.done := by rw [h.frame]

/-! ### Work done before the turn that ends the command (log 5) -/

theorem fwdTask_bp (a w flat t : Nat) (s : State) : (fwdTask a w flat t s).bp = s.bp := by
  simp [fwdTask, fwdChannel]

theorem foldl_bp {α : Type} {f : State → α → State} (hf : ∀ u x, (f u x).bp = u.bp) (l : List α) (s : State) :
    (l.foldl f s).bp = s.bp := by
  induction l generalizing s with
  | nil => rfl
  | cons x rest ih => exact (ih (f s x)).trans (hf s x)

theorem State.writeSamples_bp (s : State) (a w t ch : Nat) (v : Vector F64 64) :
    (s.writeSamples a w t ch v).bp = s.bp :=
  foldl_bp (fun u _ => foldl_bp (fun u _ => u.memWrite_bp _ _ _) _ u) _ s

theorem invTask_bp (flat a w t : Nat) (s : State) : (invTask flat a w t s).bp = s.bp := by
  simp [invTask, invChannel, State.writeSamples_bp]

theorem decompressDecode_bp {s u : State} {p : Parsed} (h : decompressDecode s p = .ok u) : u.bp = s.bp := by
  unfold decompressDecode at h
  split at h
  · cases h
  · cases h; rfl

/-- A worker's early task is one block task on the state after the phases before it, and neither the phases nor the
task touch BP. -/
theorem earlyTask_cases {s u : State} {t : Nat} (h : earlyTask s t = some u) :
    ∃ (m : State) (task : State → State), u = m.runTask t task ∧ s.Touches s.seq.instr m ∧ m.bp = s.bp ∧
      (∀ v : State, v.Touches s.seq.instr (task v)) ∧ ∀ v, (task v).bp = v.bp := by
  unfold earlyTask at h
  split at h
  case h_1 hi =>
    obtain ⟨-, ⟨⟩⟩ := Option.ite_none_right_eq_some.1 h
    exact ⟨s, _, rfl, .refl _ s, rfl, fwdTask_touches (by simp [hi]) _ _ _ _, fwdTask_bp _ _ _ _⟩
  case h_2 hi =>
    obtain ⟨-, ⟨⟩⟩ := Option.ite_none_right_eq_some.1 h
    exact ⟨s, _, rfl, .refl _ s, rfl, invTask_touches _ _ _ _ _, invTask_bp _ _ _ _⟩
  case h_3 hi =>
    obtain ⟨⟨hc, -⟩, ⟨⟩⟩ := Option.ite_none_right_eq_some.1 h
    rw [hi]
    exact ⟨_, _, rfl, compressEnter_touches hc, rfl, fwdTask_touches (by simp) _ _ _ _, fwdTask_bp _ _ _ _⟩
  case h_4 hi =>
    split at h
    · cases h
    · rename_i hp
      split at h
      · split at h
        · cases h
        · rename_i hd
          cases h
          rw [hi]
          exact ⟨_, _, rfl, decompressDecode_touches hp hd, decompressDecode_bp hd, invTask_touches _ _ _ _ _,
            invTask_bp _ _ _ _⟩
      · cases h
  all_goals cases h

theorem State.runTask_bp {f : State → State} (hf : ∀ u, (f u).bp = u.bp) (t : Nat) (s : State) :
    (s.runTask t f).bp = s.bp := by
  unfold State.runTask
  split
  · rfl
  · rw [State.markTask_bp, hf]

/-- What an early turn of a worker leaves of the running command's state. -/
theorem workerTurn_touches (w t : Nat) (s : State) :
    s.Touches s.seq.instr (workerTurn w t s) ∧ (workerTurn w t s).bp = s.bp := by
  obtain h | ⟨-, -, h⟩ := workerTurn_cases w t s
  · rw [h]
    exact ⟨.refl _ s, rfl⟩
  · obtain ⟨m, task, hu, hm, hbp, htask, htaskbp⟩ := earlyTask_cases h
    rw [hu]
    exact ⟨hm.runTask htask t, (State.runTask_bp htaskbp t m).trans hbp⟩

/-- What an early turn of the sequencer leaves of the running command's state. -/
theorem blockTurn_touches (s : State) : s.Touches s.seq.instr (blockTurn s) ∧ (blockTurn s).bp = s.bp := by
  obtain h | ⟨-, -, -, ⟨hi, h⟩ | ⟨hi, h⟩⟩ := blockTurn_cases s <;> rw [h]
  · exact ⟨.refl _ s, rfl⟩
  · exact ⟨(State.Touches.refl _ s).runTask (quantBody_touches (by simp [hi])) 0,
      State.runTask_bp (f := quantBody) (fun _ => rfl) 0 s⟩
  · exact ⟨(State.Touches.refl _ s).runTask (blkEncBody_touches (by simp [hi])) 0,
      State.runTask_bp (f := blkEncBody) (fun _ => rfl) 0 s⟩

theorem workerTurn_of_rst {s : State} (h : s.rst = true) (w t : Nat) : workerTurn w t s = s := by
  simp [workerTurn, h]

theorem blockTurn_of_rst {s : State} (h : s.rst = true) : blockTurn s = s := by
  simp [blockTurn, h]

/-! ### A host write to a register (40_control R171) -/

/-- The offsets of the operand registers, QUALITY to BPDATA (10_state R34). -/
abbrev operandOffsets : List Nat :=
  [0x020, 0x024, 0x028, 0x02C, 0x030, 0x034, 0x038, 0x03C, 0x040, 0x044, 0x048, 0x04C, 0x050]

/-- A write to any other offset than CTRL, STATUS, CMD and the operand registers is one to the table windows. -/
theorem writeReg_window {o : Nat} (h : o ∉ 0x00C :: 0x010 :: 0x014 :: operandOffsets) (s : State) (v : Word) :
    writeReg s o v = writeWindow s o v := by
  unfold writeReg
  split <;> first | rfl | exact absurd (by simp) h

/-- A write to an operand register changes the operand registers only. -/
theorem writeReg_operand {o : Nat} (h : o ∈ operandOffsets) (s : State) (v : Word) :
    writeReg s o v = { s with opr := (writeReg s o v).opr } := by
  simp only [List.mem_cons, List.not_mem_nil, or_false] at h
  rcases h with rfl | rfl | rfl | rfl | rfl | rfl | rfl | rfl | rfl | rfl | rfl | rfl | rfl <;> rfl

/-- A write to the table windows changes DROP, and while idle TAB and FREQ. -/
theorem writeWindow_frame (s : State) (o : Nat) (v : Word) :
    writeWindow s o v =
      { s with
        drop := (writeWindow s o v).drop, tab := (writeWindow s o v).tab, freq := (writeWindow s o v).freq } := by
  unfold writeWindow
  split
  · split
    · rfl
    · split <;> rfl
  · rfl

/-- What a host write to a register can be. -/
theorem writeReg_cases (s : State) (o : Nat) (v : Word) :
    writeReg s o v = s.writeCtrl v ∨ writeReg s o v = s.ackStatus v ∨ writeReg s o v = s.issue v ∨
      writeReg s o v =
        { s with
          opr := (writeReg s o v).opr, drop := (writeReg s o v).drop, tab := (writeReg s o v).tab
          freq := (writeReg s o v).freq } := by
  by_cases ho : o ∈ 0x00C :: 0x010 :: 0x014 :: operandOffsets
  · obtain rfl | ho := List.mem_cons.1 ho
    · exact .inl rfl
    obtain rfl | ho := List.mem_cons.1 ho
    · exact .inr (.inl rfl)
    obtain rfl | ho := List.mem_cons.1 ho
    · exact .inr (.inr (.inl rfl))
    · refine .inr (.inr (.inr ?_))
      rw [writeReg_operand ho]
  · refine .inr (.inr (.inr ?_))
    rw [writeReg_window ho, writeWindow_frame]

/-- What a host write to CMD can be (60_exceptions R344, 10_state R44). -/
theorem State.issue_cases (s : State) (w : Word) :
    (s.busy = true ∧ s.issue w = { s with drop := true }) ∨
      (s.busy = false ∧ s.issue w = (s.beginIssue w).reject w) ∨
      (s.busy = false ∧ ∃ i, decode w = .ok i ∧ s.issue w = (s.beginIssue w).accept i s.heldRecord) := by
  unfold State.issue
  cases hb : s.busy with
  | true => exact .inl ⟨rfl, rfl⟩
  | false =>
    cases hd : decode w with
    | error e => exact .inr (.inl ⟨rfl, rfl⟩)
    | ok i => exact .inr (.inr ⟨rfl, i, rfl, rfl⟩)

/-! ### What every step keeps -/

/-- Every way a step can change the state keeps `P`. -/
structure KeptBySteps (P : State → Prop) : Prop where
  inbox : ∀ s l, P s → P { s with inbox := l }
  reply : ∀ s r d, P s → P { s with reply := r, draws := d }
  exec : ∀ s t, P s → s.busy = true → s.rst = false → exec s.seq.instr s = .next t → P t
  worker : ∀ s w t, P s → P (workerTurn w t s)
  block : ∀ s, P s → P (blockTurn s)
  writeReg : ∀ s o v, P s → s.rst = false → P (writeReg s o v)
  memWrite : ∀ s a n v, P s → s.rst = false → badMemAccess s a n = false → P (s.memWrite a n v)
  assertRst : ∀ s, P s → P (assertRst s)
  releaseRst : ∀ s, P s → P (releaseRst s)
  powerUp : ∀ s, P s → P (powerUp s)

namespace KeptBySteps

variable {P : State → Prop} {s t : State}

theorem engineTurn (hP : KeptBySteps P) (hs : P s) (h : engineTurn s = .next t) : P t := by
  unfold Machine.engineTurn at h
  split at h
  · rename_i hb
    exact hP.exec s t hs hb.1 hb.2 h
  · cases h; exact hs

theorem answer (hP : KeptBySteps P) (hs : P s) (r : BusReply) : P { s with reply := r } := hP.reply s r s.draws hs

theorem hostRun (hP : KeptBySteps P) {w : Word} (hs : P s) (h : hostRun w s = .next t) : P t := by
  unfold Machine.hostRun at h
  split at h
  · cases h
  · rename_i hr
    exact hP.engineTurn (hP.answer (hP.writeReg s 0x014 w hs (by simpa using hr)) .written) h

theorem hostRegRead (hP : KeptBySteps P) {o n : Nat} (hs : P s) (h : hostRegRead o n s = .next t) : P t := by
  unfold Machine.hostRegRead at h
  split at h
  · cases h
  · split at h <;> cases h
    · exact hP.answer hs .busError
    · exact hP.reply s _ _ hs

theorem hostRegWrite (hP : KeptBySteps P) {o n : Nat} {v : Word} (hs : P s) (h : hostRegWrite o n v s = .next t) :
    P t := by
  unfold Machine.hostRegWrite at h
  split at h
  · cases h
  · rename_i hr
    split at h <;> cases h
    · exact hP.answer hs .busError
    · exact hP.answer (hP.writeReg s o v hs (by simpa using hr)) .written

theorem hostMemRead (hP : KeptBySteps P) {a n : Nat} (hs : P s) (h : hostMemRead a n s = .next t) : P t := by
  unfold Machine.hostMemRead at h
  split at h
  · cases h
  · split at h <;> cases h
    · exact hP.answer hs .busError
    · exact hP.reply s _ _ hs

theorem hostMemWrite (hP : KeptBySteps P) {a n : Nat} {v : DWord} (hs : P s) (h : hostMemWrite a n v s = .next t) :
    P t := by
  unfold Machine.hostMemWrite at h
  split at h
  · cases h
  · rename_i hr
    split at h
    · cases h; exact hP.answer hs .busError
    · rename_i hbad
      split at h <;> cases h
      exact hP.answer (hP.memWrite s a n _ hs (by simpa using hr) (by simpa using hbad)) .written

theorem handleEvent (hP : KeptBySteps P) {e : Event} (hs : P s) (h : handleEvent e s = .next t) : P t := by
  cases e with
  | engine => exact hP.engineTurn hs h
  | run w => exact hP.hostRun hs h
  | worker w k => cases h; exact hP.worker s w k hs
  | block => cases h; exact hP.block s hs
  | regRead o n => exact hP.hostRegRead hs h
  | regWrite o n v => exact hP.hostRegWrite hs h
  | memRead a n => exact hP.hostMemRead hs h
  | memWrite a n v => exact hP.hostMemWrite hs h
  | rst asserted =>
    cases asserted <;> cases h
    · exact hP.releaseRst s hs
    · exact hP.assertRst s hs
  | powerOn => cases h; exact hP.powerUp s hs

theorem step (hP : KeptBySteps P) (hs : P s) (h : step s = .next t) : P t := by
  unfold Machine.step at h
  split at h
  · exact hP.engineTurn hs h
  · exact hP.handleEvent (hP.inbox s _ hs) h

end KeptBySteps

/-! ### STATUS and the error record -/

theorem State.Touches.statusInv {i : Instr} {s u : State} (h : s.Touches i u) (hs : s.StatusInv)
    (hb : s.seq.state = .running) : u.StatusInv := by
  obtain ⟨hrun, -, hdone, herr, hrec⟩ := hs
  rw [h.frame]
  exact ⟨hrun, fun hi => absurd (hb.symm.trans hi) (by simp), hdone, herr, hrec⟩

theorem State.issue_statusInv {s : State} (hs : s.StatusInv) (w : Word) : (s.issue w).StatusInv := by
  obtain ⟨hb, h⟩ | ⟨hb, h⟩ | ⟨hb, i, -, h⟩ := s.issue_cases w <;> rw [h]
  · exact hs
  · obtain ⟨-, hidle, -⟩ := hs
    exact ⟨fun hr => absurd hr (by simpa [State.busy] using hb), hidle, nofun, nofun, nofun⟩
  · exact ⟨fun _ => ⟨rfl, rfl, rfl⟩, nofun, nofun, nofun, fun _ => ⟨rfl, rfl⟩⟩

theorem State.ackStatus_statusInv {s : State} (hs : s.StatusInv) (w : Word) : (s.ackStatus w).StatusInv := by
  obtain ⟨hrun, hidle, hdone, herr, hrec⟩ := hs
  refine ⟨fun hr => ?_, hidle, fun hd => ?_, fun he => herr (Bool.and_eq_true_iff.1 he).1, hrec⟩
  · obtain ⟨hd, he, hc⟩ := hrun hr
    exact ⟨by simp [hd], by simp [he], hc⟩
  · obtain ⟨he, hc⟩ := hdone (Bool.and_eq_true_iff.1 hd).1
    exact ⟨by simp [he], hc⟩

theorem State.writeReg_statusInv {s : State} (hs : s.StatusInv) (o : Nat) (v : Word) : (writeReg s o v).StatusInv := by
  obtain h | h | h | h := writeReg_cases s o v <;> rw [h]
  · exact hs
  · exact State.ackStatus_statusInv hs v
  · exact State.issue_statusInv hs v
  · exact hs

/-- The reset values meet the invariant (70_reset R371), whatever the fields that a reset leaves hold. -/
theorem State.resetAll_statusInv (s : State) (b : Bool) : (s.resetAll b).StatusInv :=
  ⟨nofun, fun _ => rfl, nofun, nofun, fun _ => ⟨rfl, rfl⟩⟩

theorem State.Ends.statusInv {i : Instr} {s t : State} (h : s.Ends i t) (hs : s.StatusInv)
    (hb : s.seq.state = .running) : t.StatusInv := by
  obtain ⟨hrun, -, -, -, hrec⟩ := hs
  obtain ⟨hdone, herr, hcode⟩ := hrun hb
  obtain ⟨hseq, ⟨-, he, hc, hg, hi⟩ | ⟨he, hd, hc⟩⟩ := h.status
  all_goals refine ⟨fun hr => absurd (hseq ▸ hr) nofun, fun _ => hseq, ?_⟩
  · have hok : t.err = false := he.trans herr
    refine ⟨fun _ => ⟨hok, hc.trans hcode⟩, fun h1 => absurd (h1.symm.trans hok) nofun, fun _ => ?_⟩
    rw [hg, hi]
    exact hrec hcode
  · exact ⟨fun h1 => absurd (h1.symm.trans (hd.trans hdone)) nofun, fun _ => hc, fun h1 => absurd h1 hc⟩

theorem keptBySteps_statusInv : KeptBySteps State.StatusInv where
  inbox _ _ hs := hs
  reply _ _ _ hs := hs
  exec _ _ hs hb _ h := (exec_ends h).statusInv hs (of_decide_eq_true hb)
  worker s w t hs := by
    obtain h | ⟨hb, -⟩ := workerTurn_cases w t s
    · rw [h]; exact hs
    · exact (workerTurn_touches w t s).1.statusInv hs (of_decide_eq_true hb)
  block s hs := by
    obtain h | ⟨hb, -⟩ := blockTurn_cases s
    · rw [h]; exact hs
    · exact (blockTurn_touches s).1.statusInv hs (of_decide_eq_true hb)
  writeReg _ o v hs _ := State.writeReg_statusInv hs o v
  memWrite _ _ _ _ hs _ _ := hs
  assertRst _ _ := State.resetAll_statusInv _ true
  releaseRst s hs := by
    unfold releaseRst
    split
    · exact State.resetAll_statusInv s false
    · exact hs
  powerUp s _ := State.resetAll_statusInv s false

/-- Settles O58, step by step. -/
theorem statusInvariantKept : Obligations.StatusInvariantKept :=
  fun _ _ hs h => keptBySteps_statusInv.step hs h

/-! ### QTAB -/

theorem State.resetAll_qtabInv (s : State) (b : Bool) : (s.resetAll b).QtabInv := ⟨fun _ => rfl, nofun, nofun⟩

theorem State.writeReg_qtabInv {s : State} (hs : s.QtabInv) (o : Nat) (v : Word) : (writeReg s o v).QtabInv := by
  have hkeep := hs
  obtain ⟨hzero, hbuilt, -⟩ := hs
  obtain h | h | h | h := writeReg_cases s o v <;> rw [h]
  · exact hkeep
  · exact hkeep
  · obtain ⟨-, h⟩ | ⟨-, h⟩ | ⟨-, i, -, h⟩ := s.issue_cases v <;> rw [h]
    · exact hkeep
    · exact hkeep
    · exact ⟨hzero, hbuilt, nofun⟩
  · exact hkeep

theorem keptBySteps_qtabInv : KeptBySteps State.QtabInv where
  inbox _ _ hs := hs
  reply _ _ _ hs := hs
  exec _ _ hs _ _ h := (exec_ends h).qtabInv hs
  worker s w t hs := (workerTurn_touches w t s).1.qtabInv hs
  block s hs := (blockTurn_touches s).1.qtabInv hs
  writeReg _ o v hs _ := State.writeReg_qtabInv hs o v
  memWrite _ _ _ _ hs _ _ := hs
  assertRst _ _ := State.resetAll_qtabInv _ true
  releaseRst s hs := by
    unfold releaseRst
    split
    · exact State.resetAll_qtabInv s false
    · exact hs
  powerUp s _ := State.resetAll_qtabInv s false

/-! ### CTRL and RST -/

/-- CTRL.WORKERS after a write of a field (10_state R38). -/
theorem clampWorkers_toNat (p : Config.Params) (field : Byte) :
    (clampWorkers p field).toNat = max 1 (min field.toNat p.nworkers) := by
  rw [clampWorkers, BitVec.toNat_ofNat, Nat.mod_eq_of_lt]
  have := field.isLt
  omega

/-- With RST released the control invariant is about the open parameters and WORKERS only. -/
theorem State.controlInv_of_released {s t : State} (hs : s.ControlInv) (hp : t.params = s.params)
    (hw : t.workers = s.workers) (hr : t.rst = false) : t.ControlInv := by
  obtain ⟨hl, h1, hn, -⟩ := hs
  rw [State.ControlInv, hp, hw]
  exact ⟨hl, h1, hn, fun h => absurd (hr.symm.trans h) (by simp)⟩

theorem State.resetAll_controlInv {s : State} (hs : s.params.Legal) (b : Bool) : (s.resetAll b).ControlInv :=
  ⟨hs, Nat.le_refl 1, hs.1, fun hb => by cases b <;> first | rfl | cases hb⟩

theorem State.writeReg_controlInv {s : State} (hs : s.ControlInv) (hr : s.rst = false) (o : Nat) (v : Word) :
    (writeReg s o v).ControlInv := by
  obtain h | h | h | h := writeReg_cases s o v <;> rw [h]
  · obtain ⟨hl, -⟩ := hs
    have hw := clampWorkers_toNat s.params (v.extractLsb' 8 8)
    have hpos : 1 ≤ s.params.nworkers := hl.1
    refine ⟨hl, ?_, ?_, fun h => absurd (hr.symm.trans h) (by simp)⟩
    all_goals
      rw [State.writeCtrl_workers, hw]
    · omega
    · rw [State.writeCtrl_params]; omega
  · exact State.controlInv_of_released hs rfl rfl hr
  · obtain ⟨-, h⟩ | ⟨-, h⟩ | ⟨-, i, -, h⟩ := s.issue_cases v <;> rw [h]
    all_goals exact State.controlInv_of_released hs rfl rfl hr
  · exact State.controlInv_of_released hs rfl rfl hr

/-- An early turn of a worker or the sequencer, which RST holds back (70_reset R370). -/
theorem State.Touches.controlInv {i : Instr} {s u : State} (h : s.Touches i u) (hs : s.ControlInv)
    (hr : s.rst = true → u = s) : u.ControlInv := by
  cases hrst : s.rst with
  | true => exact hr hrst ▸ hs
  | false => exact State.controlInv_of_released hs (by rw [h.frame]) (by rw [h.frame]) (by rw [h.frame]; exact hrst)

theorem keptBySteps_controlInv : KeptBySteps State.ControlInv where
  inbox s l hs := by
    obtain ⟨hl, h1, hn, hr⟩ := hs
    exact ⟨hl, h1, hn, fun h => congrArg (fun u : State => { u with inbox := l }) (hr h)⟩
  reply s r d hs := by
    obtain ⟨hl, h1, hn, hr⟩ := hs
    exact ⟨hl, h1, hn, fun h => congrArg (fun u : State => { u with reply := r, draws := d }) (hr h)⟩
  exec s t hs _ hr h := by
    obtain ⟨hp, hrst, -, -, hw, -⟩ := (exec_ends h).host_owned
    exact State.controlInv_of_released hs hp hw (hrst.trans hr)
  worker s w t hs := (workerTurn_touches w t s).1.controlInv hs fun h => workerTurn_of_rst h w t
  block s hs := (blockTurn_touches s).1.controlInv hs blockTurn_of_rst
  writeReg _ o v hs hr := State.writeReg_controlInv hs hr o v
  memWrite _ _ _ _ hs hr _ := State.controlInv_of_released hs rfl rfl hr
  assertRst s hs := by
    refine State.resetAll_controlInv ?_ true
    split
    · rw [State.scrambleRegions_frame]; exact hs.1
    · exact hs.1
  releaseRst s hs := by
    unfold releaseRst
    split
    · exact State.resetAll_controlInv hs.1 false
    · exact hs
  powerUp s hs := State.controlInv_of_released (State.resetAll_controlInv hs.1 false) rfl rfl rfl

/-- Settles O59, step by step. -/
theorem tableAndControlInvariantKept : Obligations.TableAndControlInvariantKept :=
  fun _ _ h => ⟨fun hs => keptBySteps_qtabInv.step hs h, fun hs => keptBySteps_controlInv.step hs h⟩

end Sys2Proof.Machine
end

section
/-! PROOFS. A command does not see what the host has written since its issue (10_state R60, 40_control R174). -/

namespace Sys2Proof.Machine

/-! ### Functions that read LMEM only -/

section ReadsMemory
variable {s u : State} (h : ∀ x, u.readByte x = s.readByte x)
include h

theorem State.memRead_congr (a n : Nat) : u.memRead a n = s.memRead a n := by
  rw [State.memRead, State.memRead, State.readBytes_congr fun x _ _ => h x]

theorem State.field32_congr (a : Nat) : u.field32 a = s.field32 a := by
  rw [State.field32, State.field32, State.memRead_congr h]

theorem State.field64_congr (a : Nat) : u.field64 a = s.field64 a := by
  rw [State.field64, State.field64, State.memRead_congr h]

theorem State.parseEntries_congr (left e : Nat) (t : Vector CodeEntry 256) :
    u.parseEntries left e t = s.parseEntries left e t := by
  induction left generalizing e t with
  | zero => rfl
  | succ left ih => simp only [State.parseEntries, State.field32_congr h, h, ih]

/-- PARSE depends on the bytes of LMEM only (47_container R324). -/
theorem State.parse_congr (a n : Nat) : u.parse a n = s.parse a n := by
  simp only [State.parse, State.parseTrailer, State.parseEntries_congr h, State.field32_congr h,
    State.field64_congr h]

/-- DECODE depends on the bytes of LMEM only (44_huffman R257). -/
theorem State.decodePayload_congr (t : Vector CodeEntry 256) (a nbits n : Nat) :
    u.decodePayload t a nbits n = s.decodePayload t a nbits n := by
  have hbit : u.payloadBit a = s.payloadBit a := funext fun i => by rw [State.payloadBit, State.payloadBit, h]
  rw [State.decodePayload, State.decodePayload, hbit]

end ReadsMemory

/-! ### The host's part of the state -/

/-- What the host may write while a command runs, and no command reads: the operand registers, CTRL.WORKERS and the
interrupt enables (10_state R37, R60). -/
structure HostPart where
  opr : OperandRegs
  workers : Byte
  ieDone : Bool
  ieErr : Bool

/-- The state with another host's part. -/
def State.withHost (s : State) (v : HostPart) : State :=
  { s with opr := v.opr, workers := v.workers, ieDone := v.ieDone, ieErr := v.ieErr }

section Operations
variable (s : State) (v : HostPart)

@[simp] theorem State.withHost_op : (s.withHost v).op = s.op := rfl

@[simp] theorem State.withHost_seq : (s.withHost v).seq = s.seq := rfl

@[simp] theorem State.withHost_tab : (s.withHost v).tab = s.tab := rfl

@[simp] theorem State.withHost_freq : (s.withHost v).freq = s.freq := rfl

@[simp] theorem State.withHost_phaseTab : (s.withHost v).phaseTab = s.phaseTab := rfl

@[simp] theorem State.withHost_readBytes (a n : Nat) : (s.withHost v).readBytes a n = s.readBytes a n := rfl

theorem State.withHost_readByte (x : Nat) : (s.withHost v).readByte x = s.readByte x := rfl

@[simp] theorem State.withHost_parse (a n : Nat) : (s.withHost v).parse a n = s.parse a n :=
  State.parse_congr (s.withHost_readByte v) a n

@[simp] theorem State.withHost_decodePayload (t : Vector CodeEntry 256) (a nbits n : Nat) :
    (s.withHost v).decodePayload t a nbits n = s.decodePayload t a nbits n :=
  State.decodePayload_congr (s.withHost_readByte v) t a nbits n

@[simp] theorem State.withHost_hufFreqPhase (bs : List Byte) :
    (s.withHost v).hufFreqPhase bs = (s.hufFreqPhase bs).withHost v := rfl

@[simp] theorem State.withHost_hufBuildPhase (f : Vector Word 256) :
    (s.withHost v).hufBuildPhase f = (s.hufBuildPhase f).map fun u => u.withHost v := by
  unfold State.hufBuildPhase
  simp only [State.setWorklist_seq]
  cases tabOfWorklist (initialWorklist f) <;> rfl

@[simp] theorem State.withHost_bpPush (bit : Bool) :
    (s.withHost v).bpPush bit = (s.bpPush bit).map fun u => u.withHost v := by
  unfold State.bpPush
  simp only [apply_ite (Option.map fun u : State => u.withHost v)]
  rfl

@[simp] theorem State.withHost_bpPushAll (bits : List Bool) :
    (s.withHost v).bpPushAll bits = ((s.bpPushAll bits).1.withHost v, (s.bpPushAll bits).2) := by
  induction bits generalizing s with
  | nil => rfl
  | cons b rest ih =>
    simp only [State.bpPushAll, State.withHost_bpPush]
    cases s.bpPush b with
    | none => rfl
    | some t => exact ih t

@[simp] theorem State.withHost_bpAdd (w : Word) (n : Nat) :
    (s.withHost v).bpAdd w n = ((s.bpAdd w n).1.withHost v, (s.bpAdd w n).2) := s.withHost_bpPushAll v _

@[simp] theorem State.withHost_bpEnd : (s.withHost v).bpEnd = s.bpEnd.map fun u => u.withHost v := by
  unfold State.bpEnd
  simp only [apply_ite (Option.map fun u : State => u.withHost v)]
  rfl

@[simp] theorem State.withHost_emitBytes (t : Vector CodeEntry 256) (i : Nat) (bs : List Byte) :
    (s.withHost v).emitBytes t i bs = ((s.emitBytes t i bs).1.withHost v, (s.emitBytes t i bs).2) := by
  induction bs generalizing s i with
  | nil => rfl
  | cons b rest ih =>
    simp only [State.emitBytes, State.withHost_bpAdd]
    split
    · rcases s.bpAdd (atByte t b).code (atByte t b).len.toNat with ⟨u, _ | _⟩
      · rfl
      · exact ih u (i + 1)
    · rfl

@[simp] theorem State.withHost_emitPhase (t : Vector CodeEntry 256) (bs : List Byte) (base cap : Word)
    (r : RegionId) :
    (s.withHost v).emitPhase t bs base cap r =
      ((s.emitPhase t bs base cap r).1.withHost v, (s.emitPhase t bs base cap r).2) := by
  have hstart : ((s.withHost v).enterPhase .hufEmit).bpStart base cap r =
      ((s.enterPhase .hufEmit).bpStart base cap r).withHost v := rfl
  simp only [State.emitPhase, hstart, State.withHost_emitBytes]
  rcases ((s.enterPhase .hufEmit).bpStart base cap r).emitBytes t 0 bs with ⟨u, _ | x⟩
  · simp only [State.withHost_bpEnd]
    cases u.bpEnd <;> rfl
  · rfl

@[simp] theorem State.withHost_scrambleRegions (rs : List Region) :
    (s.withHost v).scrambleRegions rs = (s.scrambleRegions rs).withHost v :=
  List.foldl_hom (fun u : State => u.withHost v) fun _ _ => rfl

@[simp] theorem State.withHost_dataError (rs : List Region) (e : Err) :
    (s.withHost v).dataError rs e = (s.dataError rs e).withHost v := by
  rw [State.dataError, State.withHost_scrambleRegions]
  rfl

@[simp] theorem State.withHost_packerError (rs : List Region) (e : Err) :
    (s.withHost v).packerError rs e = (s.packerError rs e).withHost v := by
  rw [State.packerError, State.withHost_scrambleRegions]
  rfl

theorem State.withHost_runTask {f : State → State} (hf : ∀ u : State, f (u.withHost v) = (f u).withHost v)
    (t : Nat) : (s.withHost v).runTask t f = (s.runTask t f).withHost v := by
  unfold State.runTask
  rw [State.withHost_seq, hf]
  split <;> rfl

theorem State.withHost_blockPhase {task : Nat → State → State}
    (ht : ∀ t (u : State), task t (u.withHost v) = (task t u).withHost v) (nb : Nat) :
    (s.withHost v).blockPhase nb task = (s.blockPhase nb task).withHost v :=
  List.foldl_hom (fun u : State => u.withHost v) fun u t => u.withHost_runTask v (ht t) t

theorem fwdTask_withHost (a w flat t : Nat) : fwdTask a w flat t (s.withHost v) = (fwdTask a w flat t s).withHost v :=
  rfl

@[simp] theorem State.withHost_writeSamples (a w t ch : Nat) (b : Vector F64 64) :
    (s.withHost v).writeSamples a w t ch b = (s.writeSamples a w t ch b).withHost v :=
  List.foldl_hom (fun u : State => u.withHost v) fun _ _ =>
    List.foldl_hom (fun u : State => u.withHost v) fun _ _ => rfl

theorem invTask_withHost (flat a w t : Nat) :
    invTask flat a w t (s.withHost v) = (invTask flat a w t s).withHost v := by
  have channel (u : State) (ch : Nat) :
      invChannel flat a w t ch (u.withHost v) = (invChannel flat a w t ch u).withHost v :=
    u.withHost_writeSamples v a w t ch _
  simp only [invTask, channel]

@[simp] theorem State.withHost_imgW : (s.withHost v).imgW = s.imgW := rfl

@[simp] theorem State.withHost_imgH : (s.withHost v).imgH = s.imgH := rfl

@[simp] theorem compressRegions_withHost : compressRegions (s.withHost v) = compressRegions s := rfl

@[simp] theorem compressEnter_withHost : compressEnter (s.withHost v) = (compressEnter s).withHost v := rfl

@[simp] theorem decompressOutRegions_withHost (p : Parsed) :
    decompressOutRegions (s.withHost v) p = decompressOutRegions s p := rfl

@[simp] theorem decompressTask_withHost (p : Parsed) : decompressTask (s.withHost v) p = decompressTask s p := rfl

@[simp] theorem decompressHeader_withHost : decompressHeader (s.withHost v) = decompressHeader s := by
  unfold decompressHeader
  rw [State.withHost_parse]
  rfl

@[simp] theorem decompressParse_withHost : decompressParse (s.withHost v) = decompressParse s := by
  unfold decompressParse
  rw [decompressHeader_withHost]
  rfl

@[simp] theorem decompressDecode_withHost (p : Parsed) :
    decompressDecode (s.withHost v) p = (decompressDecode s p).map fun u => u.withHost v := by
  unfold decompressDecode
  rw [State.withHost_decodePayload]
  cases s.decodePayload p.tab p.paddr p.nbits.toNat (flatSize p.width.toNat p.height.toNat) <;> rfl

end Operations

/-! ### The end of a command, whatever the host's part -/

/-- The commands that write BITCNT (10_state R55, R61). -/
abbrev bitcntCommands : List Instr :=
  [Instr.hufEmit, Instr.hufEncode, Instr.bpFinish, Instr.compress, Instr.decompress, Instr.cntUnpack]

/-- The commands that load WIDTH, HEIGHT and QUALITY from a container (10_state R61). -/
abbrev headerCommands : List Instr := [Instr.decompress, Instr.cntUnpack]

/-- The host's part with the operand registers that command `i` writes taken from `q` (10_state R61). -/
def HostPart.withResults (v : HostPart) (i : Instr) (q : OperandRegs) : HostPart :=
  { v with
    opr :=
      { v.opr with
        bitcnt := if i ∈ bitcntCommands then q.bitcnt else v.opr.bitcnt
        width := if i ∈ headerCommands then q.width else v.opr.width
        height := if i ∈ headerCommands then q.height else v.opr.height
        quality := if i ∈ headerCommands then q.quality else v.opr.quality } }

theorem HostPart.withResults_of_not_mem {i : Instr} (h : i ∉ bitcntCommands) (v : HostPart) (q : OperandRegs) :
    v.withResults i q = v := by
  have hh : i ∉ headerCommands := fun hm => h (by simp only [List.mem_cons] at hm ⊢; tauto)
  rw [HostPart.withResults, if_neg h, if_neg hh, if_neg hh, if_neg hh]

/-- How `i` ends from a state with host's part `v`, in `u`, where it ends in `t` from the state as it is: an error
keeps the host's part, a completion (`done` is DONE from before) writes its register results into it. -/
def SameEnd (i : Instr) (v : HostPart) (done : Bool) (t u : State) : Prop :=
  (t.done = done ∧ u = t.withHost v) ∨ (t.done = true ∧ u = t.withHost (v.withResults i t.opr))

/-- Both outcomes are next states, which the relation holds between. -/
inductive BothNext (R : State → State → Prop) :
    Host.Outcome State Fault Refusal → Host.Outcome State Fault Refusal → Prop
  | next {t u : State} (h : R t u) : BothNext R (.next t) (.next u)

section Ends
variable {i : Instr} {s : State} {v : HostPart}

theorem SameEnd.fails {t u : State} (hd : t.done = s.done) (hu : u = t.withHost v) : SameEnd i v s.done t u :=
  .inl ⟨hd, hu⟩

/-- A completion that writes no operand register. -/
theorem SameEnd.plain {d : Bool} {t u : State} (hi : i ∉ bitcntCommands) (hd : t.done = true)
    (hu : u = t.withHost v) : SameEnd i v d t u :=
  .inr ⟨hd, by rw [HostPart.withResults_of_not_mem hi]; exact hu⟩

theorem checked_bothNext {c : Option Err} {b b' : State → Host.Outcome State Fault Refusal}
    (hb : c = none → BothNext (SameEnd i v s.done) (b s) (b' (s.withHost v))) :
    BothNext (SameEnd i v s.done) (s.checked c b) ((s.withHost v).checked c b') := by
  cases c with
  | none => exact hb rfl
  | some e => exact .next (.fails rfl rfl)

theorem dataError_sameEnd (rs : List Region) (e : Err) :
    SameEnd i v s.done (s.dataError rs e) ((s.withHost v).dataError rs e) :=
  .fails (by rw [State.dataError, State.scrambleRegions_frame]; rfl) (s.withHost_dataError v rs e)

theorem packerError_sameEnd {m : State} (hm : m.done = s.done) (rs : List Region) (e : Err) :
    SameEnd i v s.done (m.packerError rs e) ((m.withHost v).packerError rs e) :=
  .fails (by rw [State.packerError, State.scrambleRegions_frame]; exact hm) (m.withHost_packerError v rs e)

theorem emitAndEnd_sameEnd {m : State} (hm : s.Touches i m) (hi : i ∈ bitcntCommands) (hh : i ∉ headerCommands)
    (t : Vector CodeEntry 256) : SameEnd i v s.done (m.emitAndEnd t) ((m.withHost v).emitAndEnd t) := by
  have hp := hm.emitPhase t (inputBytes m) m.op.dst m.op.cap .dst
  have hin : inputBytes (m.withHost v) = inputBytes m := rfl
  simp only [State.emitAndEnd, hin, State.withHost_op, State.withHost_emitPhase]
  rcases he : m.emitPhase t (inputBytes m) m.op.dst m.op.cap .dst with ⟨u, _ | x⟩ <;> rw [he] at hp
  · refine .inr ⟨rfl, ?_⟩
    rw [HostPart.withResults, if_pos hi, if_neg hh, if_neg hh, if_neg hh]
    rfl
  · exact packerError_sameEnd hp.done _ _

theorem compressPack_overflow {m : State} (h : m.op.cap.toNat < containerSize m.phaseTab m.bp.bytes.toNat) :
    compressPack m = (m.enterPhase .cntPack).packerError (compressRegions m) packOverflow := if_pos h

theorem compressPack_fits {m : State} (h : ¬m.op.cap.toNat < containerSize m.phaseTab m.bp.bytes.toNat) :
    compressPack m =
      (((((m.enterPhase .cntPack).serialize m.op.dst.toNat (u32 (crop m.imgW)) (u32 (crop m.imgH)) m.op.quality
        m.phaseTab m.bp.total (m.readBytes m.op.tmp1.toNat m.bp.bytes.toNat)).setBitcnt m.bp.total).setOutlen
          (containerSize m.phaseTab m.bp.bytes.toNat)).setCropped (crop m.imgW) (crop m.imgH)).complete := if_neg h

theorem compressPack_sameEnd {m : State} (hm : m.done = s.done) :
    SameEnd .compress v s.done (compressPack m) (compressPack (m.withHost v)) := by
  by_cases h : m.op.cap.toNat < containerSize m.phaseTab m.bp.bytes.toNat
  · rw [compressPack_overflow h, compressPack_overflow (m := m.withHost v) h]
    exact packerError_sameEnd (m := m.enterPhase .cntPack) hm _ _
  · rw [compressPack_fits h, compressPack_fits (m := m.withHost v) h]
    exact .inr ⟨rfl, rfl⟩

theorem compressEncode_sameEnd {m : State} (hm : s.Touches .compress m) :
    SameEnd .compress v s.done (compressEncode m) (compressEncode (m.withHost v)) := by
  unfold compressEncode
  simp only [State.withHost_op, State.withHost_imgW, State.withHost_imgH, State.withHost_readBytes,
    State.withHost_hufFreqPhase, State.withHost_hufBuildPhase, compressRegions_withHost]
  cases hb : (m.hufFreqPhase (m.readBytes m.op.tmp0.toNat (flatSize m.imgW m.imgH))).hufBuildPhase
      (freqFn (m.readBytes m.op.tmp0.toNat (flatSize m.imgW m.imgH))) with
  | error e => exact packerError_sameEnd hm.done _ _
  | ok u =>
    have hp := ((hm.hufFreqPhase _).hufBuildPhase hb).emitPhase u.phaseTab
      (m.readBytes m.op.tmp0.toNat (flatSize m.imgW m.imgH)) m.op.tmp1 m.op.tcap .tmp1
    simp only [Except.map, State.withHost_emitPhase, State.withHost_phaseTab]
    rcases he : u.emitPhase u.phaseTab (m.readBytes m.op.tmp0.toNat (flatSize m.imgW m.imgH)) m.op.tmp1 m.op.tcap
      .tmp1 with ⟨w, _ | x⟩ <;> rw [he] at hp
    · exact compressPack_sameEnd hp.done
    · exact packerError_sameEnd hp.done _ _

/-- A checked command whose body answers one state. -/
theorem checked_bothNext_next {c : Option Err} {f f' : State → State}
    (hf : c = none → SameEnd i v s.done (f s) (f' (s.withHost v))) :
    BothNext (SameEnd i v s.done) (s.checked c fun s => .next (f s)) ((s.withHost v).checked c fun s => .next (f' s)) :=
  checked_bothNext fun hc => .next (hf hc)

end Ends

section Commands
variable (s : State) (v : HostPart)

theorem execBpAdd_withHost (n : Nat) :
    BothNext (SameEnd (.bpAdd n) v s.done) (execBpAdd n s) (execBpAdd n (s.withHost v)) := by
  refine checked_bothNext fun _ => ?_
  have hb := (State.Touches.refl (.bpAdd n) s).bpAdd s.op.bpdata n
  simp only [State.withHost_op, State.withHost_bpAdd]
  rcases he : s.bpAdd s.op.bpdata n with ⟨u, _ | _⟩ <;> rw [he] at hb
  · exact .next (packerError_sameEnd hb.done _ _)
  · exact .next (.plain (by simp) rfl rfl)

theorem execBpFinish_withHost :
    BothNext (SameEnd .bpFinish v s.done) (execBpFinish s) (execBpFinish (s.withHost v)) := by
  refine checked_bothNext fun _ => ?_
  simp only [State.withHost_bpEnd]
  cases s.bpEnd with
  | none => exact .next (packerError_sameEnd rfl _ _)
  | some u => exact .next (.inr ⟨rfl, rfl⟩)

theorem execHufBuild_withHost :
    BothNext (SameEnd .hufBuild v s.done) (execHufBuild s) (execHufBuild (s.withHost v)) := by
  unfold execHufBuild
  simp only [State.withHost_freq, State.withHost_hufBuildPhase]
  cases s.hufBuildPhase s.freq with
  | error e => exact .next (dataError_sameEnd _ _)
  | ok u => exact .next (.plain (by simp) rfl rfl)

theorem execHufEncode_withHost :
    BothNext (SameEnd .hufEncode v s.done) (execHufEncode s) (execHufEncode (s.withHost v)) := by
  refine checked_bothNext fun _ => ?_
  have hin : inputBytes (s.withHost v) = inputBytes s := rfl
  simp only [hin, State.withHost_hufFreqPhase, State.withHost_hufBuildPhase]
  cases hb : (s.hufFreqPhase (inputBytes s)).hufBuildPhase (freqFn (inputBytes s)) with
  | error e => exact .next (packerError_sameEnd rfl _ _)
  | ok u =>
    exact .next (emitAndEnd_sameEnd (((State.Touches.refl _ s).hufFreqPhase _).hufBuildPhase hb) (by simp) (by simp) _)

theorem execHufDecode_withHost :
    BothNext (SameEnd .hufDecode v s.done) (execHufDecode s) (execHufDecode (s.withHost v)) := by
  refine checked_bothNext fun _ => ?_
  simp only [State.withHost_op, State.withHost_tab, State.withHost_decodePayload]
  cases s.decodePayload s.tab s.op.src.toNat s.op.bitcnt.toNat s.op.len.toNat with
  | error k => exact .next (dataError_sameEnd _ _)
  | ok out => exact .next (.plain (by simp) rfl rfl)

theorem execCntUnpack_withHost :
    BothNext (SameEnd .cntUnpack v s.done) (execCntUnpack s) (execCntUnpack (s.withHost v)) := by
  refine checked_bothNext fun _ => ?_
  simp only [State.withHost_op, State.withHost_parse]
  cases s.parse s.op.src.toNat s.op.len.toNat with
  | error k => exact .next (dataError_sameEnd _ _)
  | ok p => exact .next (.inr ⟨rfl, rfl⟩)

theorem execDecompress_withHost :
    BothNext (SameEnd .decompress v s.done) (execDecompress s) (execDecompress (s.withHost v)) := by
  unfold execDecompress
  simp only [decompressParse_withHost, decompressDecode_withHost, decompressOutRegions_withHost,
    decompressTask_withHost]
  cases decompressParse s with
  | error e => exact .next (dataError_sameEnd _ _)
  | ok p =>
    simp only
    cases decompressDecode s p with
    | error k => exact .next (dataError_sameEnd _ _)
    | ok u =>
      have hb := u.withHost_blockPhase v (task := decompressTask s p) (fun t u => invTask_withHost u v _ _ _ t)
        (blockCount p.width.toNat p.height.toNat)
      simp only [Except.map, hb]
      exact .next (.inr ⟨rfl, rfl⟩)

/-- Whatever the host's part of the state, a command ends the same but for that part (10_state R60). -/
theorem exec_withHost (i : Instr) : BothNext (SameEnd i v s.done) (exec i s) (exec i (s.withHost v)) := by
  unfold exec
  cases i with
  | nop => exact .next (.plain (by simp) rfl rfl)
  | qtabBuild | fdct | idct | dequant | zzscan | zzunscan | hufFreq | bpInit | blkDec | cntPack =>
    exact checked_bothNext_next fun _ => .plain (by simp) rfl rfl
  | quant =>
    have hb := s.withHost_runTask v (f := quantBody) (fun _ => rfl) 0
    exact checked_bothNext_next fun _ => .plain (by simp) rfl (by rw [hb]; rfl)
  | blkEnc =>
    have hb := s.withHost_runTask v (f := blkEncBody) (fun _ => rfl) 0
    exact checked_bothNext_next fun _ => .plain (by simp) rfl (by rw [hb]; rfl)
  | hufBuild => exact execHufBuild_withHost s v
  | hufEmit => exact checked_bothNext_next fun _ => emitAndEnd_sameEnd (.refl _ s) (by simp) (by simp) _
  | hufEncode => exact execHufEncode_withHost s v
  | hufDecode => exact execHufDecode_withHost s v
  | bpAdd n => exact execBpAdd_withHost s v n
  | bpFinish => exact execBpFinish_withHost s v
  | pipeFwd =>
    have hb := s.withHost_blockPhase v (task := fwdTask s.op.src.toNat s.imgW s.op.dst.toNat)
      (fun t u => fwdTask_withHost u v _ _ _ t) (blockCount s.imgW s.imgH)
    refine checked_bothNext_next fun _ => .plain (by simp) rfl ?_
    simp only [State.withHost_op, State.withHost_imgW, State.withHost_imgH, hb]
    rfl
  | pipeInv =>
    have hb := s.withHost_blockPhase v (task := invTask s.op.src.toNat s.op.dst.toNat s.imgW)
      (fun t u => invTask_withHost u v _ _ _ t) (blockCount s.imgW s.imgH)
    refine checked_bothNext_next fun _ => .plain (by simp) rfl ?_
    simp only [State.withHost_op, State.withHost_imgW, State.withHost_imgH, hb]
    rfl
  | compress =>
    have hb := (compressEnter s).withHost_blockPhase v (task := fwdTask s.op.src.toNat s.imgW s.op.tmp0.toNat)
      (fun t u => fwdTask_withHost u v _ _ _ t) (blockCount s.imgW s.imgH)
    refine checked_bothNext_next fun hc => ?_
    simp only [State.withHost_op, State.withHost_imgW, State.withHost_imgH, compressEnter_withHost, hb]
    exact compressEncode_sameEnd
      ((compressEnter_touches hc).blockPhase (fun t u => fwdTask_touches (by simp) _ _ _ t u) _)
  | decompress => exact execDecompress_withHost s v
  | cntUnpack => exact execCntUnpack_withHost s v

end Commands

/-- Settles O7: the two runs end the same, and each operand register holds the command's result or the host's value. -/
theorem commandsReadOnlyTheSnapshot : Obligations.CommandsReadOnlyTheSnapshot := by
  intro i s t r k d e h
  have hv := exec_withHost s ⟨r, k, d, e⟩ i
  rw [h] at hv
  generalize hw : exec i (s.withHost ⟨r, k, d, e⟩) = o at hv
  obtain @⟨_, u, ⟨hd, rfl⟩ | ⟨hd, rfl⟩⟩ := hv
  · refine ⟨_, hw, rfl, fun hs => ?_⟩
    rw [hd, hs]
    rfl
  · refine ⟨_, hw, rfl, fun _ => ?_⟩
    rw [hd]
    rfl

end Sys2Proof.Machine
end

section
/-! PROOFS. The issue of a command and the registers as the host reads and writes them (10_state R34, 40_control
R171, 60_exceptions R344). -/

namespace Sys2Proof.Machine

/-! ### The issue of a command and its run (60_exceptions R344, 30_encoding R149) -/

theorem State.busy_of_running {s : State} (h : s.seq.state = .running) : s.busy = true := by simp [State.busy, h]

theorem State.busy_of_idle {s : State} (h : s.seq.state = .idle) : s.busy = false := by simp [State.busy, h]

theorem State.issue_busy {s : State} (h : s.seq.state = .running) (w : Word) : s.issue w = { s with drop := true } := by
  simp [State.issue, State.busy_of_running h]

theorem State.issue_illegal {s : State} {w : Word} {e : DecodeReject} (h : s.seq.state = .idle)
    (hw : decode w = .error e) : s.issue w = (s.beginIssue w).reject w := by
  simp [State.issue, State.busy_of_idle h, hw]

theorem State.issue_legal {s : State} {w : Word} {i : Instr} (h : s.seq.state = .idle) (hw : decode w = .ok i) :
    s.issue w = (s.beginIssue w).accept i s.heldRecord := by
  simp [State.issue, State.busy_of_idle h, hw]

theorem engineTurn_running {s : State} (hr : s.rst = false) (h : s.seq.state = .running) :
    engineTurn s = exec s.seq.instr s := by
  rw [engineTurn, if_pos ⟨State.busy_of_running h, hr⟩]

theorem engineTurn_idle {s : State} (h : s.seq.state = .idle) : engineTurn s = .next s := by
  rw [engineTurn, if_neg (by simp [State.busy_of_idle h])]

theorem hostRun_legal {s : State} {w : Word} {i : Instr} (hr : s.rst = false) (h : s.seq.state = .idle)
    (hw : decode w = .ok i) :
    hostRun w s = exec i { (s.beginIssue w).accept i s.heldRecord with reply := .written } := by
  rw [hostRun, hr, State.issue_legal h hw]
  exact engineTurn_running hr rfl

/-- What the next event does (log 4). -/
theorem step_cons {s : State} {e : Event} {rest : List Event} (h : s.inbox = e :: rest) :
    step s = handleEvent e { s with inbox := rest } := by
  rw [step, h]

theorem step_nil {s : State} (h : s.inbox = []) : step s = engineTurn s := by
  rw [step, h]

/-- Settles O5, from what each event does. -/
theorem stepRunsTheCommand : Obligations.StepRunsTheCommand := by
  intro s rest
  refine ⟨fun w i hr hs hin hw => ?_, fun hr hs => ⟨fun hin => ?_, fun hin => ?_⟩, fun hs hin => ?_,
    fun _ _ hin => step_cons hin, fun _ _ _ hin => step_cons hin, fun _ _ hin => step_cons hin,
    fun _ _ _ hin => step_cons hin⟩
  · rw [step_cons hin]
    exact hostRun_legal hr hs hw
  · rw [step_nil hin, engineTurn_running hr hs]
  · rw [step_cons hin]
    exact engineTurn_running hr hs
  · rw [step_nil hin, engineTurn_idle hs]

/-- A register write that the bus accepts (40_control R172). -/
theorem hostRegWrite_ok {s : State} {o : Nat} (hr : s.rst = false) (ho : o % 4 = 0) (hlt : o < 0x1000) (v : Word) :
    hostRegWrite o 4 v s = .next { writeReg s o v with reply := .written } := by
  have hok : badRegAccess o 4 = false := by simp [badRegAccess]; omega
  simp [hostRegWrite, hr, hok]

/-- Settles O6, case by case of the issue. -/
theorem cmdWriteIssues : Obligations.CmdWriteIssues := by
  intro s w hr
  have hop : opcField w = w.setWidth 8 := by rw [opcField, BitVec.setWidth_eq_extractLsb' (by decide)]
  have hissue : writeReg s 0x014 w = s.issue w := rfl
  rw [hostRegWrite_ok hr (by decide) (by decide), hissue, ← hop]
  refine ⟨fun hs => ?_, fun e hs hw => ?_, fun i hs hw => ⟨s.heldRecord, ?_⟩, rfl⟩
  · rw [State.issue_busy hs]
  · rw [State.issue_illegal hs hw]
    rfl
  · rw [State.issue_legal hs hw]
    rfl

/-! ### CTRL and STATUS -/

theorem toNat_append_eq_add {m n : Nat} (x : BitVec m) (y : BitVec n) :
    (x ++ y).toNat = x.toNat * 2 ^ n + y.toNat := by
  rw [BitVec.toNat_append, ← Nat.shiftLeft_add_eq_or_of_lt y.isLt, Nat.shiftLeft_eq]

/-- CTRL as a number (10_state R37). -/
theorem ctrlWord_toNat (s : State) :
    (ctrlWord s).toNat = 256 * s.workers.toNat + (2 * s.ieErr.toNat + s.ieDone.toNat) := by
  simp only [ctrlWord, toNat_append_eq_add, BitVec.toNat_ofNat, BitVec.toNat_ofBool]
  omega

theorem lowTwoBits_toNat (w : Word) : 2 * (w.getLsbD 1).toNat + (w.getLsbD 0).toNat = w.toNat % 4 := by
  simp only [BitVec.getLsbD, Nat.toNat_testBit]
  omega

/-- Settles O17: WORKERS takes the clamped field, and CTRL is read as the number of its fields. -/
theorem ctrlWriteClampsWorkers : Obligations.CtrlWriteClampsWorkers := by
  intro s w hr _
  refine ⟨{ s.writeCtrl w with reply := .written }, hostRegWrite_ok hr (by decide) (by decide) w, rfl, ?_, ?_⟩
  · change (clampWorkers s.params (w.extractLsb' 8 8)).toNat = _
    rw [clampWorkers_toNat, BitVec.extractLsb'_toNat, Nat.shiftRight_eq_div_pow]
  · change (ctrlWord (s.writeCtrl w)).toNat = 256 * (s.writeCtrl w).workers.toNat + _
    rw [ctrlWord_toNat, ← lowTwoBits_toNat]
    rfl

/-- The bits of STATUS (10_state R40). -/
theorem statusWordWith_getLsbD (s : State) (b : Bool) (i : Nat) :
    (statusWordWith s b).getLsbD i = [s.busy, s.done, s.err, s.qnf, s.drop, b, s.qtabv].getD i false := by
  unfold statusWordWith
  simp only [BitVec.getLsbD_append, BitVec.getLsbD_ofBool]
  rcases i with _ | _ | _ | _ | _ | _ | _ | i <;> simp

theorem statusWord_ackStatus (s : State) (w : Word) :
    statusWord (s.ackStatus w) = statusWord s &&& ~~~(w &&& 0x0000001E#32) := by
  refine BitVec.eq_of_getLsbD_eq fun i hi => ?_
  rw [BitVec.getLsbD_and, BitVec.getLsbD_not, BitVec.getLsbD_and, statusWord, statusWord, statusWordWith_getLsbD,
    statusWordWith_getLsbD]
  rcases i with _ | _ | _ | _ | _ | _ | _ | i <;> simp [State.ackStatus, State.busy]

/-- Settles O18, bit by bit of STATUS. -/
theorem statusWriteOneClears : Obligations.StatusWriteOneClears := by
  intro s w hr
  exact ⟨{ s.ackStatus w with reply := .written }, hostRegWrite_ok hr (by decide) (by decide) w, rfl,
    statusWord_ackStatus s w⟩

/-! ### The operand registers -/

/-- The operand registers as words, in the order of their offsets (10_state R34). -/
def OperandRegs.words (r : OperandRegs) : List Word :=
  [r.quality, r.width, r.height, r.src, r.dst, r.tmp0, r.tmp1, r.len, r.cap, r.tcap, r.bitcnt.extractLsb' 0 32,
    r.bitcnt.extractLsb' 32 32, r.bpdata]

/-- Where the operand register at an offset stands among the words. -/
abbrev operandIndex (o : Nat) : Nat := o / 4 - 8

theorem operandOffsets_bounds : ∀ o ∈ operandOffsets, o % 4 = 0 ∧ 0x020 ≤ o ∧ o ≤ 0x050 := by decide

theorem readReg_operand {o : Nat} (ho : o ∈ operandOffsets) (s : State) :
    readReg s o = s.opr.words.getD (operandIndex o) 0 := by
  simp only [List.mem_cons, List.not_mem_nil, or_false] at ho
  rcases ho with rfl | rfl | rfl | rfl | rfl | rfl | rfl | rfl | rfl | rfl | rfl | rfl | rfl <;> rfl

theorem readReg_setOpr {o : Nat} (ho : o ∉ operandOffsets) (s : State) (r : OperandRegs) :
    readReg { s with opr := r } o = readReg s o := by
  unfold readReg
  split <;> first | rfl | exact absurd (by simp) ho

/-- A write to an operand register stores its word and no other (10_state R50 to R56). -/
theorem words_writeReg {o : Nat} (ho : o ∈ operandOffsets) (s : State) (v : Word) :
    (writeReg s o v).opr.words = s.opr.words.set (operandIndex o) v := by
  have hlo (x y : Word) : (x ++ y).extractLsb' 0 32 = y := BitVec.extractLsb'_append_eq_right
  have hhi (x y : Word) : (x ++ y).extractLsb' 32 32 = x := BitVec.extractLsb'_append_eq_left
  simp only [List.mem_cons, List.not_mem_nil, or_false] at ho
  rcases ho with rfl | rfl | rfl | rfl | rfl | rfl | rfl | rfl | rfl | rfl | rfl | rfl | rfl <;>
    simp [writeReg, OperandRegs.words, hlo, hhi]

theorem readReg_writeReg_operand_same {o : Nat} (ho : o ∈ operandOffsets) (s : State) (v : Word) :
    readReg (writeReg s o v) o = v := by
  obtain ⟨-, -, hle⟩ := operandOffsets_bounds o ho
  have hlt : operandIndex o < s.opr.words.length := by simp [OperandRegs.words, operandIndex]; omega
  rw [readReg_operand ho, words_writeReg ho, List.getD_eq_getElem?_getD, List.getElem?_set_self hlt]
  rfl

theorem readReg_writeReg_operand_ne {o q : Nat} (ho : o ∈ operandOffsets) (hq : q ≠ o) (s : State) (v : Word) :
    readReg (writeReg s o v) q = readReg s q := by
  by_cases hm : q ∈ operandOffsets
  · have hb := operandOffsets_bounds o ho
    have hbq := operandOffsets_bounds q hm
    have hne : operandIndex o ≠ operandIndex q := by simp only [operandIndex]; omega
    rw [readReg_operand hm, readReg_operand hm, words_writeReg ho, List.getD_eq_getElem?_getD,
      List.getElem?_set_ne hne, List.getD_eq_getElem?_getD]
  · rw [writeReg_operand ho, readReg_setOpr hm]

/-- Settles O20: an operand register write sets one word of the list of operand words. -/
theorem operandRegisterWrites : Obligations.OperandRegisterWrites := by
  intro s v o hr ho
  have hb := operandOffsets_bounds o ho
  refine ⟨{ writeReg s o v with reply := .written }, hostRegWrite_ok hr hb.1 (by omega) v, ?_,
    readReg_writeReg_operand_same ho s v, fun q hq => readReg_writeReg_operand_ne ho hq s v⟩
  rw [writeReg_operand ho]

/-! ### Registers that an acceptance or an early turn shows unchanged (70_reset R380) -/

/-- What shows in STATUS shows in no other register. -/
theorem readReg_status (s : State) (a b c d : Bool) {o : Nat} (ho : o ≠ 0x010) :
    readReg { s with done := a, err := b, qnf := c, drop := d } o = readReg s o := by
  unfold readReg
  split <;> first | rfl | exact absurd rfl ho

theorem readReg_writeCtrl (s : State) (v : Word) {o : Nat} (ho : o ≠ 0x00C) :
    readReg (s.writeCtrl v) o = readReg s o := by
  unfold readReg
  split <;> first | rfl | exact absurd rfl ho

/-- The body of a command that leaves BP alone shows in STATUS only. -/
theorem readReg_touches {i : Instr} {s u : State} (h : s.Touches i u) (hb : u.bp = s.bp) {o : Nat} (ho : o ≠ 0x010) :
    readReg u o = readReg s o := by
  rw [h.frame, hb]
  exact readReg_status s s.done s.err u.qnf s.drop ho

/-- An acceptance shows in STATUS only: ERRSTAT and ERRINFO read the held record (log 18). -/
theorem readReg_accept {s : State} (hs : s.seq.state = .idle) (w : Word) (i : Instr) {o : Nat} (ho : o ≠ 0x010) :
    readReg ((s.beginIssue w).accept i s.heldRecord) o = readReg s o := by
  have hb := State.busy_of_idle hs
  unfold readReg
  rw [hb]
  split <;> first | rfl | exact absurd rfl ho

theorem readReg_workerTurn (w t : Nat) (s : State) {o : Nat} (ho : o ≠ 0x010) :
    readReg (workerTurn w t s) o = readReg s o :=
  have ⟨htouch, hbp⟩ := workerTurn_touches w t s
  readReg_touches htouch hbp ho

theorem readReg_blockTurn (s : State) {o : Nat} (ho : o ≠ 0x010) : readReg (blockTurn s) o = readReg s o :=
  have ⟨htouch, hbp⟩ := blockTurn_touches s
  readReg_touches htouch hbp ho

/-- While BUSY a write to the table windows sets DROP at most (40_control R173). -/
theorem writeWindow_busy {s : State} (hs : s.seq.state = .running) (o : Nat) (v : Word) :
    writeWindow s o v = { s with drop := (writeWindow s o v).drop } := by
  unfold writeWindow
  rw [State.busy_of_running hs]
  split <;> rfl

/-- While BUSY a write to one register shows in no other but STATUS (40_control R171). -/
theorem readReg_writeReg_busy {s : State} (hs : s.seq.state = .running) {q o : Nat} (hq : q ≠ o) (ho : o ≠ 0x010)
    (v : Word) : readReg (writeReg s q v) o = readReg s o := by
  by_cases hm : q ∈ 0x00C :: 0x010 :: 0x014 :: operandOffsets
  · obtain rfl | hm := List.mem_cons.1 hm
    · exact readReg_writeCtrl s v hq.symm
    obtain rfl | hm := List.mem_cons.1 hm
    · exact readReg_status s _ _ _ _ ho
    obtain rfl | hm := List.mem_cons.1 hm
    · change readReg (s.issue v) o = readReg s o
      rw [State.issue_busy hs]
      exact readReg_status s s.done s.err s.qnf true ho
    · exact readReg_writeReg_operand_ne hm hq.symm s v
  · rw [writeReg_window hm, writeWindow_busy hs]
    exact readReg_status s s.done s.err s.qnf _ ho

/-! ### What a host read answers (40_control R171, 93 V3) -/

theorem packerRunning_eq (s : State) : packerRunning s = (s.busy && usesPacker s.seq.instr) := by
  unfold packerRunning usesPacker
  cases s.seq.instr <;> rfl

theorem hostRegRead_ok {s : State} {o : Nat} (hr : s.rst = false) (ho : o % 4 = 0) (hlt : o < 0x1000) :
    hostRegRead o 4 s =
      .next { s with reply := .value ((readRegNow s o).1.setWidth 64), draws := s.draws + (readRegNow s o).2 } := by
  have hok : badRegAccess o 4 = false := by simp [badRegAccess]; omega
  simp [hostRegRead, hr, hok]

/-- A read that is no free value answers with the register. -/
theorem readRegNow_stable {s : State} {o : Nat}
    (h : packerRunning s = false ∨ (packerView o = false ∧ o ≠ 0x010)) : readRegNow s o = (readReg s o, 0) := by
  unfold readRegNow
  rw [if_neg, if_neg]
  · rintro ⟨hp, rfl⟩
    simp [hp] at h
  · rintro ⟨hp, hv⟩
    simp [hp, hv] at h

/-- Of a STATUS read only BPOPEN can be a free value. -/
theorem readRegNow_status (s : State) :
    (readRegNow s 0x010).1 &&& ~~~0x00000020#32 = readReg s 0x010 &&& ~~~0x00000020#32 := by
  by_cases hp : packerRunning s = true
  · have hw : readRegNow s 0x010 = (statusWordWith s ((Config.freeValue s.draws).getLsbD 0), 1) := by
      simp [readRegNow, hp, packerView]
    rw [hw]
    refine BitVec.eq_of_getLsbD_eq fun i hi => ?_
    change (statusWordWith s _ &&& _).getLsbD i = (statusWordWith s _ &&& _).getLsbD i
    rw [BitVec.getLsbD_and, BitVec.getLsbD_and, statusWordWith_getLsbD, statusWordWith_getLsbD]
    rcases i with _ | _ | _ | _ | _ | _ | _ | i <;> simp
  · rw [readRegNow_stable (.inl (by simpa using hp))]

/-! ### The read-only registers -/

/-- A write to a read-only register, a reserved offset or the QTAB window is ignored (10_state R33). -/
theorem writeReg_readOnly {o : Nat} (ho : o ∈ [0x000, 0x004, 0x008, 0x018, 0x01C] ∨ (0x054 ≤ o ∧ o < 0x400))
    (s : State) (v : Word) : writeReg s o v = s := by
  have hm : o ∉ 0x00C :: 0x010 :: 0x014 :: operandOffsets := by
    simp only [List.mem_cons, List.not_mem_nil, or_false] at ho ⊢
    omega
  have hlt : ¬(0x400 ≤ o ∧ o < 0x1000) := by
    simp only [List.mem_cons, List.not_mem_nil, or_false] at ho
    omega
  rw [writeReg_window hm, writeWindow, if_neg hlt]

/-- NSYM counts the valid entries of TAB, byte by byte (10_state R58). -/
theorem nsym_eq (s : State) : nsym s = ((List.finRange 256).filter (fun b => s.tab[b].valid)).length := by
  have ht : s.tab.toList = (List.finRange 256).map (fun b : Fin 256 => s.tab[b]) := by
    refine List.ext_getElem (by simp) fun i h1 h2 => ?_
    simp
  rw [nsym, ht, List.countP_map, List.countP_eq_length_filter]
  rfl

theorem nsym_le (s : State) : nsym s ≤ 256 := by
  rw [nsym]
  exact (List.countP_le_length).trans (by simp)

theorem bpstateWord_toNat (b : BitPacker) : (bpstateWord b).toNat = b.nacc.toNat + 256 * b.acc.toNat := by
  simp only [bpstateWord, toNat_append_eq_add, BitVec.toNat_ofNat]
  omega

/-- A 64-bit value from its halves (10_state R55, R75). -/
theorem halves_toNat (x : DWord) : (x.extractLsb' 32 32).toNat * 2 ^ 32 + (x.extractLsb' 0 32).toNat = x.toNat := by
  have := x.isLt
  simp only [BitVec.extractLsb'_toNat, Nat.shiftRight_eq_div_pow]
  omega

/-- Settles O21: what a read answers, what an acceptance, an early turn and a write leave of the registers. -/
theorem readOnlyRegisters : Obligations.ReadOnlyRegisters := by
  intro s v
  refine ⟨fun o hr ho hlt h => ?_, fun o hr ho h => ?_,
    fun o ho hlt => ⟨fun w i hs hw => ?_, fun w t => ?_, ?_, ?_⟩, fun o hr ho h => ?_, rfl, ?_,
    bpstateWord_toNat s.bp, rfl, halves_toNat s.bp.total, rfl, rfl⟩
  · have hp : packerRunning s = false ∨ (packerView o = false ∧ o ≠ 0x010) := by
      rw [packerRunning_eq]
      obtain hs | hu | ⟨hne, hv⟩ := h
      · exact .inl (by simp [State.busy_of_idle hs])
      · exact .inl (by simp [hu])
      · exact .inr ⟨by simp [packerView]; omega, hne⟩
    rw [hostRegRead_ok hr ho hlt, readRegNow_stable hp]
    rfl
  · refine ⟨_, _, hostRegRead_ok hr ho (by omega), ?_⟩
    rintro rfl
    exact readRegNow_status s
  · rw [State.issue_legal hs hw]
    exact ⟨rfl, readReg_accept hs w i ho⟩
  · exact readReg_workerTurn w t s ho
  · exact readReg_blockTurn s ho
  · exact fun q hs hq => readReg_writeReg_busy hs hq ho v
  · have hlt : o < 0x1000 := by
      simp only [List.mem_cons, List.not_mem_nil, or_false] at h
      omega
    rw [hostRegWrite_ok hr ho hlt, writeReg_readOnly h]
  · have := nsym_le s
    change (u32 (nsym s)).toNat = _
    rw [← nsym_eq, u32, BitVec.toNat_ofNat, Nat.mod_eq_of_lt (by omega)]

/-! ### Reset -/

theorem getElem?_getD_replicate {α : Type} {n : Nat} (i : Nat) (x : α) : ((Vector.replicate n x)[i]?).getD x = x := by
  rw [Vector.getElem?_replicate]
  split <;> rfl

/-- After reset every cell of the table windows reads 0 (70_reset R371). -/
theorem readWindow_resetWith (p : Config.Params) (o : Nat) : readWindow (State.resetWith p) o = 0 := by
  unfold readWindow
  split
  · exact getElem?_getD_replicate _ _
  · split
    · simp only [State.resetWith, getElem?_getD_replicate]
      split <;> rfl
    · split
      · exact getElem?_getD_replicate _ _
      · rfl

theorem nsym_resetWith (p : Config.Params) : nsym (State.resetWith p) = 0 := by
  rw [nsym, List.countP_eq_zero]
  intro e he
  rw [State.resetWith, Vector.toList_replicate] at he
  rw [List.eq_of_mem_replicate he]
  simp [CodeEntry.none]

theorem statusWord_resetWith (p : Config.Params) : statusWord (State.resetWith p) = 0 := by
  simp [statusWord, statusWordWith, State.resetWith, BitPacker.reset, State.busy, Seq.idle]

theorem errstatWord_resetWith (p : Config.Params) : errstatWord (State.resetWith p) = 0 := by
  simp [errstatWord, State.resetWith, ErrCode.toByte, Stage.toByte]

theorem ctrlWord_resetWith (p : Config.Params) : ctrlWord (State.resetWith p) = 0x00000100#32 :=
  BitVec.eq_of_toNat_eq (ctrlWord_toNat _)

/-- Every register but ID, PARAM, LMEMSZ and CTRL reads 0 after reset (70_reset R371). -/
theorem readReg_resetWith (p : Config.Params) {o : Nat} (ho : o ∉ [0x000, 0x004, 0x008, 0x00C]) :
    readReg (State.resetWith p) o = 0 := by
  have hwin := readWindow_resetWith p o
  have hnsym : u32 (nsym (State.resetWith p)) = 0 := congrArg u32 (nsym_resetWith p)
  have hstat := statusWord_resetWith p
  have herr := errstatWord_resetWith p
  have hbp : bpstateWord BitPacker.reset = 0 := by decide
  have hhi : (0#64).extractLsb' 32 32 = 0#32 := by decide
  unfold readReg
  split
  case h_1 | h_2 | h_3 | h_4 => exact absurd (by simp) ho
  case h_5 => exact hstat
  case h_7 => exact herr
  case h_20 | h_30 => exact hhi
  case h_23 => exact hnsym
  case h_27 => exact hbp
  case h_33 => exact hwin
  all_goals rfl

theorem paramWord_toNat {p : Config.Params} (h : p.nworkers ≤ 255) :
    (paramWord p).toNat = 0x01082000 + p.nworkers := by
  have hor := Nat.shiftLeft_add_eq_or_of_lt (i := 8) (b := p.nworkers) (by omega) 0x010820
  have hmod : p.nworkers % 2 ^ 32 = p.nworkers := Nat.mod_eq_of_lt (by omega)
  rw [paramWord, u32, BitVec.toNat_or, BitVec.toNat_ofNat, BitVec.toNat_ofNat, hmod]
  exact hor.symm

/-- Settles O15. The four registers with a reset value other than 0 stand apart. -/
theorem resetValues : Obligations.ResetValues := by
  intro p hp
  obtain ⟨-, hn, -, hm⟩ := hp
  refine ⟨rfl, paramWord_toNat hn, ?_, ctrlWord_resetWith p,
    fun o h0 h4 h8 hC => readReg_resetWith p (by simp [h0, h4, h8, hC]), rfl, rfl, rfl, rfl⟩
  change (u32 p.lmemSize).toNat = _
  rw [u32, BitVec.toNat_ofNat, Nat.mod_eq_of_lt (by omega)]

end Sys2Proof.Machine
end

section
/-! PROOFS. The region checks in order: range, alignment, then the overlap pairs (20_memory R110, R111). -/

namespace Sys2Proof.Machine

@[simp] theorem firstError_singleton (c : Option Err) : firstError [c] = c := by cases c <;> rfl

theorem Region.check_eq_none_iff {n : Nat} {g : Stage} {r : Region} : Region.check n g r = none ↔ r.Fits n := by
  unfold Region.check Region.Fits
  split
  · exact iff_of_false nofun (by omega)
  · split
    · exact iff_of_false nofun (by omega)
    · exact iff_of_true rfl (by omega)

/-- With every region within range and aligned, only the overlap checks are left (20_memory R110). -/
theorem regionChecks_of_fits {n : Nat} {g : Stage} {rs : List Region} (h : ∀ q ∈ rs, q.Fits n) :
    regionChecks n g rs = overlapChecks g rs := by
  have hnone : rs.findSome? (Region.check n g) = none :=
    List.findSome?_eq_none_iff.2 fun q hq => Region.check_eq_none_iff.2 (h q hq)
  rw [regionChecks, hnone, firstError_cons_none, firstError_singleton]

/-- The first region that fails a check of its own decides, whatever the regions after it. -/
theorem regionChecks_of_check {n : Nat} {g : Stage} {before after : List Region} {r : Region} {e : Err}
    (hb : ∀ q ∈ before, q.Fits n) (hr : Region.check n g r = some e) :
    regionChecks n g (before ++ r :: after) = some e := by
  have hnone : before.findSome? (Region.check n g) = none :=
    List.findSome?_eq_none_iff.2 fun q hq => Region.check_eq_none_iff.2 (hb q hq)
  rw [regionChecks, List.findSome?_append, hnone, List.findSome?_cons, hr]
  rfl

/-- Settles O13: the first failing region decides, and range comes before alignment in its check. -/
theorem regionsCheckedInOrder : Obligations.RegionsCheckedInOrder := by
  intro n g before after r hb
  refine ⟨fun hs hrange => regionChecks_of_check hb ?_, fun hs hfit halign => regionChecks_of_check hb ?_,
    fun rs h => regionChecks_of_fits h, rfl, rfl, rfl, rfl⟩
  · rw [Region.check, if_pos ⟨hs, hrange⟩]
  · rw [Region.check, if_neg (by omega), if_pos ⟨hs, halign⟩]

theorem Region.overlapCheck_eq_none_iff {g : Stage} {r q : Region} :
    Region.overlapCheck g r q = none ↔ r.Apart q := by
  unfold Region.overlapCheck Region.overlaps Region.Apart
  split <;> rename_i h <;> rw [decide_eq_true_eq] at h
  · exact iff_of_false nofun (by omega)
  · exact iff_of_true rfl (by omega)

/-- The pairs of a list are those that `Pairwise` speaks of. -/
theorem forall_mem_pairsOf {R : Region → Region → Prop} {rs : List Region} (h : rs.Pairwise R) :
    ∀ p ∈ pairsOf rs, R p.1 p.2 := by
  induction h with
  | nil => exact nofun
  | cons hr _ ih =>
    intro p hp
    obtain hp | hp := List.mem_append.1 hp
    · obtain ⟨q, hq, rfl⟩ := List.mem_map.1 hp
      exact hr q hq
    · exact ih p hp

/-- Settles O14: the first overlapping pair decides, and of regions that are apart no pair overlaps. -/
theorem overlapsCheckedInOrder : Obligations.OverlapsCheckedInOrder := by
  intro n g rs hfit
  rw [regionChecks_of_fits hfit]
  refine ⟨fun before after r q hpairs hb hr hq h1 h2 => ?_, fun hapart => ?_⟩
  · have hnone : before.findSome? (fun p => Region.overlapCheck g p.1 p.2) = none :=
      List.findSome?_eq_none_iff.2 fun p hp => Region.overlapCheck_eq_none_iff.2 (hb p hp)
    have hpair : Region.overlapCheck g r q =
        some { code := .overlap, stage := g, info := 16 * r.id.num + q.id.num } := by
      have hover : r.overlaps q = true := decide_eq_true ⟨hr, hq, h1, h2⟩
      rw [Region.overlapCheck, if_pos hover]
    rw [overlapChecks, hpairs, List.findSome?_append, hnone, List.findSome?_cons, hpair]
    rfl
  · exact List.findSome?_eq_none_iff.2 fun p hp =>
      Region.overlapCheck_eq_none_iff.2 (forall_mem_pairsOf hapart p hp)

end Sys2Proof.Machine
end

section
/-! PROOFS. The host's LMEM accesses: little-endian bytes, what a write leaves, what a read answers (20_memory R102,
R120, 40_control R175). -/

namespace Sys2Proof.Machine

/-! ### Little-endian numbers (20_memory R102) -/

theorem leBytes_getElem_toNat (n v i : Nat) (h : i < (leBytes n v).length) :
    ((leBytes n v)[i]).toNat = v / 2 ^ (8 * i) % 256 := by
  simp [leBytes]

theorem leNat_lt (bs : List Byte) : leNat bs < 2 ^ (8 * bs.length) := by
  induction bs with
  | nil => exact Nat.one_pos
  | cons b rest ih =>
    have hb := b.isLt
    change b.toNat + 256 * leNat rest < 2 ^ (8 * (rest.length + 1))
    rw [Nat.mul_succ, Nat.pow_add]
    omega

/-- Byte `i` of the number that bytes stand for. -/
theorem leNat_byte (bs : List Byte) (i : Nat) (h : i < bs.length) : leNat bs / 2 ^ (8 * i) % 256 = (bs[i]).toNat := by
  induction bs generalizing i with
  | nil => cases h
  | cons b rest ih =>
    have hb := b.isLt
    change (b.toNat + 256 * leNat rest) / 2 ^ (8 * i) % 256 = _
    cases i with
    | zero => simp; omega
    | succ j =>
      have hdiv : (b.toNat + 256 * leNat rest) / 256 = leNat rest := by omega
      rw [Nat.mul_succ, Nat.add_comm (8 * j), Nat.pow_add, ← Nat.div_div_eq_div_mul, show 2 ^ 8 = 256 from rfl, hdiv]
      exact ih j (by simpa using h)

/-! ### The accesses -/

theorem badMemAccess_eq_false_iff {s : State} {a n : Nat} :
    badMemAccess s a n = false ↔ n ∈ [1, 2, 4, 8] ∧ a % n = 0 ∧ a + n ≤ s.params.lmemSize := by
  rw [badMemAccess, decide_eq_false_iff_not, not_or, not_or, not_not, not_not, not_lt]

section Access
variable {s : State} {a n : Nat} (hr : s.rst = false) (hn : n ∈ [1, 2, 4, 8]) (hal : a % n = 0)
  (hle : a + n ≤ s.params.lmemSize)
include hr hn hal hle

theorem hostMemRead_ok :
    hostMemRead a n s = .next { s with
      reply := .value (BitVec.ofNat 64 (leNat (readMemNow s a n)))
      draws := s.draws + (if (List.range n).any (fun i => inWrittenRegion s (a + i)) then n else 0) } := by
  simp [hostMemRead, hr, badMemAccess_eq_false_iff.2 ⟨hn, hal, hle⟩]

/-- A read that meets no byte the running command writes answers with the stored bytes (log 17). -/
theorem hostMemRead_stable (hw : ∀ i, i < n → inWrittenRegion s (a + i) = false) :
    hostMemRead a n s = .next { s with reply := .value (BitVec.ofNat 64 (leNat (s.readBytes a n))) } := by
  have hbytes : readMemNow s a n = s.readBytes a n :=
    List.map_congr_left fun i hi => by rw [hw i (List.mem_range.1 hi)]; rfl
  have hany : (List.range n).any (fun i => inWrittenRegion s (a + i)) = false :=
    List.any_eq_false.2 fun i hi => by simp [hw i (List.mem_range.1 hi)]
  rw [hostMemRead_ok hr hn hal hle, hbytes, hany]
  rfl

theorem hostMemWrite_ok (v : DWord) (hc : ∀ i, i < n → inCommandRegion s (a + i) = false) :
    hostMemWrite a n v s = .next { s.memWrite a n v.toNat with reply := .written } := by
  have hany : (List.range n).any (fun i => inCommandRegion s (a + i)) = false :=
    List.any_eq_false.2 fun i hi => by simp [hc i (List.mem_range.1 hi)]
  rw [hostMemWrite, hr, badMemAccess_eq_false_iff.2 ⟨hn, hal, hle⟩, hany]
  rfl

end Access

/-- The number at most eight bytes stand for fits the bus's 64 bits. -/
theorem leNat_readBytes_toNat (s : State) (a : Nat) {n : Nat} (hn : n ∈ [1, 2, 4, 8]) :
    (BitVec.ofNat 64 (leNat (s.readBytes a n))).toNat = leNat (s.readBytes a n) := by
  have hlt := leNat_lt (s.readBytes a n)
  have hbits : 8 * n ≤ 64 := by
    simp only [List.mem_cons, List.not_mem_nil, or_false] at hn
    omega
  have hpow : 2 ^ (8 * n) ≤ 2 ^ 64 := Nat.pow_le_pow_right (by decide) hbits
  rw [State.readBytes_length] at hlt
  rw [BitVec.toNat_ofNat, Nat.mod_eq_of_lt (by omega)]

/-- Settles O24: the laws of LMEM at the two accesses. -/
theorem hostLmemWriteThenRead : Obligations.HostLmemWriteThenRead := by
  intro s a n v hr hn hal hle
  refine ⟨fun hc => ⟨{ s.memWrite a n v.toNat with reply := .written }, hostMemWrite_ok hr hn hal hle v hc, rfl,
    fun x hx => ?_, fun i hi => ?_, fun hw => ?_⟩, fun hw => ?_, ?_⟩
  · exact State.readByte_writeBytes_outside s a (leBytes n v.toNat) x (by simpa using hx)
  · have hi' : i < (leBytes n v.toNat).length := by simpa using hi
    have hread := State.readByte_writeBytes_inside s a (leBytes n v.toNat) i hi'
    exact (congrArg BitVec.toNat hread).trans (leBytes_getElem_toNat n _ i hi')
  · have hbytes := readBytes_writeBytes_same s a (leBytes n v.toNat)
    rw [leBytes_length] at hbytes
    rw [← leNat_leBytes, ← hbytes]
    exact hostMemRead_stable hr hn hal hle hw
  · refine ⟨_, hostMemRead_stable hr hn hal hle hw, ?_, fun i hi => ?_⟩
    · simpa [leNat_readBytes_toNat s a hn] using leNat_lt (s.readBytes a n)
    · rw [leNat_readBytes_toNat s a hn, leNat_byte _ i (by simpa using hi)]
      simp [State.readBytes]
  · exact ⟨_, _, hostMemRead_ok hr hn hal hle⟩

end Sys2Proof.Machine
end

section
/-! PROOFS. What every operation keeps: LMEM canonical and inside its size, and an open packer session inside its
checked region (20_memory R100, R110, 45_bitpack R273). -/

namespace Sys2Proof.Machine

/-! ### The invariant, for a fixed size of LMEM -/

/-- The bytes [a, a + len) lie below `n`, or there are none (20_memory R110). -/
abbrev SpanBelow (n a len : Nat) : Prop := len = 0 ∨ a + len ≤ n

/-- An open session of the packer lies below `n`, has written no byte past its capacity, and holds no bit above its
pending ones: `State.SessionInv` of the packer alone. -/
abbrev BitPacker.SessionBelow (n : Nat) (b : BitPacker) : Prop :=
  b.isOpen = true →
    b.bytes.toNat ≤ b.cap.toNat ∧ (b.cap = 0 ∨ b.base.toNat + b.cap.toNat ≤ n) ∧ b.acc.toNat < 2 ^ b.nacc.toNat

/-- `State.MemoryInv` and `State.SessionInv` with LMEM_SIZE named, which no command changes: the form in which every
operation keeps them. -/
structure State.Within (n : Nat) (s : State) : Prop where
  size : s.params.lmemSize = n
  canonical : s.lmem.wf
  below : ∀ c ∈ s.lmem, c.1 < n
  session : s.bp.SessionBelow n

theorem State.within_iff {n : Nat} {s : State} :
    s.Within n ↔ s.params.lmemSize = n ∧ s.MemoryInv ∧ s.SessionInv := by
  constructor
  · rintro ⟨rfl, hw, hb, hs⟩
    exact ⟨rfl, ⟨hw, hb⟩, hs⟩
  · rintro ⟨rfl, ⟨hw, hb⟩, hs⟩
    exact ⟨rfl, hw, hb, hs⟩

namespace State.Within

variable {n : Nat} {s t : State}

/-- The invariant is about LMEM, its size and BP only. -/
theorem of_eq (h : s.Within n) (hp : t.params = s.params) (hm : t.lmem = s.lmem) (hb : t.bp = s.bp) :
    t.Within n := by
  obtain ⟨hsize, hw, hbelow, hsession⟩ := h
  exact ⟨hp ▸ hsize, hm ▸ hw, hm ▸ hbelow, hb ▸ hsession⟩

/-- Where BP is closed the invariant is about LMEM and its size only. -/
theorem of_closed (h : s.Within n) (hp : t.params = s.params) (hm : t.lmem = s.lmem) (hb : t.bp.isOpen = false) :
    t.Within n := by
  obtain ⟨hsize, hw, hbelow, -⟩ := h
  exact ⟨hp ▸ hsize, hm ▸ hw, hm ▸ hbelow, fun ho => absurd (hb.symm.trans ho) nofun⟩

/-! ### Memory operations -/

theorem writeBytes (h : s.Within n) {a : Nat} {bs : List Byte} (hs : SpanBelow n a bs.length) :
    (s.writeBytes a bs).Within n where
  size := h.size
  canonical := State.writeBytes_wf a bs h.canonical
  below := LMem.store_below h.below (hs.imp_left List.length_eq_zero_iff.1)
  session := h.session

theorem memWrite (h : s.Within n) {a k v : Nat} (hs : SpanBelow n a k) : (s.memWrite a k v).Within n :=
  h.writeBytes (by rwa [leBytes_length])

theorem writeBlock (h : s.Within n) {a : Nat} {v : Vector F64 64} (hs : SpanBelow n a 512) :
    (s.writeBlock a v).Within n :=
  h.writeBytes (by rwa [blockBytes_length, Vector.length_toList])

theorem scramble (h : s.Within n) (a k : Nat) : (s.scramble a k).Within n where
  size := h.size
  canonical := State.scramble_wf a k h.canonical
  below := by
    obtain ⟨rfl, -, hbelow, -⟩ := h
    exact State.scramble_below a k hbelow
  session := h.session

theorem scrambleRegions (h : s.Within n) (rs : List Region) : (s.scrambleRegions rs).Within n :=
  State.scrambleRegions_induction (fun r _ _ _ hs => hs.scramble r.base r.size) h

/-! ### The two ends of a command -/

theorem complete (h : s.Within n) : s.complete.Within n := h.of_eq rfl rfl rfl

/-- A command that ends with register results (10_state R61). -/
theorem completes (h : s.Within n) {u : State} (results : s.WithResults u) : u.complete.Within n := by
  have hu : u.Within n := h.of_eq (by rw [results]) (by rw [results]) (by rw [results])
  exact hu.complete

theorem raise (h : s.Within n) (e : Err) : (s.raise e).Within n := h.of_eq rfl rfl rfl

theorem dataError (h : s.Within n) (rs : List Region) (e : Err) : (s.dataError rs e).Within n :=
  (h.scrambleRegions rs).raise e

theorem packerError (h : s.Within n) (rs : List Region) (e : Err) : (s.packerError rs e).Within n :=
  (h.scrambleRegions rs).of_closed rfl rfl rfl

theorem of_checked (h : s.Within n) {c : Option Err} {body : State → Host.Outcome State Fault Refusal}
    (ht : s.checked c body = .next t) (hb : c = none → body s = .next t → t.Within n) : t.Within n := by
  obtain ⟨e, -, rfl⟩ | ⟨hc, ht⟩ := State.checked_cases ht
  · exact h.raise e
  · exact hb hc ht

theorem of_checked_next (h : s.Within n) {c : Option Err} {f : State → State}
    (ht : s.checked c (fun s => .next (f s)) = .next t) (hf : c = none → (f s).Within n) : t.Within n :=
  h.of_checked ht fun hc ht => by cases ht; exact hf hc

end State.Within

/-! ### The packer (45_bitpack R270) -/

/-- The bit of a push comes in below the pending ones. -/
theorem pushed_acc_toNat_lt {acc : Byte} {k : Nat} (h : acc.toNat < 2 ^ k) (bit : Bool) :
    ((acc <<< 1) ||| (BitVec.ofBool bit).setWidth 8).toNat < 2 ^ (k + 1) := by
  have hbit : ((BitVec.ofBool bit).setWidth 8).toNat < 2 ^ (k + 1) := by
    cases bit <;> simp
  have hshift : (acc <<< 1).toNat < 2 ^ (k + 1) := by
    rw [BitVec.toNat_shiftLeft, Nat.shiftLeft_eq, Nat.pow_succ]
    omega
  rw [BitVec.toNat_or]
  exact Nat.or_lt_two_pow hshift hbit

/-- A push keeps every bit of the remainder below the pending ones (10_state R74). -/
theorem State.bpPush_acc_lt {s t : State} {bit : Bool} (h : s.bpPush bit = some t)
    (ha : s.bp.acc.toNat < 2 ^ s.bp.nacc.toNat) : t.bp.acc.toNat < 2 ^ t.bp.nacc.toNat := by
  unfold State.bpPush at h
  simp only at h
  split at h
  · split at h
    · cases h
    · cases h
      exact Nat.one_pos
  · rename_i h7
    cases h
    have hnacc : (s.bp.nacc + 1).toNat = s.bp.nacc.toNat + 1 := by bv_omega
    change _ < 2 ^ (s.bp.nacc + 1).toNat
    rw [hnacc]
    exact pushed_acc_toNat_lt ha bit

namespace State.Within

variable {n : Nat} {s t : State}

/-- A byte of an open session lies in the session's region (45_bitpack R273). -/
theorem session_byte (h : s.Within n) (ho : s.bp.isOpen = true) (hb : s.bp.bytes.toNat < s.bp.cap.toNat) :
    s.bp.base.toNat + s.bp.bytes.toNat + 1 ≤ n := by
  obtain ⟨-, hcap | hfit, -⟩ := h.session ho
  · rw [hcap] at hb
    exact absurd hb (Nat.not_lt_zero _)
  · omega

theorem bpStart (h : s.Within n) {base cap : Word} (hs : SpanBelow n base.toNat cap.toNat) (r : RegionId) :
    (s.bpStart base cap r).Within n where
  size := h.size
  canonical := h.canonical
  below := h.below
  session _ := ⟨Nat.zero_le _, hs.imp_left fun hz => BitVec.eq_of_toNat_eq hz, Nat.one_pos⟩

end State.Within

/-- With a session open: what a packer command keeps until it ends. -/
abbrev State.WithinOpen (n : Nat) (s : State) : Prop := s.Within n ∧ s.bp.isOpen = true

namespace State.WithinOpen

variable {n : Nat} {s t : State}

theorem bpStart (h : s.Within n) {base cap : Word} (hs : SpanBelow n base.toNat cap.toNat) (r : RegionId) :
    (s.bpStart base cap r).WithinOpen n := ⟨h.bpStart hs r, rfl⟩

theorem bpPush (h : s.WithinOpen n) {bit : Bool} (hp : s.bpPush bit = some t) : t.WithinOpen n := by
  obtain ⟨hs, ho⟩ := h
  have hframe := State.bpPush_frame hp
  have hopen : t.bp.isOpen = true := by rw [hframe]; exact ho
  have hcap : t.bp.cap = s.bp.cap := by rw [hframe]
  have hbase : t.bp.base = s.bp.base := by rw [hframe]
  have hsize : t.params.lmemSize = n := by rw [hframe]; exact hs.size
  obtain ⟨hbytes, hfit, hacc⟩ := hs.session ho
  have hacc' := State.bpPush_acc_lt hp hacc
  obtain ⟨-, hm, hb, -⟩ | ⟨-, hlt, hb, -, b, hm⟩ := State.bpPush_cases hp
  · refine ⟨⟨hsize, hm ▸ hs.canonical, hm ▸ hs.below, fun _ => ⟨?_, ?_, hacc'⟩⟩, hopen⟩
    · rwa [hb, hcap]
    · rwa [hbase, hcap]
  · have hw := hs.writeBytes (bs := [b]) (.inr (hs.session_byte ho hlt))
    refine ⟨⟨hsize, hm ▸ hw.canonical, hm ▸ hw.below, fun _ => ⟨?_, ?_, hacc'⟩⟩, hopen⟩
    · rw [hb, hcap]; bv_omega
    · rwa [hbase, hcap]

theorem bpAdd (h : s.WithinOpen n) (v : Word) (k : Nat) : (s.bpAdd v k).1.WithinOpen n :=
  State.bpPushAll_induction (P := State.WithinOpen n) (fun _ _ _ hs hp => hs.bpPush hp) _ h

theorem emitBytes (h : s.WithinOpen n) (tab : Vector CodeEntry 256) (i : Nat) (bs : List Byte) :
    (s.emitBytes tab i bs).1.WithinOpen n :=
  State.emitBytes_induction (P := State.WithinOpen n) (fun _ _ _ hs hp => hs.bpPush hp) tab bs i h

theorem bpEnd (h : s.WithinOpen n) (he : s.bpEnd = some t) : t.Within n := by
  obtain ⟨hs, ho⟩ := h
  obtain ⟨-, rfl⟩ | ⟨-, hlt, rfl⟩ := State.bpEnd_cases he
  · exact hs.of_closed rfl rfl rfl
  · exact (hs.writeBytes (bs := [s.bp.padded]) (.inr (hs.session_byte ho hlt))).of_closed rfl rfl rfl

end State.WithinOpen

namespace State.Within

variable {n : Nat} {s t : State}

theorem emitPhase (h : s.Within n) (tab : Vector CodeEntry 256) (bs : List Byte) {base cap : Word}
    (hs : SpanBelow n base.toNat cap.toNat) (r : RegionId) : (s.emitPhase tab bs base cap r).1.Within n := by
  have hphase : (s.enterPhase .hufEmit).Within n := h.of_eq rfl rfl rfl
  have hemit := (State.WithinOpen.bpStart hphase hs r).emitBytes tab 0 bs
  unfold State.emitPhase
  split <;> rename_i he <;> rw [he] at hemit
  · exact hemit.1
  · split
    · rename_i hend
      exact hemit.bpEnd hend
    · exact hemit.1

theorem hufBuildPhase (h : s.Within n) {f : Vector Word 256} (hb : s.hufBuildPhase f = .ok t) : t.Within n := by
  obtain ⟨tab, -, rfl⟩ := State.hufBuildPhase_ok hb
  exact h.of_eq rfl rfl rfl

theorem emitAndEnd (h : s.Within n) (hs : SpanBelow n s.op.dst.toNat s.op.cap.toNat) (tab : Vector CodeEntry 256) :
    (s.emitAndEnd tab).Within n := by
  have hp := h.emitPhase tab (inputBytes s) hs .dst
  unfold State.emitAndEnd
  split <;> rename_i he <;> rw [he] at hp
  · exact hp.completes rfl
  · exact hp.packerError _ _

/-! ### Block tasks (46_pipeline R300) -/

theorem runTask (h : s.Within n) {f : State → State} (hf : s.Within n → (f s).Within n) (k : Nat) :
    (s.runTask k f).Within n := by
  unfold State.runTask
  split
  · exact h
  · exact (hf h).of_eq rfl rfl rfl

theorem blockPhase (h : s.Within n) {nb : Nat} {task : Nat → State → State}
    (ht : ∀ k, k < nb → ∀ u : State, u.Within n → (task k u).Within n) : (s.blockPhase nb task).Within n :=
  State.blockPhase_induction (fun k u hk hu => ht k hk u hu) (fun _ _ hu => hu.of_eq rfl rfl rfl) h

theorem foldl {α : Type} {f : State → α → State} (hf : ∀ (u : State) (x : α), u.Within n → (f u x).Within n)
    (l : List α) (h : s.Within n) : (l.foldl f s).Within n := by
  induction l generalizing s with
  | nil => exact h
  | cons x rest ih => exact ih (hf s x h)

end State.Within

theorem quantBlock_length (f : Vector F64 64) (t : Vector Word 64) : (quantBlock f t).1.length = 64 := by
  simp [quantBlock]

theorem encBlock_length (v : Vector F64 64) (t : Vector Word 64) : (encBlock v t).1.length = 64 := by
  simp [encBlock]

section Bodies
variable {n : Nat} {s : State}

theorem quantBody_within (h : s.Within n) (hs : SpanBelow n s.op.dst.toNat 64) : (quantBody s).Within n :=
  (h.writeBytes (by rwa [quantBlock_length])).of_eq rfl rfl rfl

theorem blkEncBody_within (h : s.Within n) (hs : SpanBelow n s.op.dst.toNat 64) : (blkEncBody s).Within n :=
  (h.writeBytes (by rwa [encBlock_length])).of_eq rfl rfl rfl

/-- A forward task writes its three slices of the flat buffer (46_pipeline R292, R302). -/
theorem fwdTask_within (h : s.Within n) {a w flat nb t : Nat} (ht : t < nb) (hs : SpanBelow n flat (192 * nb)) :
    (fwdTask a w flat t s).Within n := by
  have channel (ch : Nat) (hch : ch < 3) (u : State) (hu : u.Within n) : (fwdChannel a w flat t ch u).Within n := by
    have hslice : SpanBelow n (flat + flatOff t ch) 64 := by unfold flatOff; omega
    exact (hu.writeBytes (by rwa [encBlock_length])).of_eq rfl rfl rfl
  exact channel 2 (by decide) _ (channel 1 (by decide) _ (channel 0 (by decide) s h))

/-- The samples of a block lie in the image: rows below `h`, columns below `w` (46_pipeline R290, R291). -/
theorem pixAddr_bounds (a : Nat) {w h t : Nat} (ht : t < blockCount w h) (y x : Fin 8) {ch : Nat} (hch : ch < 3) :
    a ≤ pixAddr a w (8 * (t / (w / 8)) + y.val) (8 * (t % (w / 8)) + x.val) ch ∧
      pixAddr a w (8 * (t / (w / 8)) + y.val) (8 * (t % (w / 8)) + x.val) ch + 8 ≤ a + 24 * w * h := by
  have hw : 0 < w / 8 := Nat.pos_of_ne_zero fun h0 => by simp [blockCount, h0] at ht
  have hrow : t / (w / 8) < h / 8 := Nat.div_lt_of_lt_mul ht
  have hcol : t % (w / 8) < w / 8 := Nat.mod_lt _ hw
  have hr : 8 * (t / (w / 8)) + y.val + 1 ≤ h := by omega
  have hc : 8 * (t % (w / 8)) + x.val + 1 ≤ w := by omega
  have hcell := Nat.mul_le_mul_right w hr
  rw [Nat.add_mul, Nat.one_mul, Nat.mul_comm h] at hcell
  rw [Nat.mul_assoc 24]
  unfold pixAddr
  omega

/-- An inverse task writes samples of the image at `a` (46_pipeline R303). -/
theorem invTask_within (hs : s.Within n) {flat a w h t : Nat} (ht : t < blockCount w h)
    (hspan : SpanBelow n a (24 * w * h)) : (invTask flat a w t s).Within n := by
  have channel (ch : Nat) (hch : ch < 3) (u : State) (hu : u.Within n) : (invChannel flat a w t ch u).Within n :=
    .foldl (fun u y hu => .foldl (fun u x hu => hu.memWrite (by
      have := pixAddr_bounds a ht y x hch
      omega)) _ hu) _ hu
  exact channel 2 (by decide) _ (channel 1 (by decide) _ (channel 0 (by decide) s hs))

end Bodies

/-! ### The regions that the checks of a command pass (20_memory R110) -/

theorem spanBelow_of_check {n : Nat} {g : Stage} {rs : List Region} (h : rs.findSome? (Region.check n g) = none)
    {r : Region} (hr : r ∈ rs) : SpanBelow n r.base r.size :=
  (Region.check_eq_none_iff.1 (List.findSome?_eq_none_iff.1 h r hr)).imp_right And.left

section Spans
variable {n : Nat} {s : State} (hs : s.Within n)
include hs

theorem State.Within.span {g : Stage} {rs : List Region} (h : s.regionCheck g rs = none) {r : Region} (hr : r ∈ rs) :
    SpanBelow n r.base r.size :=
  have hranges : rs.findSome? (Region.check s.params.lmemSize g) = none := firstError_eq_none.1 h _ (by simp)
  spanBelow_of_check (hs.size ▸ hranges) hr

theorem quantCheck_span (h : quantCheck s = none) : SpanBelow n s.op.dst.toNat 64 :=
  have hc : s.regionCheck .transform (quantRegions s) = none := firstError_eq_none.1 h _ (by simp)
  hs.span (r := s.dstRegion 64 1) hc (by simp [quantRegions])

theorem dequantCheck_span (h : dequantCheck s = none) : SpanBelow n s.op.dst.toNat 512 :=
  have hc : s.regionCheck .transform (dequantRegions s) = none := firstError_eq_none.1 h _ (by simp)
  hs.span (r := s.dstRegion 512 8) hc (by simp [dequantRegions])

theorem emitRegions_span {g : Stage} (h : s.regionCheck g (emitRegions s) = none) :
    SpanBelow n s.op.dst.toNat s.op.cap.toNat :=
  hs.span (r := s.dstRegion s.op.cap.toNat 1) h (by simp [emitRegions])

theorem pipeFwdCheck_span (h : pipeFwdCheck s = none) :
    SpanBelow n s.op.dst.toNat (192 * blockCount s.imgW s.imgH) :=
  have hc : s.regionCheck .pipe (pipeFwdRegions s) = none := firstError_eq_none.1 h _ (by simp)
  hs.span (r := s.dstRegion (flatSize s.imgW s.imgH) 1) hc (by simp [pipeFwdRegions])

theorem pipeInvCheck_span (h : pipeInvCheck s = none) : SpanBelow n s.op.dst.toNat (24 * s.imgW * s.imgH) :=
  have hc : s.regionCheck .pipe (pipeInvRegions s) = none := firstError_eq_none.1 h _ (by simp)
  hs.span (r := s.dstRegion (24 * s.imgW * s.imgH) 8) hc (by simp [pipeInvRegions])

theorem compressCheck_spans (h : compressCheck s = none) :
    SpanBelow n s.op.tmp0.toNat (192 * blockCount s.imgW s.imgH) ∧
      SpanBelow n s.op.tmp1.toNat s.op.tcap.toNat ∧ SpanBelow n s.op.dst.toNat s.op.cap.toNat :=
  have hc : s.regionCheck .seq (compressRegions s) = none := firstError_eq_none.1 h _ (by simp)
  ⟨hs.span (r := s.tmp0Region (flatSize s.imgW s.imgH)) hc (by simp [compressRegions]),
    hs.span (r := s.tmp1Region s.op.tcap.toNat) hc (by simp [compressRegions]),
    hs.span (r := s.dstRegion s.op.cap.toNat 1) hc (by simp [compressRegions])⟩

/-- A container that DECOMPRESS accepts has its flat buffer and its image in LMEM (46_pipeline R306 step 5). -/
theorem decompressParse_spans {p : Parsed} (h : decompressParse s = .ok p) :
    SpanBelow n s.op.tmp0.toNat (192 * blockCount p.width.toNat p.height.toNat) ∧
      SpanBelow n s.op.dst.toNat (24 * p.width.toNat * p.height.toNat) := by
  have hout : (decompressOutRegions s p).findSome? (Region.check n .seq) = none := by
    unfold decompressParse at h
    split at h
    · cases h
    · split at h <;> cases h
      rename_i hc
      rw [← hs.size]
      exact firstError_eq_none.1 hc _ (by simp)
  exact ⟨spanBelow_of_check (r := s.tmp0Region (flatSize p.width.toNat p.height.toNat)) hout
      (by simp [decompressOutRegions]),
    spanBelow_of_check (r := s.dstRegion (24 * p.width.toNat * p.height.toNat) 8) hout
      (by simp [decompressOutRegions])⟩

end Spans

/-! ### The container (47_container R320, R323) -/

/-- Head and payload of a container take its size (47_container R320). -/
theorem containerHead_length_add (w h q : Word) (t : Vector CodeEntry 256) (nbits : DWord) (plen : Nat) :
    (containerHead w h q t nbits plen).length + plen = containerSize t plen := by
  have hentry : ∀ b, (entryBytes t b).length = 9 := fun b => by simp [entryBytes]
  simp only [containerHead, containerSize, List.length_append, leBytes_length, List.length_flatMap, hentry,
    List.map_const', List.sum_replicate, smul_eq_mul]
  omega

theorem State.Within.serialize {n : Nat} {s : State} (hs : s.Within n) {a cap : Nat} {t : Vector CodeEntry 256}
    (hspan : SpanBelow n a cap) {payload : List Byte} (hfit : containerSize t payload.length ≤ cap) (w h q : Word)
    (nbits : DWord) : (s.serialize a w h q t nbits payload).Within n := by
  refine hs.writeBytes ?_
  have hlen := containerHead_length_add w h q t nbits payload.length
  rw [List.length_append, hlen]
  unfold containerSize at *
  omega

/-! ### COMPRESS and DECOMPRESS -/

theorem State.Touches.op {i : Instr} {s u : State} (h : s.Touches i u) : u.op = s.op := by rw [h.frame]

section Pipelines
variable {n : Nat} {s t : State}

theorem compressPack_within (h : s.Within n) (hs : SpanBelow n s.op.dst.toNat s.op.cap.toNat) :
    (compressPack s).Within n := by
  have hphase : (s.enterPhase .cntPack).Within n := h.of_eq rfl rfl rfl
  unfold compressPack
  simp only
  split
  · exact hphase.packerError _ _
  · rename_i hfit
    have hlen : containerSize s.phaseTab (s.readBytes s.op.tmp1.toNat s.bp.bytes.toNat).length ≤ s.op.cap.toNat := by
      rw [State.readBytes_length]
      exact Nat.le_of_not_lt hfit
    exact (hphase.serialize hs hlen _ _ _ _).completes rfl

theorem compressEncode_within (h : s.Within n) (htmp1 : SpanBelow n s.op.tmp1.toNat s.op.tcap.toNat)
    (hdst : SpanBelow n s.op.dst.toNat s.op.cap.toNat) : (compressEncode s).Within n := by
  unfold compressEncode
  simp only
  split
  · exact h.packerError _ _
  · rename_i s1 hb
    have h1 : s1.Within n := (h.of_eq rfl rfl rfl : (s.hufFreqPhase _).Within n).hufBuildPhase hb
    have hop1 : s1.op = s.op := (((State.Touches.refl .compress s).hufFreqPhase _).hufBuildPhase hb).op
    have h2 := h1.emitPhase s1.phaseTab (s.readBytes s.op.tmp0.toNat (flatSize s.imgW s.imgH)) htmp1 .tmp1
    have hop2 := ((State.Touches.refl .compress s1).emitPhase s1.phaseTab
      (s.readBytes s.op.tmp0.toNat (flatSize s.imgW s.imgH)) s.op.tmp1 s.op.tcap .tmp1).op
    split <;> rename_i he <;> rw [he] at h2 hop2
    · exact h2.packerError _ _
    · refine compressPack_within h2 ?_
      rwa [hop2, hop1]

theorem decompressDecode_within (h : s.Within n) {p : Parsed}
    (hs : SpanBelow n s.op.tmp0.toNat (flatSize p.width.toNat p.height.toNat)) (hd : decompressDecode s p = .ok t) :
    t.Within n := by
  unfold decompressDecode at hd
  split at hd
  · cases hd
  · rename_i flat hf
    cases hd
    have hw := h.writeBytes (bs := flat) (a := s.op.tmp0.toNat) (by rwa [State.decodePayload_length hf])
    exact hw.of_eq rfl rfl rfl

end Pipelines

end Sys2Proof.Machine
end

section
/-! PROOFS. Every command, and so every step, keeps LMEM canonical and inside its size and an open session in its
region (20_memory R100, 45_bitpack R273). -/

namespace Sys2Proof.Machine

/-! ### Every command -/

section Commands
variable {n : Nat} {s t : State}

theorem execBpAdd_within {k : Nat} (hs : s.Within n) (h : execBpAdd k s = .next t) : t.Within n := by
  refine hs.of_checked h fun hc h => ?_
  have hopen := failIf_eq_none.1 (firstError_eq_none.1 hc (s.bpOpenCheck .bitpack) (by simp))
  have hadd := State.WithinOpen.bpAdd ⟨hs, by simpa using hopen⟩ s.op.bpdata k
  split at h <;> rename_i he <;> rw [he] at hadd <;> cases h
  · exact hadd.1.complete
  · exact hadd.1.packerError _ _

theorem execBpFinish_within (hs : s.Within n) (h : execBpFinish s = .next t) : t.Within n := by
  refine hs.of_checked h fun hc h => ?_
  have hopen : s.bp.isOpen = true := by simpa using failIf_eq_none.1 hc
  split at h <;> cases h
  · rename_i he
    exact (State.WithinOpen.bpEnd ⟨hs, hopen⟩ he).of_eq rfl rfl rfl
  · exact hs.packerError _ _

theorem execHufBuild_within (hs : s.Within n) (h : execHufBuild s = .next t) : t.Within n := by
  unfold execHufBuild at h
  split at h <;> cases h
  · exact hs.dataError _ _
  · rename_i hb
    exact (hs.hufBuildPhase hb).complete

theorem execHufEncode_within (hs : s.Within n) (h : execHufEncode s = .next t) : t.Within n := by
  refine hs.of_checked h fun hc h => ?_
  have hregions : s.regionCheck .seq (emitRegions s) = none := firstError_eq_none.1 hc _ (by simp)
  have hspan := emitRegions_span hs hregions
  split at h <;> cases h
  · exact hs.packerError _ _
  · rename_i s1 hb
    have h1 : s1.Within n := (hs.of_eq rfl rfl rfl : (s.hufFreqPhase _).Within n).hufBuildPhase hb
    have hop : s1.op = s.op := (((State.Touches.refl .hufEncode s).hufFreqPhase _).hufBuildPhase hb).op
    exact h1.emitAndEnd (by rwa [hop]) _

theorem execHufDecode_within (hs : s.Within n) (h : execHufDecode s = .next t) : t.Within n := by
  refine hs.of_checked h fun hc h => ?_
  have hspan := hs.span (r := s.dstRegion s.op.len.toNat 1) hc (by simp [hufDecodeRegions])
  split at h <;> cases h
  · exact hs.dataError _ _
  · rename_i out hout
    have hw := hs.writeBytes (bs := out) (a := s.op.dst.toNat) (by rwa [State.decodePayload_length hout])
    exact hw.completes rfl

theorem execCntPack_within (hs : s.Within n) (h : execCntPack s = .next t) : t.Within n := by
  refine hs.of_checked_next h fun hc => ?_
  have hcheck := firstError_eq_none.1 hc
  have hspan := hs.span (r := s.dstRegion s.op.cap.toNat 1) (hcheck (s.regionCheck .cntPack (packRegions s)) (by simp))
    (by simp [packRegions])
  have hfit := failIf_eq_none.1 (hcheck (failIf (s.op.cap.toNat < containerSize s.tab s.op.len.toNat) packOverflow)
    (by simp))
  have hlen : containerSize s.tab (s.readBytes s.op.src.toNat s.op.len.toNat).length ≤ s.op.cap.toNat := by
    rw [State.readBytes_length]
    exact Nat.le_of_not_lt hfit
  exact (hs.serialize hspan hlen _ _ _ _).completes rfl

theorem execCntUnpack_within (hs : s.Within n) (h : execCntUnpack s = .next t) : t.Within n := by
  refine hs.of_checked h fun _ h => ?_
  split at h <;> cases h
  · exact hs.dataError _ _
  · rename_i p _
    have htab : (s.setWorkTab p.tab).Within n := hs.of_eq rfl rfl rfl
    exact htab.completes rfl

theorem execCompress_within (hs : s.Within n) (h : execCompress s = .next t) : t.Within n := by
  refine hs.of_checked_next h fun hc => ?_
  obtain ⟨htmp0, htmp1, hdst⟩ := compressCheck_spans hs hc
  have henter : (compressEnter s).Within n := hs.of_eq rfl rfl rfl
  have hop := ((compressEnter_touches hc).blockPhase
    (fun k v => fwdTask_touches (by simp) s.op.src.toNat s.imgW s.op.tmp0.toNat k v) (blockCount s.imgW s.imgH)).op
  refine compressEncode_within (henter.blockPhase fun k hk u hu => fwdTask_within hu hk htmp0) ?_ ?_ <;> rwa [hop]

theorem execDecompress_within (hs : s.Within n) (h : execDecompress s = .next t) : t.Within n := by
  unfold execDecompress at h
  split at h
  · cases h
    exact hs.dataError _ _
  · rename_i p hp
    obtain ⟨htmp0, hdst⟩ := decompressParse_spans hs hp
    split at h <;> cases h
    · exact hs.dataError _ _
    · rename_i s1 hd
      have h1 := (decompressDecode_within hs htmp0 hd).blockPhase
        fun k hk u hu => (invTask_within hu hk hdst : (decompressTask s p k u).Within n)
      exact h1.completes rfl

/-- Every command keeps LMEM canonical and inside its size, and an open session in its region. -/
theorem exec_within {i : Instr} (hs : s.Within n) (h : exec i s = .next t) : t.Within n := by
  unfold exec at h
  cases i with
  | nop => cases h; exact hs.complete
  | qtabBuild => exact hs.of_checked_next h fun _ => hs.of_eq rfl rfl rfl
  | fdct | idct =>
    exact hs.of_checked_next h fun hc =>
      (hs.writeBlock (hs.span (r := s.dstRegion 512 8) hc (by simp [transformRegions]))).completes rfl
  | zzscan | zzunscan =>
    exact hs.of_checked_next h fun hc =>
      (hs.writeBytes (by
        rw [Vector.length_toList]
        exact hs.span (r := s.dstRegion 64 1) hc (by simp [zigzagRegions]))).completes rfl
  | quant =>
    exact hs.of_checked_next h fun hc => (hs.runTask (quantBody_within · (quantCheck_span hs hc)) 0).completes rfl
  | blkEnc =>
    exact hs.of_checked_next h fun hc => (hs.runTask (blkEncBody_within · (quantCheck_span hs hc)) 0).completes rfl
  | dequant | blkDec =>
    exact hs.of_checked_next h fun hc => (hs.writeBlock (dequantCheck_span hs hc)).completes rfl
  | hufFreq => exact hs.of_checked_next h fun _ => hs.of_eq rfl rfl rfl
  | hufBuild => exact execHufBuild_within hs h
  | hufEmit =>
    exact hs.of_checked_next h fun hc =>
      have hregions : s.regionCheck .hufEmit (emitRegions s) = none := firstError_eq_none.1 hc _ (by simp)
      hs.emitAndEnd (emitRegions_span hs hregions) _
  | hufEncode => exact execHufEncode_within hs h
  | hufDecode => exact execHufDecode_within hs h
  | bpInit =>
    exact hs.of_checked_next h fun hc =>
      (hs.bpStart (hs.span (r := { s.dstRegion s.op.cap.toNat 1 with written := false }) hc
        (by simp [bpInitRegions])) .dst).complete
  | bpAdd k => exact execBpAdd_within hs h
  | bpFinish => exact execBpFinish_within hs h
  | pipeFwd =>
    exact hs.of_checked_next h fun hc =>
      (hs.blockPhase fun k hk u hu => fwdTask_within hu hk (pipeFwdCheck_span hs hc)).completes rfl
  | pipeInv =>
    exact hs.of_checked_next h fun hc =>
      (hs.blockPhase fun k hk u hu => invTask_within hu hk (pipeInvCheck_span hs hc)).completes rfl
  | compress => exact execCompress_within hs h
  | decompress => exact execDecompress_within hs h
  | cntPack => exact execCntPack_within hs h
  | cntUnpack => exact execCntUnpack_within hs h

/-! ### Every step -/

/-- A task that a worker runs early writes in the regions that the command's checks passed. -/
theorem earlyTask_within {k : Nat} (hs : s.Within n) (h : earlyTask s k = some t) : t.Within n := by
  unfold earlyTask at h
  split at h
  case h_1 =>
    obtain ⟨⟨hc, hk⟩, ⟨⟩⟩ := Option.ite_none_right_eq_some.1 h
    exact hs.runTask (fwdTask_within · hk (pipeFwdCheck_span hs hc)) k
  case h_2 =>
    obtain ⟨⟨hc, hk⟩, ⟨⟩⟩ := Option.ite_none_right_eq_some.1 h
    exact hs.runTask (invTask_within · hk (pipeInvCheck_span hs hc)) k
  case h_3 =>
    obtain ⟨⟨hc, hk⟩, ⟨⟩⟩ := Option.ite_none_right_eq_some.1 h
    obtain ⟨htmp0, -⟩ := compressCheck_spans hs hc
    have henter : (compressEnter s).Within n := hs.of_eq rfl rfl rfl
    exact henter.runTask (fwdTask_within · hk htmp0) k
  case h_4 =>
    split at h
    · cases h
    · rename_i p hp
      obtain ⟨htmp0, hdst⟩ := decompressParse_spans hs hp
      obtain ⟨hk, h⟩ := Option.ite_none_right_eq_some.1 h
      split at h <;> cases h
      rename_i s1 hd
      exact (decompressDecode_within hs htmp0 hd).runTask (invTask_within · hk hdst) k
  all_goals cases h

theorem workerTurn_within (hs : s.Within n) (w k : Nat) : (workerTurn w k s).Within n := by
  obtain h | ⟨-, -, h⟩ := workerTurn_cases w k s
  · rw [h]; exact hs
  · exact earlyTask_within hs h

theorem blockTurn_within (hs : s.Within n) : (blockTurn s).Within n := by
  obtain h | ⟨-, -, hc, ⟨-, h⟩ | ⟨-, h⟩⟩ := blockTurn_cases s <;> rw [h]
  · exact hs
  · exact hs.runTask (quantBody_within · (quantCheck_span hs hc)) 0
  · exact hs.runTask (blkEncBody_within · (quantCheck_span hs hc)) 0

/-- A host write to a register changes neither LMEM nor BP (10_state R75, 40_control R171). -/
theorem writeReg_within (hs : s.Within n) (o : Nat) (v : Word) : (writeReg s o v).Within n := by
  obtain h | h | h | h := writeReg_cases s o v <;> rw [h]
  · exact hs.of_eq rfl rfl rfl
  · exact hs.of_eq rfl rfl rfl
  · obtain ⟨-, h⟩ | ⟨-, h⟩ | ⟨-, i, -, h⟩ := s.issue_cases v <;> rw [h] <;> exact hs.of_eq rfl rfl rfl
  · exact hs.of_eq rfl rfl rfl

theorem State.Within.resetAll (hs : s.Within n) (b : Bool) : (s.resetAll b).Within n := hs.of_closed rfl rfl rfl

theorem keptBySteps_within (n : Nat) : KeptBySteps (State.Within n) where
  inbox _ _ hs := hs.of_eq rfl rfl rfl
  reply _ _ _ hs := hs.of_eq rfl rfl rfl
  exec _ _ hs _ _ h := exec_within hs h
  worker _ w k hs := workerTurn_within hs w k
  block _ hs := blockTurn_within hs
  writeReg _ o v hs _ := writeReg_within hs o v
  memWrite s a k v hs _ hbad := by
    obtain ⟨-, -, hle⟩ := badMemAccess_eq_false_iff.1 hbad
    exact hs.memWrite (.inr (hs.size ▸ hle))
  assertRst s hs := by
    refine State.Within.resetAll ?_ true
    split
    · exact hs.scrambleRegions _
    · exact hs
  releaseRst s hs := by
    unfold releaseRst
    split
    · exact hs.resetAll false
    · exact hs
  powerUp s hs := ⟨hs.size, List.Pairwise.nil, nofun, nofun⟩

end Commands

/-- Settles O57, step by step, with LMEM_SIZE named. -/
theorem memoryInvariantKept : Obligations.MemoryInvariantKept := by
  intro s t hmem hsession h
  have hs : s.Within s.params.lmemSize := State.within_iff.2 ⟨rfl, hmem, hsession⟩
  exact (State.within_iff.1 ((keptBySteps_within _).step hs h)).2

end Sys2Proof.Machine
end

section
/-! PROOFS. The command word (30_encoding R141 to R146): a legal word and its command determine each other, and which
words are no command. -/

namespace Sys2Proof

/-! ### The fields of a word (R141, R142) -/

/-- ARG and RSV of format C are N and the reserved bits of format CN. -/
theorem reservedCN_append_nField (w : Word) : reservedCN w ++ nField w = reservedC w :=
  BitVec.extractLsb'_append_extractLsb'_eq_extractLsb' rfl

theorem reservedC_append_opcField (w : Word) : reservedC w ++ opcField w = w :=
  BitVec.extractLsb'_append_extractLsb'

theorem reservedC_eq_zero_iff (w : Word) : reservedC w = 0 ↔ nField w = 0 ∧ reservedCN w = 0 := by
  rw [← reservedCN_append_nField]
  constructor
  · intro h
    exact ⟨BitVec.extractLsb'_append_eq_right.symm.trans (congrArg (·.extractLsb' 0 6) h),
      BitVec.extractLsb'_append_eq_left.symm.trans (congrArg (·.extractLsb' 6 18) h)⟩
  · rintro ⟨hn, hrsv⟩
    rw [hn, hrsv]
    rfl

theorem opcField_toNat (w : Word) : (opcField w).toNat = w.toNat % 256 := by simp [opcField]

/-- The bits of a word from `lo` up are 0 exactly when its number is below `2 ^ lo`. -/
theorem extractLsb'_eq_zero_iff_toNat_lt {lo hi n : Nat} (x : BitVec n) (hn : n = lo + hi) :
    x.extractLsb' lo hi = 0 ↔ x.toNat < 2 ^ lo := by
  subst hn
  have hx : x.toNat / 2 ^ lo < 2 ^ hi := Nat.div_lt_of_lt_mul (Nat.pow_add 2 lo hi ▸ x.isLt)
  rw [← BitVec.toNat_inj, BitVec.extractLsb'_toNat, Nat.shiftRight_eq_div_pow, Nat.mod_eq_of_lt hx]
  simp

theorem reservedC_eq_zero_iff_lt (w : Word) : reservedC w = 0 ↔ w.toNat < 2 ^ 8 :=
  extractLsb'_eq_zero_iff_toNat_lt w rfl

theorem reservedCN_eq_zero_iff_lt (w : Word) : reservedCN w = 0 ↔ w.toNat < 2 ^ 14 :=
  extractLsb'_eq_zero_iff_toNat_lt w rfl

@[simp] theorem opcField_encode (i : Instr) : opcField (encode i) = opcode i :=
  BitVec.extractLsb'_append_eq_right

@[simp] theorem nField_encode (i : Instr) : nField (encode i) = argField i :=
  (BitVec.extractLsb'_append_eq_of_le (by decide)).trans BitVec.extractLsb'_append_eq_right

@[simp] theorem reservedCN_encode (i : Instr) : reservedCN (encode i) = 0 :=
  (BitVec.extractLsb'_append_eq_of_le (by decide)).trans BitVec.extractLsb'_append_eq_left

/-- A word is a command's word exactly when its fields are the command's and the reserved bits are 0. -/
theorem encode_eq_iff {i : Instr} {w : Word} :
    encode i = w ↔ opcField w = opcode i ∧ nField w = argField i ∧ reservedCN w = 0 := by
  constructor
  · rintro rfl
    simp
  · rintro ⟨hopc, hn, hrsv⟩
    have hw : (reservedCN w ++ nField w) ++ opcField w = w := by
      rw [reservedCN_append_nField, reservedC_append_opcField]
    rwa [hopc, hn, hrsv] at hw

/-! ### The opcode map (R145) -/

/-- BP_ADD alone has opcode 0x31; the rest is of format C, with an ARG of 0. -/
theorem eq_bpAdd_or_formatC (i : Instr) :
    (∃ n, i = .bpAdd n) ∨
      (opcode i ≠ 0x31#8 ∧ argField i = 0 ∧ i.WellFormed ∧ formatC (opcode i) = some i) := by
  cases i with
  | bpAdd n => exact .inl ⟨n, rfl⟩
  | _ => exact .inr ⟨by decide, rfl, rfl, rfl⟩

/-- The map of format C reads no opcode but the command's own, and never gives BP_ADD. -/
theorem opcode_of_formatC {o : Byte} {i : Instr} (h : formatC o = some i) : opcode i = o ∧ ∀ n, i ≠ .bpAdd n := by
  unfold formatC at h
  split at h <;> cases h
  all_goals
    rename_i ho
    exact ⟨BitVec.eq_of_toNat_eq ho.symm, nofun⟩

theorem not_mem_opcodes_iff (o : Byte) :
    o.toNat ∉
        [0x00, 0x01, 0x10, 0x11, 0x12, 0x13, 0x14, 0x15, 0x20, 0x21, 0x22, 0x23, 0x24, 0x30, 0x31, 0x32, 0x40,
          0x41, 0x42, 0x43, 0x44, 0x45, 0x50, 0x51] ↔
      o ≠ 0x31#8 ∧ formatC o = none := by
  rw [Ne, ← BitVec.toNat_inj]
  unfold formatC
  split <;> simp_all

/-! ### Decoding (R144) -/

theorem decode_bpAdd {w : Word} (h : opcField w = 0x31#8) :
    decode w = if reservedCN w = 0 then .ok (.bpAdd (nField w).toNat) else .error (.reservedBits (opcField w)) :=
  if_pos h

theorem decode_unassigned {w : Word} (h : opcField w ≠ 0x31#8) (hopc : formatC (opcField w) = none) :
    decode w = .error (.unassignedOpcode (opcField w)) := by
  unfold decode
  rw [if_neg h, hopc]

theorem decode_formatC {w : Word} {i : Instr} (h : opcField w ≠ 0x31#8) (hopc : formatC (opcField w) = some i) :
    decode w = if reservedC w = 0 then .ok i else .error (.reservedBits (opcField w)) := by
  unfold decode
  rw [if_neg h, hopc]

theorem decode_encode {i : Instr} (h : i.WellFormed) : decode (encode i) = .ok i := by
  obtain ⟨n, rfl⟩ | ⟨hopc, harg, -, hmap⟩ := eq_bpAdd_or_formatC i
  · have hn : n < 64 := of_decide_eq_true h
    rw [decode_bpAdd (opcField_encode _), if_pos (reservedCN_encode _), nField_encode]
    simp [argField, hn]
  · rw [← opcField_encode] at hopc hmap
    rw [decode_formatC hopc hmap, if_pos]
    rw [reservedC_eq_zero_iff, nField_encode, harg]
    exact ⟨rfl, reservedCN_encode i⟩

theorem encode_of_decode {w : Word} {i : Instr} (h : decode w = .ok i) : i.WellFormed ∧ encode i = w := by
  by_cases hopc : opcField w = 0x31#8
  · rw [decode_bpAdd hopc] at h
    split at h <;> cases h
    rename_i hrsv
    exact ⟨decide_eq_true (nField w).isLt, encode_eq_iff.2 ⟨hopc, by simp [argField], hrsv⟩⟩
  · cases hmap : formatC (opcField w) with
    | none => rw [decode_unassigned hopc hmap] at h; cases h
    | some j =>
      rw [decode_formatC hopc hmap] at h
      split at h <;> cases h
      rename_i hrsv
      obtain ⟨hj, hne⟩ := opcode_of_formatC hmap
      obtain ⟨n, hn⟩ | ⟨-, harg, hwf, -⟩ := eq_bpAdd_or_formatC i
      · exact absurd hn (hne n)
      · rw [reservedC_eq_zero_iff, ← harg] at hrsv
        exact ⟨hwf, encode_eq_iff.2 ⟨hj.symm, hrsv⟩⟩

/-- A word is rejected for its opcode, or for a reserved bit of the opcode's format. -/
theorem decode_eq_error_iff (w : Word) :
    (∃ e, decode w = .error e) ↔
      (opcField w ≠ 0x31#8 ∧ formatC (opcField w) = none) ∨
        (opcField w = 0x31#8 ∧ reservedCN w ≠ 0) ∨ (opcField w ≠ 0x31#8 ∧ reservedC w ≠ 0) := by
  by_cases hopc : opcField w = 0x31#8
  · rw [decode_bpAdd hopc]
    split <;> simp_all
  · cases hmap : formatC (opcField w) with
    | none => simp [decode_unassigned hopc hmap, hopc]
    | some j =>
      rw [decode_formatC hopc hmap]
      split <;> simp_all

/-! ### The obligations -/

/-- Settles O1. -/
theorem encodeThenDecode : Obligations.EncodeThenDecode := fun _ => decode_encode

/-- Settles O2. -/
theorem decodeThenEncode : Obligations.DecodeThenEncode := fun _ _ => encode_of_decode

/-- Settles O3: the fields of a rejected word, by the word's number. -/
theorem illegalWordsRejected : Obligations.IllegalWordsRejected := by
  intro w
  have hopc : opcField w = 0x31#8 ↔ w.toNat % 256 = 0x31 := by rw [← opcField_toNat, ← BitVec.toNat_inj]; rfl
  rw [decode_eq_error_iff, ← not_mem_opcodes_iff, opcField_toNat, Ne, Ne, Ne, hopc, reservedCN_eq_zero_iff_lt,
    reservedC_eq_zero_iff_lt, Nat.not_lt, Nat.not_lt]

/-- Settles O4, by decoding each word. -/
theorem writtenOutWordsDecode : Obligations.WrittenOutWordsDecode := by
  unfold Obligations.WrittenOutWordsDecode
  decide

end Sys2Proof
end

section
/-! PROOFS. Binary64 NaN (41_dct R190): what an operation rounds or packs is no NaN, and a NaN operand decides the
result. -/

namespace Sys2Proof.Machine

/-! ### Patterns that are a NaN -/

/-- The NaN patterns: exponent field 2047 and a fraction other than 0 (R190 Format). -/
theorem f64Class_eq_nan_iff (x : F64) :
    f64Class x = .nan ↔ x.toNat / 2 ^ 52 % 2048 = 2047 ∧ x.toNat % 2 ^ 52 ≠ 0 := by
  unfold f64Class
  simp only
  split
  · rename_i he
    split <;> rename_i hf
    · exact iff_of_false nofun fun h => h.2 hf
    · exact iff_of_true rfl ⟨he, hf⟩
  · rename_i he
    split <;> exact iff_of_false nofun fun h => he h.1

/-- Inverting the sign leaves the exponent field and the fraction. -/
theorem f64Class_f64Neg_nan {a : F64} (h : f64Class a = .nan) : f64Class (f64Neg a) = .nan := by
  have hexp : (f64Neg a).toNat / 2 ^ 52 % 2048 = a.toNat / 2 ^ 52 % 2048 := by
    rw [f64Neg, BitVec.toNat_xor, Nat.xor_div_two_pow, show 2048 = 2 ^ 11 from rfl, Nat.xor_mod_two_pow]
    exact Nat.xor_zero _
  have hfrac : (f64Neg a).toNat % 2 ^ 52 = a.toNat % 2 ^ 52 := by
    rw [f64Neg, BitVec.toNat_xor, Nat.xor_mod_two_pow]
    exact Nat.xor_zero _
  rw [f64Class_eq_nan_iff] at h ⊢
  rwa [hexp, hfrac]

/-- A packed pattern holds its magnitude bits below the sign. -/
theorem f64Pack_toNat_mod (neg : Bool) {bits : Nat} (h : bits < 2 ^ 63) : (f64Pack neg bits).toNat % 2 ^ 63 = bits := by
  rw [f64Pack, BitVec.toNat_ofNat, Nat.mod_mod_of_dvd _ (Nat.pow_dvd_pow 2 (by decide : 63 ≤ 64))]
  cases neg with
  | false => exact (congrArg (· % 2 ^ 63) (Nat.zero_add bits)).trans (Nat.mod_eq_of_lt h)
  | true => exact (Nat.add_mod_left _ bits).trans (Nat.mod_eq_of_lt h)

/-- Magnitude bits up to those of infinity are no NaN, whatever the sign: with exponent field 2047 they are infinity's,
whose fraction is 0. -/
theorem f64Class_f64Pack_ne_nan (neg : Bool) {bits : Nat} (h : bits ≤ f64InfBits) :
    f64Class (f64Pack neg bits) ≠ .nan := by
  have hmod := f64Pack_toNat_mod neg (h.trans_lt (by decide))
  rw [Ne, f64Class_eq_nan_iff]
  rintro ⟨hexp, hfrac⟩
  rw [← Nat.mod_mul_right_div_self, show 2 ^ 52 * 2048 = 2 ^ 63 from rfl, hmod] at hexp
  rw [← Nat.mod_mod_of_dvd _ (Nat.pow_dvd_pow 2 (by decide : 52 ≤ 63)), hmod] at hfrac
  have hge : f64InfBits ≤ bits := by
    rw [f64InfBits, ← hexp]
    exact Nat.div_mul_le_self bits (2 ^ 52)
  have hinf : bits = f64InfBits := le_antisymm h hge
  exact hfrac (hinf ▸ Nat.mul_mod_left 2047 (2 ^ 52))

theorem f64RoundBits_le (num den : Nat) : f64RoundBits num den ≤ f64InfBits := Nat.min_le_right _ _

/-! ### No NaN but the canonical one -/

/-- A pattern that is a NaN only as the canonical quiet NaN (R190 NaN). -/
def CanonicalIfNan (x : F64) : Prop := f64Class x = .nan → x = f64NaN

theorem canonicalIfNan_f64NaN : CanonicalIfNan f64NaN := fun _ => rfl

theorem canonicalIfNan_f64Pack (neg : Bool) {bits : Nat} (h : bits ≤ f64InfBits) :
    CanonicalIfNan (f64Pack neg bits) := fun hn => absurd hn (f64Class_f64Pack_ne_nan neg h)

theorem canonicalIfNan_inf (neg : Bool) : CanonicalIfNan (f64Pack neg f64InfBits) :=
  canonicalIfNan_f64Pack neg le_rfl

theorem canonicalIfNan_zero (neg : Bool) : CanonicalIfNan (f64Pack neg 0) :=
  canonicalIfNan_f64Pack neg (Nat.zero_le _)

theorem canonicalIfNan_round (neg : Bool) (num den : Nat) : CanonicalIfNan (f64Pack neg (f64RoundBits num den)) :=
  canonicalIfNan_f64Pack neg (f64RoundBits_le num den)

theorem canonicalIfNan_ite {c : Prop} [Decidable c] {x y : F64} (hx : CanonicalIfNan x) (hy : CanonicalIfNan y) :
    CanonicalIfNan (if c then x else y) := by split <;> assumption

theorem fadd_canonicalIfNan (a b : F64) : CanonicalIfNan (fadd a b) := by
  unfold fadd
  split
  · exact canonicalIfNan_f64NaN
  · exact canonicalIfNan_f64NaN
  · exact canonicalIfNan_ite (canonicalIfNan_inf _) canonicalIfNan_f64NaN
  · exact canonicalIfNan_inf _
  · exact canonicalIfNan_inf _
  · exact canonicalIfNan_ite (canonicalIfNan_zero _) (canonicalIfNan_round _ _ _)

theorem fsub_canonicalIfNan (a b : F64) : CanonicalIfNan (fsub a b) := fadd_canonicalIfNan a (f64Neg b)

theorem fmul_canonicalIfNan (a b : F64) : CanonicalIfNan (fmul a b) := by
  unfold fmul
  split
  · exact canonicalIfNan_f64NaN
  · exact canonicalIfNan_f64NaN
  · exact canonicalIfNan_inf _
  · exact canonicalIfNan_ite canonicalIfNan_f64NaN (canonicalIfNan_inf _)
  · exact canonicalIfNan_ite canonicalIfNan_f64NaN (canonicalIfNan_inf _)
  · exact canonicalIfNan_round _ _ _

theorem fdiv_canonicalIfNan (a b : F64) : CanonicalIfNan (fdiv a b) := by
  unfold fdiv
  split
  · exact canonicalIfNan_f64NaN
  · exact canonicalIfNan_f64NaN
  · exact canonicalIfNan_f64NaN
  · exact canonicalIfNan_inf _
  · exact canonicalIfNan_zero _
  · exact canonicalIfNan_ite (canonicalIfNan_ite canonicalIfNan_f64NaN (canonicalIfNan_inf _))
      (canonicalIfNan_round _ _ _)

/-! ### A NaN operand -/

theorem fmul_nan_right (a : F64) {b : F64} (h : f64Class b = .nan) : fmul a b = f64NaN := by
  unfold fmul
  rw [h]
  cases f64Class a <;> rfl

theorem fdiv_nan_right (a : F64) {b : F64} (h : f64Class b = .nan) : fdiv a b = f64NaN := by
  unfold fdiv
  rw [h]
  cases f64Class a <;> rfl

/-- Settles O28: an operation answers the canonical NaN or packs bits that are no NaN, and its first arms take the NaN
operands. -/
theorem floatNanIsCanonical : Obligations.FloatNanIsCanonical := by
  intro a b f hf
  simp only [List.mem_cons, List.not_mem_nil, or_false] at hf
  obtain rfl | rfl | rfl | rfl := hf
  · exact ⟨fadd_canonicalIfNan a b, fun h => h.elim (fadd_nan_left b) (fadd_nan_right a)⟩
  · exact ⟨fsub_canonicalIfNan a b,
      fun h => h.elim (fadd_nan_left (f64Neg b)) fun hb => fadd_nan_right a (f64Class_f64Neg_nan hb)⟩
  · exact ⟨fmul_canonicalIfNan a b, fun h => h.elim (fmul_nan_left b) (fmul_nan_right a)⟩
  · exact ⟨fdiv_canonicalIfNan a b, fun h => h.elim (fdiv_nan_left b) (fdiv_nan_right a)⟩

/-- The rule on one block: all 192.0 at quality 50 encodes to the DC byte 0x20, and one NaN sample in it makes that byte
0. The kernel replays theorems in the order of their names' hashes; under this name the test `grayBlock`, by far the
costliest to replay, comes first, which keeps the replay's peak memory down. -/
theorem nan_sample_erases_dc :
    (encBlock (Vector.replicate 64 0x4068000000000000#64) (qtabFn 50)).1.head? = some 0x20 ∧
      (encBlock ((Vector.replicate 64 0x4068000000000000#64).set 0 f64NaN) (qtabFn 50)).1.head? = some 0 := by
  have hnan : f64Class ((Vector.replicate 64 0x4068000000000000#64).set 0 f64NaN)[cellIx 0 0] = .nan := f64Class_nan
  rw [Tests.grayBlock, encBlock_nan _ _ hnan]
  exact ⟨rfl, rfl⟩

end Sys2Proof.Machine
end

section
/-! PROOFS. The transforms (41_dct R193 to R196): a block written to LMEM and read back, the end of a command that
writes one, and the loops that give each cell. -/

namespace Sys2Proof.Machine

/-! ### A block in LMEM (41_dct R195) -/

/-- Bytes read from inside a write are a slice of what was written. -/
theorem readBytes_writeBytes_inside (s : State) (a : Nat) (bs : List Byte) {k n : Nat} (h : k + n ≤ bs.length) :
    (s.writeBytes a bs).readBytes (a + k) n = (bs.drop k).take n := by
  have hlen : ((bs.drop k).take n).length = n := by
    rw [List.length_take, List.length_drop]
    exact Nat.min_eq_left (Nat.le_sub_of_add_le' h)
  refine List.ext_getElem ((State.readBytes_length _ _ _).trans hlen.symm) fun i hi _ => ?_
  rw [State.readBytes_length] at hi
  simp only [State.readBytes, List.getElem_map, List.getElem_range, List.getElem_take, List.getElem_drop,
    Nat.add_assoc]
  exact State.readByte_writeBytes_inside s a bs (k + i) ((Nat.add_lt_add_left hi k).trans_le h)

/-- Eight bytes at 8·i of a block's bytes are its value at natural index i. -/
theorem blockBytes_slice (v : List F64) (i : Nat) (h : i < v.length) :
    ((v.flatMap fun x => leBytes 8 x.toNat).drop (8 * i)).take 8 = leBytes 8 v[i].toNat := by
  induction v generalizing i with
  | nil => cases h
  | cons x rest ih =>
    rw [List.flatMap_cons]
    cases i with
    | zero => exact List.take_left' (leBytes_length 8 x.toNat)
    | succ j =>
      rw [Nat.mul_succ, Nat.add_comm, ← List.drop_drop, List.drop_left' (leBytes_length 8 x.toNat)]
      exact ih j (Nat.lt_of_succ_lt_succ h)

theorem State.writeBlock_holdsBlock (s : State) (a : Nat) (v : Vector F64 64) : (s.writeBlock a v).HoldsBlock a v := by
  intro i
  have hfits : 8 * i.val + 8 ≤ (v.toList.flatMap fun x => leBytes 8 x.toNat).length := by
    rw [blockBytes_length, Vector.length_toList]
    exact Nat.mul_le_mul_left 8 i.isLt
  have hbytes : (s.writeBlock a v).readBytes (a + 8 * i.val) 8 = leBytes 8 v[i].toNat := by
    rw [State.writeBlock, readBytes_writeBytes_inside s a _ hfits,
      blockBytes_slice v.toList i.val (by simp)]
    rfl
  rw [State.memReadF64, State.memRead, hbytes, leNat_leBytes, Nat.mod_eq_of_lt v[i].isLt, BitVec.ofNat_toNat,
    BitVec.setWidth_eq]

theorem State.writeBlock_keepsOutside (s : State) (a : Nat) (v : Vector F64 64) :
    s.KeepsOutside (s.writeBlock a v) a 512 := fun x hx =>
  State.readByte_writeBytes_outside s a _ x (by rw [blockBytes_length]; simpa using hx)

/-! ### The end of a command that writes a block -/

/-- A command with no working table commits nothing (10_state R62). -/
theorem State.complete_of_work_none {s : State} (h : s.seq.work = Work.none) :
    s.complete = { s with seq := Seq.idle, done := true } := by
  simp [State.complete, h, Work.none]

/-- Legal regions pass their checks (20_memory R110, R111). -/
theorem State.regionCheck_of_regionsOk {s : State} {rs : List Region} (h : s.RegionsOk rs) (g : Stage) :
    s.regionCheck g rs = none := (overlapsCheckedInOrder _ g rs h.1).2 h.2

/-- With legal regions a command that checks nothing else runs its body. -/
theorem State.checked_regions_of_regionsOk {s : State} {rs : List Region} (h : s.RegionsOk rs) (g : Stage)
    (body : State → Host.Outcome State Fault Refusal) : s.checked (s.regionCheck g rs) body = body s := by
  rw [State.regionCheck_of_regionsOk h, State.checked_none]

/-- A command that ends with one block and OUTLEN written has changed no other byte and no other register. -/
theorem State.writeBlock_completes {s t : State} (hw : s.seq.work = Work.none) {a n : Nat} {v : Vector F64 64}
    (ht : t = ((s.writeBlock a v).setOutlen n).complete) :
    t = { s with lmem := t.lmem, outlen := u32 n, done := true, seq := Seq.idle } ∧ t.HoldsBlock a v ∧
      s.KeepsOutside t a 512 := by
  subst ht
  exact ⟨State.complete_of_work_none (s := (s.writeBlock a v).setOutlen n) hw, s.writeBlock_holdsBlock a v,
    s.writeBlock_keepsOutside a v⟩

section Commands
variable {s : State} (h : s.RegionsOk [s.srcRegion 512 8, s.dstRegion 512 8])
include h

theorem exec_fdct_of_regionsOk :
    exec .fdct s =
      .next ((s.writeBlock s.op.dst.toNat (fdct8 (s.readBlock s.op.src.toNat))).setOutlen 512).complete := by
  change execFdct s = _
  rw [execFdct, transformRegions, State.checked_regions_of_regionsOk h]

theorem exec_idct_of_regionsOk :
    exec .idct s =
      .next ((s.writeBlock s.op.dst.toNat (idct8 (s.readBlock s.op.src.toNat))).setOutlen 512).complete := by
  change execIdct s = _
  rw [execIdct, transformRegions, State.checked_regions_of_regionsOk h]

end Commands

/-! ### The loops, cell by cell (41_dct R193, R194) -/

theorem getElem_cellIx (m : Vector F64 64) (r c : Fin 8) : m[cellIx r c] = cellOf m r c := rfl

/-- The accumulation, its eight terms written out. -/
theorem dot8_eq_accumulate8 (f g : Fin 8 → F64) : dot8 f g = accumulate8 fun i => fmul (f i) (g i) := by
  have hterms : List.finRange 8 = [0, 1, 2, 3, 4, 5, 6, 7] := by decide
  simp only [dot8, hterms, List.foldl_cons, List.foldl_nil, accumulate8]

theorem cellOf_fdctRows (m : Vector F64 64) (y u : Fin 8) :
    cellOf (fdctRows m) y u = accumulate8 fun x => fmul (cellOf m y x) (cosRom u x) := by
  rw [← getElem_cellIx, fdctRows, grid_cell, dot8_eq_accumulate8]
  rfl

theorem cellOf_fdct8 (m : Vector F64 64) (v u : Fin 8) :
    cellOf (fdct8 m) v u =
      fmul (accumulate8 fun y => fmul (cellOf (fdctRows m) y u) (cosRom v y)) (scaleRom v u) := by
  rw [← getElem_cellIx, fdct8, grid_cell, dot8_eq_accumulate8]
  rfl

theorem cellOf_idctScaled (g : Vector F64 64) (v u : Fin 8) :
    cellOf (idctScaled g) v u = fmul (cellOf g v u) (scaleRom v u) := by
  rw [← getElem_cellIx, idctScaled, grid_cell]
  rfl

theorem cellOf_idctRows (g : Vector F64 64) (v x : Fin 8) :
    cellOf (idctRows g) v x = accumulate8 fun u => fmul (cellOf (idctScaled g) v u) (cosRom u x) := by
  rw [← getElem_cellIx, idctRows, grid_cell, dot8_eq_accumulate8]
  rfl

theorem cellOf_idct8 (g : Vector F64 64) (y x : Fin 8) :
    cellOf (idct8 g) y x = accumulate8 fun v => fmul (cellOf (idctRows g) v x) (cosRom v y) := by
  rw [← getElem_cellIx, idct8, grid_cell, dot8_eq_accumulate8]
  rfl

/-- Settles O27: the block's bytes and the frame from the write, each cell pass by pass. -/
theorem transformsComplete : Obligations.TransformsComplete := by
  refine ⟨fun s hw h => ⟨?_, ?_⟩, fun m v u => ?_, fun g y x => ?_⟩
  · exact ⟨_, exec_fdct_of_regionsOk h, State.writeBlock_completes hw rfl⟩
  · exact ⟨_, exec_idct_of_regionsOk h, State.writeBlock_completes hw rfl⟩
  · simp only [cellOf_fdct8, cellOf_fdctRows]
  · simp only [cellOf_idct8, cellOf_idctRows, cellOf_idctScaled]

end Sys2Proof.Machine
end

section
/-! PROOFS. The errors of a command's checks: the first failing check writes the record and nothing else
(60_exceptions R346, R348). -/

namespace Sys2Proof.Machine

/-! ### A failing check ends its command -/

/-- An error whose detail fits ERRINFO draws no free value (log 6): the record, ERR and SEQ are all it changes. -/
theorem State.raise_eq_afterError (s : State) {e : Err} (h : e.info < 2 ^ 32) :
    s.raise e = s.afterError e.code e.stage (BitVec.ofNat 32 e.info) := by
  rw [State.raise, infoWord, infoDraws, if_pos h, if_pos h]
  rfl

/-- Every command raises its first failing check. DECOMPRESS scrambles no region for an error before its step 6
(46_pipeline R306). -/
theorem exec_raise_of_precheck {i : Instr} {s : State} {e : Err} (h : precheck i s = some e) :
    exec i s = .next (s.raise e) := by
  have hchecked {c : Option Err} (body : State → Host.Outcome State Fault Refusal) (hc : c = some e) :
      s.checked c body = .next (s.raise e) := by
    rw [hc, State.checked_some]
  unfold exec
  cases i with
  | nop | hufBuild => cases h
  | decompress =>
    unfold precheck at h
    simp only [execDecompress]
    cases hp : decompressParse s with
    | ok p => rw [hp] at h; cases h
    | error d =>
      rw [hp] at h
      cases h
      rfl
  | _ => exact hchecked _ h

theorem exec_afterError_of_precheck {i : Instr} {s : State} {code : ErrCode} {stage : Stage} {info : Nat}
    (h : precheck i s = some { code := code, stage := stage, info := info }) (hi : info < 2 ^ 32 := by decide) :
    exec i s = .next (s.afterError code stage (BitVec.ofNat 32 info)) := by
  rw [exec_raise_of_precheck h, State.raise_eq_afterError s hi]

/-! ### Each check by its condition -/

theorem failIf_of_not {bad : Prop} [Decidable bad] (h : ¬bad) (e : Err) : failIf bad e = none := failIf_eq_none.2 h

theorem State.qtabCheck_of_invalid {s : State} (h : s.qtabv = false) (g : Stage) :
    s.qtabCheck g = some { code := .noQtab, stage := g, info := 0 } := if_pos h

theorem State.qtabCheck_of_valid {s : State} (h : s.qtabv = true) (g : Stage) : s.qtabCheck g = none :=
  failIf_of_not (by simp [h]) _

theorem State.bpOpenCheck_of_closed {s : State} (h : s.bp.isOpen = false) (g : Stage) :
    s.bpOpenCheck g = some { code := .state, stage := g, info := 0 } := if_pos h

theorem State.bpClosedCheck_of_open {s : State} (h : s.bp.isOpen = true) (g : Stage) :
    s.bpClosedCheck g = some { code := .state, stage := g, info := 1 } := if_pos h

theorem qualityCheck_of_legal {q : Word} (h1 : 1 ≤ q.toInt) (h99 : q.toInt ≤ 99) (g : Stage) :
    qualityCheck g q = none := if_neg (by omega)

theorem qualityCheck_of_illegal {q : Word} (h : q.toInt < 1 ∨ 99 < q.toInt) (g : Stage) :
    qualityCheck g q = some { code := .quality, stage := g, info := q.toNat } := if_pos h

/-! ### E_NOQTAB and E_STATE: the checks before the failing one pass -/

section NoQtab
variable {s : State} (h : s.qtabv = false)
include h

theorem precheck_noQtab_of_transform {i : Instr} (hi : i ∈ [Instr.quant, Instr.dequant, Instr.blkEnc, Instr.blkDec]) :
    precheck i s = some { code := .noQtab, stage := .transform, info := 0 } := by
  simp only [List.mem_cons, List.not_mem_nil, or_false] at hi
  obtain rfl | rfl | rfl | rfl := hi <;> rw [precheck, State.qtabCheck_of_invalid h, firstError_cons_some]

theorem precheck_pipeFwd_noQtab : precheck .pipeFwd s = some { code := .noQtab, stage := .pipe, info := 0 } := by
  rw [precheck, pipeFwdCheck, State.qtabCheck_of_invalid h, firstError_cons_some]

theorem precheck_pipeInv_noQtab (hw : s.imgW % 8 = 0) (hh : s.imgH % 8 = 0) :
    precheck .pipeInv s = some { code := .noQtab, stage := .pipe, info := 0 } := by
  rw [precheck, pipeInvCheck, failIf_of_not (not_not.2 hw), failIf_of_not (not_not.2 hh),
    State.qtabCheck_of_invalid h, firstError_cons_none, firstError_cons_none, firstError_cons_some]

end NoQtab

section SessionClosed
variable {s : State} (h : s.bp.isOpen = false)
include h

theorem precheck_bpAdd_closed {n : Nat} (hn : n ≤ 32) :
    precheck (.bpAdd n) s = some { code := .state, stage := .bitpack, info := 0 } := by
  rw [precheck, bpAddCheck, failIf_of_not (Nat.not_lt.2 hn), State.bpOpenCheck_of_closed h, firstError_cons_none,
    firstError_cons_some]

theorem precheck_bpFinish_closed : precheck .bpFinish s = some { code := .state, stage := .bitpack, info := 0 } :=
  State.bpOpenCheck_of_closed h .bitpack

end SessionClosed

section SessionOpen
variable {s : State} (h : s.bp.isOpen = true)
include h

theorem precheck_hufEmit_open : precheck .hufEmit s = some { code := .state, stage := .hufEmit, info := 1 } := by
  rw [precheck, hufEmitCheck, State.bpClosedCheck_of_open h, firstError_cons_some]

theorem precheck_hufEncode_open : precheck .hufEncode s = some { code := .state, stage := .seq, info := 1 } := by
  rw [precheck, hufEncodeCheck, State.bpClosedCheck_of_open h, firstError_cons_some]

theorem precheck_compress_open (h1 : 1 ≤ s.op.quality.toInt) (h99 : s.op.quality.toInt ≤ 99) :
    precheck .compress s = some { code := .state, stage := .seq, info := 1 } := by
  rw [precheck, compressCheck, qualityCheck_of_legal h1 h99, State.bpClosedCheck_of_open h, firstError_cons_none,
    firstError_cons_some]

end SessionOpen

/-- Settles O36: the E_NOQTAB or E_STATE check of each command is its first that fails, and ends it. -/
theorem stateTraps : Obligations.StateTraps := by
  refine fun s => ⟨fun h => ⟨fun i hi => ?_, ?_, fun hw hh => ?_⟩, fun h => ⟨fun n hn => ?_, ?_⟩,
    fun h => ⟨?_, ?_, fun h1 h99 => ?_⟩⟩
  · exact exec_afterError_of_precheck (precheck_noQtab_of_transform h hi)
  · exact exec_afterError_of_precheck (precheck_pipeFwd_noQtab h)
  · exact exec_afterError_of_precheck (precheck_pipeInv_noQtab h hw hh)
  · exact exec_afterError_of_precheck (precheck_bpAdd_closed h hn)
  · exact exec_afterError_of_precheck (precheck_bpFinish_closed h)
  · exact exec_afterError_of_precheck (precheck_hufEmit_open h)
  · exact exec_afterError_of_precheck (precheck_hufEncode_open h)
  · exact exec_afterError_of_precheck (precheck_compress_open h h1 h99)

end Sys2Proof.Machine
end

section
/-! PROOFS. Binary64 values (41_dct R190): the value of packed bits, exact rounding of what 53 bits hold, and when a
quotient is finite. -/

namespace Sys2Proof.Machine

/-! ### The value of packed bits -/

theorem f64Pack_toNat (neg : Bool) {bits : Nat} (h : bits < 2 ^ 63) :
    (f64Pack neg bits).toNat = (if neg then 2 ^ 63 else 0) + bits := by
  rw [f64Pack, BitVec.toNat_ofNat, Nat.mod_eq_of_lt]
  split <;> omega

/-- The fields of a packed pattern are its sign and the two parts of its magnitude bits (R190 Format). -/
theorem f64Class_f64Pack (neg : Bool) {bits : Nat} (h : bits < 2 ^ 63) :
    f64Class (f64Pack neg bits) =
      if bits / 2 ^ 52 = 2047 then (if bits % 2 ^ 52 = 0 then .inf neg else .nan)
      else if bits / 2 ^ 52 = 0 then .fin neg (bits % 2 ^ 52)
      else .fin neg ((2 ^ 52 + bits % 2 ^ 52) * 2 ^ (bits / 2 ^ 52 - 1)) := by
  have hsign : decide (2 ^ 63 ≤ (f64Pack neg bits).toNat) = neg := by
    rw [f64Pack_toNat neg h]
    cases neg with
    | false => simpa using h
    | true => simp
  have hexp : (f64Pack neg bits).toNat / 2 ^ 52 % 2048 = bits / 2 ^ 52 := by
    rw [f64Pack_toNat neg h]
    split <;> omega
  have hfrac : (f64Pack neg bits).toNat % 2 ^ 52 = bits % 2 ^ 52 := by
    rw [f64Pack_toNat neg h]
    split <;> omega
  simp only [f64Class, hsign, hexp, hfrac]

theorem f64Class_f64Pack_zero (neg : Bool) : f64Class (f64Pack neg 0) = .fin neg 0 := by
  cases neg <;> decide +kernel

theorem f64Class_f64Pack_inf (neg : Bool) : f64Class (f64Pack neg f64InfBits) = .inf neg := by
  cases neg <;> decide +kernel

/-- Bits below those of infinity are a finite value. -/
theorem f64Class_f64Pack_finite (neg : Bool) {bits : Nat} (h : bits < f64InfBits) :
    ∃ m, f64Class (f64Pack neg bits) = .fin neg m := by
  have hexp : bits / 2 ^ 52 < 2047 := Nat.div_lt_of_lt_mul ((Nat.mul_comm _ _).trans_gt h)
  rw [f64Class_f64Pack neg (h.trans (by decide)), if_neg hexp.ne]
  split <;> exact ⟨_, rfl⟩

/-! ### Rounding -/

/-- A quotient of at most `q` rounds to at most `q`. -/
theorem roundDiv_le {num den q : Nat} (hd : 0 < den) (h : num ≤ q * den) : roundDiv num den ≤ q := by
  have hdiv : num / den ≤ q := Nat.div_le_of_le_mul ((Nat.mul_comm _ _).trans_ge h)
  unfold roundDiv
  simp only
  split
  · rename_i hup
    refine Nat.lt_of_le_of_ne hdiv fun heq => ?_
    have := Nat.div_add_mod num den
    have hr : num % den = 0 := by
      rw [heq, Nat.mul_comm] at this
      omega
    omega
  · exact hdiv

theorem le_roundDiv (num den : Nat) : num / den ≤ roundDiv num den := by
  unfold roundDiv
  simp only
  split <;> omega

theorem roundDiv_mul_self (q : Nat) {den : Nat} (hd : 0 < den) : roundDiv (q * den) den = q :=
  le_antisymm (roundDiv_le hd le_rfl) ((Nat.mul_div_cancel q hd).ge.trans (le_roundDiv _ _))

/-- The magnitude bits of a value with a 53-bit significand, which no rounding changes (R190 Rounding). -/
theorem f64RoundBits_exact {f k den : Nat} (hf : f < 2 ^ 52) (hk : k ≤ 2045) (hd : 0 < den) :
    f64RoundBits ((2 ^ 52 + f) * 2 ^ k * den) den = (k + 1) * 2 ^ 52 + f := by
  have hlog : Nat.log2 ((2 ^ 52 + f) * 2 ^ k * den / den) - 52 = k := by
    rw [Nat.mul_div_cancel _ hd]
    have : Nat.log2 ((2 ^ 52 + f) * 2 ^ k) = 52 + k := by
      rw [Nat.log2_eq_iff (by positivity), pow_add, show 52 + k + 1 = 53 + k by omega, pow_add]
      exact ⟨Nat.mul_le_mul_right _ (by omega), Nat.mul_lt_mul_of_pos_right (by omega) (Nat.two_pow_pos k)⟩
    omega
  have hround : roundDiv ((2 ^ 52 + f) * 2 ^ k * den) (den * 2 ^ k) = 2 ^ 52 + f := by
    rw [Nat.mul_assoc, Nat.mul_comm (2 ^ k) den]
    exact roundDiv_mul_self _ (Nat.mul_pos hd (Nat.two_pow_pos k))
  simp only [f64RoundBits, hlog, hround, f64InfBits]
  omega

theorem f64Class_round_exact (neg : Bool) {f k den : Nat} (hf : f < 2 ^ 52) (hk : k ≤ 2045) (hd : 0 < den) :
    f64Class (f64Pack neg (f64RoundBits ((2 ^ 52 + f) * 2 ^ k * den) den)) = .fin neg ((2 ^ 52 + f) * 2 ^ k) := by
  have hexp : ((k + 1) * 2 ^ 52 + f) / 2 ^ 52 = k + 1 := by omega
  have hfrac : ((k + 1) * 2 ^ 52 + f) % 2 ^ 52 = f := by omega
  rw [f64RoundBits_exact hf hk hd, f64Class_f64Pack neg (by omega), hexp, hfrac, if_neg (by omega),
    if_neg (by omega), Nat.add_sub_cancel]

/-- A positive number of at most 53 bits, scaled to have the top one of them set. -/
theorem exists_significand {n : Nat} (hpos : 0 < n) (h : n < 2 ^ 53) :
    ∃ f k, f < 2 ^ 52 ∧ k ≤ 1074 ∧ n * 2 ^ 1074 = (2 ^ 52 + f) * 2 ^ k := by
  obtain ⟨hle, hlt⟩ := (Nat.log2_eq_iff hpos.ne').1 (rfl : n.log2 = n.log2)
  have hlog : n.log2 ≤ 52 := Nat.lt_succ_iff.1 ((Nat.log2_lt hpos.ne').2 h)
  obtain ⟨j, hj⟩ := Nat.exists_eq_add_of_le hlog
  have hlow : 2 ^ 52 ≤ n * 2 ^ j := by
    rw [hj, pow_add]
    exact Nat.mul_le_mul_right _ hle
  have hhigh : n * 2 ^ j < 2 ^ 52 * 2 := by
    rw [← pow_succ, hj, Nat.add_right_comm, pow_add]
    exact Nat.mul_lt_mul_of_pos_right hlt (Nat.two_pow_pos j)
  refine ⟨n * 2 ^ j - 2 ^ 52, 1074 - j, by omega, by omega, ?_⟩
  rw [Nat.add_sub_cancel' hlow, Nat.mul_assoc, ← pow_add, Nat.add_sub_cancel' (by omega)]

theorem f64OfInt_zero : f64OfInt 0 = 0 := by decide +kernel

/-- The binary64 value of an integer of at most 53 bits is the integer. -/
theorem f64Class_f64OfInt {k : Int} (h : k.natAbs < 2 ^ 53) :
    f64Class (f64OfInt k) = .fin (decide (k < 0)) (k.natAbs * 2 ^ 1074) := by
  obtain rfl | hk := eq_or_ne k 0
  · rw [f64OfInt_zero, Int.natAbs_zero, Nat.zero_mul]
    exact f64Class_f64Pack_zero false
  · obtain ⟨f, e, hf, he, heq⟩ := exists_significand (Int.natAbs_pos.2 hk) h
    have hexact := f64Class_round_exact (decide (k < 0)) hf (he.trans (by decide)) Nat.one_pos
    rwa [Nat.mul_one, ← heq] at hexact

/-! ### Finite quotients -/

/-- The greatest finite magnitude, in units of 2^-1074. -/
def f64MaxMag : Nat := (2 ^ 53 - 1) * 2 ^ 2045

theorem f64Class_fin_le {x : F64} {neg : Bool} {m : Nat} (h : f64Class x = .fin neg m) : m ≤ f64MaxMag := by
  have hfrac : x.toNat % 2 ^ 52 < 2 ^ 52 := Nat.mod_lt _ (by decide)
  unfold f64Class at h
  simp only at h
  split at h
  · split at h <;> cases h
  · rename_i hinf
    split at h
    · cases h
      rw [f64MaxMag]
      exact (Nat.le_sub_one_of_lt (hfrac.trans (by decide))).trans (Nat.le_mul_of_pos_right _ (pow_pos two_pos 2045))
    · cases h
      exact Nat.mul_le_mul (by omega) (pow_le_pow_right₀ one_le_two (by omega))

/-- The weight of a finite value's last place is at most 2^2045. -/
theorem lastPlace_le {q : Nat} (h : q ≤ f64MaxMag) : q.log2 - 52 ≤ 2045 := by
  obtain rfl | hq := eq_or_ne q 0
  · decide
  · have hlt : q < 2 ^ (53 + 2045) := by
      refine h.trans_lt ?_
      rw [f64MaxMag, pow_add]
      exact Nat.mul_lt_mul_of_pos_right (by decide) (pow_pos two_pos 2045)
    have := (Nat.log2_lt hq).2 hlt
    omega

/-- The rounded significand has at most 53 bits, or is 2^53. -/
theorem roundDiv_lastPlace_le (num : Nat) {den : Nat} (hd : 0 < den) :
    roundDiv num (den * 2 ^ ((num / den).log2 - 52)) ≤ 2 ^ 53 := by
  have hquot : num / den < 2 ^ ((num / den).log2 - 52) * 2 ^ 53 := by
    rw [← pow_add]
    exact Nat.lt_log2_self.trans_le (pow_le_pow_right₀ one_le_two (by omega))
  refine roundDiv_le (Nat.mul_pos hd (Nat.two_pow_pos _)) ?_
  calc num ≤ 2 ^ ((num / den).log2 - 52) * 2 ^ 53 * den := ((Nat.div_lt_iff_lt_mul hd).1 hquot).le
    _ = 2 ^ 53 * (den * 2 ^ ((num / den).log2 - 52)) := by ring

/-- A quotient no greater than the greatest finite magnitude rounds to a finite value: in the top binade its significand
is at most 2^53 - 1, and below it a significand of 2^53 carries into the exponent. -/
theorem f64RoundBits_lt_inf {num den : Nat} (hd : 0 < den) (h : num ≤ f64MaxMag * den) :
    f64RoundBits num den < f64InfBits := by
  have hk := lastPlace_le (Nat.div_le_of_le_mul ((Nat.mul_comm _ _).trans_ge h))
  have hround := roundDiv_lastPlace_le num hd
  simp only [f64RoundBits, f64InfBits]
  obtain hlt | heq := hk.lt_or_eq
  · omega
  · have htop : roundDiv num (den * 2 ^ 2045) ≤ 2 ^ 53 - 1 := by
      refine roundDiv_le (Nat.mul_pos hd (pow_pos two_pos 2045)) (h.trans_eq ?_)
      rw [f64MaxMag, Nat.mul_assoc, Nat.mul_comm (2 ^ 2045)]
    rw [heq]
    omega

/-! ### The quantizer's quotient (42_quant R214, R215) -/

theorem f64Class_f64OfInt_step (t : Word) : f64Class (f64OfInt t.toNat) = .fin false (t.toNat * 2 ^ 1074) := by
  rw [f64Class_f64OfInt (by rw [Int.natAbs_natCast]; exact t.isLt.trans (by decide)), Int.natAbs_natCast,
    decide_eq_false (Int.natCast_nonneg _).not_gt]

/-- A value has no integer part exactly where it is not finite (R13). -/
theorem f64Trunc_eq_none_iff {x : F64} : f64Trunc x = none ↔ ∀ neg m, f64Class x ≠ .fin neg m := by
  unfold f64Trunc
  cases f64Class x with
  | nan | inf p => exact iff_of_true rfl nofun
  | fin p m => exact iff_of_false nofun fun h => h p m rfl

/-- The QNF event is a non-finite quotient. -/
theorem qbyte_nonfinite_iff {c : F64} {t : Word} :
    (qbyte c t).2 = true ↔ ∀ neg m, f64Class (fdiv c (f64OfInt t.toNat)) ≠ .fin neg m := by
  rw [← f64Trunc_eq_none_iff, qbyte]
  cases f64Trunc (fdiv c (f64OfInt t.toNat)) <;> simp

theorem qbyte_of_nonfinite {c : F64} {t : Word} (h : (qbyte c t).2 = true) : (qbyte c t).1 = 0 := by
  unfold qbyte at h ⊢
  split at h
  · cases h
  · rfl

/-- A finite coefficient over a step other than 0 has a finite quotient. -/
theorem fdiv_step_finite {c : F64} {t : Word} {p : Bool} {m : Nat} (hc : f64Class c = .fin p m) (ht : t ≠ 0) :
    ∃ neg k, f64Class (fdiv c (f64OfInt t.toNat)) = .fin neg k := by
  have hpos : 0 < t.toNat := Nat.pos_of_ne_zero fun h => ht (BitVec.eq_of_toNat_eq h)
  have hden : 0 < t.toNat * 2 ^ 1074 := Nat.mul_pos hpos (pow_pos two_pos 1074)
  have hle : m * 2 ^ 1074 ≤ f64MaxMag * (t.toNat * 2 ^ 1074) :=
    Nat.mul_le_mul (f64Class_fin_le hc) (Nat.le_mul_of_pos_left _ hpos)
  have hdiv : fdiv c (f64OfInt t.toNat) =
      f64Pack (p ^^ false) (f64RoundBits (m * 2 ^ 1074) (t.toNat * 2 ^ 1074)) := by
    simp only [fdiv, hc, f64Class_f64OfInt_step, if_neg hden.ne']
  rw [hdiv]
  exact ⟨_, f64Class_f64Pack_finite _ (f64RoundBits_lt_inf hden hle)⟩

/-- A quotient by a step of 0 is an infinity or a NaN (R190). -/
theorem fdiv_zero_step_nonfinite (c : F64) (neg : Bool) (m : Nat) : f64Class (fdiv c (f64OfInt 0)) ≠ .fin neg m := by
  have h0 : f64Class (f64OfInt 0) = .fin false 0 := by
    rw [f64OfInt_zero]
    exact f64Class_f64Pack_zero false
  unfold fdiv
  rw [h0]
  cases f64Class c with
  | nan => simp [f64Class_nan]
  | inf p => simp [f64Class_f64Pack_inf]
  | fin p n =>
    obtain rfl | hn := eq_or_ne n 0
    · simp [f64Class_nan]
    · simp [hn, f64Class_f64Pack_inf]

/-- A non-finite coefficient has a non-finite quotient (R190). -/
theorem fdiv_nonfinite {c : F64} (hc : ∀ neg m, f64Class c ≠ .fin neg m) (t : Word) (neg : Bool) (m : Nat) :
    f64Class (fdiv c (f64OfInt t.toNat)) ≠ .fin neg m := by
  unfold fdiv
  rw [f64Class_f64OfInt_step]
  cases h : f64Class c with
  | nan => simp [f64Class_nan]
  | inf p => simp [f64Class_f64Pack_inf]
  | fin p n => exact absurd h (hc p n)

/-- Settles O31: a finite coefficient over a nonzero step rounds below infinity; every other quotient is an infinity or
a NaN. -/
theorem nonFiniteQuotients : Obligations.NonFiniteQuotients := by
  refine fun c t => ⟨qbyte_nonfinite_iff.trans ⟨fun h => ?_, ?_⟩, qbyte_of_nonfinite⟩
  · by_contra! hfin
    obtain ⟨ht, p, m, hc⟩ := hfin
    obtain ⟨neg, k, hk⟩ := fdiv_step_finite hc ht
    exact h neg k hk
  · rintro (rfl | hc)
    · exact fdiv_zero_step_nonfinite c
    · exact fdiv_nonfinite hc t

/-! ### The dequantizer (42_quant R217) -/

/-- A cell of a built table is at most 6050, that of BASE's 121 at quality 1. -/
theorem qtabCell_le (q : Nat) (i : Fin 64) : qtabCell q i ≤ 6050 := by
  have hbase : baseRom i ≤ 121 := by revert i; decide
  have hmult : qualityMult q ≤ 5000 := by
    unfold qualityMult
    split
    · exact Nat.div_le_self _ _
    · omega
  calc (qualityMult q * baseRom i + 50) / 100
      ≤ (5000 * 121 + 50) / 100 := by gcongr
    _ = 6050 := rfl

theorem qtabFn_toNat (q : Nat) (i : Fin 64) : ((qtabFn q)[i]).toNat = qtabCell q i := by
  simp only [qtabFn, Fin.getElem_fin, Vector.getElem_ofFn, u32, BitVec.toNat_ofNat]
  exact Nat.mod_eq_of_lt ((qtabCell_le q i).trans_lt (by decide))

theorem s8_natAbs_le (b : Byte) : b.toInt.natAbs ≤ 128 := by
  have := b.toInt_lt
  have := b.le_toInt
  omega

/-- Settles O32: the product has at most 40 bits, and a built table's step is at most 6050. -/
theorem dequantizerIsExact : Obligations.DequantizerIsExact := by
  intro b t
  have hb := s8_natAbs_le b
  have habs : (b.toInt * (t.toNat : Int)).natAbs = b.toInt.natAbs * t.toNat := by
    rw [Int.natAbs_mul, Int.natAbs_natCast]
  refine ⟨?_, ?_, fun h => ?_⟩
  · rw [dequantize]
    refine f64Class_f64OfInt ?_
    rw [habs]
    exact (Nat.mul_le_mul hb t.isLt.le).trans_lt (by decide)
  · intro q i _ _ ht
    rw [habs, ht, qtabFn_toNat]
    exact Nat.mul_le_mul hb (qtabCell_le q i)
  · rw [dequantize, h, f64OfInt_zero]

end Sys2Proof.Machine
end

section
/-! PROOFS. The commands of the quantizer (42_quant R213, R216, R218): the table QTAB_BUILD commits, the bytes QUANT
writes with its QNF event, the values DEQUANT writes. -/

namespace Sys2Proof.Machine

/-! ### QTAB_BUILD -/

/-- A positive signed quality is the natural number of its pattern. -/
theorem toInt_eq_toNat_of_pos {q : Word} (h1 : 1 ≤ q.toInt) : q.toInt = (q.toNat : Int) := by
  rw [BitVec.toInt_eq_toNat_cond] at h1 ⊢
  split at h1 <;> omega

/-- The arithmetic of R211 on naturals is that on integers. -/
theorem qualityMult_cast {q : Nat} (h : q ≤ 99) :
    (qualityMult q : Int) = if (q : Int) < 50 then 5000 / (q : Int) else 200 - 2 * (q : Int) := by
  unfold qualityMult
  by_cases h50 : q < 50
  · rw [if_pos h50, if_pos (by omega)]
    exact Int.natCast_ediv 5000 q
  · rw [if_neg h50, if_neg (by omega)]
    omega

theorem qtabCell_cast {q : Nat} (h : q ≤ 99) (i : Fin 64) :
    (qtabCell q i : Int) =
      ((if (q : Int) < 50 then 5000 / (q : Int) else 200 - 2 * (q : Int)) * (baseRom i : Int) + 50) / 100 := by
  rw [← qualityMult_cast h, qtabCell]
  push_cast
  rfl

/-- With a legal quality QTAB_BUILD commits its working table, which sets QTABV (10_state R66). -/
theorem exec_qtabBuild_of_legal {s : State} (hw : s.seq.work = Work.none) (h1 : 1 ≤ s.op.quality.toInt)
    (h99 : s.op.quality.toInt ≤ 99) :
    exec .qtabBuild s =
      .next { s with qtab := qtabFn s.op.quality.toNat, qtabv := true, done := true, seq := Seq.idle } := by
  change execQtabBuild s = _
  rw [execQtabBuild, qualityCheck_of_legal h1 h99, State.checked_none]
  simp [State.complete, State.setWorkQtab, hw, Work.none]

/-- Settles O26: a legal quality makes the working table that the end of the command commits. -/
theorem qtabBuildResult : Obligations.QtabBuildResult := by
  refine fun s => ⟨fun hw h1 h99 => ?_, fun h => ?_⟩
  · refine ⟨_, exec_qtabBuild_of_legal hw h1 h99, rfl, fun i => ?_⟩
    have hq := toInt_eq_toNat_of_pos h1
    rw [hq] at h99 ⊢
    rw [qtabFn_toNat, qtabCell_cast (Int.ofNat_le.1 h99)]
  · rw [exec_afterError_of_precheck (i := .qtabBuild) (qualityCheck_of_illegal h .qtab) s.op.quality.isLt,
      BitVec.ofNat_toNat, BitVec.setWidth_eq]

/-! ### A command that does its one block and ends -/

/-- The block of a QUANT or BLK_ENC that has not been done early is done in the turn that ends the command (log 5). -/
theorem State.runTask_of_not_done {s : State} (h : s.seq.tasksDone = []) (t : Nat) (body : State → State) :
    s.runTask t body = (body s).markTask t := by
  rw [State.runTask, h]
  rfl

/-- The end of a QUANT or BLK_ENC: its bytes, its QNF event and OUTLEN, and nothing else changed. -/
theorem State.writeBytes_qnfEvent_completes {s t : State} (hw : s.seq.work = Work.none) {a n : Nat} {bs : List Byte}
    {q : Bool} (ht : t = ((((s.writeBytes a bs).qnfEvent q).markTask 0).setOutlen n).complete) :
    t = { s with lmem := t.lmem, qnf := s.qnf || q, outlen := u32 n, done := true, seq := Seq.idle } ∧
      t.HoldsAt a bs ∧ s.KeepsOutside t a bs.length := by
  have hwork : ((((s.writeBytes a bs).qnfEvent q).markTask 0).setOutlen n).seq.work = Work.none := hw
  have hread : ∀ x, t.readByte x = (s.writeBytes a bs).readByte x := by
    rw [ht]
    exact State.readByte_congr rfl rfl
  refine ⟨?_, fun i hi => ?_, fun x hx => ?_⟩
  · rw [ht, State.complete_of_work_none hwork]
    rfl
  · rw [hread, State.readByte_writeBytes_inside s a bs i hi]
  · rw [hread, State.readByte_writeBytes_outside s a bs x hx]

section Valid
variable {s : State} (hv : s.qtabv = true)
include hv

theorem quantCheck_of_regionsOk (h : s.RegionsOk [s.srcRegion 512 8, s.dstRegion 64 1]) : quantCheck s = none := by
  rw [quantCheck, State.qtabCheck_of_valid hv, firstError_cons_none, firstError_singleton, quantRegions,
    State.regionCheck_of_regionsOk h]

theorem dequantCheck_of_regionsOk (h : s.RegionsOk [s.srcRegion 64 1, s.dstRegion 512 8]) :
    dequantCheck s = none := by
  rw [dequantCheck, State.qtabCheck_of_valid hv, firstError_cons_none, firstError_singleton, dequantRegions,
    State.regionCheck_of_regionsOk h]

theorem exec_quant_of_regionsOk (hd : s.seq.tasksDone = [])
    (h : s.RegionsOk [s.srcRegion 512 8, s.dstRegion 64 1]) :
    exec .quant s = .next (((quantBody s).markTask 0).setOutlen 64).complete := by
  change execQuant s = _
  rw [execQuant, quantCheck_of_regionsOk hv h, State.checked_none, State.runTask_of_not_done hd]

theorem exec_dequant_of_regionsOk (h : s.RegionsOk [s.srcRegion 64 1, s.dstRegion 512 8]) :
    exec .dequant s =
      .next ((s.writeBlock s.op.dst.toNat (dequantBlock (s.read64 s.op.src.toNat) s.qtab)).setOutlen 512).complete := by
  change execDequant s = _
  rw [execDequant, dequantCheck_of_regionsOk hv h, State.checked_none]

end Valid

/-! ### The blocks, entry by entry -/

theorem readBlock_getElem (s : State) (a : Nat) (i : Fin 64) : (s.readBlock a)[i] = s.memReadF64 (a + 8 * i.val) := by
  simp [State.readBlock]

theorem quantBlock_getElem (f : Vector F64 64) (t : Vector Word 64) (i : Fin 64) :
    (quantBlock f t).1[i.val]'(i.isLt.trans_eq (quantBlock_length f t).symm) = (qbyte f[i] t[i]).1 := by
  simp only [quantBlock, List.getElem_map, List.getElem_finRange]
  rfl

theorem quantBlock_qnf_iff (f : Vector F64 64) (t : Vector Word 64) :
    (quantBlock f t).2 = true ↔ ∃ i : Fin 64, (qbyte f[i] t[i]).2 = true := by
  simp [quantBlock]

theorem dequantBlock_getElem (b : Vector Byte 64) (t : Vector Word 64) (i : Fin 64) :
    (dequantBlock b t)[i] = dequantize b[i] t[i] := by
  simp [dequantBlock]

theorem read64_getElem (s : State) (a : Nat) (i : Fin 64) : (s.read64 a)[i] = s.readByte (a + i.val) := by
  simp [State.read64]

/-- Settles O29: the bytes, the QNF event and the frame from the end of the command, entry by entry. -/
theorem quantCompletes : Obligations.QuantCompletes := by
  intro s hw hd hv h
  obtain ⟨hframe, hbytes, hkeeps⟩ := State.writeBytes_qnfEvent_completes (n := 64) hw
    (t := (((quantBody s).markTask 0).setOutlen 64).complete) rfl
  have hlen := quantBlock_length (s.readBlock s.op.src.toNat) s.qtab
  refine ⟨_, exec_quant_of_regionsOk hv hd h, hframe, fun i => ?_, ?_, ?_⟩
  · rw [hbytes i.val (i.isLt.trans_eq hlen.symm), quantBlock_getElem, readBlock_getElem]
  · rw [hframe]
    simp only [Bool.or_eq_true, quantBlock_qnf_iff, readBlock_getElem]
  · rwa [hlen] at hkeeps

/-- Settles O30: the values and the frame from the write, value by value. -/
theorem dequantCompletes : Obligations.DequantCompletes := by
  intro s hw hv h
  obtain ⟨hframe, hvalues, hkeeps⟩ := State.writeBlock_completes hw rfl
  refine ⟨_, exec_dequant_of_regionsOk hv h, hframe, fun i => ?_, hkeeps⟩
  rw [hvalues i, dequantBlock_getElem, read64_getElem]

end Sys2Proof.Machine
end

section
/-! PROOFS. The zigzag reorder (43_zigzag R230 to R234): scan and unscan entry by entry, the bytes and the frame of
ZZSCAN and ZZUNSCAN, and their round trip. -/

namespace Sys2Proof.Machine

/-! ### The table and its two functions (43_zigzag R230, R231, R234) -/

/-- ZZ is a permutation: ZZINV is its inverse on both sides. -/
theorem zzRom_bijective : Function.Bijective zzRom :=
  Function.bijective_iff_has_inverse.2 ⟨zzInv, zzInv_zzRom, zzRom_zzInv⟩

theorem scan_getElem {α : Type} (m : Vector α 64) (k : Fin 64) : (scan m)[k] = m[zzRom k] := by
  simp [scan]

theorem unscan_getElem {α : Type} (z : Vector α 64) (i : Fin 64) : (unscan z)[i] = z[zzInv i] := by
  simp [unscan]

/-- Entry `ZZ[k]` of an unscanned sequence is its entry k, as R231 writes it. -/
theorem unscan_getElem_zzRom {α : Type} (z : Vector α 64) (k : Fin 64) : (unscan z)[zzRom k] = z[k] := by
  simp only [unscan_getElem, zzInv_zzRom]

theorem unscan_scan {α : Type} (m : Vector α 64) : unscan (scan m) = m := by
  have hentry (i : Fin 64) : (unscan (scan m))[i] = m[i] := by
    simp only [unscan_getElem, scan_getElem, zzRom_zzInv]
  exact Vector.ext fun i hi => hentry ⟨i, hi⟩

theorem scan_unscan {α : Type} (z : Vector α 64) : scan (unscan z) = z := by
  have hentry (k : Fin 64) : (scan (unscan z))[k] = z[k] := by
    rw [scan_getElem, unscan_getElem_zzRom]
  exact Vector.ext fun k hk => hentry ⟨k, hk⟩

/-! ### The end of a command that writes 64 bytes (43_zigzag R232, R233) -/

/-- The state in which a command ends that writes 64 bytes to DST and sets OUTLEN to 64. -/
def State.reordered (s : State) (v : Vector Byte 64) : State :=
  ((s.writeBytes s.op.dst.toNat v.toList).setOutlen 64).complete

theorem State.reordered_readByte (s : State) (v : Vector Byte 64) (i : Fin 64) :
    (s.reordered v).readByte (s.op.dst.toNat + i.val) = v[i] :=
  State.readByte_writeBytes_inside s s.op.dst.toNat v.toList i.val (i.isLt.trans_eq v.length_toList.symm)

theorem State.reordered_keepsOutside (s : State) (v : Vector Byte 64) :
    s.KeepsOutside (s.reordered v) s.op.dst.toNat 64 := fun x hx =>
  State.readByte_writeBytes_outside s s.op.dst.toNat v.toList x (by rwa [v.length_toList])

theorem State.reordered_frame {s : State} (hw : s.seq.work = Work.none) (v : Vector Byte 64) :
    s.reordered v = { s with lmem := (s.reordered v).lmem, outlen := 64, done := true, seq := Seq.idle } :=
  State.complete_of_work_none (s := (s.writeBytes s.op.dst.toNat v.toList).setOutlen 64) hw

section Commands
variable {s : State} (h : s.RegionsOk [s.srcRegion 64 1, s.dstRegion 64 1])
include h

theorem exec_zzscan_of_regionsOk :
    exec .zzscan s = .next (s.reordered (scan (s.read64 s.op.src.toNat))) := by
  change execZzscan s = _
  rw [execZzscan, zigzagRegions, State.checked_regions_of_regionsOk h, State.reordered]

theorem exec_zzunscan_of_regionsOk :
    exec .zzunscan s = .next (s.reordered (unscan (s.read64 s.op.src.toNat))) := by
  change execZzunscan s = _
  rw [execZzunscan, zigzagRegions, State.checked_regions_of_regionsOk h, State.reordered]

/-- After a ZZSCAN, DST + k holds what was at SRC + `ZZ[k]`. -/
theorem zzscan_readByte {t : State} (ht : exec .zzscan s = .next t) (k : Fin 64) :
    t.readByte (s.op.dst.toNat + k.val) = s.readByte (s.op.src.toNat + (zzRom k).val) := by
  cases (exec_zzscan_of_regionsOk h).symm.trans ht
  rw [State.reordered_readByte, scan_getElem, read64_getElem]

/-- After a ZZUNSCAN, DST + `ZZ[k]` holds what was at SRC + k. -/
theorem zzunscan_readByte {t : State} (ht : exec .zzunscan s = .next t) (k : Fin 64) :
    t.readByte (s.op.dst.toNat + (zzRom k).val) = s.readByte (s.op.src.toNat + k.val) := by
  cases (exec_zzunscan_of_regionsOk h).symm.trans ht
  rw [State.reordered_readByte, unscan_getElem_zzRom, read64_getElem]

end Commands

/-- Settles O34: each command's end by its regions, its bytes along ZZ and its frame. -/
theorem zigzagCommandsComplete : Obligations.ZigzagCommandsComplete := by
  intro s hw h
  constructor
  · have ht := exec_zzscan_of_regionsOk h
    exact ⟨_, ht, State.reordered_frame hw _, zzscan_readByte h ht, s.reordered_keepsOutside _⟩
  · have ht := exec_zzunscan_of_regionsOk h
    exact ⟨_, ht, State.reordered_frame hw _, zzunscan_readByte h ht, s.reordered_keepsOutside _⟩

/-- Settles O35: every natural index is `ZZ[k]` for some k, and its byte passes through byte k of the second buffer. -/
theorem zigzagRoundTrip : Obligations.ZigzagRoundTrip := by
  refine ⟨zzRom_bijective, fun _ m => ⟨unscan_scan m, scan_unscan m⟩, ?_⟩
  intro s t u v hs hst hmem hepoch hsrc hu huv i hi
  obtain ⟨k, hk⟩ := zzRom_bijective.surjective ⟨i, hi⟩
  have hik : i = (zzRom k).val := (congrArg Fin.val hk).symm
  subst hik
  calc v.readByte (u.op.dst.toNat + (zzRom k).val)
      = u.readByte (u.op.src.toNat + k.val) := zzunscan_readByte hu huv k
    _ = t.readByte (s.op.dst.toNat + k.val) := by rw [hsrc, State.readByte_congr hmem hepoch]
    _ = s.readByte (s.op.src.toNat + (zzRom k).val) := zzscan_readByte hs hst k

end Sys2Proof.Machine
end

section
/-! PROOFS. The Huffman tree and its codes (44_huffman R242 to R249): the merges keep the leaves, a code is one path
from the root, and so no code of a built table begins another one. -/

namespace Sys2Proof.Machine

/-! ### The leaves of a worklist (R242, R243) -/

/-- The byte values at the leaves of a tree, left to right. -/
def HufTree.leaves (t : HufTree) : List Byte :=
  match t with
  | .leaf b => [b]
  | .node l r => l.leaves ++ r.leaves

/-- The leaves of the trees of a worklist. -/
def worklistLeaves (wl : List (Nat × HufTree)) : List Byte := wl.flatMap fun x => x.2.leaves

/-- The byte values with a nonzero counter, ascending. -/
def countedBytes (f : Vector Word 256) : List Byte :=
  ((List.finRange 256).filter fun b => f[b] ≠ 0).map fun b => BitVec.ofNat 8 b.val

theorem ofNat8_inj {b d : Fin 256} (h : BitVec.ofNat 8 b.val = BitVec.ofNat 8 d.val) : b = d := by
  have hval := congrArg BitVec.toNat h
  simp only [BitVec.toNat_ofNat] at hval
  omega

theorem countedBytes_nodup (f : Vector Word 256) : (countedBytes f).Nodup :=
  ((List.nodup_finRange 256).filter _).map fun _ _ => ofNat8_inj

theorem mem_countedBytes {f : Vector Word 256} (b : Fin 256) : BitVec.ofNat 8 b.val ∈ countedBytes f ↔ f[b] ≠ 0 := by
  simp only [countedBytes, List.mem_map, List.mem_filter, List.mem_finRange, true_and, decide_eq_true_eq]
  constructor
  · rintro ⟨d, hd, hbd⟩
    exact ofNat8_inj hbd ▸ hd
  · exact fun hb => ⟨b, hb, rfl⟩

theorem countedBytes_length (f : Vector Word 256) :
    (countedBytes f).length = (List.finRange 256).countP fun b => f[b] ≠ 0 := by
  rw [countedBytes, List.length_map, List.countP_eq_length_filter]

/-- The initial worklist has one leaf for each counted byte value (R243). -/
theorem worklistLeaves_initialWorklist (f : Vector Word 256) :
    worklistLeaves (initialWorklist f) = countedBytes f := by
  unfold worklistLeaves initialWorklist countedBytes
  induction List.finRange 256 with
  | nil => rfl
  | cons b rest ih => by_cases hb : f[b] = 0 <;> simp_all [HufTree.leaves]

theorem initialWorklist_length (f : Vector Word 256) : (initialWorklist f).length = (countedBytes f).length := by
  unfold initialWorklist countedBytes
  induction List.finRange 256 with
  | nil => rfl
  | cons b rest ih => by_cases hb : f[b] = 0 <;> simp_all

/-! ### The merges (R245) -/

theorem leastWeight_mem {wl : List (Nat × HufTree)} (h : wl ≠ []) : ∃ x ∈ wl, x.1 = leastWeight wl := by
  induction wl with
  | nil => exact absurd rfl h
  | cons x rest ih =>
    cases rest with
    | nil => exact ⟨x, by simp, rfl⟩
    | cons y more =>
      obtain ⟨z, hz, hw⟩ := ih (by simp)
      obtain hmin | hmin := Nat.le_total x.1 (leastWeight (y :: more))
      · exact ⟨x, by simp, (Nat.min_eq_left hmin).symm⟩
      · exact ⟨z, List.mem_cons_of_mem x hz, hw.trans (Nat.min_eq_right hmin).symm⟩

theorem takeWeight_of_mem {w : Nat} {wl : List (Nat × HufTree)} (h : ∃ x ∈ wl, x.1 = w) :
    ∃ m rest, takeWeight w wl = some (m, rest) ∧ (m :: rest).Perm wl := by
  induction wl with
  | nil => simp at h
  | cons x rest ih =>
    by_cases hx : x.1 = w
    · exact ⟨x, rest, by simp [takeWeight, hx], .refl _⟩
    · obtain ⟨m, more, htake, hperm⟩ := ih (by simpa [hx] using h)
      exact ⟨m, x :: more, by simp [takeWeight, hx, htake], (List.Perm.swap x m more).trans (hperm.cons x)⟩

/-- A worklist that is not empty gives up one item and keeps the others. -/
theorem takeLeast_perm {wl : List (Nat × HufTree)} (h : wl ≠ []) :
    ∃ m rest, takeLeast wl = some (m, rest) ∧ (m :: rest).Perm wl :=
  takeWeight_of_mem (leastWeight_mem h)

/-- A merge makes one item of two and keeps the leaves. -/
theorem mergeOnce_perm {wl : List (Nat × HufTree)} (h : 2 ≤ wl.length) :
    (mergeOnce wl).length + 1 = wl.length ∧ (worklistLeaves (mergeOnce wl)).Perm (worklistLeaves wl) := by
  obtain ⟨m1, wl1, htake1, hperm1⟩ := takeLeast_perm (wl := wl) fun h0 => by simp [h0] at h
  have hlen1 := hperm1.length_eq
  obtain ⟨m2, wl2, htake2, hperm2⟩ := takeLeast_perm (wl := wl1) fun h0 => by simp [h0] at hlen1; omega
  have hlen2 := hperm2.length_eq
  have hmerge : mergeOnce wl = wl2 ++ [(m1.1 + m2.1, HufTree.node m2.2 m1.2)] := by
    simp only [mergeOnce, htake1, htake2]
  rw [hmerge]
  refine ⟨by simp at hlen1 hlen2 ⊢; omega, ?_⟩
  have hwl : (m1 :: m2 :: wl2).Perm wl := (hperm2.cons m1).trans hperm1
  refine List.Perm.trans ?_ (hwl.flatMap_right fun x => x.2.leaves)
  simp only [worklistLeaves, List.flatMap_append, List.flatMap_cons, List.flatMap_nil, HufTree.leaves, List.append_nil]
  rw [← List.append_assoc m1.2.leaves]
  exact List.perm_append_comm.trans (List.perm_append_comm.append_right _)

theorem mergeTimes_perm {n : Nat} {wl : List (Nat × HufTree)} (h : wl.length = n + 1) :
    ∃ x, mergeTimes n wl = [x] ∧ x.2.leaves.Perm (worklistLeaves wl) := by
  induction n generalizing wl with
  | zero =>
    obtain ⟨x, rfl⟩ := List.length_eq_one_iff.1 h
    exact ⟨x, rfl, by simp [worklistLeaves]⟩
  | succ n ih =>
    obtain ⟨hlen, hleaves⟩ := mergeOnce_perm (wl := wl) (by omega)
    obtain ⟨x, hx, hperm⟩ := ih (wl := mergeOnce wl) (by omega)
    exact ⟨x, hx, hperm.trans hleaves⟩

/-- BUILDTREE of a worklist that is not empty gives a tree with the worklist's leaves. -/
theorem buildTree_perm {wl : List (Nat × HufTree)} (h : wl ≠ []) :
    ∃ root, buildTree wl = some root ∧ root.leaves.Perm (worklistLeaves wl) := by
  have hlen : wl.length = wl.length - 1 + 1 := by
    have := List.length_pos_iff.2 h
    omega
  obtain ⟨x, hx, hperm⟩ := mergeTimes_perm hlen
  exact ⟨x.2, by simp [buildTree, hx], hperm⟩

theorem buildTree_nil : buildTree [] = none := rfl

/-- The tree of a counter table has one leaf for each counted byte value. -/
theorem leaves_perm_countedBytes {f : Vector Word 256} {root : HufTree}
    (h : buildTree (initialWorklist f) = some root) : root.leaves.Perm (countedBytes f) := by
  have hne : initialWorklist f ≠ [] := fun h0 => by simp [h0, buildTree_nil] at h
  obtain ⟨root', hroot, hperm⟩ := buildTree_perm hne
  cases hroot.symm.trans h
  rwa [worklistLeaves_initialWorklist] at hperm

/-! ### The codes (R246) -/

theorem assignCodes_bytes (t : HufTree) (code len : Nat) : (assignCodes t code len).map (fun e => e.1) = t.leaves := by
  induction t generalizing code len with
  | leaf b => rfl
  | node l r ihl ihr => rw [assignCodes, List.map_append, ihl, ihr, HufTree.leaves]

/-- The code `x`, as (CODE, LEN), begins the code `y` (R249 (2)). -/
def IsCodePrefix (x y : Nat × Nat) : Prop := x.2 ≤ y.2 ∧ y.1 / 2 ^ (y.2 - x.2) = x.1

/-- Every code below a node extends the node's. -/
theorem assignCodes_extends {t : HufTree} {code len : Nat} {e : Byte × Nat × Nat} (h : e ∈ assignCodes t code len) :
    IsCodePrefix (code, len) e.2 := by
  induction t generalizing code len with
  | leaf b =>
    cases List.mem_singleton.1 h
    exact ⟨le_rfl, by simp⟩
  | node l r ihl ihr =>
    have hchild (bit : Nat) (hbit : bit ≤ 1) (he : IsCodePrefix (2 * code + bit, len + 1) e.2) :
        IsCodePrefix (code, len) e.2 := by
      obtain ⟨hlen, hcode⟩ := he
      simp only at hlen hcode
      have hsub : e.2.2 - len = (e.2.2 - (len + 1)) + 1 := by omega
      refine ⟨by simp only; omega, ?_⟩
      simp only
      rw [hsub, pow_succ, ← Nat.div_div_eq_div_mul, hcode]
      omega
    obtain he | he := List.mem_append.1 h
    · exact hchild 1 le_rfl (ihl he)
    · exact hchild 0 (Nat.zero_le 1) (ihr he)

/-- A code longer than another extends at most one of the two codes below a node. -/
theorem not_isCodePrefix_of_siblings {a b len : Nat} {x y : Nat × Nat} (hab : a ≠ b) (hx : IsCodePrefix (a, len) x)
    (hy : IsCodePrefix (b, len) y) : ¬IsCodePrefix x y := by
  obtain ⟨hxlen, hxa⟩ := hx
  obtain ⟨hylen, hyb⟩ := hy
  rintro ⟨hxy, hprefix⟩
  refine hab ?_
  simp only at hxlen hylen hxa hyb
  have hsub : y.2 - len = (y.2 - x.2) + (x.2 - len) := by omega
  rw [← hxa, ← hyb, hsub, pow_add, ← Nat.div_div_eq_div_mul, hprefix]

/-- No code of a tree begins another one (R249 (2)). -/
theorem assignCodes_prefixFree (t : HufTree) (code len : Nat) :
    (assignCodes t code len).Pairwise fun x y => ¬IsCodePrefix x.2 y.2 ∧ ¬IsCodePrefix y.2 x.2 := by
  induction t generalizing code len with
  | leaf b => exact List.pairwise_singleton _ _
  | node l r ihl ihr =>
    refine List.pairwise_append.2 ⟨ihl _ _, ihr _ _, fun x hx y hy => ?_⟩
    have hl := assignCodes_extends hx
    have hr := assignCodes_extends hy
    exact ⟨not_isCodePrefix_of_siblings (by omega) hl hr, not_isCodePrefix_of_siblings (by omega) hr hl⟩

theorem not_isCodePrefix_of_mem {t : HufTree} {x y : Byte × Nat × Nat} (hx : x ∈ assignCodes t 0 0)
    (hy : y ∈ assignCodes t 0 0) (hne : x.1 ≠ y.1) : ¬IsCodePrefix x.2 y.2 :=
  have : Std.Symm fun x y : Byte × Nat × Nat => ¬IsCodePrefix x.2 y.2 ∧ ¬IsCodePrefix y.2 x.2 :=
    ⟨fun _ _ h => h.symm⟩
  ((assignCodes_prefixFree t 0 0).forall hx hy fun h => hne (congrArg Prod.fst h)).1

theorem HufTree.leaves_length_pos (t : HufTree) : 0 < t.leaves.length := by
  induction t with
  | leaf b => exact Nat.one_pos
  | node l r ihl _ => rw [HufTree.leaves, List.length_append]; omega

/-- A leaf of a tree of n leaves has a path of at most n - 1 edges. -/
theorem assignCodes_len_lt {t : HufTree} {code len : Nat} {e : Byte × Nat × Nat} (h : e ∈ assignCodes t code len) :
    e.2.2 < len + t.leaves.length := by
  induction t generalizing code len with
  | leaf b =>
    cases List.mem_singleton.1 h
    exact Nat.lt_succ_self len
  | node l r ihl ihr =>
    have hl := l.leaves_length_pos
    have hr := r.leaves_length_pos
    rw [HufTree.leaves, List.length_append]
    obtain he | he := List.mem_append.1 h
    · have := ihl he; omega
    · have := ihr he; omega

/-! ### The table (R247, R248) -/

theorem codeOf_mem {cs : List (Byte × Nat × Nat)} {b : Nat} {c : Nat × Nat} (h : codeOf cs b = some c) :
    ∃ e ∈ cs, e.1.toNat = b ∧ e.2 = c := by
  obtain ⟨e, he, hc⟩ := Option.map_eq_some_iff.1 h
  exact ⟨e, List.mem_of_find?_eq_some he, by simpa using List.find?_some he, hc⟩

theorem codeOf_eq_none_iff {cs : List (Byte × Nat × Nat)} {b : Nat} :
    codeOf cs b = none ↔ ∀ e ∈ cs, e.1.toNat ≠ b := by
  simp [codeOf]

/-- The entry of a byte value: its code, or none for a byte value with no leaf. -/
theorem tabOfCodes_getElem (cs : List (Byte × Nat × Nat)) (b : Fin 256) :
    (tabOfCodes cs)[b] =
      ((codeOf cs b.val).map fun c => { code := u32 c.1, len := BitVec.ofNat 6 c.2, valid := true }).getD
        CodeEntry.none := by
  simp only [tabOfCodes, Fin.getElem_fin, Vector.getElem_ofFn]
  cases codeOf cs b.val <;> rfl

/-- The byte value E_CODELEN reports is the least one whose code is too long (R247). -/
theorem tooLongByte_eq_some {cs : List (Byte × Nat × Nat)} {c : Byte × Nat × Nat} (hc : c ∈ cs) (hlong : 32 < c.2.2)
    (hleast : ∀ d ∈ cs, 32 < d.2.2 → c.1.toNat ≤ d.1.toNat) : tooLongByte cs = some c.1.toNat := by
  unfold tooLongByte
  rw [List.find?_range_eq_some]
  refine ⟨?_, c.1.isLt |> List.mem_range.2, fun j hj => ?_⟩
  · simp only [List.any_eq_true, Bool.and_eq_true, beq_iff_eq, decide_eq_true_eq]
    exact ⟨c, hc, rfl, hlong⟩
  · simp only [Bool.not_eq_true', List.any_eq_false, Bool.and_eq_true, beq_iff_eq, decide_eq_true_eq, not_and]
    exact fun d hd hdj hlen => by have := hleast d hd hlen; omega

theorem tooLongByte_eq_none_iff {cs : List (Byte × Nat × Nat)} : tooLongByte cs = none ↔ ∀ c ∈ cs, c.2.2 ≤ 32 := by
  unfold tooLongByte
  simp only [List.find?_eq_none, List.mem_range, List.any_eq_true, Bool.and_eq_true, beq_iff_eq, decide_eq_true_eq,
    not_exists, not_and, not_lt]
  exact ⟨fun h c hc => h c.1.toNat c.1.isLt c hc rfl, fun h _ _ c hc _ => h c hc⟩

/-! ### The builder (R248) -/

theorem buildTab_of_tooLong {f : Vector Word 256} {root : HufTree} {b : Nat}
    (h : buildTree (initialWorklist f) = some root) (hb : tooLongByte (assignCodes root 0 0) = some b) :
    buildTab f = .error { code := .codeLen, stage := .hufBuild, info := b } := by
  simp only [buildTab, tabOfWorklist, h, hb]

theorem buildTab_of_short {f : Vector Word 256} {root : HufTree} (h : buildTree (initialWorklist f) = some root)
    (hb : ∀ c ∈ assignCodes root 0 0, c.2.2 ≤ 32) : buildTab f = .ok (tabOfCodes (assignCodes root 0 0)) := by
  simp only [buildTab, tabOfWorklist, h, tooLongByte_eq_none_iff.2 hb]

theorem initialWorklist_eq_nil_iff {f : Vector Word 256} : initialWorklist f = [] ↔ ∀ b : Fin 256, f[b] = 0 := by
  rw [← List.length_eq_zero_iff, initialWorklist_length, countedBytes_length, List.countP_eq_zero]
  simp

/-- With no counted byte value the tree is undefined (R243). -/
theorem buildTab_of_zero {f : Vector Word 256} (h : ∀ b : Fin 256, f[b] = 0) :
    buildTab f = .error { code := .empty, stage := .hufBuild, info := 0 } := by
  simp only [buildTab, tabOfWorklist, initialWorklist_eq_nil_iff.2 h, buildTree_nil]

theorem exists_buildTree {f : Vector Word 256} {b : Fin 256} (h : f[b] ≠ 0) :
    ∃ root, buildTree (initialWorklist f) = some root :=
  have ⟨root, hroot, _⟩ := buildTree_perm (wl := initialWorklist f) fun h0 => h (initialWorklist_eq_nil_iff.1 h0 b)
  ⟨root, hroot⟩

/-- The builder's errors are data errors of HUF_BUILD, with a detail that ERRINFO holds; with a counted byte value the
error is E_CODELEN. -/
theorem buildTab_error {f : Vector Word 256} {e : Err} (h : buildTab f = .error e) :
    e.stage = .hufBuild ∧ e.info < 2 ^ 32 ∧ ((∃ b : Fin 256, f[b] ≠ 0) → e.code = .codeLen) := by
  by_cases hz : ∀ b : Fin 256, f[b] = 0
  · cases (buildTab_of_zero hz).symm.trans h
    exact ⟨rfl, by decide, fun ⟨b, hb⟩ => absurd (hz b) hb⟩
  · obtain ⟨b, hb⟩ := not_forall.1 hz
    obtain ⟨root, hroot⟩ := exists_buildTree hb
    cases hk : tooLongByte (assignCodes root 0 0) with
    | some k =>
      cases (buildTab_of_tooLong hroot hk).symm.trans h
      have : k < 256 := List.mem_range.1 (List.mem_of_find?_eq_some hk)
      exact ⟨rfl, by simp only; omega, fun _ => rfl⟩
    | none =>
      rw [buildTab_of_short hroot (tooLongByte_eq_none_iff.1 hk)] at h
      cases h

/-- A built table is the table of the codes of a tree on the counted byte values, none longer than 32 bits. -/
theorem buildTab_ok {f : Vector Word 256} {t : Vector CodeEntry 256} (h : buildTab f = .ok t) :
    ∃ root, buildTree (initialWorklist f) = some root ∧ (∀ c ∈ assignCodes root 0 0, c.2.2 ≤ 32) ∧
      t = tabOfCodes (assignCodes root 0 0) := by
  by_cases hz : ∀ b : Fin 256, f[b] = 0
  · rw [buildTab_of_zero hz] at h; cases h
  · obtain ⟨b, hb⟩ := not_forall.1 hz
    obtain ⟨root, hroot⟩ := exists_buildTree hb
    cases hk : tooLongByte (assignCodes root 0 0) with
    | some k =>
      rw [buildTab_of_tooLong hroot hk] at h
      cases h
    | none =>
      have hshort := tooLongByte_eq_none_iff.1 hk
      rw [buildTab_of_short hroot hshort] at h
      exact ⟨root, hroot, hshort, (Except.ok.inj h).symm⟩

/-- An entry of a table of codes that are not too long: it belongs to a code of its byte value, or is empty. -/
theorem tabOfCodes_cases {cs : List (Byte × Nat × Nat)} (hlen : ∀ c ∈ cs, c.2.2 ≤ 32) (b : Fin 256) :
    (∃ e ∈ cs, e.1 = BitVec.ofNat 8 b.val ∧ (tabOfCodes cs)[b].valid = true ∧
        (tabOfCodes cs)[b].len.toNat = e.2.2 ∧ (tabOfCodes cs)[b].code = u32 e.2.1) ∨
      ((∀ e ∈ cs, e.1.toNat ≠ b.val) ∧ (tabOfCodes cs)[b] = CodeEntry.none) := by
  rw [tabOfCodes_getElem]
  cases hc : codeOf cs b.val with
  | none => exact .inr ⟨codeOf_eq_none_iff.1 hc, rfl⟩
  | some c =>
    obtain ⟨e, he, hb, rfl⟩ := codeOf_mem hc
    have hle := hlen e he
    refine .inl ⟨e, he, BitVec.eq_of_toNat_eq ?_, rfl, ?_, rfl⟩
    · rw [hb, BitVec.toNat_ofNat, Nat.mod_eq_of_lt b.isLt]
    · exact Nat.mod_eq_of_lt (by omega)

/-- What a decoder needs of a code table: codes that fit their lengths of at most 32 bits, none of which begins
another one (R249). -/
structure IsPrefixTable (t : Vector CodeEntry 256) : Prop where
  len_le : ∀ b : Fin 256, t[b].len.toNat ≤ 32
  code_lt : ∀ b : Fin 256, t[b].code.toNat < 2 ^ t[b].len.toNat
  prefixFree : ∀ b d : Fin 256, b ≠ d → t[b].valid = true → t[d].valid = true →
    ¬IsCodePrefix (t[b].code.toNat, t[b].len.toNat) (t[d].code.toNat, t[d].len.toNat)

section Codes
variable {root : HufTree} (hlen : ∀ c ∈ assignCodes root 0 0, c.2.2 ≤ 32)
include hlen

theorem assignCodes_code_lt {e : Byte × Nat × Nat} (he : e ∈ assignCodes root 0 0) :
    e.2.1 < 2 ^ e.2.2 ∧ (u32 e.2.1).toNat = e.2.1 := by
  obtain ⟨-, hcode⟩ := assignCodes_extends he
  have hlt : e.2.1 < 2 ^ e.2.2 := (Nat.div_eq_zero_iff_lt (by positivity)).1 hcode
  have hpow : 2 ^ e.2.2 ≤ 2 ^ 32 := Nat.pow_le_pow_right (by decide) (hlen e he)
  exact ⟨hlt, Nat.mod_eq_of_lt (hlt.trans_le hpow)⟩

theorem isPrefixTable_tabOfCodes : IsPrefixTable (tabOfCodes (assignCodes root 0 0)) := by
  refine ⟨fun b => ?_, fun b => ?_, fun b d hbd hb hd => ?_⟩
  · obtain ⟨e, he, -, -, hl, -⟩ | ⟨-, h⟩ := tabOfCodes_cases hlen b
    · rw [hl]; exact hlen e he
    · rw [h]; exact Nat.zero_le _
  · obtain ⟨e, he, -, -, hl, hc⟩ | ⟨-, h⟩ := tabOfCodes_cases hlen b
    · obtain ⟨hlt, hcode⟩ := assignCodes_code_lt hlen he
      rwa [hl, hc, hcode]
    · rw [h]; exact Nat.one_pos
  · obtain ⟨e, he, hbe, -, hl, hc⟩ | ⟨-, h⟩ := tabOfCodes_cases hlen b
    · obtain ⟨e', he', hde, -, hl', hc'⟩ | ⟨-, h⟩ := tabOfCodes_cases hlen d
      · rw [hl, hc, hl', hc', (assignCodes_code_lt hlen he).2, (assignCodes_code_lt hlen he').2]
        exact not_isCodePrefix_of_mem he he' fun h => hbd (ofNat8_inj (hbe.symm.trans (h.trans hde)))
      · rw [h] at hd; cases hd
    · rw [h] at hb; cases hb

end Codes

theorem buildTab_isPrefixTable {f : Vector Word 256} {t : Vector CodeEntry 256} (h : buildTab f = .ok t) :
    IsPrefixTable t := by
  obtain ⟨root, -, hlen, rfl⟩ := buildTab_ok h
  exact isPrefixTable_tabOfCodes hlen

/-- A built table has a valid entry for each counted byte value, and no other. -/
theorem buildTab_valid_iff {f : Vector Word 256} {t : Vector CodeEntry 256} (h : buildTab f = .ok t) (b : Fin 256) :
    t[b].valid = true ↔ f[b] ≠ 0 := by
  obtain ⟨root, hroot, hlen, rfl⟩ := buildTab_ok h
  have hleaf : BitVec.ofNat 8 b.val ∈ (assignCodes root 0 0).map (fun e => e.1) ↔ f[b] ≠ 0 := by
    rw [assignCodes_bytes, (leaves_perm_countedBytes hroot).mem_iff, mem_countedBytes]
  rw [← hleaf, List.mem_map]
  obtain ⟨e, he, hbe, hv, -, -⟩ | ⟨hno, hnone⟩ := tabOfCodes_cases hlen b
  · exact iff_of_true hv ⟨e, he, hbe⟩
  · rw [hnone]
    refine iff_of_false nofun ?_
    rintro ⟨e, he, hbe⟩
    exact hno e he (by rw [hbe]; simp)

/-- A tree of at most 33 leaves has no code longer than 32 bits. -/
theorem exists_buildTab {f : Vector Word 256} (h1 : 1 ≤ (countedBytes f).length) (h33 : (countedBytes f).length ≤ 33) :
    ∃ t, buildTab f = .ok t := by
  have hne : initialWorklist f ≠ [] := by
    rw [← List.length_pos_iff, initialWorklist_length]; exact h1
  obtain ⟨root, hroot, hperm⟩ := buildTree_perm hne
  have hleaves := (leaves_perm_countedBytes hroot).length_eq
  have hshort : ∀ c ∈ assignCodes root 0 0, c.2.2 ≤ 32 := fun c hc => by
    have := assignCodes_len_lt hc
    omega
  exact ⟨_, buildTab_of_short hroot hshort⟩

/-- Settles O41: the table's valid entries are the tree's leaves, its codes the tree's codes. -/
theorem huffmanCodesArePrefixFree : Obligations.HuffmanCodesArePrefixFree := by
  intro f t h
  have ht := buildTab_isPrefixTable h
  exact ⟨fun b => ⟨buildTab_valid_iff h b, ht.len_le b, ht.code_lt b⟩,
    fun b d hbd hb hd hle hcode => ht.prefixFree b d hbd hb hd ⟨hle, hcode⟩⟩

end Sys2Proof.Machine
end

section
/-! PROOFS. Decoding (44_huffman R255 to R260): a table whose codes begin no other one decodes
the codes of a byte sequence to the sequence, and a table with no valid entry decodes nothing. -/

namespace Sys2Proof.Machine

/-! ### A running sample and the entries it matches (R255) -/

/-- A byte value as an index of a table. -/
def byteIx (b : Byte) : Fin 256 := ⟨b.toNat, b.isLt⟩

theorem ofNat_byteIx (b : Byte) : BitVec.ofNat 8 (byteIx b).val = b :=
  BitVec.ofNat_toNat 8 b |>.trans (BitVec.setWidth_eq b)

theorem atByte_eq {α : Type} (v : Vector α 256) (b : Byte) : atByte v b = v[byteIx b] := rfl

theorem CodeEntry.matches_iff {e : CodeEntry} {sv sl : Nat} :
    e.matches sv sl = true ↔ e.valid = true ∧ e.len.toNat = sl ∧ e.code.toNat = sv := by
  simp [CodeEntry.matches, and_assoc]

theorem matchByte_eq_none {t : Vector CodeEntry 256} {sv sl : Nat}
    (h : ∀ d : Fin 256, t[d].valid = true → t[d].len.toNat = sl → t[d].code.toNat ≠ sv) :
    matchByte t sv sl = none := by
  simp only [matchByte, Option.map_eq_none_iff, List.find?_eq_none, CodeEntry.matches_iff]
  exact fun d _ ⟨hv, hl, hc⟩ => h d hv hl hc

/-- A sample that one entry matches, and no other, is that entry's byte value. -/
theorem matchByte_eq_some {t : Vector CodeEntry 256} {sv sl : Nat} {b : Fin 256} (hb : t[b].matches sv sl = true)
    (h : ∀ d : Fin 256, t[d].matches sv sl = true → d = b) : matchByte t sv sl = some (BitVec.ofNat 8 b.val) := by
  unfold matchByte
  cases hf : (List.finRange 256).find? fun d => t[d].matches sv sl with
  | none => exact absurd hb (List.find?_eq_none.1 hf b (List.mem_finRange b))
  | some d => rw [h d (List.find?_some (p := fun d : Fin 256 => t[d].matches sv sl) hf)]; rfl

/-! ### The decoding loop, bit by bit (R257, R258) -/

section Loop
variable {t : Vector CodeEntry 256} {bit : Nat → Bool} {left i sv sl want : Nat}

theorem decodeLoop_of_no_match (hsl : sl < 32) (h : matchByte t (2 * sv + (bit i).toNat) (sl + 1) = none) :
    decodeLoop t bit (left + 1) i sv sl want =
      decodeLoop t bit left (i + 1) (2 * sv + (bit i).toNat) (sl + 1) want := by
  simp only [decodeLoop, h, if_neg (Nat.not_lt.2 hsl)]

theorem decodeLoop_of_match {b : Byte} (hsl : sl < 32)
    (h : matchByte t (2 * sv + (bit i).toNat) (sl + 1) = some b) :
    decodeLoop t bit (left + 1) i sv sl (want + 1) =
      (decodeLoop t bit left (i + 1) 0 0 want).map fun out => b :: out := by
  simp only [decodeLoop, h, if_neg (Nat.not_lt.2 hsl)]
  cases decodeLoop t bit left (i + 1) 0 0 want <;> rfl

/-- Where no sample ever matches, the loop stops at the 33rd bit, or at the end of the bits. -/
theorem decodeLoop_of_never_match (h : ∀ sv sl, matchByte t sv sl = none) (hsl : sl ≤ 32) :
    decodeLoop t bit left i sv sl want =
      if 32 < sl + left then .error (i + (32 - sl))
      else if sl + left = 0 ∧ want = 0 then .ok [] else .error (i + left) := by
  induction left generalizing i sv sl with
  | zero =>
    rw [if_neg (by omega)]
    unfold decodeLoop
    by_cases hend : sl = 0 ∧ want = 0
    · rw [if_neg (by omega), if_pos (by omega)]
    · rw [if_pos (by omega), if_neg (by omega)]
      rfl
  | succ left ih =>
    obtain hlt | rfl := Nat.lt_or_eq_of_le hsl
    · rw [decodeLoop_of_no_match hlt (h _ _), ih hlt, Nat.add_right_comm sl 1 left, Nat.add_assoc sl left 1,
        show i + 1 + (32 - (sl + 1)) = i + (32 - sl) by omega, show i + 1 + left = i + (left + 1) by omega]
    · rw [if_pos (by omega)]
      simp only [decodeLoop, if_pos (show 32 < 32 + 1 by decide)]
      rfl

end Loop

theorem degenerateByte_of_no_valid {t : Vector CodeEntry 256} (h : ∀ b : Fin 256, t[b].valid = false) :
    degenerateByte t = none := by
  have hfilter : (List.finRange 256).filter (fun b => t[b].valid) = [] :=
    List.filter_eq_nil_iff.2 fun b _ => Bool.eq_false_iff.1 (h b)
  simp only [degenerateByte, hfilter]

/-- Settles O45: no sample ever matches. -/
theorem decodeWithoutValidEntry : Obligations.DecodeWithoutValidEntry := by
  intro s t a nbits n h
  have hnever : ∀ sv sl, matchByte t sv sl = none := fun sv sl =>
    matchByte_eq_none fun d hd => absurd hd (Bool.eq_false_iff.1 (h d))
  simp only [State.decodePayload, degenerateByte_of_no_valid h, decodeLoop_of_never_match hnever (Nat.zero_le 32),
    Nat.zero_add, Nat.sub_zero]

/-! ### The bits of one code (R249, R257) -/

/-- The next bit of a code, MSB first, takes its leading bits one further. -/
theorem leadingBits_succ (c : Word) (k : Nat) :
    2 * (c.toNat / 2 ^ (k + 1)) + (c.getLsbD k).toNat = c.toNat / 2 ^ k := by
  rw [BitVec.getLsbD, Nat.toNat_testBit, pow_succ, ← Nat.div_div_eq_div_mul]
  omega

/-- The leading bits of a code begin it. -/
theorem isCodePrefix_leadingBits {c n k sl : Nat} (hn : n = sl + k) : IsCodePrefix (c / 2 ^ k, sl) (c, n) :=
  ⟨by simp [hn], by simp [hn]⟩

section Table
variable {t : Vector CodeEntry 256} (ht : IsPrefixTable t)
include ht

/-- No other entry matches a sample that has come from the bits of a valid code (R249 (2)). -/
theorem IsPrefixTable.eq_of_matches {b d : Fin 256} {sv sl : Nat} (hb : t[b].valid = true)
    (hsample : IsCodePrefix (sv, sl) (t[b].code.toNat, t[b].len.toNat)) (hd : t[d].matches sv sl = true) : d = b := by
  obtain ⟨hv, rfl, rfl⟩ := CodeEntry.matches_iff.1 hd
  exact by_contra fun hne => ht.prefixFree d b hne hv hb hsample

/-- The loop reads the last k + 1 bits of a valid code, and then has its byte value. -/
theorem IsPrefixTable.decodeLoop_code {b : Fin 256} (hb : t[b].valid = true) {bit : Nat → Bool} (rest want : Nat)
    {k i sl : Nat} (hlen : t[b].len.toNat = sl + (k + 1))
    (hbits : ∀ m, m < k + 1 → bit (i + m) = t[b].code.getLsbD (k - m)) :
    decodeLoop t bit (rest + (k + 1)) i (t[b].code.toNat / 2 ^ (k + 1)) sl (want + 1) =
      (decodeLoop t bit rest (i + (k + 1)) 0 0 want).map fun out => BitVec.ofNat 8 b.val :: out := by
  induction k generalizing i sl with
  | zero =>
    have hle := ht.len_le b
    refine decodeLoop_of_match (by omega) ?_
    have hfirst : bit i = t[b].code.getLsbD 0 := hbits 0 Nat.one_pos
    rw [hfirst, leadingBits_succ]
    refine matchByte_eq_some ?_ fun d hd => ht.eq_of_matches hb (isCodePrefix_leadingBits (k := 0) hlen) hd
    exact CodeEntry.matches_iff.2 ⟨hb, hlen, by simp⟩
  | succ k ih =>
    have hle := ht.len_le b
    have hlen' : t[b].len.toNat = sl + 1 + (k + 1) := by omega
    have hfirst : bit i = t[b].code.getLsbD (k + 1) := hbits 0 (Nat.succ_pos _)
    have hnone : matchByte t (t[b].code.toNat / 2 ^ (k + 1)) (sl + 1) = none := by
      refine matchByte_eq_none fun d hv hl hc => ?_
      have hdb := ht.eq_of_matches hb (isCodePrefix_leadingBits hlen') (CodeEntry.matches_iff.2 ⟨hv, hl, hc⟩)
      rw [hdb] at hl
      omega
    have hrest : ∀ m, m < k + 1 → bit (i + 1 + m) = t[b].code.getLsbD (k - m) := fun m hm => by
      rw [Nat.add_assoc, hbits (1 + m) (by omega), Nat.add_comm 1 m, Nat.add_sub_add_right]
    have hstep : 2 * (t[b].code.toNat / 2 ^ (k + 1 + 1)) + (bit i).toNat = t[b].code.toNat / 2 ^ (k + 1) := by
      rw [hfirst, leadingBits_succ]
    rw [← Nat.add_assoc rest, decodeLoop_of_no_match (by omega) (by rwa [hstep]), hstep, ih hlen' hrest,
      Nat.add_assoc i, Nat.add_comm 1]

/-- A valid code of length 0 is the only valid code (R259). -/
theorem IsPrefixTable.eq_of_len_zero {b d : Fin 256} (hb : t[b].valid = true) (hlen : t[b].len.toNat = 0)
    (hd : t[d].valid = true) : d = b := by
  refine by_contra fun hne => ht.prefixFree b d (Ne.symm hne) hb hd ⟨hlen.trans_le (Nat.zero_le _), ?_⟩
  have hcb := ht.code_lt b
  have hcd := ht.code_lt d
  rw [hlen] at hcb ⊢
  simp only [Nat.sub_zero, Nat.div_eq_of_lt hcd]
  omega

theorem IsPrefixTable.degenerateByte_of_len_zero {b : Fin 256} (hb : t[b].valid = true) (hlen : t[b].len.toNat = 0) :
    degenerateByte t = some (BitVec.ofNat 8 b.val) := by
  have hperm : ((List.finRange 256).filter fun d => t[d].valid).Perm [b] := by
    refine (List.perm_ext_iff_of_nodup ((List.nodup_finRange 256).filter _) (List.nodup_singleton b)).2 fun d => ?_
    rw [List.mem_filter, List.mem_singleton]
    exact ⟨fun ⟨_, hd⟩ => ht.eq_of_len_zero hb hlen hd, fun hd => ⟨List.mem_finRange d, hd ▸ hb⟩⟩
  simp only [degenerateByte, List.perm_singleton.1 hperm, if_pos (BitVec.eq_of_toNat_eq hlen : t[b].len = 0)]

end Table

theorem degenerateByte_eq_some {t : Vector CodeEntry 256} {b : Byte} (h : degenerateByte t = some b) :
    (atByte t b).len = 0 ∧ ∀ d : Byte, (atByte t d).valid = true → d = b := by
  unfold degenerateByte at h
  split at h
  · rename_i d hd
    split at h <;> cases h
    rename_i hlen
    have hbd : byteIx (BitVec.ofNat 8 d.val) = d := Fin.ext (by simp [byteIx])
    refine ⟨by simpa only [atByte_eq, hbd], fun c hc => ?_⟩
    have hmem : byteIx c ∈ (List.finRange 256).filter fun d => t[d].valid :=
      List.mem_filter.2 ⟨List.mem_finRange _, hc⟩
    rw [hd, List.mem_singleton] at hmem
    rw [← hmem, ofNat_byteIx]
  · cases h

/-! ### The codes of a byte sequence (R250, R260) -/

theorem codeBits_nil (t : Vector CodeEntry 256) : codeBits t [] = [] := rfl

theorem codeBits_cons (t : Vector CodeEntry 256) (b : Byte) (bs : List Byte) :
    codeBits t (b :: bs) = lowBits (atByte t b).code (atByte t b).len.toNat ++ codeBits t bs := rfl

theorem codeBits_append (t : Vector CodeEntry 256) (xs ys : List Byte) :
    codeBits t (xs ++ ys) = codeBits t xs ++ codeBits t ys := List.flatMap_append

theorem lowBits_getElem (v : Word) {n i : Nat} (h : i < (lowBits v n).length) :
    (lowBits v n)[i] = v.getLsbD (n - 1 - i) := by
  simp [lowBits]

theorem lowBits_getD (v : Word) {n i : Nat} (h : i < n) : (lowBits v n).getD i false = v.getLsbD (n - 1 - i) := by
  rw [← List.getElem_eq_getD (h := by simpa using h), lowBits_getElem]

section Table
variable {t : Vector CodeEntry 256} (ht : IsPrefixTable t)
include ht

/-- The loop gives back a byte sequence from its codes, where every code has a bit. -/
theorem IsPrefixTable.decodeLoop_codeBits {bit : Nat → Bool} {bs : List Byte}
    (hv : ∀ b ∈ bs, (atByte t b).valid = true) (hpos : ∀ b ∈ bs, (atByte t b).len.toNat ≠ 0) {i : Nat}
    (hbits : ∀ m, m < (codeBits t bs).length → bit (i + m) = (codeBits t bs).getD m false) :
    decodeLoop t bit (codeBits t bs).length i 0 0 bs.length = .ok bs := by
  induction bs generalizing i with
  | nil => rfl
  | cons b rest ih =>
    obtain ⟨k, hk⟩ := Nat.exists_eq_succ_of_ne_zero (hpos b List.mem_cons_self)
    rw [codeBits_cons, List.length_append, lowBits_length] at hbits ⊢
    have hcode : ∀ m, m < k + 1 → bit (i + m) = (atByte t b).code.getLsbD (k - m) := fun m hm => by
      rw [hbits m (by omega), List.getD_append _ _ _ _ (by simp; omega), lowBits_getD _ (by omega)]
      congr 1
      omega
    have hrest : ∀ m, m < (codeBits t rest).length → bit (i + (k + 1) + m) = (codeBits t rest).getD m false :=
      fun m hm => by
        rw [Nat.add_assoc, hbits (k + 1 + m) (by omega), List.getD_append_right _ _ _ _ (by simp; omega),
          lowBits_length]
        congr 1
        omega
    have hloop := ht.decodeLoop_code (b := byteIx b) (hv b List.mem_cons_self) (codeBits t rest).length rest.length
      (sl := 0) (by rw [← atByte_eq]; omega) hcode
    have hlt := ht.code_lt (byteIx b)
    rw [← atByte_eq, hk] at hlt
    rw [← atByte_eq, Nat.div_eq_of_lt hlt, ofNat_byteIx,
      ih (fun c hc => hv c (List.mem_cons_of_mem b hc)) (fun c hc => hpos c (List.mem_cons_of_mem b hc)) hrest] at hloop
    rw [hk, Nat.add_comm]
    exact hloop

/-- DECODE gives back a byte sequence from its codes (R260). -/
theorem IsPrefixTable.decodePayload_codeBits {s : State} {a : Nat} {bs : List Byte}
    (hv : ∀ b ∈ bs, (atByte t b).valid = true)
    (hbits : ∀ i, i < (codeBits t bs).length → s.payloadBit a i = (codeBits t bs).getD i false) :
    s.decodePayload t a (codeBits t bs).length bs.length = .ok bs := by
  unfold State.decodePayload
  cases hdeg : degenerateByte t with
  | some d =>
    obtain ⟨hlen, honly⟩ := degenerateByte_eq_some hdeg
    have hbs : bs = List.replicate bs.length d := List.eq_replicate_of_mem fun b hb => honly b (hv b hb)
    have hnil : codeBits t bs = [] := List.flatMap_eq_nil_iff.2 fun b hb => by
      rw [honly b (hv b hb), hlen]; rfl
    simp only [hnil, List.length_nil, ne_eq, not_true_eq_false, if_false, ← hbs]
  | none =>
    refine ht.decodeLoop_codeBits hv (fun b hb hlen => ?_) fun m hm => by rw [Nat.zero_add]; exact hbits m hm
    have := ht.degenerateByte_of_len_zero (b := byteIx b) (hv b hb) hlen
    rw [hdeg] at this
    cases this

end Table

end Sys2Proof.Machine
end

section
/-! PROOFS. The bit packer (45_bitpack R270): what a run of pushes leaves in LMEM and in BP, where it overflows, and the
end of a session. -/

namespace Sys2Proof.Machine

/-! ### Bits of a byte, MSB first -/

/-- The n low-order bits of a byte, most significant first. -/
def lowByteBits (b : Byte) (n : Nat) : List Bool := (List.range n).reverse.map fun j => b.getLsbD j

theorem BitPacker.pending_eq (b : BitPacker) : b.pending = lowByteBits b.acc b.nacc.toNat := rfl

@[simp] theorem lowByteBits_length (b : Byte) (n : Nat) : (lowByteBits b n).length = n := by simp [lowByteBits]

@[simp] theorem BitPacker.pending_length (b : BitPacker) : b.pending.length = b.nacc.toNat := lowByteBits_length _ _

theorem lowByteBits_getD (b : Byte) {n i : Nat} (h : i < n) :
    (lowByteBits b n).getD i false = b.getLsbD (n - 1 - i) := by
  rw [← List.getElem_eq_getD (h := by simpa using h)]
  simp [lowByteBits]

/-- The remainder after a push of one bit. -/
def pushedAcc (acc : Byte) (bit : Bool) : Byte := (acc <<< 1) ||| (BitVec.ofBool bit).setWidth 8

theorem pushedAcc_getLsbD_zero (acc : Byte) (bit : Bool) : (pushedAcc acc bit).getLsbD 0 = bit := by
  simp [pushedAcc]

theorem pushedAcc_getLsbD_succ (acc : Byte) (bit : Bool) {j : Nat} (h : j < 7) :
    (pushedAcc acc bit).getLsbD (j + 1) = acc.getLsbD j := by
  have h8 : j + 1 < 8 := by omega
  simp [pushedAcc, h8, BitVec.getLsbD_eq_getElem, Nat.lt_of_succ_lt h8]

/-- A push appends its bit to those of the remainder. -/
theorem lowByteBits_pushedAcc (acc : Byte) (bit : Bool) {n : Nat} (h : n < 8) :
    lowByteBits (pushedAcc acc bit) (n + 1) = lowByteBits acc n ++ [bit] := by
  rw [lowByteBits, List.range_succ_eq_map, List.reverse_cons, List.map_append, List.map_singleton,
    pushedAcc_getLsbD_zero, ← List.map_reverse, List.map_map]
  congr 1
  refine List.map_congr_left fun j hj => pushedAcc_getLsbD_succ acc bit ?_
  have : j < n := by simpa using hj
  omega

theorem State.payloadBit_add (s : State) (a k j : Nat) : s.payloadBit a (8 * k + j) = s.payloadBit (a + k) j := by
  rw [State.payloadBit, State.payloadBit, Nat.mul_add_mod, Nat.mul_add_div (by decide), Nat.add_assoc]

theorem State.payloadBit_congr {s t : State} {a i : Nat} (h : t.readByte (a + i / 8) = s.readByte (a + i / 8)) :
    t.payloadBit a i = s.payloadBit a i := by
  rw [State.payloadBit, State.payloadBit, h]

/-! ### One push -/

/-- The address of the next byte of the session. -/
abbrev State.nextByte (s : State) : Nat := s.bp.base.toNat + s.bp.bytes.toNat

theorem State.bpFlush_readByte (s : State) (b : Byte) (x : Nat) :
    (s.bpFlush b).readByte x = if x = s.nextByte then b else s.readByte x := by
  change (s.writeBytes s.nextByte [b]).readByte x = _
  rw [State.readByte_writeBytes]
  by_cases hx : x = s.nextByte
  · simp [hx]
  · rw [dif_neg (by simp only [List.length_singleton]; omega), if_neg hx]

/-- A byte flushed to the session stands there MSB first, and every other byte is as before. -/
theorem State.bpFlush_holds (s : State) (b : Byte) {i : Nat} (h : i < 8) :
    (s.bpFlush b).payloadBit s.nextByte i = b.getLsbD (7 - i) := by
  rw [State.payloadBit, State.bpFlush_readByte, if_pos (by omega), Nat.mod_eq_of_lt h]

theorem State.bpFlush_keepsOutside (s : State) (b : Byte) : s.KeepsOutside (s.bpFlush b) s.nextByte 1 := fun x hx => by
  rw [State.bpFlush_readByte, if_neg (by omega)]

/-- The state after a push, before its byte is flushed. -/
abbrev State.pushed (s : State) (bit : Bool) : State :=
  { s with bp :=
      { s.bp with acc := pushedAcc s.bp.acc bit, nacc := s.bp.nacc + 1, total := s.bp.total + 1 } }

theorem State.bpPush_of_lt {s : State} (h : s.bp.nacc.toNat < 7) (bit : Bool) :
    s.bpPush bit = some (s.pushed bit) := by
  have h7 : s.bp.nacc ≠ 7 := fun h0 => by simp [h0] at h
  simp only [State.bpPush, if_neg h7]
  rfl

theorem State.bpPush_of_eq {s : State} (h : s.bp.nacc.toNat = 7) (bit : Bool) :
    s.bpPush bit =
      if s.bp.cap.toNat ≤ s.bp.bytes.toNat then none
      else some ((s.pushed bit).bpFlush (pushedAcc s.bp.acc bit)) := by
  have h7 : s.bp.nacc = 7 := BitVec.eq_of_toNat_eq h
  simp only [State.bpPush, if_pos h7, BitPacker.full, decide_eq_true_eq]
  rfl

/-! ### A run of pushes -/

/-- The pending bits of the session and then `bits`. -/
abbrev State.stream (s : State) (bits : List Bool) : List Bool := s.bp.pending ++ bits

/-- `t` is `s` after its session has taken `bits`: the whole bytes of the stream have been written to the next bytes of
the session, the rest is pending, and nothing else has changed but the counters. -/
structure State.Packs (s : State) (bits : List Bool) (t : State) : Prop where
  frame : t = { s with
    lmem := t.lmem
    bp :=
      { s.bp with
        acc := t.bp.acc
        nacc := BitVec.ofNat 3 ((s.stream bits).length % 8)
        bytes := s.bp.bytes + u32 ((s.stream bits).length / 8)
        total := s.bp.total + BitVec.ofNat 64 bits.length } }
  pending : t.bp.pending = (s.stream bits).drop (8 * ((s.stream bits).length / 8))
  written : ∀ i, i < 8 * ((s.stream bits).length / 8) → t.payloadBit s.nextByte i = (s.stream bits).getD i false
  keeps : s.KeepsOutside t s.nextByte ((s.stream bits).length / 8)

theorem State.stream_length (s : State) (bits : List Bool) :
    (s.stream bits).length = s.bp.nacc.toNat + bits.length := by simp

theorem State.Packs.nil (s : State) : s.Packs [] s := by
  have hlt : s.bp.nacc.toNat < 8 := s.bp.nacc.isLt
  have hlen : (s.stream []).length = s.bp.nacc.toNat := by simp
  have hdiv : (s.stream []).length / 8 = 0 := by omega
  refine ⟨?_, ?_, fun i hi => ?_, fun x _ => rfl⟩
  · have hnacc : BitVec.ofNat 3 ((s.stream []).length % 8) = s.bp.nacc := by
      rw [hlen, Nat.mod_eq_of_lt hlt, BitVec.ofNat_toNat, BitVec.setWidth_eq]
    rw [hnacc, hdiv]
    simp [u32]
  · rw [hdiv, Nat.mul_zero, List.drop_zero, State.stream, List.append_nil]
  · rw [hdiv] at hi; omega

/-- One push that fits the capacity takes its bit. -/
theorem State.bpPush_fits {s : State} {bit : Bool}
    (h : s.bp.bytes.toNat + (s.stream [bit]).length / 8 ≤ s.bp.cap.toNat) :
    ∃ t, s.bpPush bit = some t ∧ s.Packs [bit] t := by
  have hlen : (s.stream [bit]).length = s.bp.nacc.toNat + 1 := by simp
  have hbits : s.stream [bit] = lowByteBits (pushedAcc s.bp.acc bit) (s.bp.nacc.toNat + 1) := by
    rw [lowByteBits_pushedAcc _ _ s.bp.nacc.isLt, State.stream, BitPacker.pending_eq]
  obtain hlt | h7 := Nat.lt_or_eq_of_le (Nat.lt_succ_iff.1 s.bp.nacc.isLt)
  · have hdiv : (s.stream [bit]).length / 8 = 0 := by omega
    have hnacc : s.bp.nacc + 1 = BitVec.ofNat 3 ((s.stream [bit]).length % 8) := by
      rw [hlen]
      apply BitVec.eq_of_toNat_eq
      simp
    refine ⟨_, State.bpPush_of_lt hlt bit, ?_, ?_, fun i hi => ?_, fun x _ => rfl⟩
    · rw [hdiv, ← hnacc]
      simp [u32]
    · rw [hdiv, Nat.mul_zero, List.drop_zero, hbits, BitPacker.pending_eq]
      congr 1
      simp
      omega
    · rw [hdiv] at hi; omega
  · have hdiv : (s.stream [bit]).length / 8 = 1 := by omega
    have hnacc : (0 : BitVec 3) = BitVec.ofNat 3 ((s.stream [bit]).length % 8) := by
      rw [hlen, h7]
      rfl
    refine ⟨_, (State.bpPush_of_eq h7 bit).trans (if_neg (by omega)), ?_, ?_, fun i hi => ?_, ?_⟩
    · rw [hdiv, ← hnacc]
      rfl
    · rw [hdiv, List.drop_eq_nil_of_le (by omega)]
      rfl
    · rw [hdiv] at hi
      rw [hbits, lowByteBits_getD _ (by omega), h7]
      exact (s.pushed bit).bpFlush_holds _ hi
    · rw [hdiv]
      exact (s.pushed bit).bpFlush_keepsOutside _

theorem State.bpPush_overflows {s : State} {bit : Bool} (hb : s.bp.bytes.toNat ≤ s.bp.cap.toNat)
    (h : s.bp.cap.toNat < s.bp.bytes.toNat + (s.stream [bit]).length / 8) : s.bpPush bit = none := by
  have hlt : s.bp.nacc.toNat < 8 := s.bp.nacc.isLt
  have hlen : (s.stream [bit]).length = s.bp.nacc.toNat + 1 := by simp
  have h7 : s.bp.nacc.toNat = 7 := by omega
  rw [State.bpPush_of_eq h7, if_pos (by omega)]

section Trans
variable {s m t : State} {xs ys : List Bool}

theorem u32_add (m n : Nat) : u32 (m + n) = u32 m + u32 n := BitVec.ofNat_add m n

theorem State.Packs.bytes_toNat (h : s.Packs xs m)
    (hroom : s.bp.bytes.toNat + (s.stream xs).length / 8 ≤ s.bp.cap.toNat) :
    m.bp.bytes.toNat = s.bp.bytes.toNat + (s.stream xs).length / 8 := by
  have hcap := s.bp.cap.isLt
  rw [h.frame, u32, BitVec.toNat_add, BitVec.toNat_ofNat, Nat.add_mod_mod, Nat.mod_eq_of_lt (by omega)]

theorem State.Packs.cap_eq (h : s.Packs xs m) : m.bp.cap = s.bp.cap := by rw [h.frame]

theorem State.Packs.stream_eq (h : s.Packs xs m) (ys : List Bool) :
    m.stream ys = (s.stream (xs ++ ys)).drop (8 * ((s.stream xs).length / 8)) := by
  rw [State.stream, h.pending, ← List.drop_append_of_le_length (Nat.mul_div_le _ _), List.append_assoc]

/-- The length of a stream, counted past the whole bytes of its first part. -/
theorem State.Packs.stream_length_eq (h : s.Packs xs m) (ys : List Bool) :
    (s.stream (xs ++ ys)).length = 8 * ((s.stream xs).length / 8) + (m.stream ys).length := by
  rw [h.stream_eq, List.length_drop]
  have hle := Nat.mul_div_le (s.stream xs).length 8
  simp only [State.stream, List.length_append] at hle ⊢
  omega

/-- Two runs of pushes make one. -/
theorem State.Packs.trans (h : s.Packs xs m) (k : m.Packs ys t)
    (hroom : s.bp.bytes.toNat + (s.stream xs).length / 8 ≤ s.bp.cap.toNat) : s.Packs (xs ++ ys) t := by
  have hlen := h.stream_length_eq ys
  have hdiv : (s.stream (xs ++ ys)).length / 8 = (s.stream xs).length / 8 + (m.stream ys).length / 8 := by omega
  have hmod : (s.stream (xs ++ ys)).length % 8 = (m.stream ys).length % 8 := by omega
  have hnext : m.nextByte = s.nextByte + (s.stream xs).length / 8 := by
    have hbase : m.bp.base = s.bp.base := by rw [h.frame]
    rw [State.nextByte, hbase, h.bytes_toNat hroom, Nat.add_assoc]
  refine ⟨?_, ?_, fun i hi => ?_, fun x hx => ?_⟩
  · have hk := k.frame
    have hbytes : m.bp.bytes + u32 ((m.stream ys).length / 8) =
        s.bp.bytes + u32 ((s.stream (xs ++ ys)).length / 8) := by
      rw [hdiv, u32_add, ← BitVec.add_assoc, congrArg (fun u => u.bp.bytes) h.frame]
    have htotal : m.bp.total + BitVec.ofNat 64 ys.length = s.bp.total + BitVec.ofNat 64 (xs ++ ys).length := by
      rw [List.length_append, BitVec.ofNat_add, ← BitVec.add_assoc, congrArg (fun u => u.bp.total) h.frame]
    rw [← hmod, hbytes, htotal] at hk
    refine hk.trans ?_
    rw [h.frame]
  · rw [k.pending, h.stream_eq, List.drop_drop, ← h.stream_eq, ← Nat.mul_add, hdiv]
  · obtain hlt | hge := Nat.lt_or_ge i (8 * ((s.stream xs).length / 8))
    · rw [State.payloadBit_congr (k.keeps _ (.inl (by rw [hnext]; omega))), h.written i hlt, State.stream, State.stream,
        ← List.append_assoc, List.getD_append _ _ _ _ (hlt.trans_le (Nat.mul_div_le _ _))]
    · obtain ⟨j, rfl⟩ := Nat.exists_eq_add_of_le hge
      rw [State.payloadBit_add, ← hnext, k.written j (by omega), h.stream_eq]
      simp
  · rw [k.keeps x (by rw [hnext]; omega), h.keeps x (by omega)]

end Trans

/-- A run of pushes takes its bits where the whole bytes of the stream fit the capacity. -/
theorem State.bpPushAll_fits {s : State} {bits : List Bool}
    (h : s.bp.bytes.toNat + (s.stream bits).length / 8 ≤ s.bp.cap.toNat) :
    ∃ t, s.bpPushAll bits = (t, true) ∧ s.Packs bits t := by
  induction bits generalizing s with
  | nil => exact ⟨s, rfl, .nil s⟩
  | cons bit rest ih =>
    have hle : (s.stream [bit]).length / 8 ≤ (s.stream (bit :: rest)).length / 8 :=
      Nat.div_le_div_right (by simp)
    obtain ⟨m, hpush, hm⟩ := State.bpPush_fits (s := s) (bit := bit) (by omega)
    have hroom : s.bp.bytes.toNat + (s.stream [bit]).length / 8 ≤ s.bp.cap.toNat := by omega
    have hlen := hm.stream_length_eq rest
    rw [List.singleton_append] at hlen
    obtain ⟨t, hall, ht⟩ := ih (s := m) (by rw [hm.bytes_toNat hroom, hm.cap_eq]; omega)
    exact ⟨t, by simp only [State.bpPushAll, hpush, hall], hm.trans ht hroom⟩

/-- A run of pushes overflows where they do not. -/
theorem State.bpPushAll_overflows {s : State} {bits : List Bool} (hb : s.bp.bytes.toNat ≤ s.bp.cap.toNat)
    (h : s.bp.cap.toNat < s.bp.bytes.toNat + (s.stream bits).length / 8) : ∃ t, s.bpPushAll bits = (t, false) := by
  induction bits generalizing s with
  | nil =>
    have hlt : s.bp.nacc.toNat < 8 := s.bp.nacc.isLt
    rw [State.stream_length, List.length_nil] at h
    omega
  | cons bit rest ih =>
    obtain hroom | hfull := le_or_gt (s.bp.bytes.toNat + (s.stream [bit]).length / 8) s.bp.cap.toNat
    · obtain ⟨m, hpush, hm⟩ := State.bpPush_fits hroom
      have hlen := hm.stream_length_eq rest
      rw [List.singleton_append] at hlen
      have hbytes := hm.bytes_toNat hroom
      obtain ⟨t, hall⟩ := ih (s := m) (by rw [hbytes, hm.cap_eq]; omega) (by rw [hbytes, hm.cap_eq]; omega)
      exact ⟨t, by simp only [State.bpPushAll, hpush, hall]⟩
    · exact ⟨s, by simp only [State.bpPushAll, State.bpPush_overflows hb hfull]⟩

end Sys2Proof.Machine
end

section
/-! PROOFS. A packer session as a whole (45_bitpack R270, R273, R274): its end, the bytes it can write, and the session
of an emission (44_huffman R250). -/

namespace Sys2Proof.Machine

/-! ### The bytes a session can write (R273) -/

/-- `t` is reached from `s` by pushes: its session is that of `s`, and only bytes from the session's next one up to its
capacity have been written. -/
structure State.WritesSession (s t : State) : Prop where
  base : t.bp.base = s.bp.base
  cap : t.bp.cap = s.bp.cap
  bytes_le : s.bp.bytes.toNat ≤ t.bp.bytes.toNat
  keeps : s.KeepsOutside t s.nextByte (s.bp.cap.toNat - s.bp.bytes.toNat)

theorem State.WritesSession.refl (s : State) : s.WritesSession s := ⟨rfl, rfl, le_rfl, fun _ _ => rfl⟩

theorem State.WritesSession.bpPush {s t u : State} {bit : Bool} (h : s.WritesSession t) (hp : t.bpPush bit = some u) :
    s.WritesSession u := by
  have hframe := State.bpPush_frame hp
  have hbase : u.bp.base = t.bp.base := by rw [hframe]
  have hcap : u.bp.cap = t.bp.cap := by rw [hframe]
  have hepoch : u.epoch = t.epoch := by rw [hframe]
  have hbytes := h.bytes_le
  obtain ⟨-, hm, hb, -⟩ | ⟨-, hlt, hb, -, b, hm⟩ := State.bpPush_cases hp
  · exact ⟨hbase.trans h.base, hcap.trans h.cap, hb ▸ hbytes, fun x hx =>
      (State.readByte_congr hm hepoch x).trans (h.keeps x hx)⟩
  · rw [h.cap] at hlt
    refine ⟨hbase.trans h.base, hcap.trans h.cap, by rw [hb]; bv_omega, fun x hx => ?_⟩
    have hread : u.readByte x = (t.writeBytes t.nextByte [b]).readByte x :=
      State.readByte_congr (s := t.writeBytes t.nextByte [b]) hm hepoch x
    rw [hread, State.readByte_writeBytes_outside t _ _ x, h.keeps x hx]
    rw [State.nextByte, h.base, List.length_singleton]
    rw [State.nextByte] at hx
    omega

theorem State.emitBytes_writesSession (s : State) (tab : Vector CodeEntry 256) (i : Nat) (bs : List Byte) :
    s.WritesSession (s.emitBytes tab i bs).1 :=
  State.emitBytes_induction (fun _ _ _ hs hp => hs.bpPush hp) tab bs i (.refl s)

/-! ### The end of a session (R274) -/

theorem BitPacker.padded_getLsbD (b : BitPacker) {i : Nat} (h : i < 8) :
    b.padded.getLsbD (7 - i) = b.pending.getD i false := by
  have hn : b.nacc.toNat < 8 := b.nacc.isLt
  rw [BitPacker.padded, BitVec.getLsbD_shiftLeft, BitPacker.pending_eq]
  obtain hlt | hge := Nat.lt_or_ge i b.nacc.toNat
  · rw [lowByteBits_getD _ hlt, show 7 - i - (8 - b.nacc.toNat) = b.nacc.toNat - 1 - i by omega]
    simp only [show 7 - i < 8 by omega, show ¬7 - i < 8 - b.nacc.toNat by omega, decide_true, decide_false,
      Bool.not_false, Bool.true_and]
  · rw [List.getD_eq_default _ _ (by simpa using hge)]
    simp only [show 7 - i < 8 - b.nacc.toNat by omega, decide_true, Bool.not_true, Bool.and_false, Bool.false_and]

/-- The session is closed, and nothing else changed. -/
abbrev State.closed (s : State) : State := { s with bp := { s.bp with isOpen := false } }

theorem State.bpEnd_of_nacc_zero {s : State} (h : s.bp.nacc.toNat = 0) : s.bpEnd = some s.closed :=
  if_pos (BitVec.eq_of_toNat_eq h)

theorem State.bpEnd_of_pending {s : State} (h : s.bp.nacc.toNat ≠ 0) :
    s.bpEnd =
      if s.bp.cap.toNat ≤ s.bp.bytes.toNat then none else some (s.bpFlush s.bp.padded).closed := by
  have hne : ¬s.bp.nacc = 0 := fun hz => h (by rw [hz]; rfl)
  simp only [State.bpEnd, if_neg hne, BitPacker.full, decide_eq_true_eq]

/-- A session whose last byte fits ends with the pending bits written and zero padded, ACC and NACC 0. -/
theorem State.bpEnd_fits {s : State} (hacc : s.bp.acc.toNat < 2 ^ s.bp.nacc.toNat)
    (h : s.bp.bytes.toNat + ceil8 s.bp.nacc.toNat ≤ s.bp.cap.toNat) :
    ∃ t, s.bpEnd = some t ∧
      t = { s with
        lmem := t.lmem
        bp :=
          { s.bp with
            isOpen := false, acc := 0, nacc := 0, bytes := s.bp.bytes + u32 (ceil8 s.bp.nacc.toNat) } } ∧
      t.HoldsBits s.nextByte s.bp.pending ∧ s.KeepsOutside t s.nextByte (ceil8 s.bp.nacc.toNat) := by
  have hn : s.bp.nacc.toNat < 8 := s.bp.nacc.isLt
  by_cases h0 : s.bp.nacc.toNat = 0
  · have hacc0 : s.bp.acc = 0 := BitVec.eq_of_toNat_eq (by rw [h0] at hacc; simpa using hacc)
    have hnacc : s.bp.nacc = 0 := BitVec.eq_of_toNat_eq h0
    refine ⟨_, State.bpEnd_of_nacc_zero h0, ?_, fun i hi => ?_, fun x _ => rfl⟩
    · rw [h0, ← hacc0, ← hnacc]
      simp [ceil8, u32]
    · rw [BitPacker.pending_length, h0] at hi
      exact absurd hi (Nat.not_lt_zero i)
  · have hone : ceil8 s.bp.nacc.toNat = 1 := by unfold ceil8; omega
    rw [hone] at h ⊢
    refine ⟨_, (State.bpEnd_of_pending h0).trans (if_neg (by omega)), rfl, fun i hi => ?_,
      s.bpFlush_keepsOutside _⟩
    rw [BitPacker.pending_length, hone] at hi
    exact (s.bpFlush_holds _ hi).trans (s.bp.padded_getLsbD hi)

theorem State.bpEnd_overflows {s : State} (h0 : s.bp.nacc.toNat ≠ 0) (h : s.bp.cap.toNat ≤ s.bp.bytes.toNat) :
    s.bpEnd = none := (State.bpEnd_of_pending h0).trans (if_pos h)

theorem State.bpEnd_keepsOutside {s t : State} (h : s.bpEnd = some t) :
    s.KeepsOutside t s.nextByte (s.bp.cap.toNat - s.bp.bytes.toNat) := by
  obtain ⟨-, rfl⟩ | ⟨-, hlt, rfl⟩ := State.bpEnd_cases h
  · exact fun _ _ => rfl
  · exact fun x hx => s.bpFlush_keepsOutside s.bp.padded x (by omega)

/-! ### A session from bpInit to bpFinish -/

/-- What a session leaves of BP: closed, with the counters of its bits (R270, R274). -/
def BitPacker.finished (base cap : Word) (rid : RegionId) (n : Nat) : BitPacker :=
  { isOpen := false, acc := 0, nacc := 0, bytes := u32 (ceil8 n), total := BitVec.ofNat 64 n, base := base, cap := cap
    rid := BitVec.ofNat 3 rid.num }

section Session
variable (s : State) {base cap : Word} (rid : RegionId) {bits : List Bool}

/-- In a new session the stream is the bits pushed. -/
theorem State.bpStart_stream (base cap : Word) (bits : List Bool) : (s.bpStart base cap rid).stream bits = bits := rfl

theorem State.bpStart_pushAll_fits (h : bits.length / 8 ≤ cap.toNat) :
    ∃ t, (s.bpStart base cap rid).bpPushAll bits = (t, true) ∧ (s.bpStart base cap rid).Packs bits t ∧
      t.bp.acc.toNat < 2 ^ t.bp.nacc.toNat := by
  obtain ⟨t, hall, hpacks⟩ := State.bpPushAll_fits (s := s.bpStart base cap rid) (bits := bits)
    (by rw [State.bpStart_stream]; exact (Nat.zero_add _).trans_le h)
  have hacc := State.bpPushAll_induction (P := fun u => u.bp.acc.toNat < 2 ^ u.bp.nacc.toNat)
    (fun _ _ _ hs hp => State.bpPush_acc_lt hp hs) bits (s := s.bpStart base cap rid) Nat.one_pos
  rw [hall] at hacc
  exact ⟨t, hall, hpacks, hacc⟩

theorem State.bpStart_pushAll_overflows (h : cap.toNat < bits.length / 8) :
    ∃ t, (s.bpStart base cap rid).bpPushAll bits = (t, false) :=
  State.bpPushAll_overflows (Nat.zero_le _) (by rw [State.bpStart_stream]; exact h.trans_eq (Nat.zero_add _).symm)

section Pushed
variable {s rid} {t : State} (hp : (s.bpStart base cap rid).Packs bits t)
include hp

theorem State.Packs.session_nacc : t.bp.nacc.toNat = bits.length % 8 := by
  have hnacc : t.bp.nacc = BitVec.ofNat 3 (bits.length % 8) := congrArg (fun u => u.bp.nacc) hp.frame
  rw [hnacc, BitVec.toNat_ofNat, Nat.mod_eq_of_lt (Nat.mod_lt _ (by decide))]

theorem State.Packs.session_bytes (h : bits.length / 8 ≤ cap.toNat) : t.bp.bytes.toNat = bits.length / 8 :=
  (hp.bytes_toNat (by rw [State.bpStart_stream]; exact (Nat.zero_add _).trans_le h)).trans (Nat.zero_add _)

theorem State.Packs.session_cap : t.bp.cap = cap := hp.cap_eq

/-- A session whose bits fit ends with them in LMEM, zero padded. -/
theorem State.Packs.session_end (hacc : t.bp.acc.toNat < 2 ^ t.bp.nacc.toNat) (h : ceil8 bits.length ≤ cap.toNat) :
    ∃ u, t.bpEnd = some u ∧
      u = { s with lmem := u.lmem, bp := BitPacker.finished base cap rid bits.length } ∧
      u.HoldsBits base.toNat bits ∧ s.KeepsOutside u base.toNat (ceil8 bits.length) := by
  have hfull : bits.length / 8 ≤ cap.toNat := le_trans (Nat.div_le_div_right (by omega)) h
  have hbytes := hp.session_bytes hfull
  have hnacc := hp.session_nacc
  have hceil : ceil8 bits.length = bits.length / 8 + ceil8 (bits.length % 8) := by unfold ceil8; omega
  have hbase : t.bp.base = base := congrArg (fun u => u.bp.base) hp.frame
  have hnext : t.nextByte = base.toNat + bits.length / 8 := by rw [State.nextByte, hbase, hbytes]
  have hstart : (s.bpStart base cap rid).nextByte = base.toNat := Nat.add_zero _
  have hpending : t.bp.pending = bits.drop (8 * (bits.length / 8)) := hp.pending
  obtain ⟨u, hend, hframe, hholds, hkeeps⟩ := State.bpEnd_fits hacc (by
    rw [hbytes, hnacc, hp.session_cap]; omega)
  refine ⟨u, hend, ?_, fun i hi => ?_, fun x hx => ?_⟩
  · have hcount : t.bp.bytes + u32 (ceil8 t.bp.nacc.toNat) = u32 (ceil8 bits.length) := by
      have hu : t.bp.bytes = u32 (bits.length / 8) :=
        (congrArg (fun u => u.bp.bytes) hp.frame).trans (BitVec.zero_add _)
      rw [hu, hnacc, ← u32_add, hceil]
    have htotal : t.bp.total = BitVec.ofNat 64 bits.length :=
      (congrArg (fun u => u.bp.total) hp.frame).trans (BitVec.zero_add _)
    rw [hcount] at hframe
    refine hframe.trans ?_
    rw [BitPacker.finished, ← htotal, hp.frame]
    rfl
  · obtain hlt | hge := Nat.lt_or_ge i (8 * (bits.length / 8))
    · have hsame := hkeeps (base.toNat + i / 8) (.inl (by rw [hnext]; omega))
      rw [State.payloadBit_congr hsame, ← hstart]
      exact hp.written i hlt
    · obtain ⟨j, rfl⟩ := Nat.exists_eq_add_of_le hge
      rw [State.payloadBit_add, ← hnext, hholds j (by rw [BitPacker.pending_length, hnacc]; omega), hpending]
      simp
  · rw [hkeeps x (by rw [hnext, hnacc]; omega), hp.keeps x (by rw [hstart, State.bpStart_stream]; omega)]
    rfl

/-- A session that is full before its last byte does not end. -/
theorem State.Packs.session_end_overflows (hfull : bits.length / 8 ≤ cap.toNat) (h : cap.toNat < ceil8 bits.length) :
    t.bpEnd = none := by
  unfold ceil8 at h
  refine State.bpEnd_overflows ?_ ?_
  · rw [hp.session_nacc]; omega
  · rw [hp.session_bytes hfull, hp.session_cap]; omega

end Pushed

end Session

/-! ### An emission (44_huffman R250) -/

/-- Bytes with usable codes are emitted by pushing their codes. -/
theorem State.emitBytes_append {s : State} {t : Vector CodeEntry 256} {xs : List Byte}
    (h : ∀ b ∈ xs, (atByte t b).usable = true) (i : Nat) (ys : List Byte) :
    s.emitBytes t i (xs ++ ys) =
      match s.bpPushAll (codeBits t xs) with
      | (u, true) => u.emitBytes t (i + xs.length) ys
      | (u, false) => (u, some .overflow) := by
  induction xs generalizing s i with
  | nil => rfl
  | cons b rest ih =>
    rw [codeBits_cons, State.bpPushAll_append, List.cons_append, State.emitBytes, if_pos (h b List.mem_cons_self)]
    unfold State.bpAdd
    rcases s.bpPushAll (lowBits (atByte t b).code (atByte t b).len.toNat) with ⟨u, _ | _⟩
    · rfl
    · simp only [ih (fun c hc => h c (List.mem_cons_of_mem b hc)), List.length_cons]
      rw [Nat.add_assoc, Nat.add_comm 1]

theorem usable_iff {e : CodeEntry} : e.usable = true ↔ e.valid = true ∧ e.len.toNat ≤ 32 := by
  simp [CodeEntry.usable]

section Emit
variable (s : State) {t : Vector CodeEntry 256} {bs : List Byte} {base cap : Word} (rid : RegionId)

/-- The state in which an emission starts. -/
abbrev State.emitStart (base cap : Word) : State := (s.enterPhase .hufEmit).bpStart base cap rid

theorem State.emitPhase_of_stop {u : State} {x : EmitStop}
    (h : (s.emitStart rid base cap).emitBytes t 0 bs = (u, some x)) : s.emitPhase t bs base cap rid = (u, some x) := by
  unfold State.emitPhase
  rw [h]

theorem State.emitPhase_of_end {u v : State} (h : (s.emitStart rid base cap).emitBytes t 0 bs = (u, none))
    (hend : u.bpEnd = some v) : s.emitPhase t bs base cap rid = (v, none) := by
  unfold State.emitPhase
  simp only [h, hend]

theorem State.emitPhase_of_no_end {u : State} (h : (s.emitStart rid base cap).emitBytes t 0 bs = (u, none))
    (hend : u.bpEnd = none) : s.emitPhase t bs base cap rid = (u, some .overflow) := by
  unfold State.emitPhase
  simp only [h, hend]

/-- An emission writes no byte outside its region, whether or not it is stopped (45_bitpack R273). -/
theorem State.emitPhase_keepsOutside :
    s.KeepsOutside (s.emitPhase t bs base cap rid).1 base.toNat cap.toNat := by
  have hwrites := (s.emitStart rid base cap).emitBytes_writesSession t 0 bs
  have hkeeps : s.KeepsOutside ((s.emitStart rid base cap).emitBytes t 0 bs).1 base.toNat cap.toNat := hwrites.keeps
  rcases hemit : (s.emitStart rid base cap).emitBytes t 0 bs with ⟨u, _ | x⟩ <;> rw [hemit] at hwrites hkeeps
  · cases hend : u.bpEnd with
    | none =>
      rw [State.emitPhase_of_no_end s rid hemit hend]
      exact hkeeps
    | some v =>
      rw [State.emitPhase_of_end s rid hemit hend]
      intro x hx
      have hbase : u.bp.base = base := hwrites.base
      have hcap : u.bp.cap = cap := hwrites.cap
      refine (State.bpEnd_keepsOutside hend x ?_).trans (hkeeps x hx)
      rw [State.nextByte, hbase, hcap]
      omega
  · rw [State.emitPhase_of_stop s rid hemit]
    exact hkeeps

section Usable
variable (hu : ∀ b ∈ bs, (atByte t b).usable = true)
include hu

/-- An emission whose codes fit the capacity leaves them in LMEM, zero padded, and the session closed. -/
theorem State.emitPhase_fits (h : ceil8 (codeBits t bs).length ≤ cap.toNat) :
    ∃ u, s.emitPhase t bs base cap rid = (u, none) ∧
      u = { s with
        lmem := u.lmem
        bp := BitPacker.finished base cap rid (codeBits t bs).length
        seq := { s.seq with phase := .hufEmit } } ∧
      u.HoldsBits base.toNat (codeBits t bs) ∧ s.KeepsOutside u base.toNat (ceil8 (codeBits t bs).length) := by
  have hfull : (codeBits t bs).length / 8 ≤ cap.toNat := le_trans (Nat.div_le_div_right (by omega)) h
  obtain ⟨m, hall, hpacks, hacc⟩ := (s.enterPhase .hufEmit).bpStart_pushAll_fits (base := base) rid hfull
  obtain ⟨u, hend, hframe, hholds, hkeeps⟩ := hpacks.session_end hacc h
  have hemit := State.emitBytes_append (s := s.emitStart rid base cap) hu 0 []
  rw [List.append_nil, hall] at hemit
  exact ⟨u, State.emitPhase_of_end s rid hemit hend, hframe, hholds, hkeeps⟩

/-- An emission whose codes do not fit overflows. -/
theorem State.emitPhase_overflows (h : cap.toNat < ceil8 (codeBits t bs).length) :
    (s.emitPhase t bs base cap rid).2 = some .overflow := by
  have hemit := State.emitBytes_append (s := s.emitStart rid base cap) hu 0 []
  rw [List.append_nil] at hemit
  obtain hfull | hover := le_or_gt ((codeBits t bs).length / 8) cap.toNat
  · obtain ⟨m, hall, hpacks, -⟩ := (s.enterPhase .hufEmit).bpStart_pushAll_fits (base := base) rid hfull
    rw [hall] at hemit
    rw [State.emitPhase_of_no_end s rid hemit (hpacks.session_end_overflows hfull h)]
  · obtain ⟨m, hall⟩ := (s.enterPhase .hufEmit).bpStart_pushAll_overflows (base := base) rid hover
    rw [hall] at hemit
    rw [State.emitPhase_of_stop s rid hemit]

end Usable

/-- An emission stops at the first byte with no usable code, unless the codes before it overflow. -/
theorem State.emitPhase_noCode {i : Nat} (hi : i < bs.length)
    (hu : ∀ b ∈ bs.take i, (atByte t b).usable = true) (hno : (atByte t bs[i]).usable = false) :
    (s.emitPhase t bs base cap rid).2 =
      some (if (codeBits t (bs.take i)).length / 8 ≤ cap.toNat then .noCode i else .overflow) := by
  have hbs : bs.take i ++ bs[i] :: bs.drop (i + 1) = bs := by
    rw [List.cons_getElem_drop_succ, List.take_append_drop]
  have hemit := State.emitBytes_append (s := s.emitStart rid base cap) hu 0 (bs[i] :: bs.drop (i + 1))
  rw [hbs, Nat.zero_add, List.length_take, Nat.min_eq_left hi.le] at hemit
  obtain hfull | hover := le_or_gt ((codeBits t (bs.take i)).length / 8) cap.toNat
  · obtain ⟨m, hall, -, -⟩ := (s.enterPhase .hufEmit).bpStart_pushAll_fits (base := base) rid hfull
    rw [hall] at hemit
    simp only [State.emitBytes, hno, Bool.false_eq_true, if_false] at hemit
    rw [State.emitPhase_of_stop s rid hemit, if_pos hfull]
  · obtain ⟨m, hall⟩ := (s.enterPhase .hufEmit).bpStart_pushAll_overflows (base := base) rid hover
    rw [hall] at hemit
    rw [State.emitPhase_of_stop s rid hemit, if_neg (Nat.not_le.2 hover)]

end Emit

end Sys2Proof.Machine
end

section
/-! PROOFS. The Huffman commands (44_huffman R240 to R260): what each leaves where it succeeds, what its data errors
leave, and the round trip of HUF_ENCODE and HUF_DECODE. -/

namespace Sys2Proof.Machine

/-! ### What a data error leaves (60_exceptions R347) -/

/-- Drawing free values over regions changes no byte outside those that are written. -/
theorem State.scrambleRegions_readByte (s : State) {rs : List Region} {x : Nat}
    (h : ∀ r ∈ rs, r.written = true → x < r.base ∨ r.base + r.size ≤ x) :
    (s.scrambleRegions rs).readByte x = s.readByte x :=
  State.scrambleRegions_induction (P := fun u => u.readByte x = s.readByte x)
    (fun r u hr hw hu => (State.readByte_scramble_outside u r.base r.size x (h r hr hw)).trans hu) rfl

theorem State.dataError_readByte (s : State) {rs : List Region} (e : Err) {x : Nat}
    (h : ∀ r ∈ rs, r.written = true → x < r.base ∨ r.base + r.size ≤ x) :
    (s.dataError rs e).readByte x = s.readByte x := s.scrambleRegions_readByte h

theorem State.packerError_readByte (s : State) {rs : List Region} (e : Err) {x : Nat}
    (h : ∀ r ∈ rs, r.written = true → x < r.base ∨ r.base + r.size ≤ x) :
    (s.packerError rs e).readByte x = s.readByte x := s.scrambleRegions_readByte h

theorem infoWord_of_lt {info : Nat} (h : info < 2 ^ 32) (draws : Nat) : infoWord draws info = BitVec.ofNat 32 info :=
  if_pos h

/-- A packer command's data error leaves the record written and BP closed, whatever the command had done to LMEM, BP,
the draws and SEQ. -/
theorem State.packerError_after {s u : State}
    (hu : u = { s with lmem := u.lmem, bp := u.bp, draws := u.draws, seq := u.seq }) (rs : List Region) {e : Err}
    (he : e.info < 2 ^ 32) :
    s.AfterPackerError (u.packerError rs e) e.code e.stage (BitVec.ofNat 32 e.info) := by
  refine ⟨rfl, ?_⟩
  have hframe : (u.packerError rs e).errInfo = BitVec.ofNat 32 e.info := infoWord_of_lt he _
  rw [← hframe, State.packerError, State.scrambleRegions_frame, hu]
  rfl

/-- What a body may change of a state, where the command does not quantize. -/
theorem State.Touches.frame_of_no_qnf {i : Instr} {s u : State} (h : s.Touches i u) (hi : i ∉ quantizingCommands) :
    u = { s with lmem := u.lmem, bp := u.bp, draws := u.draws, seq := u.seq } := by
  have hqnf := h.qnf_owner hi
  rw [h.frame, hqnf]

/-! ### HUF_FREQ (R240, R241) -/

theorem freqFn_toNat {bs : List Byte} (h : bs.length < 2 ^ 32) (b : Fin 256) :
    ((freqFn bs)[b]).toNat = byteCount bs b.val := by
  have hcount : byteCount bs b.val ≤ bs.length := List.countP_le_length
  simp only [freqFn, Fin.getElem_fin, Vector.getElem_ofFn, u32, BitVec.toNat_ofNat]
  exact Nat.mod_eq_of_lt (by omega)

theorem freqFn_ne_zero {bs : List Byte} (h : bs.length < 2 ^ 32) {b : Byte} (hb : b ∈ bs) :
    (freqFn bs)[byteIx b] ≠ 0 := by
  intro h0
  have hcount := freqFn_toNat h (byteIx b)
  rw [h0] at hcount
  exact List.countP_eq_zero.1 hcount.symm b hb (beq_self_eq_true _)

theorem byteCount_readBytes (s : State) (a n b : Nat) :
    byteCount (s.readBytes a n) b = (List.range n).countP fun i => (s.readByte (a + i)).toNat == b := by
  rw [byteCount, State.readBytes, List.countP_map]
  rfl

theorem emptyCheck_of_ne {s : State} (h : s.op.len ≠ 0) : emptyCheck s = none := failIf_of_not h _

theorem inputBytes_length_lt (s : State) : (inputBytes s).length < 2 ^ 32 := by
  rw [inputBytes, State.readBytes_length]
  exact s.op.len.isLt

/-- With a legal region and an input HUF_FREQ commits the counts of its bytes. -/
theorem exec_hufFreq_of_regionsOk {s : State} (hw : s.seq.work = Work.none)
    (h : s.RegionsOk [s.srcRegion s.op.len.toNat 1]) (hlen : s.op.len ≠ 0) :
    exec .hufFreq s = .next { s with freq := freqFn (inputBytes s), done := true, seq := Seq.idle } := by
  have hcheck : hufFreqCheck s = none := by
    rw [hufFreqCheck, inputRegion, State.regionCheck_of_regionsOk h, emptyCheck_of_ne hlen]
    rfl
  change execHufFreq s = _
  rw [execHufFreq, hcheck, State.checked_none]
  simp [State.complete, State.setWorkFreq, hw, Work.none]

/-- Settles O39: the working FREQ that the command commits holds the counts of the region's bytes. -/
theorem hufFreqCompletes : Obligations.HufFreqCompletes := by
  intro s hw h hlen
  refine ⟨_, exec_hufFreq_of_regionsOk hw h hlen, rfl, fun b => ?_⟩
  rw [freqFn_toNat (inputBytes_length_lt s), inputBytes, byteCount_readBytes]

/-! ### HUF_BUILD (R244, R247, R248) -/

theorem State.hufBuildPhase_of_ok (s : State) {f : Vector Word 256} {t : Vector CodeEntry 256}
    (h : buildTab f = .ok t) : s.hufBuildPhase f = .ok (((s.enterPhase .hufBuild).setWorklist []).setWorkTab t) := by
  unfold buildTab at h
  simp only [State.hufBuildPhase, State.setWorklist_seq, h]
  rfl

theorem State.hufBuildPhase_of_error (s : State) {f : Vector Word 256} {e : Err} (h : buildTab f = .error e) :
    s.hufBuildPhase f = .error e := by
  unfold buildTab at h
  simp only [State.hufBuildPhase, State.setWorklist_seq, h]

theorem exec_hufBuild_of_ok {s : State} (hw : s.seq.work = Work.none) {t : Vector CodeEntry 256}
    (h : buildTab s.freq = .ok t) :
    exec .hufBuild s = .next { s with tab := t, done := true, seq := Seq.idle } := by
  change execHufBuild s = _
  simp only [execHufBuild, s.hufBuildPhase_of_ok h]
  simp [State.complete, State.setWorkTab, State.setWorklist, State.enterPhase, hw, Work.none]

/-- HUF_BUILD writes no region, so its data error changes only the record (log 16). -/
theorem exec_hufBuild_of_error {s : State} {e : Err} (h : buildTab s.freq = .error e) :
    exec .hufBuild s = .next (s.afterError e.code .hufBuild (BitVec.ofNat 32 e.info)) := by
  obtain ⟨hstage, hinfo, -⟩ := buildTab_error h
  have hraise : s.dataError [] e = s.raise e := rfl
  change execHufBuild s = _
  simp only [execHufBuild, s.hufBuildPhase_of_error h]
  rw [hraise, State.raise_eq_afterError s hinfo, hstage]

/-- Settles O40: the end of the command by the builder's answer, and when the builder answers with a table. -/
theorem hufBuildCompletes : Obligations.HufBuildCompletes := by
  refine fun s => ⟨fun tab hw h => exec_hufBuild_of_ok hw h, fun e h => exec_hufBuild_of_error h,
    fun root hroot => ⟨fun c hc hlong hleast => ?_, fun hshort => ?_⟩, fun h1 h33 => ?_⟩
  · exact buildTab_of_tooLong hroot (tooLongByte_eq_some hc hlong hleast)
  · exact ⟨_, buildTab_of_short hroot hshort⟩
  · rw [← countedBytes_length] at h1 h33
    obtain ⟨tab, htab⟩ := exists_buildTab h1 h33
    exact ⟨tab, htab, buildTab_valid_iff htab⟩

/-! ### The end of HUF_EMIT and HUF_ENCODE (R250) -/

theorem u32_toNat (w : Word) : u32 w.toNat = w := (BitVec.ofNat_toNat 32 w).trans (BitVec.setWidth_eq w)

section EmitEnd
variable {s : State} {tab : Vector CodeEntry 256}

/-- Where the codes of the input fit CAP, the command commits its working tables and has them at DST. -/
theorem State.emitAndEnd_fits (hu : ∀ b ∈ inputBytes s, (atByte tab b).usable = true)
    (h : ceil8 (codeBits tab (inputBytes s)).length ≤ s.op.cap.toNat) {t : State} (ht : t = s.emitAndEnd tab) :
    t = { s.complete with
        lmem := t.lmem
        opr := { s.opr with bitcnt := BitVec.ofNat 64 (codeBits tab (inputBytes s)).length }
        outlen := u32 (ceil8 (codeBits tab (inputBytes s)).length)
        bp := BitPacker.finished s.op.dst s.op.cap .dst (codeBits tab (inputBytes s)).length } ∧
      t.HoldsBits s.op.dst.toNat (codeBits tab (inputBytes s)) ∧
      s.KeepsOutside t s.op.dst.toNat (ceil8 (codeBits tab (inputBytes s)).length) := by
  obtain ⟨u, hphase, hframe, hholds, hkeeps⟩ := s.emitPhase_fits (base := s.op.dst) .dst hu h
  have hend : t = u.bpResults.complete := by
    rw [ht]
    simp only [State.emitAndEnd, hphase]
  refine ⟨?_, ?_, ?_⟩
  · rw [hend, hframe]
    simp only [State.bpResults, State.setOutlen, State.setBitcnt, State.complete, BitPacker.finished, u32_toNat]
  · rw [hend]; exact hholds
  · rw [hend]; exact hkeeps

theorem EmitStop.err_info_lt {x : EmitStop} (h : ∀ i, x = .noCode i → i < 2 ^ 32) (rid : RegionId) :
    (x.err rid).info < 2 ^ 32 := by
  cases x with
  | noCode i => exact h i rfl
  | overflow => cases rid <;> decide

/-- Where the emission stops, only the region at DST, BP and the record have changed. -/
theorem State.emitAndEnd_stops {x : EmitStop}
    (hx : (s.emitPhase tab (inputBytes s) s.op.dst s.op.cap .dst).2 = some x) (hi : ∀ i, x = .noCode i → i < 2 ^ 32) :
    s.AfterPackerError (s.emitAndEnd tab) (x.err .dst).code .hufEmit (BitVec.ofNat 32 (x.err .dst).info) ∧
      s.KeepsOutside (s.emitAndEnd tab) s.op.dst.toNat s.op.cap.toNat := by
  have htouch := (State.Touches.refl .hufEmit s).emitPhase tab (inputBytes s) s.op.dst s.op.cap .dst
  have hkeeps := s.emitPhase_keepsOutside (t := tab) (bs := inputBytes s) (base := s.op.dst) (cap := s.op.cap) .dst
  rcases hphase : s.emitPhase tab (inputBytes s) s.op.dst s.op.cap .dst with ⟨u, y⟩
  rw [hphase] at hx htouch hkeeps
  simp only at hx htouch hkeeps
  subst hx
  have hend : s.emitAndEnd tab = u.packerError (emitRegions s) (x.err .dst) := by
    simp only [State.emitAndEnd, hphase]
  have hstage : (x.err .dst).stage = .hufEmit := by cases x <;> rfl
  rw [hend, ← hstage]
  refine ⟨State.packerError_after (htouch.frame_of_no_qnf (by simp)) _ (EmitStop.err_info_lt hi .dst), fun y hy => ?_⟩
  rw [State.packerError_readByte _ _ ?_, hkeeps y hy]
  intro r hr hwritten
  simp only [emitRegions, List.mem_cons, List.not_mem_nil, or_false] at hr
  obtain rfl | rfl := hr
  · cases hwritten
  · exact hy

theorem State.emitAndEnd_overflows (hu : ∀ b ∈ inputBytes s, (atByte tab b).usable = true)
    (h : s.op.cap.toNat < ceil8 (codeBits tab (inputBytes s)).length) :
    s.AfterPackerError (s.emitAndEnd tab) .overflow .hufEmit 2 ∧
      s.KeepsOutside (s.emitAndEnd tab) s.op.dst.toNat s.op.cap.toNat :=
  State.emitAndEnd_stops (s.emitPhase_overflows .dst hu h) nofun

end EmitEnd

/-! ### HUF_EMIT (R250) -/

theorem State.bpClosedCheck_of_closed {s : State} (h : s.bp.isOpen = false) (g : Stage) : s.bpClosedCheck g = none :=
  failIf_of_not (by simp [h]) _

theorem exec_hufEmit_of_regionsOk {s : State} (hbp : s.bp.isOpen = false)
    (h : s.RegionsOk [s.srcRegion s.op.len.toNat 1, s.dstRegion s.op.cap.toNat 1]) :
    exec .hufEmit s = .next (s.emitAndEnd s.tab) := by
  have hcheck : hufEmitCheck s = none := by
    rw [hufEmitCheck, State.bpClosedCheck_of_closed hbp, emitRegions, inputRegion, State.regionCheck_of_regionsOk h]
    rfl
  change execHufEmit s = _
  rw [execHufEmit, hcheck, State.checked_none]

/-- Settles O42: the end of the emission by the room in CAP, or by the first byte with no usable code. -/
theorem hufEmitCompletes : Obligations.HufEmitCompletes := by
  intro s hbp h bs hbs
  have hexec := exec_hufEmit_of_regionsOk hbp h
  have hbs : bs = inputBytes s := hbs
  subst hbs
  refine ⟨fun hu => ⟨fun hw hfit => ?_, fun hover => ?_⟩, fun i hi hu hno => ?_⟩
  · obtain ⟨hframe, hholds, hkeeps⟩ := State.emitAndEnd_fits (fun b hb => usable_iff.2 (hu b hb)) hfit rfl
    rw [State.complete_of_work_none hw] at hframe
    exact ⟨_, hexec, _, rfl, hframe, hholds, hkeeps⟩
  · exact ⟨_, hexec, State.emitAndEnd_overflows (fun b hb => usable_iff.2 (hu b hb)) hover⟩
  · have hunusable : (atByte s.tab (inputBytes s)[i]).usable = false := by
      rw [Bool.eq_false_iff, Ne, usable_iff, not_and_or, Bool.not_eq_true, Nat.not_le]
      exact hno
    have hlt : i < 2 ^ 32 := hi.trans (inputBytes_length_lt s)
    have hstop := s.emitPhase_noCode (base := s.op.dst) (cap := s.op.cap) .dst hi
      (fun b hb => usable_iff.2 (hu b hb)) hunusable
    refine ⟨_, hexec, ?_⟩
    by_cases hfit : (codeBits s.tab ((inputBytes s).take i)).length / 8 ≤ s.op.cap.toNat
    · rw [if_pos hfit] at hstop ⊢
      exact State.emitAndEnd_stops hstop fun j hj => by cases hj; exact hlt
    · rw [if_neg hfit] at hstop ⊢
      exact State.emitAndEnd_stops hstop nofun

/-! ### HUF_ENCODE (R253) -/

/-- The table built for the counts of a byte sequence has a usable code for each of its bytes. -/
theorem buildTab_freqFn_usable {bs : List Byte} (hlen : bs.length < 2 ^ 32) {tab : Vector CodeEntry 256}
    (h : buildTab (freqFn bs) = .ok tab) {b : Byte} (hb : b ∈ bs) : (atByte tab b).usable = true :=
  usable_iff.2 ⟨(buildTab_valid_iff h (byteIx b)).2 (freqFn_ne_zero hlen hb),
    (buildTab_isPrefixTable h).len_le (byteIx b)⟩

/-- The builder's error for the counts of a nonempty byte sequence is E_CODELEN. -/
theorem buildTab_freqFn_error {bs : List Byte} (hlen : bs.length < 2 ^ 32) (hne : bs ≠ []) {e : Err}
    (h : buildTab (freqFn bs) = .error e) : e.code = .codeLen := by
  obtain ⟨b, hb⟩ := List.exists_mem_of_ne_nil bs hne
  obtain ⟨-, -, hcode⟩ := buildTab_error h
  exact hcode ⟨byteIx b, freqFn_ne_zero hlen hb⟩

/-- The state in which HUF_ENCODE emits: counts and table of its input are its working tables. -/
def State.encodeReady (s : State) (f : Vector Word 256) (tab : Vector CodeEntry 256) : State :=
  { s with seq :=
      { s.seq with
        phase := .hufBuild, worklist := [], work := { s.seq.work with freq := some f, tab := some tab } } }

section EncodeReady
variable (s : State) (f : Vector Word 256) (tab : Vector CodeEntry 256)

/-- HUF_FREQ's and HUF_BUILD's phases make a state ready to emit. -/
theorem State.encodeReady_eq :
    ((((s.enterPhase .hufFreq).setWorkFreq f).enterPhase .hufBuild).setWorklist []).setWorkTab tab =
      s.encodeReady f tab := by
  simp only [State.setWorkTab, State.setWorklist, State.enterPhase, State.setWorkFreq, State.encodeReady]

theorem State.encodeReady_phaseTab : (s.encodeReady f tab).phaseTab = tab := rfl

theorem State.encodeReady_op : (s.encodeReady f tab).op = s.op := rfl

theorem State.encodeReady_readByte (x : Nat) : (s.encodeReady f tab).readByte x = s.readByte x := rfl

theorem State.encodeReady_inputBytes : inputBytes (s.encodeReady f tab) = inputBytes s := by
  rw [inputBytes, State.encodeReady_op]
  exact State.readBytes_congr fun x _ _ => s.encodeReady_readByte f tab x

theorem State.encodeReady_afterPackerError {t : State} {code : ErrCode} {stage : Stage} {info : Word}
    (h : (s.encodeReady f tab).AfterPackerError t code stage info) : s.AfterPackerError t code stage info := h

theorem State.encodeReady_complete (hw : s.seq.work = Work.none) :
    (s.encodeReady f tab).complete = { s with freq := f, tab := tab, done := true, seq := Seq.idle } := by
  simp [State.encodeReady, State.complete, hw, Work.none]

variable {s tab} (hu : ∀ b ∈ inputBytes s, (atByte tab b).usable = true)
include hu

theorem State.encodeReady_emitAndEnd_fits (h : ceil8 (codeBits tab (inputBytes s)).length ≤ s.op.cap.toNat) {t : State}
    (ht : t = (s.encodeReady f tab).emitAndEnd tab) :
    t = { (s.encodeReady f tab).complete with
        lmem := t.lmem
        opr := { s.opr with bitcnt := BitVec.ofNat 64 (codeBits tab (inputBytes s)).length }
        outlen := u32 (ceil8 (codeBits tab (inputBytes s)).length)
        bp := BitPacker.finished s.op.dst s.op.cap .dst (codeBits tab (inputBytes s)).length } ∧
      t.HoldsBits s.op.dst.toNat (codeBits tab (inputBytes s)) ∧
      s.KeepsOutside t s.op.dst.toNat (ceil8 (codeBits tab (inputBytes s)).length) := by
  rw [← s.encodeReady_inputBytes f tab] at hu h ⊢
  exact State.emitAndEnd_fits hu h ht

theorem State.encodeReady_emitAndEnd_overflows (h : s.op.cap.toNat < ceil8 (codeBits tab (inputBytes s)).length) :
    s.AfterPackerError ((s.encodeReady f tab).emitAndEnd tab) .overflow .hufEmit 2 ∧
      s.KeepsOutside ((s.encodeReady f tab).emitAndEnd tab) s.op.dst.toNat s.op.cap.toNat := by
  rw [← s.encodeReady_inputBytes f tab] at hu h
  exact State.emitAndEnd_overflows hu h

end EncodeReady

theorem State.hufPhases_of_ok (s : State) {bs : List Byte} {tab : Vector CodeEntry 256}
    (h : buildTab (freqFn bs) = .ok tab) :
    (s.hufFreqPhase bs).hufBuildPhase (freqFn bs) = .ok (s.encodeReady (freqFn bs) tab) := by
  rw [(s.hufFreqPhase bs).hufBuildPhase_of_ok h, State.hufFreqPhase, State.encodeReady_eq]

theorem hufEncodeCheck_of_regionsOk {s : State} (hbp : s.bp.isOpen = false)
    (h : s.RegionsOk [s.srcRegion s.op.len.toNat 1, s.dstRegion s.op.cap.toNat 1]) (hlen : s.op.len ≠ 0) :
    hufEncodeCheck s = none := by
  rw [hufEncodeCheck, State.bpClosedCheck_of_closed hbp, emitRegions, inputRegion, State.regionCheck_of_regionsOk h,
    emptyCheck_of_ne hlen]
  rfl

theorem exec_hufEncode_of_ok {s : State} (hc : hufEncodeCheck s = none) {tab : Vector CodeEntry 256}
    (h : buildTab (freqFn (inputBytes s)) = .ok tab) :
    exec .hufEncode s = .next ((s.encodeReady (freqFn (inputBytes s)) tab).emitAndEnd tab) := by
  change execHufEncode s = _
  simp only [execHufEncode, hc, State.checked_none, s.hufPhases_of_ok h, State.encodeReady_phaseTab]

theorem exec_hufEncode_of_error {s : State} (hc : hufEncodeCheck s = none) {e : Err}
    (h : buildTab (freqFn (inputBytes s)) = .error e) :
    exec .hufEncode s = .next (s.packerError (emitRegions s) e) := by
  change execHufEncode s = _
  simp only [execHufEncode, hc, State.checked_none, (s.hufFreqPhase (inputBytes s)).hufBuildPhase_of_error h]

/-- Settles O43: counts and table are the working tables with which the emission ends. -/
theorem hufEncodeCompletes : Obligations.HufEncodeCompletes := by
  intro s hbp h hlen bs hbs
  have hc := hufEncodeCheck_of_regionsOk hbp h hlen
  have hbs : bs = inputBytes s := hbs
  subst hbs
  have hsize := inputBytes_length_lt s
  refine ⟨fun tab htab => ?_, fun e he => ?_⟩
  · have hexec := exec_hufEncode_of_ok hc htab
    have hu : ∀ b ∈ inputBytes s, (atByte tab b).usable = true := fun b hb => buildTab_freqFn_usable hsize htab hb
    refine ⟨fun hw hfit => ?_, fun hover => ⟨_, hexec, State.encodeReady_emitAndEnd_overflows _ hu hover⟩⟩
    obtain ⟨hframe, hholds, hkeeps⟩ := State.encodeReady_emitAndEnd_fits _ hu hfit rfl
    rw [State.encodeReady_complete _ _ _ hw] at hframe
    exact ⟨_, hexec, _, rfl, hframe, hholds, hkeeps⟩
  · obtain ⟨hstage, hinfo, -⟩ := buildTab_error he
    have hne : inputBytes s ≠ [] := fun h0 => hlen (BitVec.eq_of_toNat_eq (by
      rw [← State.readBytes_length s s.op.src.toNat s.op.len.toNat]
      exact congrArg List.length h0))
    have hafter := State.packerError_after (s := s) (u := s) rfl (emitRegions s) hinfo
    rw [buildTab_freqFn_error hsize hne he, hstage] at hafter
    refine ⟨_, exec_hufEncode_of_error hc he, hafter, fun x hx => State.packerError_readByte s e ?_⟩
    intro r hr hwritten
    simp only [emitRegions, List.mem_cons, List.not_mem_nil, or_false] at hr
    obtain rfl | rfl := hr
    · cases hwritten
    · exact hx

/-! ### HUF_DECODE (R256, R257) -/

section Decode
variable {s : State} (h : s.RegionsOk [s.srcRegion (ceil8 s.op.bitcnt.toNat) 1, s.dstRegion s.op.len.toNat 1])
include h

theorem exec_hufDecode_of_ok {out : List Byte}
    (hdec : s.decodePayload s.tab s.op.src.toNat s.op.bitcnt.toNat s.op.len.toNat = .ok out) :
    exec .hufDecode s = .next ((s.writeBytes s.op.dst.toNat out).setOutlen s.op.len.toNat).complete := by
  change execHufDecode s = _
  simp only [execHufDecode, hufDecodeRegions, State.checked_regions_of_regionsOk h, hdec]

theorem exec_hufDecode_of_error {k : Nat}
    (hdec : s.decodePayload s.tab s.op.src.toNat s.op.bitcnt.toNat s.op.len.toNat = .error k) :
    exec .hufDecode s = .next (s.dataError (hufDecodeRegions s) (corruptErr k)) := by
  change execHufDecode s = _
  simp only [execHufDecode, hufDecodeRegions, State.checked_regions_of_regionsOk h, hdec]

end Decode

/-- Settles O44: the write of the decoded bytes, or the data error of the bit index. -/
theorem hufDecodeCompletes : Obligations.HufDecodeCompletes := by
  intro s h
  refine ⟨fun out hw hdec => ?_, fun k hdec => ?_⟩
  · have hlen := State.decodePayload_length hdec
    refine ⟨_, exec_hufDecode_of_ok h hdec, ?_, hlen, State.readByte_writeBytes_inside s _ out, fun x hx =>
      State.readByte_writeBytes_outside s _ out x (by rwa [hlen])⟩
    rw [State.complete_of_work_none (s := (s.writeBytes s.op.dst.toNat out).setOutlen s.op.len.toNat) hw]
    simp only [State.setOutlen, u32_toNat]
    rfl
  · refine ⟨_, exec_hufDecode_of_error h hdec, ?_, fun hk => ?_, fun x hx => State.dataError_readByte s _ ?_⟩
    · rw [State.dataError, State.scrambleRegions_frame]
      rfl
    · change (infoWord _ k).toNat = k
      rw [infoWord_of_lt hk, BitVec.toNat_ofNat, Nat.mod_eq_of_lt hk]
    · intro r hr hwritten
      simp only [hufDecodeRegions, List.mem_cons, List.not_mem_nil, or_false] at hr
      obtain rfl | rfl := hr
      · cases hwritten
      · exact hx

/-! ### The round trip (R260) -/

/-- A successful HUF_ENCODE has committed the table of its input's counts, and its payload stands at DST. -/
theorem hufEncode_succeeds {s t : State} (hs : s.done = false) (h : exec .hufEncode s = .next t)
    (ht : t.done = true) :
    ∃ tab, buildTab (freqFn (inputBytes s)) = .ok tab ∧ t.tab = tab ∧
      ceil8 (codeBits tab (inputBytes s)).length ≤ s.op.cap.toNat ∧
      t.opr.bitcnt = BitVec.ofNat 64 (codeBits tab (inputBytes s)).length ∧
      t.outlen = u32 (ceil8 (codeBits tab (inputBytes s)).length) ∧
      t.HoldsBits s.op.dst.toNat (codeBits tab (inputBytes s)) := by
  have hnot : ∀ u, exec .hufEncode s = .next u → u.done = s.done → False := fun u hu hdone => by
    cases hu.symm.trans h
    exact absurd (ht.symm.trans (hdone.trans hs)) (by decide)
  cases hc : hufEncodeCheck s with
  | some e => exact (hnot _ (exec_raise_of_precheck (i := .hufEncode) hc) rfl).elim
  | none =>
    cases hb : buildTab (freqFn (inputBytes s)) with
    | error e =>
      refine (hnot _ (exec_hufEncode_of_error hc hb) ?_).elim
      rw [State.packerError, State.scrambleRegions_frame]
      rfl
    | ok tab =>
      have hexec := exec_hufEncode_of_ok hc hb
      have hu : ∀ b ∈ inputBytes s, (atByte tab b).usable = true :=
        fun b hmem => buildTab_freqFn_usable (inputBytes_length_lt s) hb hmem
      obtain hfit | hover := le_or_gt (ceil8 (codeBits tab (inputBytes s)).length) s.op.cap.toNat
      · cases hexec.symm.trans h
        obtain ⟨hframe, hholds, -⟩ := State.encodeReady_emitAndEnd_fits (freqFn (inputBytes s)) hu hfit rfl
        exact ⟨tab, rfl, congrArg State.tab hframe, hfit, congrArg (fun u => u.opr.bitcnt) hframe,
          congrArg State.outlen hframe, hholds⟩
      · obtain ⟨⟨-, hframe⟩, -⟩ := State.encodeReady_emitAndEnd_overflows (freqFn (inputBytes s)) hu hover
        exact (hnot _ hexec (by rw [hframe]; rfl)).elim

/-- Settles O46: the payload is the codes of the input under a built table, and decoding gives the input back. -/
theorem huffmanRoundTrip : Obligations.HuffmanRoundTrip := by
  intro s t u hs _ hexec hdone hbytes htab hbitcnt hlen _ hregions
  obtain ⟨tab, hbuild, ht, hfit, hcount, houtlen, hholds⟩ := hufEncode_succeeds hs hexec hdone
  have hcap := s.op.cap.isLt
  have hout : t.outlen.toNat = ceil8 (codeBits tab (inputBytes s)).length := by
    rw [houtlen, u32, BitVec.toNat_ofNat, Nat.mod_eq_of_lt (by omega)]
  have hbits : u.op.bitcnt.toNat = (codeBits tab (inputBytes s)).length := by
    rw [hbitcnt, hcount, BitVec.toNat_ofNat, Nat.mod_eq_of_lt]
    unfold ceil8 at hfit
    omega
  have hlength : u.op.len.toNat = (inputBytes s).length := by rw [hlen, inputBytes, State.readBytes_length]
  have hpayload : ∀ i, i < (codeBits tab (inputBytes s)).length →
      u.payloadBit u.op.src.toNat i = (codeBits tab (inputBytes s)).getD i false := fun i hi => by
    have hin : i / 8 < t.outlen.toNat := by rw [hout]; unfold ceil8; omega
    rw [← hholds i (by unfold ceil8; omega), State.payloadBit, State.payloadBit, hbytes (i / 8) hin]
  have hdec := (buildTab_isPrefixTable hbuild).decodePayload_codeBits
    (fun b hb => (usable_iff.1 (buildTab_freqFn_usable (inputBytes_length_lt s) hbuild hb)).1) hpayload
  rw [← hbits, ← hlength, ← ht, ← htab] at hdec
  exact ⟨_, exec_hufDecode_of_ok hregions hdec, rfl, State.readByte_writeBytes_inside u _ (inputBytes s)⟩

end Sys2Proof.Machine
end

section
/-! PROOFS. PARSE by the checks M1 to M10 (47_container R324): the table after the entries that pass, and the number of
the first check that fails. -/

namespace Sys2Proof.Machine

/-! ### A code table entry by entry -/

theorem atByte_set {α : Type} (v : Vector α 256) (b c : Byte) (x : α) :
    atByte (v.set b.toNat x b.isLt) c = if b = c then x else atByte v c := by
  simp only [atByte, Vector.getElem_set, BitVec.toNat_inj]

theorem hasKey_iff {t : Vector CodeEntry 256} {bits : Word} {len : BitVec 6} :
    hasKey t bits len = true ↔
      ∃ b : Byte, (atByte t b).valid = true ∧ (atByte t b).code = bits ∧ (atByte t b).len = len := by
  simp only [hasKey, List.any_eq_true, Bool.and_eq_true, beq_iff_eq, and_assoc, Vector.mem_toList_iff,
    Vector.mem_iff_getElem]
  constructor
  · rintro ⟨e, ⟨i, hi, rfl⟩, h⟩
    have hb : (BitVec.ofNat 8 i).toNat = i := Nat.mod_eq_of_lt hi
    refine ⟨BitVec.ofNat 8 i, ?_⟩
    simpa only [atByte, hb] using h
  · rintro ⟨b, h⟩
    exact ⟨atByte t b, ⟨b.toNat, b.isLt, rfl⟩, h⟩

/-! ### The entries of a container -/

section Entries
variable {s : State} {a : Nat}

/-- `bitsCount` of entry `j` as LEN of a table entry. -/
abbrev State.entryLenField (s : State) (a j : Nat) : BitVec 6 := BitVec.ofInt 6 (s.entryLen a j)

/-- The table holds the first `j` entries of the container, and no other. -/
structure State.HoldsEntries (s : State) (a j : Nat) (t : Vector CodeEntry 256) : Prop where
  entry : ∀ i < j, atByte t (s.entryByte a i) =
    { code := s.entryBits a i, len := s.entryLenField a i, valid := true }
  only : ∀ b, (atByte t b).valid = true → ∃ i < j, s.entryByte a i = b

theorem State.HoldsEntries.zero (s : State) (a : Nat) :
    s.HoldsEntries a 0 (Vector.replicate 256 CodeEntry.none) :=
  ⟨nofun, fun b hb => by simp [atByte, CodeEntry.none] at hb⟩

theorem State.HoldsEntries.valid_iff {j : Nat} {t : Vector CodeEntry 256} (h : s.HoldsEntries a j t) (b : Byte) :
    (atByte t b).valid = true ↔ ∃ i < j, s.entryByte a i = b :=
  ⟨h.only b, fun ⟨i, hi, hb⟩ => by rw [← hb, h.entry i hi]⟩

theorem State.HoldsEntries.hasKey_iff {j : Nat} {t : Vector CodeEntry 256} (h : s.HoldsEntries a j t) (bits : Word)
    (len : BitVec 6) :
    hasKey t bits len = true ↔ ∃ i < j, s.entryBits a i = bits ∧ s.entryLenField a i = len := by
  rw [Machine.hasKey_iff]
  constructor
  · rintro ⟨b, hv, hc, hl⟩
    obtain ⟨i, hi, rfl⟩ := h.only b hv
    rw [h.entry i hi] at hc hl
    exact ⟨i, hi, hc, hl⟩
  · rintro ⟨i, hi, hc, hl⟩
    exact ⟨s.entryByte a i, by rw [h.entry i hi]; exact ⟨rfl, hc, hl⟩⟩

/-- Lengths of at most 32 are told apart by their LEN fields. -/
theorem ofInt6_inj {x y : Int} (hx : 0 ≤ x) (hx32 : x ≤ 32) (hy : 0 ≤ y) (hy32 : y ≤ 32) :
    BitVec.ofInt 6 x = BitVec.ofInt 6 y ↔ x = y := by
  rw [← BitVec.toNat_inj, BitVec.toNat_ofInt, BitVec.toNat_ofInt]
  omega

theorem State.parseEntries_zero (s : State) (e : Nat) (t : Vector CodeEntry 256) : s.parseEntries 0 e t = .ok t := rfl

/-- One turn of the loop, at entry `j` of the container. -/
theorem State.parseEntries_succ (s : State) (a j left : Nat) (t : Vector CodeEntry 256) :
    s.parseEntries (left + 1) (a + 16 + 9 * j) t =
      if s.entryLen a j < 0 ∨ 32 < s.entryLen a j then .error 4
      else if (atByte t (s.entryByte a j)).valid then .error 5
      else if hasKey t (s.entryBits a j) (s.entryLenField a j) then .error 6
      else s.parseEntries left (a + 16 + 9 * (j + 1))
        (t.set (s.entryByte a j).toNat
          { code := s.entryBits a j, len := s.entryLenField a j, valid := true } (s.entryByte a j).isLt) := rfl

section Loop
variable {j left : Nat} {t : Vector CodeEntry 256} (h : s.HoldsEntries a j t)
include h

theorem State.HoldsEntries.not_valid (hnew : ∀ i < j, s.entryByte a i ≠ s.entryByte a j) :
    ¬(atByte t (s.entryByte a j)).valid = true := fun hv =>
  have ⟨i, hi, hb⟩ := h.only _ hv
  hnew i hi hb

section LegalLen
variable (hlen : ¬(s.entryLen a j < 0 ∨ 32 < s.entryLen a j))
include hlen

theorem State.parseEntries_sameByte (hbyte : ∃ i < j, s.entryByte a i = s.entryByte a j) :
    s.parseEntries (left + 1) (a + 16 + 9 * j) t = .error 5 := by
  rw [State.parseEntries_succ, if_neg hlen, if_pos ((h.valid_iff _).2 hbyte)]

theorem State.parseEntries_sameKey (hbyte : ∀ i < j, s.entryByte a i ≠ s.entryByte a j)
    (hkey : ∃ i < j, s.entryBits a i = s.entryBits a j ∧ s.entryLen a i = s.entryLen a j) :
    s.parseEntries (left + 1) (a + 16 + 9 * j) t = .error 6 := by
  obtain ⟨i, hi, hbits, hsame⟩ := hkey
  have hhas : hasKey t (s.entryBits a j) (s.entryLenField a j) = true :=
    (h.hasKey_iff _ _).2 ⟨i, hi, hbits, congrArg (BitVec.ofInt 6) hsame⟩
  rw [State.parseEntries_succ, if_neg hlen, if_neg (h.not_valid hbyte), if_pos hhas]

end LegalLen

/-- The loop enters a legal entry into the table. -/
theorem State.parseEntries_legal (hprev : ∀ i < j, s.EntryLegal a i) (hj : s.EntryLegal a j) :
    ∃ t', s.HoldsEntries a (j + 1) t' ∧
      s.parseEntries (left + 1) (a + 16 + 9 * j) t = s.parseEntries left (a + 16 + 9 * (j + 1)) t' := by
  obtain ⟨h0, h32, hnew⟩ := hj
  have hlen : ¬(s.entryLen a j < 0 ∨ 32 < s.entryLen a j) := by omega
  have hkey : ¬hasKey t (s.entryBits a j) (s.entryLenField a j) = true := by
    rw [h.hasKey_iff]
    rintro ⟨i, hi, hbits, hsame⟩
    obtain ⟨hi0, hi32, -⟩ := hprev i hi
    exact (hnew i hi).2 ⟨hbits, (ofInt6_inj hi0 hi32 h0 h32).1 hsame⟩
  refine ⟨_, ⟨fun i hi => ?_, fun b hb => ?_⟩, by
    rw [State.parseEntries_succ, if_neg hlen, if_neg (h.not_valid fun i hi => (hnew i hi).1), if_neg hkey]⟩
  · rw [atByte_set]
    obtain hlt | rfl := Nat.lt_succ_iff_lt_or_eq.1 hi
    · rw [if_neg fun he => (hnew i hlt).1 he.symm, h.entry i hlt]
    · rw [if_pos rfl]
  · rw [atByte_set] at hb
    split at hb
    · rename_i he
      exact ⟨j, Nat.lt_succ_self j, he⟩
    · obtain ⟨i, hi, he⟩ := h.only b hb
      exact ⟨i, Nat.lt_succ_of_lt hi, he⟩

end Loop

/-- The loop enters every legal entry at the head of the table. -/
theorem State.parseEntries_of_legal {j : Nat} (hlegal : ∀ i < j, s.EntryLegal a i) (left : Nat) :
    ∃ t, s.HoldsEntries a j t ∧
      s.parseEntries (left + j) (a + 16) (Vector.replicate 256 CodeEntry.none) =
        s.parseEntries left (a + 16 + 9 * j) t := by
  induction j generalizing left with
  | zero => exact ⟨_, .zero s a, rfl⟩
  | succ j ih =>
    have hprev : ∀ i < j, s.EntryLegal a i := fun i hi => hlegal i (Nat.lt_succ_of_lt hi)
    obtain ⟨t, ht, hparse⟩ := ih hprev (left + 1)
    obtain ⟨t', ht', hstep⟩ := State.parseEntries_legal (left := left) ht hprev (hlegal j (Nat.lt_succ_self j))
    exact ⟨t', ht', by rw [← hstep, ← hparse, Nat.add_assoc, Nat.add_comm 1]⟩

end Entries

/-! ### The header and the trailer -/

section Checks
variable {s : State} {a n : Nat}

/-- PARSE, by the entry count that the container declares. -/
theorem State.parse_eq (s : State) (a n : Nat) :
    s.parse a n =
      if n < 16 then .error 1
      else if s.entryCount a < 0 ∨ 256 < s.entryCount a then .error 2
      else if (n : Int) < 28 + 9 * s.entryCount a then .error 3
      else
        (s.parseEntries (s.entryCount a).toNat (a + 16) (Vector.replicate 256 CodeEntry.none)).bind fun t =>
          s.parseTrailer a n (s.entryCount a).toNat t := by
  have hbind : ∀ (r : Except Nat (Vector CodeEntry 256)) (f : Vector CodeEntry 256 → Except Nat Parsed),
      (match r with
        | .error k => .error k
        | .ok t => f t) = r.bind f := fun r f => by cases r <;> rfl
  rw [← hbind]
  rfl

/-- The checks of the trailer, after a table of as many entries as the container declares. -/
theorem State.parseTrailer_eq (s : State) (a n : Nat) (t : Vector CodeEntry 256) :
    s.parseTrailer a n (s.entryCount a).toNat t =
      if s.trailerBits a < 0 then .error 7
      else if s.trailerLen a < 0 then .error 8
      else if 8 * s.trailerLen a < s.trailerBits a then .error 9
      else if (n : Int) < 28 + 9 * (s.entryCount a).toNat + s.trailerLen a then .error 10
      else
        .ok
          { width := s.field32 a, height := s.field32 (a + 4), quality := s.field32 (a + 8), tab := t
            nbits := s.field64 (a + 16 + 9 * (s.entryCount a).toNat)
            paddr := a + 28 + 9 * (s.entryCount a).toNat, plen := (s.trailerLen a).toNat } := by
  have haddr : a + 24 + 9 * (s.entryCount a).toNat = a + 16 + 9 * (s.entryCount a).toNat + 8 := by omega
  rw [State.trailerLen, haddr]
  rfl

theorem State.parse_of_headerLegal (h : s.HeaderLegal a n) :
    s.parse a n =
      (s.parseEntries (s.entryCount a).toNat (a + 16) (Vector.replicate 256 CodeEntry.none)).bind fun t =>
        s.parseTrailer a n (s.entryCount a).toNat t := by
  obtain ⟨h16, h0, h256, hsize⟩ := h
  rw [State.parse_eq, if_neg (Nat.not_lt.2 h16), if_neg (by omega), if_neg (Int.not_lt.2 hsize)]

/-- A container that fails first at an entry stops there. -/
theorem State.parse_of_failsAtEntry {j k : Nat} (h : s.FailsAtEntry a n j)
    (hstop : ∀ t left, s.HoldsEntries a j t → s.parseEntries (left + 1) (a + 16 + 9 * j) t = .error k) :
    s.parse a n = .error k := by
  obtain ⟨hheader, hj, hlegal⟩ := h
  obtain ⟨left, hleft⟩ := Nat.exists_eq_add_of_lt hj
  obtain ⟨t, ht, hparse⟩ := State.parseEntries_of_legal hlegal (left + 1)
  rw [State.parse_of_headerLegal hheader, hleft, show j + left + 1 = left + 1 + j by omega, hparse, hstop t left ht]
  rfl

/-- A container whose table is legal is left to its trailer. -/
theorem State.parse_of_tableLegal (h : s.TableLegal a n) :
    ∃ t, s.HoldsEntries a (s.entryCount a).toNat t ∧
      s.parse a n = s.parseTrailer a n (s.entryCount a).toNat t := by
  obtain ⟨hheader, hlegal⟩ := h
  obtain ⟨t, ht, hparse⟩ := State.parseEntries_of_legal hlegal 0
  rw [Nat.zero_add] at hparse
  refine ⟨t, ht, ?_⟩
  rw [State.parse_of_headerLegal hheader, hparse, State.parseEntries_zero, Except.bind]

/-- A container whose table is legal fails as its trailer does. -/
theorem State.parse_of_trailer {k : Nat} (h : s.TableLegal a n)
    (htrailer : ∀ t, s.parseTrailer a n (s.entryCount a).toNat t = .error k) : s.parse a n = .error k :=
  have ⟨t, _, hparse⟩ := State.parse_of_tableLegal h
  hparse.trans (htrailer t)

/-- PARSE reports the check that the container fails first. -/
theorem State.parse_of_malformed {k : Nat} (h : s.Malformed a n k) : s.parse a n = .error k := by
  unfold State.Malformed at h
  split at h
  case h_1 => rw [State.parse_eq, if_pos h]
  case h_2 =>
    obtain ⟨h16, hcount⟩ := h
    rw [State.parse_eq, if_neg (Nat.not_lt.2 h16), if_pos hcount]
  case h_3 =>
    obtain ⟨h16, h0, h256, hsize⟩ := h
    rw [State.parse_eq, if_neg (Nat.not_lt.2 h16), if_neg (by omega), if_pos hsize]
  case h_4 =>
    obtain ⟨j, hfails, hlen⟩ := h
    exact State.parse_of_failsAtEntry hfails fun t left _ => by rw [State.parseEntries_succ, if_pos hlen]
  case h_5 =>
    obtain ⟨j, hfails, h0, h32, hbyte⟩ := h
    exact State.parse_of_failsAtEntry hfails fun t left ht => State.parseEntries_sameByte ht (by omega) hbyte
  case h_6 =>
    obtain ⟨j, hfails, h0, h32, hbyte, hkey⟩ := h
    exact State.parse_of_failsAtEntry hfails fun t left ht => State.parseEntries_sameKey ht (by omega) hbyte hkey
  case h_7 =>
    obtain ⟨htable, hbits⟩ := h
    exact State.parse_of_trailer htable fun t => by rw [State.parseTrailer_eq, if_pos hbits]
  case h_8 =>
    obtain ⟨htable, hbits, hlen⟩ := h
    exact State.parse_of_trailer htable fun t => by
      rw [State.parseTrailer_eq, if_neg (Int.not_lt.2 hbits), if_pos hlen]
  case h_9 =>
    obtain ⟨htable, hlen, hshort⟩ := h
    exact State.parse_of_trailer htable fun t => by
      rw [State.parseTrailer_eq, if_neg (by omega), if_neg (Int.not_lt.2 hlen), if_pos hshort]
  case h_10 =>
    obtain ⟨htable, hbits, hfit, hsize⟩ := h
    have hcount : ((s.entryCount a).toNat : Int) = s.entryCount a := Int.toNat_of_nonneg htable.1.2.1
    exact State.parse_of_trailer htable fun t => by
      rw [State.parseTrailer_eq, if_neg (Int.not_lt.2 hbits), if_neg (by omega), if_neg (Int.not_lt.2 hfit), hcount,
        if_pos hsize]
  case h_11 => exact h.elim

theorem State.Malformed.le_ten {k : Nat} (h : s.Malformed a n k) : k ≤ 10 := by
  unfold State.Malformed at h
  split at h
  case h_11 => exact h.elim
  all_goals decide

end Checks

end Sys2Proof.Machine
end

section
/-! PROOFS. The E_EMPTY errors and E_MALFORMED 1 to 10 (44_huffman R241, R244, R253; 46_pipeline R305, R306;
47_container R324, R325). -/

namespace Sys2Proof.Machine

/-! ### E_EMPTY -/

section Empty
variable {s : State}

theorem emptyCheck_of_eq (h : s.op.len = 0) : emptyCheck s = some { code := .empty, stage := .hufFreq, info := 0 } :=
  if_pos h

/-- An empty region is legal wherever it lies (20_memory R110). -/
theorem State.regionsOk_of_size_zero (s : State) {r : Region} (h : r.size = 0) : s.RegionsOk [r] :=
  ⟨fun _ hq => .inl (List.mem_singleton.1 hq ▸ h), List.pairwise_singleton _ _⟩

theorem precheck_hufFreq_empty (h : s.op.len = 0) :
    precheck .hufFreq s = some { code := .empty, stage := .hufFreq, info := 0 } := by
  have hregion : s.RegionsOk [inputRegion s] := s.regionsOk_of_size_zero (congrArg BitVec.toNat h)
  rw [precheck, hufFreqCheck, State.regionCheck_of_regionsOk hregion, emptyCheck_of_eq h]
  rfl

theorem precheck_hufEncode_empty (h : s.op.len = 0) (hbp : s.bp.isOpen = false)
    (hregions : s.RegionsOk [s.srcRegion s.op.len.toNat 1, s.dstRegion s.op.cap.toNat 1]) :
    precheck .hufEncode s = some { code := .empty, stage := .hufFreq, info := 0 } := by
  rw [precheck, hufEncodeCheck, State.bpClosedCheck_of_closed hbp, emitRegions, inputRegion,
    State.regionCheck_of_regionsOk hregions, emptyCheck_of_eq h]
  rfl

theorem precheck_compress_empty (h1 : 1 ≤ s.op.quality.toInt) (h99 : s.op.quality.toInt ≤ 99)
    (hbp : s.bp.isOpen = false) (hregions : s.RegionsOk (compressRegions s)) (h : blockCount s.imgW s.imgH = 0) :
    precheck .compress s = some { code := .empty, stage := .seq, info := 0 } := by
  rw [precheck, compressCheck, qualityCheck_of_legal h1 h99, State.bpClosedCheck_of_closed hbp,
    State.regionCheck_of_regionsOk hregions, failIf, if_pos h]
  rfl

end Empty

/-! ### E_MALFORMED -/

section Malformed
variable {s : State} {k : Nat} (hparse : s.parse s.op.src.toNat s.op.len.toNat = .error k) (hk : k ≤ 10)
  (hregion : s.RegionsOk [s.srcRegion s.op.len.toNat 1])
include hparse hk hregion

/-- CNT_UNPACK writes no region, so its data error changes only the record (log 16). -/
theorem exec_cntUnpack_malformed : exec .cntUnpack s = .next (s.afterError .malformed .cntUnpack (u32 k)) := by
  have hraise : s.dataError [] (malformedErr k) = s.raise (malformedErr k) := rfl
  have hinfo : (malformedErr k).info < 2 ^ 32 := hk.trans_lt (by decide)
  change execCntUnpack s = _
  simp only [execCntUnpack, streamRegion, State.checked_regions_of_regionsOk hregion, hparse]
  rw [hraise, State.raise_eq_afterError s hinfo]
  rfl

theorem exec_decompress_malformed : exec .decompress s = .next (s.afterError .malformed .cntUnpack (u32 k)) := by
  have hheader : decompressHeader s = .error (malformedErr k) := by
    simp only [decompressHeader, streamRegion, State.regionCheck_of_regionsOk hregion, hparse]
  have hcheck : precheck .decompress s = some (malformedErr k) := by
    simp only [precheck, decompressParse, hheader]
  exact exec_afterError_of_precheck hcheck (hk.trans_lt (by decide))

end Malformed

/-- Settles O38: each E_EMPTY check is the first that fails, and PARSE reports the first check that fails. -/
theorem emptyAndTruncatedTraps : Obligations.EmptyAndTruncatedTraps := by
  have malformed (s : State) (k : Nat) (h : s.Malformed s.op.src.toNat s.op.len.toNat k)
      (hregion : s.RegionsOk [s.srcRegion s.op.len.toNat 1]) :
      exec .cntUnpack s = .next (s.afterError .malformed .cntUnpack (u32 k)) ∧
        exec .decompress s = .next (s.afterError .malformed .cntUnpack (u32 k)) :=
    ⟨exec_cntUnpack_malformed (State.parse_of_malformed h) h.le_ten hregion,
      exec_decompress_malformed (State.parse_of_malformed h) h.le_ten hregion⟩
  refine fun s => ⟨fun hlen => ⟨?_, fun hbp hregions => ?_⟩, fun hfreq => ?_, fun h1 h99 hbp hregions hnone => ?_,
    fun hshort => malformed s 1 hshort, malformed s⟩
  · exact exec_afterError_of_precheck (precheck_hufFreq_empty hlen)
  · exact exec_afterError_of_precheck (precheck_hufEncode_empty hlen hbp hregions)
  · exact exec_hufBuild_of_error (buildTab_of_zero hfreq)
  · exact exec_afterError_of_precheck (precheck_compress_empty h1 h99 hbp hregions hnone)

end Sys2Proof.Machine
end

section
/-! PROOFS. The forward block phase (46_pipeline R300 to R302): its tasks, one after the other, fill the flat buffer
with the image's encoded slices. -/

namespace Sys2Proof.Machine

/-! ### The samples of a block (R290, R302) -/

theorem State.memReadF64_congr {s u : State} {a : Nat} (h : ∀ x, a ≤ x → x < a + 8 → u.readByte x = s.readByte x) :
    u.memReadF64 a = s.memReadF64 a := by
  rw [State.memReadF64, State.memReadF64, State.memRead, State.memRead, State.readBytes_congr h]

/-- The samples of a block depend only on the bytes of the image's rows. -/
theorem State.readSamples_congr {s u : State} {a w h t ch : Nat} (ht : t < blockCount w h) (hch : ch < 3)
    (hread : ∀ x, a ≤ x → x < a + 24 * w * h → u.readByte x = s.readByte x) :
    u.readSamples a w t ch = s.readSamples a w t ch := by
  rw [State.readSamples, State.readSamples]
  refine congrArg Vector.ofFn (funext fun i => State.memReadF64_congr fun x hx hx8 => ?_)
  obtain ⟨hlow, hhigh⟩ := pixAddr_bounds a ht (rowOf i) (colOf i) hch
  exact hread x (hlow.trans hx) (hx8.trans_le hhigh)

/-! ### A flat buffer that grows slice by slice (R292) -/

/-- `u` is `s` after a block phase has appended `bytes` to the flat buffer at `flat`, with a QNF event if `q`. -/
structure State.Filled (s : State) (flat : Nat) (bytes : List Byte) (q : Bool) (u : State) : Prop where
  frame : u = { s with
    lmem := u.lmem, qnf := s.qnf || q, seq := { s.seq with tasksDone := u.seq.tasksDone } }
  holds : u.HoldsAt flat bytes
  keeps : s.KeepsOutside u flat bytes.length

section Filled
variable {s u : State} {flat : Nat} {bytes : List Byte} {q : Bool}

theorem State.Filled.refl (s : State) (flat : Nat) : s.Filled flat [] false s :=
  ⟨by rw [Bool.or_false], nofun, fun _ _ => rfl⟩

theorem State.Filled.phaseQtab (h : s.Filled flat bytes q u) : u.phaseQtab = s.phaseQtab := by rw [h.frame]; rfl

theorem State.Filled.markTask (h : s.Filled flat bytes q u) (t : Nat) : s.Filled flat bytes q (u.markTask t) := by
  refine ⟨?_, h.holds, h.keeps⟩
  conv_lhs => rw [h.frame]
  rfl

/-- Bytes written at the end of the buffer extend it. -/
theorem State.Filled.append (h : s.Filled flat bytes q u) {a : Nat} (ha : a = flat + bytes.length) (bs : List Byte)
    (q' : Bool) : s.Filled flat (bytes ++ bs) (q || q') ((u.writeBytes a bs).qnfEvent q') := by
  subst ha
  have hread : ∀ x, ((u.writeBytes (flat + bytes.length) bs).qnfEvent q').readByte x =
      (u.writeBytes (flat + bytes.length) bs).readByte x := State.readByte_congr rfl rfl
  refine ⟨?_, fun i hi => ?_, fun x hx => ?_⟩
  · conv_lhs => rw [h.frame]
    simp only [State.qnfEvent, State.writeBytes, Bool.or_assoc]
  · rw [hread]
    obtain hlt | hge := Nat.lt_or_ge i bytes.length
    · rw [State.readByte_writeBytes_outside u _ bs _ (.inl (Nat.add_lt_add_left hlt flat)), h.holds i hlt,
        List.getElem_append_left]
    · obtain ⟨j, rfl⟩ := Nat.exists_eq_add_of_le hge
      rw [List.length_append] at hi
      rw [← Nat.add_assoc, State.readByte_writeBytes_inside u _ bs j (by omega), List.getElem_append_right hge]
      congr 1
      omega
  · rw [List.length_append] at hx
    rw [hread, State.readByte_writeBytes_outside u _ bs x (by omega), h.keeps x (by omega)]

end Filled

/-! ### The phase (R301, R302) -/

/-- The slices of the first `n` blocks of a flat buffer. -/
def flatBlocks (s : State) (a w n : Nat) (qt : Vector Word 64) : List Byte :=
  (List.range n).flatMap fun t => (List.range 3).flatMap fun ch => (encBlock (s.readSamples a w t ch) qt).1

/-- Whether a quotient of the first `n` blocks is non-finite. -/
def blocksQnf (s : State) (a w n : Nat) (qt : Vector Word 64) : Bool :=
  (List.range n).any fun t => (List.range 3).any fun ch => (encBlock (s.readSamples a w t ch) qt).2

theorem flatImage_eq (s : State) (a w h : Nat) (qt : Vector Word 64) :
    flatImage s a w h qt = flatBlocks s a w (blockCount w h) qt := rfl

theorem imageQnf_eq (s : State) (a w h : Nat) (qt : Vector Word 64) :
    imageQnf s a w h qt = blocksQnf s a w (blockCount w h) qt := rfl

theorem flatBlocks_succ (s : State) (a w n : Nat) (qt : Vector Word 64) :
    flatBlocks s a w (n + 1) qt =
      flatBlocks s a w n qt ++ (encBlock (s.readSamples a w n 0) qt).1 ++ (encBlock (s.readSamples a w n 1) qt).1 ++
        (encBlock (s.readSamples a w n 2) qt).1 := by
  have hrange : List.range 3 = [0, 1, 2] := rfl
  simp [flatBlocks, List.range_succ (n := n), hrange]

theorem blocksQnf_succ (s : State) (a w n : Nat) (qt : Vector Word 64) :
    blocksQnf s a w (n + 1) qt =
      (((blocksQnf s a w n qt || (encBlock (s.readSamples a w n 0) qt).2) || (encBlock (s.readSamples a w n 1) qt).2) ||
        (encBlock (s.readSamples a w n 2) qt).2) := by
  have hrange : List.range 3 = [0, 1, 2] := rfl
  simp [blocksQnf, List.range_succ (n := n), hrange, Bool.or_assoc]

theorem flatBlocks_length (s : State) (a w n : Nat) (qt : Vector Word 64) :
    (flatBlocks s a w n qt).length = 192 * n := by
  induction n with
  | zero => rfl
  | succ n ih => simp only [flatBlocks_succ, List.length_append, encBlock_length, ih]; omega

theorem fwdTask_seq (a w flat t : Nat) (s : State) : (fwdTask a w flat t s).seq = s.seq := by
  simp [fwdTask, fwdChannel]

/-- The image at `a`, its first rows of blocks, shares no byte with the flat buffer at `flat`. -/
def ImageApart (a w h flat : Nat) : Prop := a + 24 * w * h ≤ flat ∨ flat + flatSize w h ≤ a

section Phase
variable {s u : State} {a w h flat : Nat} (hapart : ImageApart a w h flat)
include hapart

/-- One channel of a forward task appends its slice. -/
theorem State.Filled.fwdChannel {bytes : List Byte} {q : Bool} (hu : s.Filled flat bytes q u) {t ch : Nat}
    (ht : t < blockCount w h) (hch : ch < 3) (hlen : bytes.length = flatOff t ch) :
    s.Filled flat (bytes ++ (encBlock (s.readSamples a w t ch) s.phaseQtab).1)
      (q || (encBlock (s.readSamples a w t ch) s.phaseQtab).2) (fwdChannel a w flat t ch u) := by
  have hsamples : u.readSamples a w t ch = s.readSamples a w t ch :=
    State.readSamples_congr ht hch fun x hlow hhigh => hu.keeps x (by
      unfold ImageApart flatSize at hapart
      unfold flatOff at hlen
      omega)
  simp only [Machine.fwdChannel, hsamples, hu.phaseQtab]
  exact hu.append (by rw [hlen]) _ _

/-- A forward task appends the three slices of its block. -/
theorem State.Filled.fwdTask {t : Nat} (hu : s.Filled flat (flatBlocks s a w t s.phaseQtab)
      (blocksQnf s a w t s.phaseQtab) u) (ht : t < blockCount w h) :
    s.Filled flat (flatBlocks s a w (t + 1) s.phaseQtab) (blocksQnf s a w (t + 1) s.phaseQtab)
      (fwdTask a w flat t u) := by
  rw [flatBlocks_succ, blocksQnf_succ]
  have h0 := hu.fwdChannel hapart ht (ch := 0) (by decide) (by rw [flatBlocks_length, flatOff]; omega)
  have h1 := h0.fwdChannel hapart ht (ch := 1) (by decide) (by
    rw [List.length_append, encBlock_length, flatBlocks_length, flatOff]; omega)
  exact h1.fwdChannel hapart ht (ch := 2) (by decide) (by
    rw [List.length_append, List.length_append, encBlock_length, encBlock_length, flatBlocks_length, flatOff]; omega)

/-- The first `n` tasks of a forward phase append the slices of the first `n` blocks. -/
theorem State.blockPhase_fwd_filled (hd : s.seq.tasksDone = []) {n : Nat} (hn : n ≤ blockCount w h) :
    s.Filled flat (flatBlocks s a w n s.phaseQtab) (blocksQnf s a w n s.phaseQtab)
        (s.blockPhase n (Machine.fwdTask a w flat)) ∧
      ∀ t ∈ (s.blockPhase n (Machine.fwdTask a w flat)).seq.tasksDone, t < n := by
  induction n with
  | zero =>
    exact ⟨.refl s flat, fun t ht => by rw [State.blockPhase, List.range_zero, List.foldl_nil, hd] at ht; cases ht⟩
  | succ n ih =>
    obtain ⟨hfilled, hdone⟩ := ih (Nat.le_of_succ_le hn)
    have hstep : s.blockPhase (n + 1) (Machine.fwdTask a w flat) =
        (s.blockPhase n (Machine.fwdTask a w flat)).runTask n (Machine.fwdTask a w flat n) := by
      rw [State.blockPhase, List.range_succ, List.foldl_append]
      rfl
    have hnew : ¬(s.blockPhase n (Machine.fwdTask a w flat)).seq.tasksDone.contains n = true := fun hmem =>
      Nat.lt_irrefl n (hdone n (List.contains_iff_mem.1 hmem))
    have htask := hfilled.fwdTask hapart hn
    rw [hstep, State.runTask, if_neg hnew]
    refine ⟨htask.markTask n, fun t ht => ?_⟩
    obtain rfl | ht := List.mem_cons.1 ht
    · exact Nat.lt_succ_self t
    · rw [fwdTask_seq] at ht
      exact Nat.lt_succ_of_lt (hdone t ht)

end Phase

end Sys2Proof.Machine
end

section
/-! PROOFS. COMPRESS (46_pipeline R304, R305): its phases one after the other, what it leaves where they succeed, and
its three data errors. -/

namespace Sys2Proof.Machine

/-! ### The regions (R305) -/

/-- The byte is in none of the three regions that COMPRESS writes. -/
abbrev State.OutsideCompress (s : State) (x : Nat) : Prop :=
  (x < s.op.tmp0.toNat ∨ s.op.tmp0.toNat + flatSize s.imgW s.imgH ≤ x) ∧
    (x < s.op.tmp1.toNat ∨ s.op.tmp1.toNat + s.op.tcap.toNat ≤ x) ∧
    (x < s.op.dst.toNat ∨ s.op.dst.toNat + s.op.cap.toNat ≤ x)

theorem compressRegions_congr {s v : State} (h : v.op = s.op) : compressRegions v = compressRegions s := by
  simp only [compressRegions, imageRegion, State.srcRegion, State.tmp0Region, State.tmp1Region, State.dstRegion,
    State.imgW, State.imgH, h]

theorem outside_of_outsideCompress {s : State} {x : Nat} (hx : s.OutsideCompress x) {r : Region}
    (hr : r ∈ compressRegions s) (hw : r.written = true) : x < r.base ∨ r.base + r.size ≤ x := by
  obtain ⟨h0, h1, hd⟩ := hx
  simp only [compressRegions, List.mem_cons, List.not_mem_nil, or_false] at hr
  obtain rfl | rfl | rfl | rfl := hr
  · cases hw
  · exact h0
  · exact h1
  · exact hd

theorem blockCount_crop (w h : Nat) : blockCount w (crop h) = blockCount w h := by
  unfold blockCount crop
  congr 1
  omega

/-- Blocks have more samples than coefficients: the image is larger than its flat buffer. -/
theorem flatSize_le (w h : Nat) : flatSize w h ≤ 24 * w * crop h := by
  have hw : 8 * (w / 8) ≤ w := Nat.mul_div_le w 8
  have hh : crop h = 8 * (h / 8) := by unfold crop; omega
  calc flatSize w h = 24 * (8 * (w / 8)) * (h / 8) := by unfold flatSize blockCount; ring
    _ ≤ 24 * w * crop h := by rw [hh]; exact Nat.mul_le_mul (Nat.mul_le_mul_left 24 hw) (by omega)

/-- What legal regions say of an image with a block: image and flat buffer are apart, the flat buffer has less than
2^32 bytes, and it is apart from payload and container. -/
theorem compress_spans {s : State} (h : s.RegionsOk (compressRegions s)) (hb : 0 < blockCount s.imgW s.imgH) :
    ImageApart s.op.src.toNat s.imgW (crop s.imgH) s.op.tmp0.toNat ∧ flatSize s.imgW s.imgH < 2 ^ 32 ∧
      (s.op.tcap.toNat = 0 ∨ s.op.tmp0.toNat + flatSize s.imgW s.imgH ≤ s.op.tmp1.toNat ∨
        s.op.tmp1.toNat + s.op.tcap.toNat ≤ s.op.tmp0.toNat) ∧
      (s.op.cap.toNat = 0 ∨ s.op.tmp0.toNat + flatSize s.imgW s.imgH ≤ s.op.dst.toNat ∨
        s.op.dst.toNat + s.op.cap.toNat ≤ s.op.tmp0.toNat) ∧
      (s.op.tcap.toNat = 0 ∨ s.op.cap.toNat = 0 ∨ s.op.tmp1.toNat + s.op.tcap.toNat ≤ s.op.dst.toNat ∨
        s.op.dst.toNat + s.op.cap.toNat ≤ s.op.tmp1.toNat) := by
  obtain ⟨-, hapart⟩ := h
  simp only [compressRegions, List.pairwise_cons, List.mem_cons, List.not_mem_nil, or_false, forall_eq_or_imp,
    forall_eq, Region.Apart, imageRegion, State.srcRegion, State.tmp0Region, State.tmp1Region, State.dstRegion]
    at hapart
  obtain ⟨⟨hsrc0, -, -⟩, ⟨h01, h0d⟩, h1d, -⟩ := hapart
  have hle := flatSize_le s.imgW s.imgH
  have hpos : 0 < flatSize s.imgW s.imgH := by unfold flatSize; omega
  have hcrop : flatSize s.imgW (crop s.imgH) = flatSize s.imgW s.imgH := by rw [flatSize, flatSize, blockCount_crop]
  have hsrc := s.op.src.isLt
  have htmp0 := s.op.tmp0.isLt
  refine ⟨?_, ?_, ?_, ?_, ?_⟩
  · rw [ImageApart, hcrop]; omega
  all_goals omega

/-! ### The data errors (R305, 60_exceptions R347) -/

/-- A data error of COMPRESS, wherever its phases stop, leaves the record, BP closed, QNF as the block phase left it,
and every byte outside the written regions as before. -/
theorem compress_stops {s u v : State} {q : Bool}
    (hu : ∃ lm bp draws seq, u = { s with qnf := s.qnf || q, lmem := lm, bp := bp, draws := draws, seq := seq })
    (hv : v.op = s.op) (hkeeps : ∀ x, s.OutsideCompress x → u.readByte x = s.readByte x) {e : Err}
    (he : e.info < 2 ^ 32) :
    State.AfterPackerError { s with qnf := s.qnf || q } (u.packerError (compressRegions v) e) e.code e.stage
        (BitVec.ofNat 32 e.info) ∧
      ∀ x, s.OutsideCompress x → (u.packerError (compressRegions v) e).readByte x = s.readByte x := by
  refine ⟨State.packerError_after (by obtain ⟨lm, bp, draws, seq, rfl⟩ := hu; rfl) _ he, fun x hx => ?_⟩
  rw [compressRegions_congr hv, State.packerError_readByte u e fun r hr hw => outside_of_outsideCompress hx hr hw,
    hkeeps x hx]

/-! ### The phases (R305) -/

/-- The flat buffer as the phase HUF_FREQ reads it. -/
abbrev State.flatBytes (m : State) : List Byte := m.readBytes m.op.tmp0.toNat (flatSize m.imgW m.imgH)

section Phases
variable {m : State} {flat : List Byte} (hflat : m.flatBytes = flat)
include hflat

theorem compressEncode_of_error {e : Err} (h : buildTab (freqFn flat) = .error e) :
    compressEncode m = m.packerError (compressRegions m) e := by
  subst hflat
  unfold compressEncode
  simp only [(m.hufFreqPhase m.flatBytes).hufBuildPhase_of_error h]

section Built
variable {tab : Vector CodeEntry 256} (h : buildTab (freqFn flat) = .ok tab) {u : State}
include h

theorem compressEncode_of_stop {x : EmitStop}
    (he : (m.encodeReady (freqFn flat) tab).emitPhase tab flat m.op.tmp1 m.op.tcap .tmp1 = (u, some x)) :
    compressEncode m = u.packerError (compressRegions m) (x.err .tmp1) := by
  subst hflat
  unfold compressEncode
  simp only [m.hufPhases_of_ok h, State.encodeReady_phaseTab, he]

theorem compressEncode_of_emitted
    (he : (m.encodeReady (freqFn flat) tab).emitPhase tab flat m.op.tmp1 m.op.tcap .tmp1 = (u, none)) :
    compressEncode m = compressPack u := by
  subst hflat
  unfold compressEncode
  simp only [m.hufPhases_of_ok h, State.encodeReady_phaseTab, he]

end Built
end Phases

/-! ### The block phase of COMPRESS -/

theorem compressCheck_of_regionsOk {s : State} (h1 : 1 ≤ s.op.quality.toInt) (h99 : s.op.quality.toInt ≤ 99)
    (hbp : s.bp.isOpen = false) (h : s.RegionsOk (compressRegions s)) (hb : 0 < blockCount s.imgW s.imgH) :
    compressCheck s = none := by
  rw [compressCheck, qualityCheck_of_legal h1 h99, State.bpClosedCheck_of_closed hbp, State.regionCheck_of_regionsOk h,
    failIf_of_not (by omega)]
  rfl

/-- The state after the block phase of COMPRESS. -/
def compressBlocks (s : State) : State :=
  (compressEnter s).blockPhase (blockCount s.imgW s.imgH) (fwdTask s.op.src.toNat s.imgW s.op.tmp0.toNat)

theorem exec_compress_of_check {s : State} (h : compressCheck s = none) :
    exec .compress s = .next (compressEncode (compressBlocks s)) := by
  change execCompress s = _
  rw [execCompress, h, State.checked_none]
  rfl

/-- The flat buffer that COMPRESS makes of its image. -/
abbrev State.compressFlat (s : State) : List Byte :=
  flatImage s s.op.src.toNat s.imgW s.imgH (qtabFn s.op.quality.toNat)

/-- Whether COMPRESS has a QNF event. -/
abbrev State.compressQnf (s : State) : Bool :=
  imageQnf s s.op.src.toNat s.imgW s.imgH (qtabFn s.op.quality.toNat)

theorem compressFlat_length (s : State) : s.compressFlat.length = flatSize s.imgW s.imgH := by
  rw [State.compressFlat, flatImage_eq, flatBlocks_length, flatSize]

/-- The block phase fills the buffer at TMP0, with the table of the quality as the working QTAB. -/
theorem compressBlocks_filled {s : State} (hd : s.seq.tasksDone = [])
    (hapart : ImageApart s.op.src.toNat s.imgW (crop s.imgH) s.op.tmp0.toNat) :
    (compressEnter s).Filled s.op.tmp0.toNat s.compressFlat s.compressQnf (compressBlocks s) := by
  have hblocks := (State.blockPhase_fwd_filled (s := compressEnter s) hapart hd (blockCount_crop s.imgW s.imgH).ge).1
  have hsamples : ∀ t ch, (compressEnter s).readSamples s.op.src.toNat s.imgW t ch =
      s.readSamples s.op.src.toNat s.imgW t ch := fun t ch => rfl
  have hqtab : (compressEnter s).phaseQtab = qtabFn s.op.quality.toNat := rfl
  simp only [hqtab, flatBlocks, blocksQnf, hsamples] at hblocks
  exact hblocks

/-! ### The emission and the packing of COMPRESS -/

/-- The state of COMPRESS when its payload has been emitted: the three working tables built, the session finished. -/
def State.compressEmitted (s : State) (lm : LMem) (td : List Nat) (tab : Vector CodeEntry 256) : State :=
  { s with
    lmem := lm
    qnf := s.qnf || s.compressQnf
    bp := BitPacker.finished s.op.tmp1 s.op.tcap .tmp1 (codeBits tab s.compressFlat).length
    seq :=
      { s.seq with
        phase := .hufEmit, worklist := [], tasksDone := td
        work := { qtab := some (qtabFn s.op.quality.toNat), freq := some (freqFn s.compressFlat), tab := some tab } } }

section Pack
variable {s : State} {lm : LMem} {td : List Nat} {tab : Vector CodeEntry 256}

/-- The container that COMPRESS writes after an emission. -/
abbrev State.compressContainer (s u : State) (tab : Vector CodeEntry 256) : List Byte :=
  containerHead (u32 (crop s.imgW)) (u32 (crop s.imgH)) s.op.quality tab
      (BitVec.ofNat 64 (codeBits tab s.compressFlat).length) (ceil8 (codeBits tab s.compressFlat).length) ++
    u.readBytes s.op.tmp1.toNat (ceil8 (codeBits tab s.compressFlat).length)

theorem compressContainer_length (s u : State) (tab : Vector CodeEntry 256) :
    (s.compressContainer u tab).length = containerSize tab (ceil8 (codeBits tab s.compressFlat).length) := by
  rw [List.length_append, State.readBytes_length, containerHead_length_add]

variable (hn : ceil8 (codeBits tab s.compressFlat).length ≤ s.op.tcap.toNat)
include hn

theorem compressEmitted_bytes :
    (s.compressEmitted lm td tab).bp.bytes.toNat = ceil8 (codeBits tab s.compressFlat).length := by
  have htcap := s.op.tcap.isLt
  exact Nat.mod_eq_of_lt (by omega)

/-- Where the container does not fit CAP, COMPRESS raises E_OVERFLOW(2). -/
theorem compressPack_overflows
    (hover : s.op.cap.toNat < containerSize tab (ceil8 (codeBits tab s.compressFlat).length)) :
    compressPack (s.compressEmitted lm td tab) =
      ((s.compressEmitted lm td tab).enterPhase .cntPack).packerError
        (compressRegions (s.compressEmitted lm td tab)) packOverflow := by
  rw [← compressEmitted_bytes (lm := lm) (td := td) hn] at hover
  exact if_pos hover

/-- Where it fits, COMPRESS writes it at DST and commits. -/
theorem compressPack_completes
    (hfit : containerSize tab (ceil8 (codeBits tab s.compressFlat).length) ≤ s.op.cap.toNat) :
    compressPack (s.compressEmitted lm td tab) =
      { (s.compressEmitted lm td tab).writeBytes s.op.dst.toNat
            (s.compressContainer (s.compressEmitted lm td tab) tab) with
        opr := { s.opr with bitcnt := BitVec.ofNat 64 (codeBits tab s.compressFlat).length }
        outlen := u32 (containerSize tab (ceil8 (codeBits tab s.compressFlat).length))
        cwidth := u32 (crop s.imgW)
        cheight := u32 (crop s.imgH)
        qtab := qtabFn s.op.quality.toNat
        qtabv := true
        freq := freqFn s.compressFlat
        tab := tab
        seq := Seq.idle
        done := true } := by
  have hbytes := compressEmitted_bytes (lm := lm) (td := td) hn
  have hroom : ¬s.op.cap.toNat < containerSize tab (s.compressEmitted lm td tab).bp.bytes.toNat := by
    rw [hbytes]; exact Nat.not_lt.2 hfit
  refine (if_neg hroom).trans ?_
  rw [hbytes]
  simp only [State.serialize, State.readBytes_length, State.complete, State.setCropped, State.setOutlen,
    State.setBitcnt, State.writeBytes, State.enterPhase, State.compressEmitted, State.phaseTab, BitPacker.finished,
    State.compressContainer, Option.getD_some, Option.isSome_some, Bool.or_true, State.imgW, State.imgH]

end Pack

section Emission
variable {s : State} (hd : s.seq.tasksDone = []) (h : s.RegionsOk (compressRegions s))
  (hb : 0 < blockCount s.imgW s.imgH)
include h hb

theorem compressFlat_lt : s.compressFlat.length < 2 ^ 32 := by
  obtain ⟨-, hlt, -⟩ := compress_spans h hb
  rwa [compressFlat_length]

theorem compressFlat_usable {tab : Vector CodeEntry 256} (htab : buildTab (freqFn s.compressFlat) = .ok tab) :
    ∀ b ∈ s.compressFlat, (atByte tab b).usable = true :=
  fun _ => buildTab_freqFn_usable (compressFlat_lt h hb) htab

include hd

/-- What the block phase leaves, as a change of the state in which COMPRESS began. -/
theorem compressBlocks_spec :
    compressBlocks s = { s with
        lmem := (compressBlocks s).lmem
        qnf := s.qnf || s.compressQnf
        seq :=
          { s.seq with
            phase := .pipe, tasksDone := (compressBlocks s).seq.tasksDone
            work := { s.seq.work with qtab := some (qtabFn s.op.quality.toNat) } } } ∧
      (compressBlocks s).HoldsAt s.op.tmp0.toNat s.compressFlat ∧
      s.KeepsOutside (compressBlocks s) s.op.tmp0.toNat (flatSize s.imgW s.imgH) := by
  obtain ⟨hapart, -⟩ := compress_spans h hb
  obtain ⟨hframe, hholds, hkeeps⟩ := compressBlocks_filled hd hapart
  rw [compressFlat_length] at hkeeps
  exact ⟨hframe, hholds, hkeeps⟩

theorem compressBlocks_op : (compressBlocks s).op = s.op := by
  rw [(compressBlocks_spec hd h hb).1]

theorem compressBlocks_flatBytes : (compressBlocks s).flatBytes = s.compressFlat := by
  obtain ⟨-, hholds, -⟩ := compressBlocks_spec hd h hb
  have hop := compressBlocks_op hd h hb
  have hlen := compressFlat_length s
  rw [State.flatBytes, State.imgW, State.imgH, hop, ← hlen]
  refine List.ext_getElem (State.readBytes_length _ _ _) fun i hi hi' => ?_
  simp only [State.readBytes, List.getElem_map, List.getElem_range]
  exact hholds i hi'

section Built
variable {tab : Vector CodeEntry 256} (htab : buildTab (freqFn s.compressFlat) = .ok tab)
include htab

/-- Where the payload fits TCAP, the packing follows an emission that has left it at TMP1. -/
theorem compressEncode_emits (hfit : ceil8 (codeBits tab s.compressFlat).length ≤ s.op.tcap.toNat) :
    ∃ lm td, compressEncode (compressBlocks s) = compressPack (s.compressEmitted lm td tab) ∧
      (s.compressEmitted lm td tab).HoldsBits s.op.tmp1.toNat (codeBits tab s.compressFlat) ∧
      (compressBlocks s).KeepsOutside (s.compressEmitted lm td tab) s.op.tmp1.toNat
        (ceil8 (codeBits tab s.compressFlat).length) := by
  obtain ⟨u, hphase, hframe, hholds, hkeeps⟩ :=
    ((compressBlocks s).encodeReady (freqFn s.compressFlat) tab).emitPhase_fits (base := s.op.tmp1) .tmp1
      (compressFlat_usable h hb htab) hfit
  have hu : u = s.compressEmitted u.lmem (compressBlocks s).seq.tasksDone tab := by
    conv_lhs => rw [hframe, (compressBlocks_spec hd h hb).1]
    simp only [State.encodeReady, State.compressEmitted]
  rw [← compressBlocks_op hd h hb] at hphase
  rw [hu] at hholds hkeeps hphase
  exact ⟨_, _, compressEncode_of_emitted (compressBlocks_flatBytes hd h hb) htab hphase, hholds, hkeeps⟩

/-- Where it does not, COMPRESS raises E_OVERFLOW(4). -/
theorem compressEncode_overflows (hover : s.op.tcap.toNat < ceil8 (codeBits tab s.compressFlat).length) :
    ∃ u, compressEncode (compressBlocks s) =
        u.packerError (compressRegions (compressBlocks s)) (EmitStop.overflow.err .tmp1) ∧
      u = { s with
        qnf := s.qnf || s.compressQnf, lmem := u.lmem, bp := u.bp, draws := u.draws, seq := u.seq } ∧
      (compressBlocks s).KeepsOutside u s.op.tmp1.toNat s.op.tcap.toNat := by
  have hstop := ((compressBlocks s).encodeReady (freqFn s.compressFlat) tab).emitPhase_overflows (base := s.op.tmp1)
    .tmp1 (compressFlat_usable h hb htab) hover
  have htouch := (State.Touches.refl .hufEmit ((compressBlocks s).encodeReady (freqFn s.compressFlat) tab)).emitPhase
    tab s.compressFlat s.op.tmp1 s.op.tcap .tmp1
  have hkeeps := ((compressBlocks s).encodeReady (freqFn s.compressFlat) tab).emitPhase_keepsOutside (t := tab)
    (bs := s.compressFlat) (base := s.op.tmp1) (cap := s.op.tcap) .tmp1
  rcases hphase : ((compressBlocks s).encodeReady (freqFn s.compressFlat) tab).emitPhase tab s.compressFlat s.op.tmp1
    s.op.tcap .tmp1 with ⟨u, x⟩
  rw [hphase] at hstop htouch hkeeps
  simp only at hstop htouch hkeeps
  subst hstop
  rw [← compressBlocks_op hd h hb] at hphase
  refine ⟨u, compressEncode_of_stop (compressBlocks_flatBytes hd h hb) htab hphase, ?_, hkeeps⟩
  conv_lhs => rw [htouch.frame_of_no_qnf (by simp), (compressBlocks_spec hd h hb).1]
  simp only [State.encodeReady]

end Built

end Emission

/-! ### What COMPRESS leaves -/

/-- The emission leaves the flat buffer, and the container leaves both it and the payload. -/
theorem compressPacked_memory {s m u w : State} {tab : Vector CodeEntry 256} (h : s.RegionsOk (compressRegions s))
    (hb : 0 < blockCount s.imgW s.imgH) (hn : ceil8 (codeBits tab s.compressFlat).length ≤ s.op.tcap.toNat)
    (hfit : containerSize tab (ceil8 (codeBits tab s.compressFlat).length) ≤ s.op.cap.toNat)
    (hflat : m.HoldsAt s.op.tmp0.toNat s.compressFlat)
    (hblocks : s.KeepsOutside m s.op.tmp0.toNat (flatSize s.imgW s.imgH))
    (hbits : u.HoldsBits s.op.tmp1.toNat (codeBits tab s.compressFlat))
    (hemit : m.KeepsOutside u s.op.tmp1.toNat (ceil8 (codeBits tab s.compressFlat).length))
    (hw : ∀ x, w.readByte x = (u.writeBytes s.op.dst.toNat (s.compressContainer u tab)).readByte x) :
    w.HoldsAt s.op.tmp0.toNat s.compressFlat ∧ w.HoldsBits s.op.tmp1.toNat (codeBits tab s.compressFlat) ∧
      w.HoldsAt s.op.dst.toNat (s.compressContainer w tab) ∧
      ∀ x, (x < s.op.tmp0.toNat ∨ s.op.tmp0.toNat + flatSize s.imgW s.imgH ≤ x) →
        (x < s.op.tmp1.toNat ∨ s.op.tmp1.toNat + ceil8 (codeBits tab s.compressFlat).length ≤ x) →
        (x < s.op.dst.toNat ∨ s.op.dst.toNat + containerSize tab (ceil8 (codeBits tab s.compressFlat).length) ≤ x) →
        w.readByte x = s.readByte x := by
  obtain ⟨-, -, h01, h0d, h1d⟩ := compress_spans h hb
  have hcap : 0 < s.op.cap.toNat := by unfold containerSize at hfit; omega
  have hlen := compressFlat_length s
  have hwu : u.KeepsOutside w s.op.dst.toNat (containerSize tab (ceil8 (codeBits tab s.compressFlat).length)) :=
    fun x hx => by
      rw [hw, State.readByte_writeBytes_outside _ _ _ _ (by rwa [compressContainer_length])]
  have hpayload : ∀ i < ceil8 (codeBits tab s.compressFlat).length,
      w.readByte (s.op.tmp1.toNat + i) = u.readByte (s.op.tmp1.toNat + i) := fun i hi => hwu _ (by omega)
  have hcontainer : s.compressContainer w tab = s.compressContainer u tab := by
    rw [State.compressContainer, State.compressContainer, State.readBytes_congr fun x hx hx' => hwu x (by omega)]
  refine ⟨fun i hi => ?_, fun i hi => ?_, ?_, fun x h0 h1 hd => ?_⟩
  · rw [hwu _ (by omega), hemit _ (by omega), hflat i hi]
  · rw [State.payloadBit_congr (hpayload (i / 8) (by omega)), hbits i hi]
  · rw [hcontainer]
    exact fun i hi => (hw _).trans (State.readByte_writeBytes_inside _ _ _ i hi)
  · rw [hwu x hd, hemit x h1, hblocks x h0]

section Settle
variable {s : State} (hd : s.seq.tasksDone = []) (h : s.RegionsOk (compressRegions s))
  (hb : 0 < blockCount s.imgW s.imgH)
include hd h hb

/-- What keeps its bytes outside TMP1's region from the block phase on has changed none outside COMPRESS's regions. -/
theorem keepsOutsideCompress {u : State} {n : Nat}
    (hu : (compressBlocks s).KeepsOutside u s.op.tmp1.toNat n) (hn : n ≤ s.op.tcap.toNat) (x : Nat)
    (hx : s.OutsideCompress x) : u.readByte x = s.readByte x := by
  obtain ⟨-, -, hkeeps⟩ := compressBlocks_spec hd h hb
  obtain ⟨h0, h1, -⟩ := hx
  rw [hu x (by omega), hkeeps x h0]

/-- COMPRESS where the builder gives an error. -/
theorem compress_buildError {e : Err} (he : buildTab (freqFn s.compressFlat) = .error e) :
    (State.AfterPackerError { s with qnf := s.qnf || s.compressQnf } (compressEncode (compressBlocks s)) e.code
        .hufBuild (BitVec.ofNat 32 e.info) ∧ e.code = .codeLen) ∧
      ∀ x, s.OutsideCompress x → (compressEncode (compressBlocks s)).readByte x = s.readByte x := by
  obtain ⟨hframe, -, -⟩ := compressBlocks_spec hd h hb
  obtain ⟨hstage, hinfo, -⟩ := buildTab_error he
  have hlen : 0 < s.compressFlat.length := by rw [compressFlat_length, flatSize]; omega
  have hcode := buildTab_freqFn_error (compressFlat_lt h hb) (List.ne_nil_of_length_pos hlen) he
  obtain ⟨hafter, hmem⟩ := compress_stops ⟨_, _, _, _, hframe⟩ (compressBlocks_op hd h hb)
    (keepsOutsideCompress hd h hb (n := 0) (fun _ _ => rfl) (Nat.zero_le _)) hinfo
  rw [hstage] at hafter
  rw [compressEncode_of_error (compressBlocks_flatBytes hd h hb) he]
  exact ⟨⟨hafter, hcode⟩, hmem⟩

section Built
variable {tab : Vector CodeEntry 256} (htab : buildTab (freqFn s.compressFlat) = .ok tab)
include htab

/-- COMPRESS where the payload does not fit TCAP. -/
theorem compress_payloadOverflow (hover : s.op.tcap.toNat < ceil8 (codeBits tab s.compressFlat).length) :
    State.AfterPackerError { s with qnf := s.qnf || s.compressQnf } (compressEncode (compressBlocks s)) .overflow
        .hufEmit 4 ∧
      ∀ x, s.OutsideCompress x → (compressEncode (compressBlocks s)).readByte x = s.readByte x := by
  obtain ⟨u, hencode, hframe, hkeeps⟩ := compressEncode_overflows hd h hb htab hover
  rw [hencode]
  exact compress_stops (e := EmitStop.overflow.err .tmp1) ⟨_, _, _, _, hframe⟩ (compressBlocks_op hd h hb)
    (keepsOutsideCompress hd h hb hkeeps le_rfl) (by decide)

variable (hn : ceil8 (codeBits tab s.compressFlat).length ≤ s.op.tcap.toNat)
include hn

/-- COMPRESS where the payload fits and the container does not fit CAP. -/
theorem compress_containerOverflow
    (hover : s.op.cap.toNat < containerSize tab (ceil8 (codeBits tab s.compressFlat).length)) :
    State.AfterPackerError { s with qnf := s.qnf || s.compressQnf } (compressEncode (compressBlocks s)) .overflow
        .cntPack 2 ∧
      ∀ x, s.OutsideCompress x → (compressEncode (compressBlocks s)).readByte x = s.readByte x := by
  obtain ⟨lm, td, hencode, -, hkeeps⟩ := compressEncode_emits hd h hb htab hn
  rw [hencode, compressPack_overflows hn hover]
  exact compress_stops (u := (s.compressEmitted lm td tab).enterPhase .cntPack) (e := packOverflow)
    ⟨lm, _, s.draws, _, rfl⟩ rfl (keepsOutsideCompress (u := s.compressEmitted lm td tab) hd h hb hkeeps hn) (by decide)

/-- COMPRESS where both fit. -/
theorem compress_completes (hfit : containerSize tab (ceil8 (codeBits tab s.compressFlat).length) ≤ s.op.cap.toNat) :
    ∃ t, compressEncode (compressBlocks s) = t ∧ t = { s with
        lmem := t.lmem
        qnf := s.qnf || s.compressQnf
        opr := { s.opr with bitcnt := BitVec.ofNat 64 (codeBits tab s.compressFlat).length }
        outlen := u32 (containerSize tab (ceil8 (codeBits tab s.compressFlat).length))
        cwidth := u32 (crop s.imgW)
        cheight := u32 (crop s.imgH)
        qtab := qtabFn s.op.quality.toNat
        qtabv := true
        freq := freqFn s.compressFlat
        tab := tab
        bp := BitPacker.finished s.op.tmp1 s.op.tcap .tmp1 (codeBits tab s.compressFlat).length
        done := true
        seq := Seq.idle } ∧
      t.HoldsAt s.op.tmp0.toNat s.compressFlat ∧ t.HoldsBits s.op.tmp1.toNat (codeBits tab s.compressFlat) ∧
      t.HoldsAt s.op.dst.toNat (s.compressContainer t tab) ∧
      ∀ x, (x < s.op.tmp0.toNat ∨ s.op.tmp0.toNat + flatSize s.imgW s.imgH ≤ x) →
        (x < s.op.tmp1.toNat ∨ s.op.tmp1.toNat + ceil8 (codeBits tab s.compressFlat).length ≤ x) →
        (x < s.op.dst.toNat ∨ s.op.dst.toNat + containerSize tab (ceil8 (codeBits tab s.compressFlat).length) ≤ x) →
        t.readByte x = s.readByte x := by
  obtain ⟨lm, td, hencode, hbits, hkeeps⟩ := compressEncode_emits hd h hb htab hn
  obtain ⟨-, hflat, hblocks⟩ := compressBlocks_spec hd h hb
  refine ⟨_, hencode.trans (compressPack_completes hn hfit), ?_,
    compressPacked_memory h hb hn hfit hflat hblocks hbits hkeeps fun x => rfl⟩
  simp only [State.compressEmitted, State.writeBytes]

end Built

end Settle

/-- Settles O52: the phases of COMPRESS one after the other, each to its end or to its data error. -/
theorem compressCompletes : Obligations.CompressCompletes := by
  intro s flat q _ hd h1 h99 hbp h hb hflat hq
  have hflat : flat = s.compressFlat := hflat
  have hq : q = s.compressQnf := hq
  subst hflat hq
  refine ⟨_, exec_compress_of_check (compressCheck_of_regionsOk h1 h99 hbp h hb), ?_⟩
  cases htab : buildTab (freqFn s.compressFlat) with
  | error e =>
    obtain ⟨⟨hafter, hcode⟩, hmem⟩ := compress_buildError hd h hb htab
    exact ⟨hafter, fun _ => hcode, fun x h0 h1 hd => hmem x ⟨h0, h1, hd⟩⟩
  | ok tab =>
    intro bits hbits
    subst hbits
    refine ⟨fun hn hfit => ?_, fun hover => ?_⟩
    · obtain ⟨t, hencode, hcompletes⟩ := compress_completes hd h hb htab hn hfit
      rw [hencode]
      exact hcompletes
    · split
      next hpayload =>
        obtain ⟨hafter, hmem⟩ := compress_payloadOverflow hd h hb htab hpayload
        exact ⟨hafter, fun x h0 h1 hd => hmem x ⟨h0, h1, hd⟩⟩
      next hpayload =>
        obtain ⟨hafter, hmem⟩ := compress_containerOverflow hd h hb htab (Nat.le_of_not_lt hpayload)
          (hover.resolve_left hpayload)
        exact ⟨hafter, fun x h0 h1 hd => hmem x ⟨h0, h1, hd⟩⟩

end Sys2Proof.Machine
end

section
/-! PROOFS. The E_PARAM errors and COMPRESS's E_QUALITY (45_bitpack R272; 46_pipeline R303, R305; 47_container R322). -/

namespace Sys2Proof.Machine

/-! ### A failing check among others (60_exceptions R348) -/

section FirstError
variable {bad : Prop} [Decidable bad] {e : Err} {cs ds : List (Option Err)} {r : Option Err}

theorem firstError_failIf_of (h : bad) : firstError (failIf bad e :: cs) = some e :=
  congrArg (fun c => firstError (c :: cs)) (if_pos h)

theorem firstError_failIf_of_not (h : ¬bad) (hcs : firstError cs = r) : firstError (failIf bad e :: cs) = r :=
  (congrArg (fun c => firstError (c :: cs)) (failIf_of_not h e)).trans hcs

/-- A failing check in the first part of a list is that of the whole list. -/
theorem firstError_append_of_some (h : firstError cs = some e) : firstError (cs ++ ds) = some e :=
  List.findSome?_append.trans (congrArg (·.or (firstError ds)) h)

end FirstError

/-! ### BP_ADD, PIPE_INV and COMPRESS -/

section Operands
variable {s : State}

theorem precheck_bpAdd_wide {n : Nat} (h : 32 < n) :
    precheck (.bpAdd n) s = some { code := .param, stage := .bitpack, info := 1 } := firstError_failIf_of h

theorem precheck_pipeInv_width (h : s.imgW % 8 ≠ 0) :
    precheck .pipeInv s = some { code := .param, stage := .pipe, info := 1 } := firstError_failIf_of h

theorem precheck_pipeInv_height (hw : s.imgW % 8 = 0) (h : s.imgH % 8 ≠ 0) :
    precheck .pipeInv s = some { code := .param, stage := .pipe, info := 2 } :=
  firstError_failIf_of_not (not_not.2 hw) (firstError_failIf_of h)

theorem precheck_compress_quality (h : s.op.quality.toInt < 1 ∨ 99 < s.op.quality.toInt) :
    precheck .compress s = some { code := .quality, stage := .seq, info := s.op.quality.toNat } :=
  firstError_failIf_of h

end Operands

/-! ### CNT_PACK (R322) -/

/-- Two bytes of a list that meet `p` are found by the two nested searches of `duplicateKeys`. -/
theorem any_any_of_mem {l : List (Fin 256)} {p : Fin 256 → Fin 256 → Bool} {b d : Fin 256} (hb : b ∈ l) (hd : d ∈ l)
    (h : p b d = true) : (l.any fun b => l.any (p b)) = true :=
  List.any_eq_true.2 ⟨b, hb, List.any_eq_true.2 ⟨d, hd, h⟩⟩

/-- CNT_PACK's parameter checks come before the region check and that of the capacity. -/
theorem exec_cntPack_of_param {s : State} {k : Nat} (hk : k < 2 ^ 32)
    (h : firstError (packParamChecks s) = some (packParam k)) :
    exec .cntPack s = .next (s.afterError .param .cntPack (BitVec.ofNat 32 k)) :=
  exec_afterError_of_precheck (i := .cntPack) (firstError_append_of_some h) hk

/-- Settles O37: each check is the first of its command that fails, and ends it. -/
theorem operandTraps : Obligations.OperandTraps := by
  have valid {s : State} {b : Fin 256} (h : s.tab[b].valid = true) : b ∈ validBytes s.tab :=
    List.mem_filter.2 ⟨List.mem_finRange b, h⟩
  refine fun s => ⟨fun n hn => ?_, fun hw => ?_, fun hw hh => ?_, fun hq => ?_, fun hbits => ?_,
    fun hbits => ⟨fun hlen => ?_, fun hlen => ⟨fun b hb hlong => ?_, fun hshort b d hne hb hd hcode hl => ?_⟩⟩⟩
  · exact exec_afterError_of_precheck (precheck_bpAdd_wide hn)
  · exact exec_afterError_of_precheck (precheck_pipeInv_width hw)
  · exact exec_afterError_of_precheck (precheck_pipeInv_height hw hh)
  · have hdetail : BitVec.ofNat 32 s.op.quality.toNat = s.op.quality := u32_toNat _
    exact hdetail ▸ exec_afterError_of_precheck (precheck_compress_quality hq) s.op.quality.isLt
  · exact exec_cntPack_of_param (by decide) (firstError_failIf_of hbits)
  · exact exec_cntPack_of_param (by decide) (firstError_failIf_of_not hbits.not_gt (firstError_failIf_of hlen))
  · exact exec_cntPack_of_param (by decide) (firstError_failIf_of_not hbits.not_gt
      (firstError_failIf_of_not hlen.not_gt
        (firstError_failIf_of (List.any_eq_true.2 ⟨b, valid hb, decide_eq_true hlong⟩))))
  · refine exec_cntPack_of_param (by decide) (firstError_failIf_of_not hbits.not_gt
      (firstError_failIf_of_not hlen.not_gt (firstError_failIf_of_not (fun hany => ?_) (firstError_failIf_of ?_))))
    · exact (List.any_eq_true.1 hany).elim fun c hc =>
        (hshort c (List.mem_filter.1 hc.1).2).not_gt (of_decide_eq_true hc.2)
    · have hkey {x y : Bool} (hx : x = true) (hy : y = true) {z : Bool} (hz : z = true) : (x && y && z) = true :=
        Bool.and_eq_true_iff.2 ⟨Bool.and_eq_true_iff.2 ⟨hx, hy⟩, hz⟩
      obtain hlt | hgt := lt_or_gt_of_ne hne
      · exact any_any_of_mem (valid hb) (valid hd) (hkey (decide_eq_true hlt) (beq_of_eq hcode) (beq_of_eq hl))
      · exact any_any_of_mem (valid hd) (valid hb)
          (hkey (decide_eq_true hgt) (beq_of_eq hcode.symm) (beq_of_eq hl.symm))

end Sys2Proof.Machine
end

section
/-! PROOFS. The commands of the bit packer (45_bitpack R271 to R274): what BP_INIT, BP_ADD and BP_FINISH leave where
they succeed, and where they overflow. -/

namespace Sys2Proof.Machine

/-! ### BP_INIT (R271) -/

/-- The check of BP_INIT does not look at who writes the region. -/
theorem bpInitRegions_regionsOk {s : State} (h : s.RegionsOk [s.dstRegion s.op.cap.toNat 1]) :
    s.RegionsOk (bpInitRegions s) :=
  ⟨List.forall_mem_singleton.2 (List.forall_mem_singleton.1 h.1 :), List.pairwise_singleton _ _⟩

/-- Settles O47: the one check of BP_INIT passes, and the command commits the new session. -/
theorem bpInitCompletes : Obligations.BpInitCompletes := by
  intro s hw h
  have hchecked : execBpInit s = _ := State.checked_regions_of_regionsOk (bpInitRegions_regionsOk h) .bitpack _
  exact hchecked.trans (congrArg Host.Outcome.next (State.complete_of_work_none hw))

/-! ### The ends of BP_ADD and BP_FINISH, by what the session answers (R272, R274) -/

theorem State.bpOpenCheck_of_open {s : State} (h : s.bp.isOpen = true) (g : Stage) : s.bpOpenCheck g = none :=
  failIf_of_not (ne_false_of_eq_true h) _

theorem State.checked_of_none {s : State} {c : Option Err} (h : c = none)
    (body : State → Host.Outcome State Fault Refusal) : s.checked c body = body s :=
  congrArg (s.checked · body) h

/-- How BP_ADD ends, by its last state and whether every push went through. -/
def State.bpAddEnd (r : State × Bool) : State :=
  bif r.2 then r.1.complete else r.1.packerError [] (bpOverflow r.1 .bitpack)

/-- How BP_FINISH ends, by the end of the session. -/
def State.bpFinishEnd (s : State) (r : Option State) : State :=
  r.elim (s.packerError [] (bpOverflow s .bitpack)) fun t => t.bpResults.complete

section Open
variable {s : State} (h : s.bp.isOpen = true)
include h

theorem bpAddCheck_of_open {n : Nat} (hn : n ≤ 32) : bpAddCheck n s = none :=
  firstError_failIf_of_not hn.not_gt ((firstError_singleton _).trans (State.bpOpenCheck_of_open h _))

theorem exec_bpAdd_of_eq {n : Nat} (hn : n ≤ 32) {r : State × Bool} (hr : s.bpAdd s.op.bpdata n = r) :
    exec (.bpAdd n) s = .next (State.bpAddEnd r) := by
  refine (State.checked_of_none (bpAddCheck_of_open h hn) _ : execBpAdd n s = _).trans ?_
  subst hr
  rcases s.bpAdd s.op.bpdata n with ⟨t, _ | _⟩ <;> rfl

theorem exec_bpFinish_of_eq {r : Option State} (hr : s.bpEnd = r) :
    exec .bpFinish s = .next (s.bpFinishEnd r) := by
  refine (State.checked_of_none (State.bpOpenCheck_of_open h .bitpack) _ : execBpFinish s = _).trans ?_
  subst hr
  cases s.bpEnd <;> rfl

end Open

/-! ### BP_ADD and BP_FINISH within the capacity -/

theorem State.bpAdd_stream_length (s : State) (v : Word) (n : Nat) :
    (s.stream (lowBits v n)).length = s.bp.nacc.toNat + n :=
  (s.stream_length _).trans (congrArg _ (lowBits_length v n))

/-- The low-order bits of a word that fit the capacity are all taken. -/
theorem State.bpAdd_fits {s : State} (v : Word) {n : Nat}
    (h : s.bp.bytes.toNat + (s.bp.nacc.toNat + n) / 8 ≤ s.bp.cap.toNat) :
    ∃ t, s.bpAdd v n = (t, true) ∧ s.Packs (lowBits v n) t :=
  State.bpPushAll_fits (s.bpAdd_stream_length v n ▸ h)

/-- Settles O48: the low-order bits of BPDATA are pushed one by one, and the session takes them all. -/
theorem bpAddCompletes : Obligations.BpAddCompletes := fun s n hw hn hopen hroom =>
  (State.bpAdd_fits s.op.bpdata hroom).elim fun t h =>
    have hpacks := h.2
    ⟨t.complete, exec_bpAdd_of_eq hopen hn h.1, _, rfl,
      (congrArg State.complete (lowBits_length s.op.bpdata n ▸ hpacks.frame)).trans
        (State.complete_of_work_none (by exact hw)),
      hpacks.pending, hpacks.written, hpacks.keeps⟩

/-- BITCNT and OUTLEN are the counters of the session. -/
theorem State.bpResults_complete {s : State} (hw : s.seq.work = Work.none) :
    s.bpResults.complete = { s with
      opr := { s.opr with bitcnt := s.bp.total }, outlen := s.bp.bytes, done := true, seq := Seq.idle } :=
  (State.complete_of_work_none (s := s.bpResults) hw).trans (congrArg (fun w => { s with
    opr := { s.opr with bitcnt := s.bp.total }, outlen := w, done := true, seq := Seq.idle }) (u32_toNat s.bp.bytes))

/-- Settles O49: the session ends with its last byte, and its counters become the results. -/
theorem bpFinishCompletes : Obligations.BpFinishCompletes := fun s hw hopen hacc hroom =>
  (State.bpEnd_fits hacc hroom).elim fun t h =>
    ⟨t.bpResults.complete, exec_bpFinish_of_eq hopen h.1,
      (congrArg (fun u => u.bpResults.complete) h.2.1).trans (State.bpResults_complete (by exact hw)),
      h.2.2⟩

/-! ### The capacity (R273) -/

theorem State.bpAdd_writesSession (s : State) (v : Word) (n : Nat) : s.WritesSession (s.bpAdd v n).1 :=
  State.bpPushAll_induction (fun _ _ _ hs hp => hs.bpPush hp) _ (.refl s)

theorem State.bpAdd_rid (s : State) (v : Word) (n : Nat) : (s.bpAdd v n).1.bp.rid = s.bp.rid :=
  State.bpPushAll_induction (P := fun u => u.bp.rid = s.bp.rid)
    (fun _ _ _ hs hp => (congrArg (fun u => u.bp.rid) (State.bpPush_frame hp)).trans hs) _ rfl

theorem State.bpAddEnd_readByte (r : State × Bool) (x : Nat) : (State.bpAddEnd r).readByte x = r.1.readByte x := by
  obtain ⟨t, _ | _⟩ := r <;> rfl

theorem State.bpFinishEnd_keepsOutside {s : State} {r : Option State} (hr : s.bpEnd = r) :
    s.KeepsOutside (s.bpFinishEnd r) s.nextByte (s.bp.cap.toNat - s.bp.bytes.toNat) := by
  cases r with
  | none => exact fun _ _ => rfl
  | some t => exact State.bpEnd_keepsOutside (t := t) hr

/-- BP_ADD writes only the rest of the session, whether it completes, overflows or fails a check. -/
theorem exec_bpAdd_keepsOutside {s t : State} (h : s.bp.isOpen = true) {n : Nat} (ht : exec (.bpAdd n) s = .next t) :
    s.KeepsOutside t s.nextByte (s.bp.cap.toNat - s.bp.bytes.toNat) := by
  obtain hn | hwide := le_or_gt n 32
  · exact Host.Outcome.next.inj ((exec_bpAdd_of_eq h hn rfl).symm.trans ht) ▸ fun x hx =>
      (State.bpAddEnd_readByte _ x).trans ((s.bpAdd_writesSession _ n).keeps x hx)
  · have hraise := exec_afterError_of_precheck (precheck_bpAdd_wide (s := s) hwide)
    exact Host.Outcome.next.inj (hraise.symm.trans ht) ▸ fun _ _ => rfl

/-- The overflow of a session's command: E_OVERFLOW with the session's region id, and BP closed. -/
theorem State.packerError_bpOverflow_after {s u : State}
    (hu : u = { s with lmem := u.lmem, bp := u.bp, draws := u.draws, seq := u.seq }) (hrid : u.bp.rid = s.bp.rid) :
    s.AfterPackerError (u.packerError [] (bpOverflow u .bitpack)) .overflow .bitpack (s.bp.rid.setWidth 32) := by
  have hword : BitVec.ofNat 32 (bpOverflow u .bitpack).info = s.bp.rid.setWidth 32 :=
    (BitVec.ofNat_toNat 32 u.bp.rid).trans (congrArg _ hrid)
  exact hword ▸ State.packerError_after hu [] (u.bp.rid.isLt.trans (by decide))

theorem State.bpAdd_overflows {s : State} (v : Word) {n : Nat} (hbytes : s.bp.bytes.toNat ≤ s.bp.cap.toNat)
    (h : s.bp.cap.toNat < s.bp.bytes.toNat + (s.bp.nacc.toNat + n) / 8) :
    s.bpAdd v n = ((s.bpAdd v n).1, false) :=
  (State.bpPushAll_overflows hbytes (s.bpAdd_stream_length v n ▸ h)).elim fun _ ht =>
    Prod.ext rfl (congrArg Prod.snd ht : (s.bpAdd v n).2 = false)

/-- Where BP_ADD overflows, its pushes, like those of any command, have changed only LMEM and BP. -/
theorem State.bpAdd_overflow_after (s : State) (v : Word) (n : Nat) :
    s.AfterPackerError (State.bpAddEnd ((s.bpAdd v n).1, false)) .overflow .bitpack (s.bp.rid.setWidth 32) :=
  State.packerError_bpOverflow_after
    (((State.Touches.refl .nop s).bpAdd v n).frame_of_no_qnf (by decide)) (s.bpAdd_rid v n)

/-- Settles O50: pushes write only the rest of the session, and one that would pass its capacity stops the command. -/
theorem packerNeverPassesCapacity : Obligations.PackerNeverPassesCapacity := fun s n hopen hbytes =>
  ⟨fun _ h => h.elim (exec_bpAdd_keepsOutside hopen) fun ht =>
      Host.Outcome.next.inj ((exec_bpFinish_of_eq hopen rfl).symm.trans ht) ▸ State.bpFinishEnd_keepsOutside rfl,
    fun hn hover => ⟨_, exec_bpAdd_of_eq hopen hn (State.bpAdd_overflows s.op.bpdata hbytes hover),
      s.bpAdd_overflow_after s.op.bpdata n⟩,
    fun hnacc hfull =>
      have hend : s.bpEnd = none := State.bpEnd_overflows (fun h0 => hnacc (BitVec.eq_of_toNat_eq h0)) hfull.le
      ⟨_, exec_bpFinish_of_eq hopen hend, State.packerError_bpOverflow_after (u := s) rfl rfl⟩⟩

end Sys2Proof.Machine
end

section
/-! PROOFS. The schedule of the workers (46_pipeline R300, R301): no phase of a command but the block phase looks at
SEQ's task progress, and none at op.WORKERS. -/

namespace Sys2Proof.Machine

/-! ### The schedule's part of SEQ -/

/-- The state with another op.WORKERS and another task progress in SEQ (R300). -/
def State.withSchedule (s : State) (k : Byte) (d : List Nat) : State :=
  { s with seq := { s.seq with op := { s.seq.op with workers := k }, tasksDone := d } }

/-- The state with another op.WORKERS. -/
def State.withWorkers (s : State) (k : Byte) : State := s.withSchedule k s.seq.tasksDone

section Operations
variable (s : State) (k : Byte) (d : List Nat)

@[simp] theorem State.withSchedule_op : (s.withSchedule k d).op = s.op := rfl

@[simp] theorem State.withSchedule_imgW : (s.withSchedule k d).imgW = s.imgW := rfl

@[simp] theorem State.withSchedule_imgH : (s.withSchedule k d).imgH = s.imgH := rfl

@[simp] theorem State.withSchedule_tab : (s.withSchedule k d).tab = s.tab := rfl

@[simp] theorem State.withSchedule_freq : (s.withSchedule k d).freq = s.freq := rfl

@[simp] theorem State.withSchedule_phaseTab : (s.withSchedule k d).phaseTab = s.phaseTab := rfl

@[simp] theorem State.withSchedule_readBytes (a n : Nat) :
    (s.withSchedule k d).readBytes a n = s.readBytes a n := rfl

@[simp] theorem State.withSchedule_inputBytes : inputBytes (s.withSchedule k d) = inputBytes s := rfl

theorem State.withSchedule_readByte (x : Nat) : (s.withSchedule k d).readByte x = s.readByte x := rfl

@[simp] theorem State.withSchedule_parse (a n : Nat) : (s.withSchedule k d).parse a n = s.parse a n :=
  State.parse_congr (s.withSchedule_readByte k d) a n

@[simp] theorem State.withSchedule_decodePayload (t : Vector CodeEntry 256) (a nbits n : Nat) :
    (s.withSchedule k d).decodePayload t a nbits n = s.decodePayload t a nbits n :=
  State.decodePayload_congr (s.withSchedule_readByte k d) t a nbits n

@[simp] theorem State.withSchedule_hufFreqPhase (bs : List Byte) :
    (s.withSchedule k d).hufFreqPhase bs = (s.hufFreqPhase bs).withSchedule k d := rfl

@[simp] theorem State.withSchedule_hufBuildPhase (f : Vector Word 256) :
    (s.withSchedule k d).hufBuildPhase f = (s.hufBuildPhase f).map fun u => u.withSchedule k d := by
  unfold State.hufBuildPhase
  simp only [State.setWorklist_seq]
  cases tabOfWorklist (initialWorklist f) <;> rfl

@[simp] theorem State.withSchedule_bpPush (bit : Bool) :
    (s.withSchedule k d).bpPush bit = (s.bpPush bit).map fun u => u.withSchedule k d := by
  unfold State.bpPush
  simp only [apply_ite (Option.map fun u : State => u.withSchedule k d)]
  rfl

@[simp] theorem State.withSchedule_bpAdd (w : Word) (n : Nat) :
    (s.withSchedule k d).bpAdd w n = ((s.bpAdd w n).1.withSchedule k d, (s.bpAdd w n).2) := by
  unfold State.bpAdd
  induction lowBits w n generalizing s with
  | nil => rfl
  | cons b rest ih =>
    simp only [State.bpPushAll, State.withSchedule_bpPush]
    cases s.bpPush b with
    | none => rfl
    | some t => exact ih t

@[simp] theorem State.withSchedule_bpEnd : (s.withSchedule k d).bpEnd = s.bpEnd.map fun u => u.withSchedule k d := by
  unfold State.bpEnd
  simp only [apply_ite (Option.map fun u : State => u.withSchedule k d)]
  rfl

@[simp] theorem State.withSchedule_emitBytes (t : Vector CodeEntry 256) (i : Nat) (bs : List Byte) :
    (s.withSchedule k d).emitBytes t i bs = ((s.emitBytes t i bs).1.withSchedule k d, (s.emitBytes t i bs).2) := by
  induction bs generalizing s i with
  | nil => rfl
  | cons b rest ih =>
    simp only [State.emitBytes, State.withSchedule_bpAdd]
    split
    · rcases s.bpAdd (atByte t b).code (atByte t b).len.toNat with ⟨u, _ | _⟩
      · rfl
      · exact ih u (i + 1)
    · rfl

@[simp] theorem State.withSchedule_emitPhase (t : Vector CodeEntry 256) (bs : List Byte) (base cap : Word)
    (r : RegionId) :
    (s.withSchedule k d).emitPhase t bs base cap r =
      ((s.emitPhase t bs base cap r).1.withSchedule k d, (s.emitPhase t bs base cap r).2) := by
  have hstart : ((s.withSchedule k d).enterPhase .hufEmit).bpStart base cap r =
      ((s.enterPhase .hufEmit).bpStart base cap r).withSchedule k d := rfl
  simp only [State.emitPhase, hstart, State.withSchedule_emitBytes]
  rcases ((s.enterPhase .hufEmit).bpStart base cap r).emitBytes t 0 bs with ⟨u, _ | x⟩
  · simp only [State.withSchedule_bpEnd]
    cases u.bpEnd <;> rfl
  · rfl

/-! ### The ends of a command forget the schedule -/

theorem State.withSchedule_scrambleRegions (rs : List Region) :
    (s.withSchedule k d).scrambleRegions rs = (s.scrambleRegions rs).withSchedule k d :=
  List.foldl_hom (fun u : State => u.withSchedule k d) fun _ _ => rfl

@[simp] theorem State.withSchedule_dataError (rs : List Region) (e : Err) :
    (s.withSchedule k d).dataError rs e = s.dataError rs e := by
  rw [State.dataError, State.withSchedule_scrambleRegions]
  rfl

@[simp] theorem State.withSchedule_packerError (rs : List Region) (e : Err) :
    (s.withSchedule k d).packerError rs e = s.packerError rs e := by
  rw [State.packerError, State.withSchedule_scrambleRegions]
  rfl

@[simp] theorem State.withSchedule_emitAndEnd (t : Vector CodeEntry 256) :
    (s.withSchedule k d).emitAndEnd t = s.emitAndEnd t := by
  have hregions : emitRegions (s.withSchedule k d) = emitRegions s := rfl
  simp only [State.emitAndEnd, State.withSchedule_inputBytes, State.withSchedule_op, State.withSchedule_emitPhase]
  rcases s.emitPhase t (inputBytes s) s.op.dst s.op.cap .dst with ⟨u, _ | x⟩
  · rfl
  · simp only [State.withSchedule_packerError, hregions]

@[simp] theorem compressPack_withSchedule : compressPack (s.withSchedule k d) = compressPack s := by
  unfold compressPack
  have hphase : (s.withSchedule k d).enterPhase .cntPack = (s.enterPhase .cntPack).withSchedule k d := rfl
  have hregions : compressRegions (s.withSchedule k d) = compressRegions s := rfl
  simp only [hphase, hregions, State.withSchedule_packerError, State.withSchedule_op, State.withSchedule_imgW,
    State.withSchedule_imgH, State.withSchedule_phaseTab, State.withSchedule_readBytes]
  simp only [State.withSchedule, State.complete, State.setCropped, State.setOutlen, State.setBitcnt, State.serialize,
    State.writeBytes, State.enterPhase]
  rfl

@[simp] theorem compressEncode_withSchedule : compressEncode (s.withSchedule k d) = compressEncode s := by
  have hregions : compressRegions (s.withSchedule k d) = compressRegions s := rfl
  unfold compressEncode
  simp only [State.withSchedule_op, State.withSchedule_imgW, State.withSchedule_imgH, State.withSchedule_readBytes,
    State.withSchedule_hufFreqPhase, State.withSchedule_hufBuildPhase, State.withSchedule_packerError, hregions]
  cases (s.hufFreqPhase (s.readBytes s.op.tmp0.toNat (flatSize s.imgW s.imgH))).hufBuildPhase
      (freqFn (s.readBytes s.op.tmp0.toNat (flatSize s.imgW s.imgH))) with
  | error e => rfl
  | ok u =>
    simp only [Except.map, State.withSchedule_emitPhase, State.withSchedule_phaseTab]
    rcases u.emitPhase u.phaseTab (s.readBytes s.op.tmp0.toNat (flatSize s.imgW s.imgH)) s.op.tmp1 s.op.tcap
      .tmp1 with ⟨w, _ | x⟩
    · exact compressPack_withSchedule w k d
    · exact State.withSchedule_packerError w k d _ _

/-! ### The block phase and op.WORKERS -/

theorem State.withWorkers_runTask {f : State → State} (hf : ∀ u : State, f (u.withWorkers k) = (f u).withWorkers k)
    (t : Nat) : (s.withWorkers k).runTask t f = (s.runTask t f).withWorkers k := by
  have hdone : (s.withWorkers k).seq.tasksDone = s.seq.tasksDone := rfl
  unfold State.runTask
  rw [hdone, hf]
  split <;> rfl

theorem State.withWorkers_blockPhase {task : Nat → State → State}
    (ht : ∀ t (u : State), task t (u.withWorkers k) = (task t u).withWorkers k) (nb : Nat) :
    (s.withWorkers k).blockPhase nb task = (s.blockPhase nb task).withWorkers k :=
  List.foldl_hom (fun u : State => u.withWorkers k) fun u t => u.withWorkers_runTask k (ht t) t

theorem fwdTask_withWorkers (a w flat t : Nat) :
    fwdTask a w flat t (s.withWorkers k) = (fwdTask a w flat t s).withWorkers k := rfl

theorem State.withWorkers_writeSamples (a w t ch : Nat) (b : Vector F64 64) :
    (s.withWorkers k).writeSamples a w t ch b = (s.writeSamples a w t ch b).withWorkers k :=
  List.foldl_hom (fun u : State => u.withWorkers k) fun _ _ =>
    List.foldl_hom (fun u : State => u.withWorkers k) fun _ _ => rfl

theorem invTask_withWorkers (flat a w t : Nat) :
    invTask flat a w t (s.withWorkers k) = (invTask flat a w t s).withWorkers k := by
  have channel (u : State) (ch : Nat) :
      invChannel flat a w t ch (u.withWorkers k) = (invChannel flat a w t ch u).withWorkers k :=
    u.withWorkers_writeSamples k a w t ch _
  simp only [invTask, channel]

theorem decompressCommit_withSchedule (p : Parsed) :
    decompressCommit (s.withSchedule k d) p = decompressCommit s p := rfl

@[simp] theorem State.withWorkers_op : (s.withWorkers k).op = s.op := rfl

@[simp] theorem State.withWorkers_imgW : (s.withWorkers k).imgW = s.imgW := rfl

@[simp] theorem State.withWorkers_imgH : (s.withWorkers k).imgH = s.imgH := rfl

theorem decompressParse_withWorkers : decompressParse (s.withWorkers k) = decompressParse s := by
  unfold decompressParse decompressHeader State.withWorkers
  rw [State.withSchedule_parse]
  rfl

theorem decompressDecode_withWorkers (p : Parsed) :
    decompressDecode (s.withWorkers k) p = (decompressDecode s p).map fun u => u.withWorkers k := by
  unfold decompressDecode State.withWorkers
  rw [State.withSchedule_decodePayload]
  cases s.decodePayload p.tab p.paddr p.nbits.toNat (flatSize p.width.toNat p.height.toNat) <;> rfl

end Operations

/-! ### A command does not look at op.WORKERS (R301, 60_exceptions R356) -/

section Commands
variable (s : State) (k : Byte)

theorem checked_withWorkers {c : Option Err} {b : State → Host.Outcome State Fault Refusal}
    (hb : b (s.withWorkers k) = b s) : (s.withWorkers k).checked c b = s.checked c b := by
  cases c with
  | none => exact hb
  | some e => rfl

theorem execBpAdd_withWorkers (n : Nat) : execBpAdd n (s.withWorkers k) = execBpAdd n s := by
  refine checked_withWorkers s k ?_
  simp only [State.withWorkers, State.withSchedule_op, State.withSchedule_bpAdd]
  rcases s.bpAdd s.op.bpdata n with ⟨u, _ | _⟩
  · exact congrArg Host.Outcome.next (u.withSchedule_packerError k _ [] _)
  · rfl

theorem execBpFinish_withWorkers : execBpFinish (s.withWorkers k) = execBpFinish s := by
  refine checked_withWorkers s k ?_
  simp only [State.withWorkers, State.withSchedule_bpEnd]
  cases s.bpEnd with
  | none => exact congrArg Host.Outcome.next (s.withSchedule_packerError k _ [] _)
  | some u => rfl

theorem execHufBuild_withWorkers : execHufBuild (s.withWorkers k) = execHufBuild s := by
  unfold execHufBuild
  simp only [State.withWorkers, State.withSchedule_freq, State.withSchedule_hufBuildPhase]
  cases s.hufBuildPhase s.freq with
  | error e => exact congrArg Host.Outcome.next (s.withSchedule_dataError k _ [] e)
  | ok u => rfl

theorem execHufEncode_withWorkers : execHufEncode (s.withWorkers k) = execHufEncode s := by
  refine checked_withWorkers s k ?_
  simp only [State.withWorkers, State.withSchedule_inputBytes, State.withSchedule_hufFreqPhase,
    State.withSchedule_hufBuildPhase]
  cases (s.hufFreqPhase (inputBytes s)).hufBuildPhase (freqFn (inputBytes s)) with
  | error e => exact congrArg Host.Outcome.next (s.withSchedule_packerError k _ _ e)
  | ok u => exact congrArg Host.Outcome.next (u.withSchedule_emitAndEnd k _ u.phaseTab)

theorem execHufDecode_withWorkers : execHufDecode (s.withWorkers k) = execHufDecode s := by
  refine checked_withWorkers s k ?_
  simp only [State.withWorkers, State.withSchedule_op, State.withSchedule_tab, State.withSchedule_decodePayload]
  cases s.decodePayload s.tab s.op.src.toNat s.op.bitcnt.toNat s.op.len.toNat with
  | error i => exact congrArg Host.Outcome.next (s.withSchedule_dataError k _ _ _)
  | ok out => rfl

theorem execCntUnpack_withWorkers : execCntUnpack (s.withWorkers k) = execCntUnpack s := by
  refine checked_withWorkers s k ?_
  simp only [State.withWorkers, State.withSchedule_op, State.withSchedule_parse]
  cases s.parse s.op.src.toNat s.op.len.toNat with
  | error i => exact congrArg Host.Outcome.next (s.withSchedule_dataError k _ _ _)
  | ok p => rfl

theorem execDecompress_withWorkers : execDecompress (s.withWorkers k) = execDecompress s := by
  have hregions (p : Parsed) : decompressOutRegions (s.withWorkers k) p = decompressOutRegions s p := rfl
  have htask (p : Parsed) : decompressTask (s.withWorkers k) p = decompressTask s p := rfl
  unfold execDecompress
  rw [decompressParse_withWorkers]
  cases decompressParse s with
  | error e => exact congrArg Host.Outcome.next (s.withSchedule_dataError k _ [] e)
  | ok p =>
    simp only [decompressDecode_withWorkers, hregions, htask]
    cases decompressDecode s p with
    | error i => exact congrArg Host.Outcome.next (s.withSchedule_dataError k _ _ _)
    | ok u =>
      have hb := u.withWorkers_blockPhase k (task := decompressTask s p) (fun t v => invTask_withWorkers v k _ _ _ t)
        (blockCount p.width.toNat p.height.toNat)
      simp only [Except.map, hb]
      exact congrArg Host.Outcome.next (decompressCommit_withSchedule _ k _ p)

/-- A command ends the same whatever op.WORKERS is. -/
theorem exec_withWorkers (i : Instr) : exec i (s.withWorkers k) = exec i s := by
  unfold exec
  cases i with
  | nop => rfl
  | qtabBuild | fdct | idct | dequant | zzscan | zzunscan | hufFreq | bpInit | blkDec | cntPack =>
    exact checked_withWorkers s k rfl
  | quant =>
    have hb := s.withWorkers_runTask k (f := quantBody) (fun _ => rfl) 0
    exact checked_withWorkers s k (by rw [hb]; rfl)
  | blkEnc =>
    have hb := s.withWorkers_runTask k (f := blkEncBody) (fun _ => rfl) 0
    exact checked_withWorkers s k (by rw [hb]; rfl)
  | hufBuild => exact execHufBuild_withWorkers s k
  | hufEmit => exact checked_withWorkers s k (congrArg Host.Outcome.next (s.withSchedule_emitAndEnd k _ s.tab))
  | hufEncode => exact execHufEncode_withWorkers s k
  | hufDecode => exact execHufDecode_withWorkers s k
  | bpAdd n => exact execBpAdd_withWorkers s k n
  | bpFinish => exact execBpFinish_withWorkers s k
  | pipeFwd =>
    have hb := s.withWorkers_blockPhase k (task := fwdTask s.op.src.toNat s.imgW s.op.dst.toNat)
      (fun t u => fwdTask_withWorkers u k _ _ _ t) (blockCount s.imgW s.imgH)
    refine checked_withWorkers s k ?_
    simp only [State.withWorkers_op, State.withWorkers_imgW, State.withWorkers_imgH, hb]
    rfl
  | pipeInv =>
    have hb := s.withWorkers_blockPhase k (task := invTask s.op.src.toNat s.op.dst.toNat s.imgW)
      (fun t u => invTask_withWorkers u k _ _ _ t) (blockCount s.imgW s.imgH)
    refine checked_withWorkers s k ?_
    simp only [State.withWorkers_op, State.withWorkers_imgW, State.withWorkers_imgH, hb]
    rfl
  | compress =>
    have hb := (compressEnter s).withWorkers_blockPhase k (task := fwdTask s.op.src.toNat s.imgW s.op.tmp0.toNat)
      (fun t u => fwdTask_withWorkers u k _ _ _ t) (blockCount s.imgW s.imgH)
    have henter : compressEnter (s.withWorkers k) = (compressEnter s).withWorkers k := rfl
    refine checked_withWorkers s k ?_
    simp only [State.withWorkers_op, State.withWorkers_imgW, State.withWorkers_imgH, henter, hb]
    exact congrArg Host.Outcome.next (compressEncode_withSchedule _ k _)
  | decompress => exact execDecompress_withWorkers s k
  | cntUnpack => exact execCntUnpack_withWorkers s k

end Commands

end Sys2Proof.Machine
end

section
/-! PROOFS. The block phases (46_pipeline R300, R301): every task fills cells of LMEM with bytes that are fixed when the
phase begins, so the order of the tasks does not matter. -/

namespace Sys2Proof.Machine

/-! ### Cells filled toward one target -/

/-- `u` is `s` with every cell of `S` filled with the byte that the target `g` has for it, and with a QNF event if `Q`;
only SEQ's task progress may differ besides. -/
structure State.Fills (g : Nat → Byte) (S : Set Nat) (Q : Prop) (s u : State) : Prop where
  frame : u = { s with lmem := u.lmem, qnf := u.qnf, seq := { s.seq with tasksDone := u.seq.tasksDone } }
  qnf : u.qnf = true ↔ s.qnf = true ∨ Q
  filled : ∀ x ∈ S, LMem.lookup u.lmem x = some (g x)
  kept : ∀ x ∉ S, LMem.lookup u.lmem x = LMem.lookup s.lmem x
  canonical : s.lmem.wf → u.lmem.wf

namespace State.Fills

variable {g : Nat → Byte} {S S' : Set Nat} {Q Q' : Prop} {s u v : State}

theorem refl (g : Nat → Byte) (s : State) : Fills g ∅ False s s :=
  ⟨rfl, (or_iff_left id).symm, nofun, fun _ _ => rfl, id⟩

theorem trans (h : Fills g S Q s u) (k : Fills g S' Q' u v) : Fills g (S ∪ S') (Q ∨ Q') s v where
  frame := by
    refine k.frame.trans ?_
    rw [h.frame]
  qnf := by rw [k.qnf, h.qnf, or_assoc]
  filled x hx := by
    by_cases hx' : x ∈ S'
    · exact k.filled x hx'
    · rw [k.kept x hx', h.filled x (hx.resolve_right hx')]
  kept x hx := by
    obtain ⟨hS, hS'⟩ := not_or.1 hx
    rw [k.kept x hS', h.kept x hS]
  canonical hs := k.canonical (h.canonical hs)

theorem congr (h : Fills g S Q s u) (hS : ∀ x, x ∈ S ↔ x ∈ S') (hQ : Q ↔ Q') : Fills g S' Q' s u :=
  Set.ext hS ▸ propext hQ ▸ h

theorem epoch (h : Fills g S Q s u) : u.epoch = s.epoch := by rw [h.frame]

theorem op (h : Fills g S Q s u) : u.op = s.op := by rw [h.frame]

theorem phaseQtab (h : Fills g S Q s u) : u.phaseQtab = s.phaseQtab := by rw [h.frame]; rfl

theorem readByte_filled (h : Fills g S Q s u) {x : Nat} (hx : x ∈ S) : u.readByte x = g x := by
  rw [State.readByte, h.filled x hx, Option.getD_some]

theorem readByte_kept (h : Fills g S Q s u) {x : Nat} (hx : x ∉ S) : u.readByte x = s.readByte x := by
  rw [State.readByte, State.readByte, h.kept x hx, h.epoch]

/-- Bytes written as the target has them. -/
theorem writeBytes (s : State) {a : Nat} {bs : List Byte} (h : ∀ (i : Nat) (hi : i < bs.length), g (a + i) = bs[i]) :
    Fills g (Set.Ico a (a + bs.length)) False s (s.writeBytes a bs) where
  frame := rfl
  qnf := (or_iff_left id).symm
  filled x hx := by
    obtain ⟨i, rfl⟩ := Nat.exists_eq_add_of_le hx.1
    have hi : i < bs.length := Nat.lt_of_add_lt_add_left hx.2
    rw [h i hi, State.writeBytes_lmem, LMem.lookup_store_inside _ a bs i hi]
  kept x hx := LMem.lookup_store_outside _ a bs x (by simpa only [Set.mem_Ico, not_and_or, not_le, not_lt] using hx)
  canonical := State.writeBytes_wf a bs

theorem qnfEvent (h : Fills g S Q s u) (b : Bool) : Fills g S (Q ∨ b = true) s (u.qnfEvent b) where
  frame := by
    conv_lhs => rw [h.frame]
    rfl
  qnf := by rw [State.qnfEvent_qnf, Bool.or_eq_true, h.qnf, or_assoc]
  filled := h.filled
  kept := h.kept
  canonical := h.canonical

theorem markTask (h : Fills g S Q s u) (t : Nat) : Fills g S Q s (u.markTask t) where
  frame := by
    conv_lhs => rw [h.frame]
    rfl
  qnf := h.qnf
  filled := h.filled
  kept := h.kept
  canonical := h.canonical

/-- Steps that each fill their cells, one after the other, as long as `P` holds, which the steps keep. -/
theorem foldl {α : Type} {P : State → Prop} {f : State → α → State} {S : α → Set Nat} {Q : α → Prop} {l : List α}
    (hf : ∀ u, ∀ a ∈ l, P u → Fills g (S a) (Q a) u (f u a)) (hP : ∀ u, ∀ a ∈ l, P u → P (f u a)) (hs : P s) :
    Fills g {x | ∃ a ∈ l, x ∈ S a} (∃ a ∈ l, Q a) s (l.foldl f s) := by
  induction l generalizing s with
  | nil => exact (refl g s).congr (by simp) (by simp)
  | cons a rest ih =>
    have hfirst := hf s a List.mem_cons_self hs
    have hrest := ih (fun u b hb => hf u b (List.mem_cons_of_mem a hb))
      (fun u b hb => hP u b (List.mem_cons_of_mem a hb)) (hP s a List.mem_cons_self hs)
    exact (hfirst.trans hrest).congr (by simp) (by simp)

/-- What a state filled toward a target is, but for the schedule's part of SEQ. -/
theorem unique (h : Fills g S Q s u) (k : Fills g S Q s v) (hs : s.lmem.wf) :
    v = u.withSchedule u.seq.op.workers v.seq.tasksDone := by
  have hmem : v.lmem = u.lmem := LMem.ext_of_lookup (k.canonical hs) (h.canonical hs) fun x => by
    by_cases hx : x ∈ S
    · rw [k.filled x hx, h.filled x hx]
    · rw [k.kept x hx, h.kept x hx]
  have hqnf : v.qnf = u.qnf := Bool.eq_iff_iff.2 (k.qnf.trans h.qnf.symm)
  conv_lhs => rw [k.frame, hmem, hqnf]
  conv_rhs => rw [h.frame]
  rfl

end State.Fills

/-! ### A phase of tasks -/

/-- In `u` the tasks of a block phase read what they read in `s`: their QTAB and the `n` bytes at `a`. -/
def State.SameSource (s : State) (a n : Nat) (u : State) : Prop :=
  u.phaseQtab = s.phaseQtab ∧ ∀ x, a ≤ x → x < a + n → u.readByte x = s.readByte x

theorem State.SameSource.refl (s : State) (a n : Nat) : s.SameSource a n s := ⟨rfl, fun _ _ _ => rfl⟩

/-- Filling cells outside the source leaves the source. -/
theorem State.SameSource.of_fills {s u v : State} {a n : Nat} (h : s.SameSource a n u) {g : Nat → Byte} {S : Set Nat}
    {Q : Prop} (hv : u.Fills g S Q v) (hS : ∀ x ∈ S, x < a ∨ a + n ≤ x) : s.SameSource a n v :=
  ⟨hv.phaseQtab.trans h.1, fun x hlow hhigh =>
    (hv.readByte_kept fun hx => by have := hS x hx; omega).trans (h.2 x hlow hhigh)⟩

end Sys2Proof.Machine
end

section
/-! PROOFS. The plan of a phase: what its tasks, in any order, make of LMEM (46_pipeline R300, R301), and the plan of
a forward phase (R292, R302). -/

namespace Sys2Proof.Machine

/-- The three channels of a task, each of which reads the source and fills cells outside it. -/
theorem State.SameSource.channels {s u : State} {a n : Nat} (hu : s.SameSource a n u) {g : Nat → Byte}
    {S : Nat → Set Nat} {Q : Nat → Prop} {f : Nat → State → State}
    (hf : ∀ ch < 3, ∀ v, s.SameSource a n v → v.Fills g (S ch) (Q ch) (f ch v))
    (hS : ∀ ch < 3, ∀ x ∈ S ch, x < a ∨ a + n ≤ x) :
    u.Fills g {x | ∃ ch < 3, x ∈ S ch} (∃ ch < 3, Q ch) (f 2 (f 1 (f 0 u))) :=
  (State.Fills.foldl (f := fun v ch => f ch v) (l := List.range 3)
    (fun v ch hch hv => hf ch (List.mem_range.1 hch) v hv)
    (fun v ch hch hv => hv.of_fills (hf ch (List.mem_range.1 hch) v hv) (hS ch (List.mem_range.1 hch))) hu).congr
    (by simp) (by simp)

/-- What the tasks of a block phase make of LMEM and QNF: each its cells, filled toward one target, and its QNF event;
and the bytes that they read. -/
structure PhasePlan where
  target : Nat → Byte
  cells : Nat → Set Nat
  qnf : Nat → Prop
  source : Nat
  size : Nat

/-- Each of the `nb` tasks of a phase that begins in `s` does its part of the plan, and none writes what they read. -/
structure PhasePlan.Fits (p : PhasePlan) (s : State) (nb : Nat) (task : Nat → State → State) : Prop where
  fills : ∀ t < nb, ∀ u, s.SameSource p.source p.size u → u.Fills p.target (p.cells t) (p.qnf t) (task t u)
  apart : ∀ t < nb, ∀ x ∈ p.cells t, x < p.source ∨ p.source + p.size ≤ x
  seq : ∀ t u, (task t u).seq = u.seq

theorem State.runTask_of_done {s : State} {t : Nat} (h : t ∈ s.seq.tasksDone) (f : State → State) :
    s.runTask t f = s := if_pos (List.contains_iff_mem.2 h)

theorem State.runTask_of_new {s : State} {t : Nat} (h : t ∉ s.seq.tasksDone) (f : State → State) :
    s.runTask t f = (f s).markTask t := if_neg fun hc => h (List.contains_iff_mem.1 hc)

/-- The tasks not yet done are the one done next and those not done after it. -/
theorem exists_pending_iff {done : List Nat} {t : Nat} (ht : t ∉ done) {A A' : Nat → Prop}
    (hA : ∀ t', A t' ↔ t' = t ∨ A' t') (R : Nat → Prop) :
    (R t ∨ ∃ t', A' t' ∧ t' ∉ t :: done ∧ R t') ↔ ∃ t', A t' ∧ t' ∉ done ∧ R t' := by
  constructor
  · rintro (h | ⟨t', hA', hnew, h⟩)
    · exact ⟨t, (hA t).2 (.inl rfl), ht, h⟩
    · exact ⟨t', (hA t').2 (.inr hA'), fun hd => hnew (List.mem_cons_of_mem t hd), h⟩
  · rintro ⟨t', hA', hnew, h⟩
    by_cases htt : t' = t
    · exact .inl (htt ▸ h)
    · exact .inr ⟨t', ((hA t').1 hA').resolve_left htt, fun hd => (List.mem_cons.1 hd).elim htt hnew, h⟩

namespace PhasePlan.Fits

variable {p : PhasePlan} {s : State} {nb : Nat} {task : Nat → State → State} (h : p.Fits s nb task)
include h

/-- A task that is run fills its cells and is then done. -/
theorem runTask {u : State} (hu : s.SameSource p.source p.size u) {t : Nat} (ht : t < nb)
    (hnew : t ∉ u.seq.tasksDone) :
    u.Fills p.target (p.cells t) (p.qnf t) (u.runTask t (task t)) ∧
      (u.runTask t (task t)).seq.tasksDone = t :: u.seq.tasksDone := by
  rw [State.runTask_of_new hnew]
  refine ⟨(h.fills t ht u hu).markTask t, ?_⟩
  rw [State.markTask_seq, h.seq]

/-- Tasks one after the other fill the cells of those that were not done. -/
theorem foldl_runTask {l : List Nat} (hl : ∀ t ∈ l, t < nb) {u : State} (hu : s.SameSource p.source p.size u) :
    u.Fills p.target {x | ∃ t, t ∈ l ∧ t ∉ u.seq.tasksDone ∧ x ∈ p.cells t}
      (∃ t, t ∈ l ∧ t ∉ u.seq.tasksDone ∧ p.qnf t) (l.foldl (fun v t => v.runTask t (task t)) u) := by
  induction l generalizing u with
  | nil => exact (State.Fills.refl p.target u).congr (by simp) (by simp)
  | cons t rest ih =>
    have hrest : ∀ t' ∈ rest, t' < nb := fun t' ht' => hl t' (List.mem_cons_of_mem t ht')
    rw [List.foldl_cons]
    by_cases hdone : t ∈ u.seq.tasksDone
    · rw [State.runTask_of_done hdone]
      exact (ih hrest hu).congr (by simp [hdone]) (by simp [hdone])
    · have ht := hl t List.mem_cons_self
      obtain ⟨hfills, htasks⟩ := h.runTask hu ht hdone
      have hphase := ih hrest (hu.of_fills hfills (h.apart t ht))
      rw [htasks] at hphase
      exact (hfills.trans hphase).congr
        (fun x => exists_pending_iff hdone (fun _ => List.mem_cons) fun t' => x ∈ p.cells t')
        (exists_pending_iff hdone (fun _ => List.mem_cons) p.qnf)

/-- A block phase fills the cells of its tasks that were not done (R300, R301). -/
theorem blockPhase {u : State} (hu : s.SameSource p.source p.size u) :
    u.Fills p.target {x | ∃ t, t < nb ∧ t ∉ u.seq.tasksDone ∧ x ∈ p.cells t}
      (∃ t, t < nb ∧ t ∉ u.seq.tasksDone ∧ p.qnf t) (u.blockPhase nb task) :=
  (h.foldl_runTask (fun _ => List.mem_range.1) hu).congr (by simp) (by simp)

/-- From a state with no task done it fills the cells of them all. -/
theorem blockPhase_all (hd : s.seq.tasksDone = []) :
    s.Fills p.target {x | ∃ t, t < nb ∧ x ∈ p.cells t} (∃ t, t < nb ∧ p.qnf t) (s.blockPhase nb task) :=
  (h.blockPhase (.refl s _ _)).congr (by simp [hd]) (by simp [hd])

/-- A task run early leaves the phase's end as it was, but for the schedule's part of SEQ (R301). -/
theorem blockPhase_runTask (hs : s.lmem.wf) {t : Nat} (ht : t < nb) :
    ∃ k d, (s.runTask t (task t)).blockPhase nb task = (s.blockPhase nb task).withSchedule k d := by
  have hsource := State.SameSource.refl s p.source p.size
  by_cases hdone : t ∈ s.seq.tasksDone
  · rw [State.runTask_of_done hdone]
    exact ⟨_, _, rfl⟩
  · obtain ⟨hfills, htasks⟩ := h.runTask hsource ht hdone
    have hrest := h.blockPhase (hsource.of_fills hfills (h.apart t ht))
    rw [htasks] at hrest
    have hA : ∀ t', t' < nb ↔ t' = t ∨ t' < nb := fun t' => (or_iff_right_of_imp fun he => he ▸ ht).symm
    have hearly := (hfills.trans hrest).congr
      (fun x => exists_pending_iff hdone hA fun t' => x ∈ p.cells t') (exists_pending_iff hdone hA p.qnf)
    exact ⟨_, _, (h.blockPhase hsource).unique hearly hs⟩

end PhasePlan.Fits

/-! ### The plan of a forward phase (R292, R302) -/

/-- The bytes of channel `ch` of block `t` and whether it has a QNF event, with the image at `a` as `s` has it. -/
def State.fwdBlock (s : State) (a w t ch : Nat) : List Byte × Bool := encBlock (s.readSamples a w t ch) s.phaseQtab

theorem State.fwdBlock_length (s : State) (a w t ch : Nat) : (s.fwdBlock a w t ch).1.length = 64 :=
  encBlock_length _ _

/-- The flat buffer at `flat` that a forward phase makes of the image at `a`: slices of 64 bytes, three to a block. -/
def fwdPlan (s : State) (a w h flat : Nat) : PhasePlan where
  target x := (s.fwdBlock a w ((x - flat) / 192) ((x - flat) / 64 % 3)).1.getD ((x - flat) % 64) 0
  cells t := {x | ∃ ch < 3, x ∈ Set.Ico (flat + flatOff t ch) (flat + flatOff t ch + 64)}
  qnf t := ∃ ch < 3, (s.fwdBlock a w t ch).2 = true
  source := a
  size := 24 * w * h

theorem fwdPlan_target (s : State) (a w h flat t : Nat) {ch i : Nat} (hch : ch < 3) (hi : i < 64) :
    (fwdPlan s a w h flat).target (flat + flatOff t ch + i) =
      (s.fwdBlock a w t ch).1.getD i 0 := by
  have hsub : flat + flatOff t ch + i - flat = 64 * (3 * t + ch) + i := by unfold flatOff; omega
  have hblock : (64 * (3 * t + ch) + i) / 192 = t := by omega
  have hchannel : (64 * (3 * t + ch) + i) / 64 % 3 = ch := by omega
  have hindex : (64 * (3 * t + ch) + i) % 64 = i := by omega
  simp only [fwdPlan, hsub, hblock, hchannel, hindex]

section Forward
variable {s : State} {a w h flat : Nat}

theorem fwdPlan_cells_bound {t : Nat} (ht : t < blockCount w h) {ch x : Nat} (hch : ch < 3)
    (hx : x ∈ Set.Ico (flat + flatOff t ch) (flat + flatOff t ch + 64)) : flat ≤ x ∧ x < flat + flatSize w h := by
  obtain ⟨hlow, hhigh⟩ := hx
  unfold flatOff at hlow hhigh
  unfold flatSize
  omega

theorem fwdChannel_fills {u : State} (hu : s.SameSource a (24 * w * h) u) {t ch : Nat} (ht : t < blockCount w h)
    (hch : ch < 3) :
    u.Fills (fwdPlan s a w h flat).target (Set.Ico (flat + flatOff t ch) (flat + flatOff t ch + 64))
      ((s.fwdBlock a w t ch).2 = true) (fwdChannel a w flat t ch u) := by
  have hblock : encBlock (u.readSamples a w t ch) u.phaseQtab = s.fwdBlock a w t ch := by
    rw [State.readSamples_congr ht hch hu.2, hu.1, State.fwdBlock]
  have hlen := s.fwdBlock_length a w t ch
  have hwrite := State.Fills.writeBytes u (g := (fwdPlan s a w h flat).target) (a := flat + flatOff t ch)
    (bs := (s.fwdBlock a w t ch).1) fun i hi =>
      (fwdPlan_target s a w h flat t hch (hlen ▸ hi)).trans (List.getD_eq_getElem _ _ hi)
  rw [hlen] at hwrite
  simp only [fwdChannel, hblock]
  exact (hwrite.qnfEvent _).congr (fun _ => Iff.rfl) (or_iff_right id)

theorem fwdPlan_fits (hapart : ImageApart a w h flat) :
    (fwdPlan s a w h flat).Fits s (blockCount w h) (fwdTask a w flat) := by
  have houtside : ∀ t < blockCount w h, ∀ ch < 3,
      ∀ x ∈ Set.Ico (flat + flatOff t ch) (flat + flatOff t ch + 64), x < a ∨ a + 24 * w * h ≤ x :=
    fun t ht ch hch x hx => by
      have := fwdPlan_cells_bound ht hch hx
      unfold ImageApart at hapart
      omega
  exact {
    fills := fun t ht u hu => hu.channels (f := fwdChannel a w flat t)
      (fun ch hch v hv => fwdChannel_fills hv ht hch) (houtside t ht)
    apart := fun t ht x ⟨ch, hch, hx⟩ => houtside t ht ch hch x hx
    seq := fwdTask_seq a w flat }

end Forward

end Sys2Proof.Machine
end

section
/-! PROOFS. The plan of an inverse phase (46_pipeline R290, R303). -/

namespace Sys2Proof.Machine

/-! ### The plan of an inverse phase (R290, R303) -/

/-- The samples of channel `ch` of block `t`, decoded from its slice of the flat buffer at `flat` as `s` has it. -/
def State.invBlock (s : State) (flat t ch : Nat) : Vector F64 64 :=
  decBlock (s.read64 (flat + flatOff t ch)) s.phaseQtab

/-- The address of the sample in row `y` and column `x` of channel `ch` of block `t` (R290). -/
abbrev sampleAddr (a w t ch : Nat) (y x : Fin 8) : Nat :=
  pixAddr a w (8 * (t / (w / 8)) + y.val) (8 * (t % (w / 8)) + x.val) ch

/-- The bytes of channel `ch` of block `t` in the image at `a`. -/
def sampleCells (a w t ch : Nat) : Set Nat :=
  {z | ∃ y ∈ List.finRange 8, ∃ x ∈ List.finRange 8,
    z ∈ Set.Ico (sampleAddr a w t ch y x) (sampleAddr a w t ch y x + 8)}

/-- The image at `a` that an inverse phase makes of the flat buffer at `flat`. Byte `k` of the image is one of sample
`k / 8`, of channel `k / 8 % 3` of pixel `k / 24`, whose row and column give its block and its cell. -/
def invPlan (s : State) (flat a w h : Nat) : PhasePlan where
  target z :=
    let k := z - a
    let r := k / 24 / w
    let c := k / 24 % w
    let v := (s.invBlock flat (r / 8 * (w / 8) + c / 8) (k / 8 % 3))[cellIx (Fin.ofNat 8 r) (Fin.ofNat 8 c)]
    (leBytes 8 v.toNat).getD (k % 8) 0
  cells t := {z | ∃ ch < 3, z ∈ sampleCells a w t ch}
  qnf _ := ∃ ch < 3, False
  source := flat
  size := flatSize w h

theorem invPlan_target (s : State) (flat a h : Nat) {w t ch i : Nat} (hw : 0 < w / 8) (hch : ch < 3) (hi : i < 8)
    (y x : Fin 8) :
    (invPlan s flat a w h).target (sampleAddr a w t ch y x + i) =
      (leBytes 8 ((s.invBlock flat t ch)[cellIx y x]).toNat).getD i 0 := by
  obtain ⟨r, hr⟩ : ∃ r, r = 8 * (t / (w / 8)) + y.val := ⟨_, rfl⟩
  obtain ⟨c, hc⟩ : ∃ c, c = 8 * (t % (w / 8)) + x.val := ⟨_, rfl⟩
  have hcw : c < w := by have := Nat.mod_lt t hw; omega
  have hsub : sampleAddr a w t ch y x + i - a = 8 * (3 * (r * w + c) + ch) + i := by
    rw [sampleAddr, ← hr, ← hc, pixAddr]; omega
  have hpixel : (8 * (3 * (r * w + c) + ch) + i) / 24 = r * w + c := by omega
  have hchannel : (8 * (3 * (r * w + c) + ch) + i) / 8 % 3 = ch := by omega
  have hbyte : (8 * (3 * (r * w + c) + ch) + i) % 8 = i := by omega
  have hrow : (r * w + c) / w = r := by
    rw [Nat.mul_comm, Nat.mul_add_div (by omega), Nat.div_eq_of_lt hcw, Nat.add_zero]
  have hcol : (r * w + c) % w = c := by rw [Nat.mul_comm, Nat.mul_add_mod, Nat.mod_eq_of_lt hcw]
  have hblock : r / 8 * (w / 8) + c / 8 = t := by
    rw [show r / 8 = t / (w / 8) by omega, show c / 8 = t % (w / 8) by omega, Nat.mul_comm, Nat.div_add_mod]
  have hy : Fin.ofNat 8 r = y := Fin.ext (by rw [Fin.val_ofNat]; omega)
  have hx : Fin.ofNat 8 c = x := Fin.ext (by rw [Fin.val_ofNat]; omega)
  simp only [invPlan, hsub, hpixel, hchannel, hbyte, hrow, hcol, hblock, hy, hx]

section Inverse
variable {s : State} {flat a w h : Nat}

/-- The samples of one channel of a block, written into the image. -/
theorem State.writeSamples_fills (u : State) (hw : 0 < w / 8) {t ch : Nat} (hch : ch < 3) :
    u.Fills (invPlan s flat a w h).target (sampleCells a w t ch) False
      (u.writeSamples a w t ch (s.invBlock flat t ch)) := by
  have hsample (v : State) (y x : Fin 8) :
      v.Fills (invPlan s flat a w h).target (Set.Ico (sampleAddr a w t ch y x) (sampleAddr a w t ch y x + 8)) False
        (v.memWrite (sampleAddr a w t ch y x) 8 ((s.invBlock flat t ch)[cellIx y x]).toNat) := by
    have hlen := leBytes_length 8 ((s.invBlock flat t ch)[cellIx y x]).toNat
    have hwrite := State.Fills.writeBytes v (g := (invPlan s flat a w h).target) (a := sampleAddr a w t ch y x)
      (bs := leBytes 8 ((s.invBlock flat t ch)[cellIx y x]).toNat) fun i hi =>
        (invPlan_target s flat a h hw hch (hlen ▸ hi) y x).trans (List.getD_eq_getElem _ _ hi)
    rwa [hlen] at hwrite
  have hrow (v : State) (y : Fin 8) := State.Fills.foldl (P := fun _ => True) (l := List.finRange 8)
    (f := fun v x => v.memWrite (sampleAddr a w t ch y x) 8 ((s.invBlock flat t ch)[cellIx y x]).toNat)
    (fun v x _ _ => hsample v y x) (fun _ _ _ => id) (s := v) trivial
  exact (State.Fills.foldl (P := fun _ => True) (l := List.finRange 8)
    (f := fun v y => v.writeRow a w t ch (s.invBlock flat t ch) y)
    (fun v y _ _ => hrow v y) (fun _ _ _ => id) (s := u) trivial).congr (fun _ => Iff.rfl) (by simp)

theorem State.read64_congr {s u : State} {a : Nat} (h : ∀ x, a ≤ x → x < a + 64 → u.readByte x = s.readByte x) :
    u.read64 a = s.read64 a :=
  congrArg Vector.ofFn (funext fun i => h _ (Nat.le_add_right a i) (Nat.add_lt_add_left i.isLt a))

theorem flatOff_bound {t : Nat} (ht : t < blockCount w h) {ch : Nat} (hch : ch < 3) :
    flatOff t ch + 64 ≤ flatSize w h := by
  unfold flatOff flatSize
  omega

theorem invChannel_fills {u : State} (hu : s.SameSource flat (flatSize w h) u) {t ch : Nat}
    (ht : t < blockCount w h) (hch : ch < 3) :
    u.Fills (invPlan s flat a w h).target (sampleCells a w t ch) False (invChannel flat a w t ch u) := by
  have hw : 0 < w / 8 := Nat.pos_of_ne_zero fun h0 => by simp [blockCount, h0] at ht
  have hslice := flatOff_bound ht hch
  have hblock : decBlock (u.read64 (flat + flatOff t ch)) u.phaseQtab = s.invBlock flat t ch := by
    rw [State.read64_congr fun x hlow hhigh => hu.2 x (by omega) (by omega), hu.1, State.invBlock]
  rw [invChannel, hblock]
  exact State.writeSamples_fills u hw hch

theorem sampleCells_bound {t : Nat} (ht : t < blockCount w h) {ch z : Nat} (hch : ch < 3)
    (hz : z ∈ sampleCells a w t ch) : a ≤ z ∧ z < a + 24 * w * h := by
  obtain ⟨y, -, x, -, hlow, hhigh⟩ := hz
  obtain ⟨hfirst, hlast⟩ := pixAddr_bounds a ht y x hch
  exact ⟨hfirst.trans hlow, hhigh.trans_le hlast⟩

theorem foldl_seq {α : Type} {f : State → α → State} (hf : ∀ u x, (f u x).seq = u.seq) (l : List α) (s : State) :
    (l.foldl f s).seq = s.seq := by
  induction l generalizing s with
  | nil => rfl
  | cons x rest ih => exact (ih (f s x)).trans (hf s x)

theorem invTask_seq (flat a w t : Nat) (s : State) : (invTask flat a w t s).seq = s.seq := by
  have hchannel (v : State) (ch : Nat) : (invChannel flat a w t ch v).seq = v.seq :=
    foldl_seq (fun v y => foldl_seq (fun v x => v.memWrite_seq _ _ _) _ v) _ v
  simp only [invTask, hchannel]

/-- The tasks of an inverse phase, where image and flat buffer are apart or there is no block. -/
theorem invPlan_fits (hapart : 0 < blockCount w h → flat + flatSize w h ≤ a ∨ a + 24 * w * h ≤ flat) :
    (invPlan s flat a w h).Fits s (blockCount w h) (invTask flat a w) := by
  have houtside : ∀ t < blockCount w h, ∀ ch < 3, ∀ x ∈ sampleCells a w t ch, x < flat ∨ flat + flatSize w h ≤ x :=
    fun t ht ch hch x hx => by
      have := sampleCells_bound ht hch hx
      omega
  exact {
    fills := fun t ht u hu => hu.channels (f := invChannel flat a w t)
      (fun ch hch v hv => invChannel_fills hv ht hch) (houtside t ht)
    apart := fun t ht x ⟨ch, hch, hx⟩ => houtside t ht ch hch x hx
    seq := invTask_seq flat a w }

end Inverse

end Sys2Proof.Machine
end

section
/-! PROOFS. Regions that pass their checks, and which bytes PARSE and DECODE read (20_memory R110, 44_huffman R257,
47_container R324). -/

namespace Sys2Proof.Machine

/-! ### Regions that pass their checks -/

theorem pairwise_of_forall_mem_pairsOf {R : Region → Region → Prop} {rs : List Region}
    (h : ∀ p ∈ pairsOf rs, R p.1 p.2) : rs.Pairwise R := by
  induction rs with
  | nil => exact .nil
  | cons r rest ih =>
    refine List.pairwise_cons.2 ⟨fun q hq => ?_, ih fun p hp => h p (List.mem_append_right _ hp)⟩
    exact h (r, q) (List.mem_append_left _ (List.mem_map_of_mem hq))

/-- Regions that pass the checks are legal (20_memory R110, R111). -/
theorem State.regionsOk_of_regionCheck {s : State} {g : Stage} {rs : List Region} (h : s.regionCheck g rs = none) :
    s.RegionsOk rs := by
  have hranges : rs.findSome? (Region.check s.params.lmemSize g) = none := firstError_eq_none.1 h _ (by simp)
  have hpairs : overlapChecks g rs = none := firstError_eq_none.1 h _ (by simp)
  exact ⟨fun r hr => Region.check_eq_none_iff.1 (List.findSome?_eq_none_iff.1 hranges r hr),
    pairwise_of_forall_mem_pairsOf fun p hp =>
      Region.overlapCheck_eq_none_iff.1 (List.findSome?_eq_none_iff.1 hpairs p hp)⟩

/-! ### What PARSE and DECODE read (47_container R324, 44_huffman R257) -/

section Stream
variable {s u : State} {a n : Nat} (h : ∀ x, a ≤ x → x < a + n → u.readByte x = s.readByte x)
include h

theorem State.memRead_congr_within {b k : Nat} (hlow : a ≤ b) (hhigh : b + k ≤ a + n) :
    u.memRead b k = s.memRead b k := by
  rw [State.memRead, State.memRead,
    State.readBytes_congr fun x hx hxk => h x (hlow.trans hx) (hxk.trans_le hhigh)]

theorem State.field32_congr_within {b : Nat} (hlow : a ≤ b) (hhigh : b + 4 ≤ a + n) : u.field32 b = s.field32 b :=
  congrArg (BitVec.ofNat 32) (State.memRead_congr_within h hlow hhigh)

theorem State.field64_congr_within {b : Nat} (hlow : a ≤ b) (hhigh : b + 8 ≤ a + n) : u.field64 b = s.field64 b :=
  congrArg (BitVec.ofNat 64) (State.memRead_congr_within h hlow hhigh)

theorem State.parseEntries_congr_within {left e : Nat} (t : Vector CodeEntry 256) (hlow : a ≤ e)
    (hhigh : e + 9 * left ≤ a + n) : u.parseEntries left e t = s.parseEntries left e t := by
  induction left generalizing e t with
  | zero => rfl
  | succ left ih =>
    simp only [State.parseEntries, State.field32_congr_within h hlow (by omega),
      State.field32_congr_within h (b := e + 4) (by omega) (by omega), h (e + 8) (by omega) (by omega),
      ih (e := e + 9) _ (by omega) (by omega)]

theorem State.parseTrailer_congr_within {cnt : Nat} (t : Vector CodeEntry 256) (hsize : 28 + 9 * cnt ≤ n) :
    u.parseTrailer a n cnt t = s.parseTrailer a n cnt t := by
  simp only [State.parseTrailer, State.field64_congr_within h (b := a + 16 + 9 * cnt) (by omega) (by omega),
    State.field32_congr_within h (b := a + 16 + 9 * cnt + 8) (by omega) (by omega),
    State.field32_congr_within h (b := a) le_rfl (by omega),
    State.field32_congr_within h (b := a + 4) (by omega) (by omega),
    State.field32_congr_within h (b := a + 8) (by omega) (by omega)]

/-- PARSE reads only the stream. -/
theorem State.parse_congr_within : u.parse a n = s.parse a n := by
  rw [State.parse_eq u, State.parse_eq s]
  refine ite_congr rfl (fun _ => rfl) fun h16 => ?_
  have hcount : u.entryCount a = s.entryCount a := by
    rw [State.entryCount, State.field32_congr_within h (by omega) (by omega)]
  rw [hcount]
  refine ite_congr rfl (fun _ => rfl) fun hrange => ite_congr rfl (fun _ => rfl) fun hsize => ?_
  rw [State.parseEntries_congr_within h _ (Nat.le_add_right a 16) (by omega)]
  simp only [State.parseTrailer_congr_within h (cnt := (s.entryCount a).toNat) _ (by omega)]

end Stream

theorem of_ite_error_eq_ok {ε α : Type} {c : Prop} [Decidable c] {e : ε} {r : Except ε α} {x : α}
    (h : (if c then .error e else r) = .ok x) : ¬c ∧ r = .ok x := by
  split at h
  · cases h
  · exact ⟨‹_›, h⟩

/-- A container is not empty, and its payload lies in it. -/
theorem State.parse_ok_payload {s : State} {a n : Nat} {p : Parsed} (h : s.parse a n = .ok p) :
    0 < n ∧ a ≤ p.paddr ∧ p.paddr + ceil8 p.nbits.toNat ≤ a + n := by
  rw [State.parse_eq] at h
  obtain ⟨-, h⟩ := of_ite_error_eq_ok h
  obtain ⟨hrange, h⟩ := of_ite_error_eq_ok h
  obtain ⟨-, h⟩ := of_ite_error_eq_ok h
  cases hentries : s.parseEntries (s.entryCount a).toNat (a + 16) (Vector.replicate 256 CodeEntry.none) with
  | error k => rw [hentries] at h; cases h
  | ok t =>
    rw [hentries, Except.bind, State.parseTrailer_eq] at h
    obtain ⟨hbits, h⟩ := of_ite_error_eq_ok h
    obtain ⟨hlen, h⟩ := of_ite_error_eq_ok h
    obtain ⟨hshort, h⟩ := of_ite_error_eq_ok h
    obtain ⟨hfit, h⟩ := of_ite_error_eq_ok h
    cases h
    have hnat : s.trailerBits a = ((s.field64 (a + 16 + 9 * (s.entryCount a).toNat)).toNat : Int) :=
      BitVec.toInt_eq_toNat_of_msb (BitVec.msb_eq_toInt.trans (decide_eq_false hbits))
    simp only [ceil8]
    omega

theorem decodeLoop_congr {t : Vector CodeEntry 256} {bit bit' : Nat → Bool} {left i sv sl want : Nat}
    (h : ∀ j, i ≤ j → j < i + left → bit' j = bit j) :
    decodeLoop t bit' left i sv sl want = decodeLoop t bit left i sv sl want := by
  induction left generalizing i sv sl want with
  | zero => rfl
  | succ left ih =>
    have hrest (sv sl want : Nat) :
        decodeLoop t bit' left (i + 1) sv sl want = decodeLoop t bit left (i + 1) sv sl want :=
      ih fun j hlow hhigh => h j (by omega) (by omega)
    simp only [decodeLoop, h i le_rfl (by omega), hrest]

/-- DECODE reads only the payload. -/
theorem State.decodePayload_congr_within {s u : State} {a nbits : Nat}
    (h : ∀ x, a ≤ x → x < a + ceil8 nbits → u.readByte x = s.readByte x) (t : Vector CodeEntry 256) (n : Nat) :
    u.decodePayload t a nbits n = s.decodePayload t a nbits n := by
  have hbit : ∀ j, 0 ≤ j → j < 0 + nbits → u.payloadBit a j = s.payloadBit a j := fun j _ hj => by
    rw [State.payloadBit, State.payloadBit, h (a + j / 8) (by omega) (by unfold ceil8; omega)]
  simp only [State.decodePayload, decodeLoop_congr hbit]

end Sys2Proof.Machine
end

section
/-! PROOFS. DECOMPRESS up to its block phase: what its steps 1 to 6 leave, and that they leave it again after a task run
early (46_pipeline R306). -/

namespace Sys2Proof.Machine

/-! ### DECOMPRESS up to its block phase (R306 steps 1 to 6) -/

/-- With a legal stream region, step 5 makes the region checks of all three regions. -/
theorem decompressOutCheck_eq {s : State} (h : s.regionCheck .seq [streamRegion s] = none) (p : Parsed) :
    decompressOutCheck s p = s.regionCheck .seq (streamRegion s :: decompressOutRegions s p) := by
  have hstream : Region.check s.params.lmemSize .seq (streamRegion s) = none :=
    Region.check_eq_none_iff.2 ((State.regionsOk_of_regionCheck h).1 _ (List.mem_singleton_self _))
  rw [decompressOutCheck, State.regionCheck, regionChecks, List.findSome?_cons, hstream]

/-- What the checks of steps 1 to 5 say of a container that passes them. -/
theorem decompressParse_eq_ok_iff {s : State} {p : Parsed} :
    decompressParse s = .ok p ↔
      s.regionCheck .seq [streamRegion s] = none ∧ s.parse s.op.src.toNat s.op.len.toNat = .ok p ∧
        decompressHeaderCheck p = none ∧ s.regionCheck .seq (streamRegion s :: decompressOutRegions s p) = none := by
  cases hstream : s.regionCheck .seq [streamRegion s] with
  | some e => simp [decompressParse, decompressHeader, hstream]
  | none =>
    rw [← decompressOutCheck_eq hstream]
    cases hp : s.parse s.op.src.toNat s.op.len.toNat with
    | error k => simp [decompressParse, decompressHeader, hstream, hp]
    | ok q =>
      cases hcheck : decompressHeaderCheck q with
      | some e =>
        simp only [decompressParse, decompressHeader, hstream, hp, hcheck]
        exact iff_of_false nofun fun ⟨_, hq, hnone, _⟩ => by cases hq; cases hcheck.symm.trans hnone
      | none =>
        simp only [decompressParse, decompressHeader, hstream, hp, hcheck]
        cases hout : decompressOutCheck s q with
        | some e => exact iff_of_false nofun fun ⟨_, hq, _, hnone⟩ => by cases hq; cases hout.symm.trans hnone
        | none =>
          constructor
          · rintro ⟨⟩
            exact ⟨trivial, rfl, hcheck, hout⟩
          · rintro ⟨-, ⟨⟩, -⟩
            rfl

/-- Bytes stored where they already stand change nothing. -/
theorem LMem.store_of_lookup {m : LMem} (hm : m.wf) {a : Nat} {bs : List Byte}
    (h : ∀ (i : Nat) (hi : i < bs.length), LMem.lookup m (a + i) = some bs[i]) : LMem.store m a bs = m := by
  refine LMem.ext_of_lookup (LMem.store_wf a bs hm) hm fun x => ?_
  by_cases hx : x < a ∨ a + bs.length ≤ x
  · exact LMem.lookup_store_outside m a bs x hx
  · obtain ⟨i, rfl⟩ := Nat.exists_eq_add_of_le (show a ≤ x by omega)
    have hi : i < bs.length := by omega
    rw [LMem.lookup_store_inside m a bs i hi, h i hi]

/-- The state of DECOMPRESS before its block phase, with the decoded flat buffer at TMP0. -/
def State.decompressReady (s : State) (p : Parsed) (flat : List Byte) : State :=
  (((s.setWorkTab p.tab).setWorkQtab (qtabFn p.quality.toNat)).writeBytes s.op.tmp0.toNat flat).enterPhase .pipe

theorem State.decompressReady_params (s : State) (p : Parsed) (flat : List Byte) :
    (s.decompressReady p flat).params = s.params := by
  simp [State.decompressReady]

/-- The flat buffer that DECOMPRESS decodes. -/
abbrev State.decompressFlat (s : State) (p : Parsed) : Except Nat (List Byte) :=
  s.decodePayload p.tab p.paddr p.nbits.toNat (flatSize p.width.toNat p.height.toNat)

theorem decompressDecode_eq (s : State) (p : Parsed) :
    decompressDecode s p = (s.decompressFlat p).map (s.decompressReady p) := by
  unfold decompressDecode State.decompressFlat
  cases s.decodePayload p.tab p.paddr p.nbits.toNat (flatSize p.width.toNat p.height.toNat) <;> rfl

/-- The regions of DECOMPRESS are those of its operands. -/
theorem decompressRegions_congr {s u : State} (h : u.op = s.op) (p : Parsed) :
    streamRegion u = streamRegion s ∧ decompressOutRegions u p = decompressOutRegions s p := by
  simp only [streamRegion, decompressOutRegions, State.srcRegion, State.tmp0Region, State.dstRegion, h, and_self]

theorem State.regionCheck_congr {s u : State} (h : u.params = s.params) (g : Stage) (rs : List Region) :
    u.regionCheck g rs = s.regionCheck g rs := by
  rw [State.regionCheck, State.regionCheck, h]

/-- Step 6's state, with other bytes and another task progress, is step 6's state again but for the flat buffer. -/
theorem decompressReady_again (s : State) (p : Parsed) (flat : List Byte) (lm : LMem) (q : Bool) (td : List Nat)
    {u : State} (hu : u = { s.decompressReady p flat with
      lmem := lm, qnf := q, seq := { (s.decompressReady p flat).seq with tasksDone := td } }) :
    u.decompressReady p flat = { u with lmem := LMem.store u.lmem s.op.tmp0.toNat flat } := by
  subst hu
  simp only [State.decompressReady, State.enterPhase, State.writeBytes, State.setWorkQtab, State.setWorkTab]

/-- Where DECOMPRESS passes its checks and there is a block, its regions are apart. -/
theorem decompress_apart {s : State} {p : Parsed} (hp : decompressParse s = .ok p)
    (hb : 0 < blockCount p.width.toNat p.height.toNat) :
    (s.op.src.toNat + s.op.len.toNat ≤ s.op.tmp0.toNat ∨
        s.op.tmp0.toNat + flatSize p.width.toNat p.height.toNat ≤ s.op.src.toNat) ∧
      (s.op.src.toNat + s.op.len.toNat ≤ s.op.dst.toNat ∨
        s.op.dst.toNat + 24 * p.width.toNat * p.height.toNat ≤ s.op.src.toNat) ∧
      (s.op.tmp0.toNat + flatSize p.width.toNat p.height.toNat ≤ s.op.dst.toNat ∨
        s.op.dst.toNat + 24 * p.width.toNat * p.height.toNat ≤ s.op.tmp0.toNat) := by
  obtain ⟨-, hparse, -, hregions⟩ := decompressParse_eq_ok_iff.1 hp
  obtain ⟨hlen, -⟩ := State.parse_ok_payload hparse
  obtain ⟨-, hapart⟩ := State.regionsOk_of_regionCheck hregions
  simp only [decompressOutRegions, List.pairwise_cons, List.mem_cons, List.not_mem_nil, or_false, forall_eq_or_imp,
    forall_eq, Region.Apart, streamRegion, State.srcRegion, State.tmp0Region, State.dstRegion] at hapart
  obtain ⟨⟨hs0, hsd⟩, h0d, -⟩ := hapart
  have hpos : 0 < flatSize p.width.toNat p.height.toNat := by unfold flatSize; omega
  have hle := (flatSize_le p.width.toNat p.height.toNat).trans
    (Nat.mul_le_mul_left (24 * p.width.toNat) (Nat.sub_le p.height.toNat (p.height.toNat % 8)))
  omega

/-- What steps 1 to 6 leave is what they leave again, from any state that differs in the image only: with a block task
run early, they begin from where they had ended. -/
theorem decompress_again {s u : State} {p : Parsed} {flat : List Byte} (hp : decompressParse s = .ok p)
    (hflat : s.decompressFlat p = .ok flat) (hs : s.lmem.wf) (hb : 0 < blockCount p.width.toNat p.height.toNat)
    {g : Nat → Byte} {S : Set Nat} {Q : Prop} (hu : (s.decompressReady p flat).Fills g S Q u)
    (hS : ∀ x ∈ S, s.op.dst.toNat ≤ x ∧ x < s.op.dst.toNat + 24 * p.width.toNat * p.height.toNat) :
    decompressParse u = .ok p ∧ decompressDecode u p = .ok u := by
  obtain ⟨hstream, hparse, hheader, hregions⟩ := decompressParse_eq_ok_iff.1 hp
  obtain ⟨-, hpaddr, hpayload⟩ := State.parse_ok_payload hparse
  have hlen : flat.length = flatSize p.width.toNat p.height.toNat := State.decodePayload_length hflat
  have hop : u.op = s.op := hu.op
  obtain ⟨hs0, hsd, h0d⟩ := decompress_apart hp hb
  have hread : ∀ x, s.op.src.toNat ≤ x → x < s.op.src.toNat + s.op.len.toNat → u.readByte x = s.readByte x :=
    fun x hlow hhigh => by
      rw [hu.readByte_kept fun hx => by have := hS x hx; omega]
      exact State.readByte_writeBytes_outside _ _ flat x (by omega)
  have hparams : u.params = s.params := by rw [hu.frame]; exact s.decompressReady_params p flat
  obtain ⟨hr1, hr2⟩ := decompressRegions_congr hop p
  constructor
  · refine decompressParse_eq_ok_iff.2 ⟨?_, ?_, hheader, ?_⟩
    · rw [hr1, State.regionCheck_congr hparams, hstream]
    · rw [hop, State.parse_congr_within hread, hparse]
    · rw [hr1, hr2, State.regionCheck_congr hparams, hregions]
  · have hmem : LMem.store u.lmem s.op.tmp0.toNat flat = u.lmem := by
      refine LMem.store_of_lookup (hu.canonical (LMem.store_wf _ _ hs)) fun i hi => ?_
      rw [hu.kept _ fun hx => by have := hS _ hx; omega]
      exact LMem.lookup_store_inside _ _ flat i hi
    have hdecode : u.decompressFlat p = .ok flat :=
      (State.decodePayload_congr_within (fun x hlow hhigh => hread x (by omega) (by omega)) _ _).trans hflat
    have hready : u.decompressReady p flat = u := by
      rw [decompressReady_again s p flat _ _ _ hu.frame, hmem]
    rw [decompressDecode_eq, hdecode, Except.map, hready]

end Sys2Proof.Machine
end

section
/-! PROOFS. A worker's early task, the sequencer's early block and op.WORKERS do not change how a command ends
(46_pipeline R300, R301). -/

namespace Sys2Proof.Machine

/-! ### A task run early (46_pipeline R300, R301) -/

/-- A task that a worker runs, or finds done, fills at most its cells. -/
theorem PhasePlan.Fits.runTask_fills {p : PhasePlan} {s : State} {nb : Nat} {task : Nat → State → State}
    (h : p.Fits s nb task) {t : Nat} (ht : t < nb) :
    ∃ S ⊆ p.cells t, ∃ Q, s.Fills p.target S Q (s.runTask t (task t)) := by
  by_cases hdone : t ∈ s.seq.tasksDone
  · rw [State.runTask_of_done hdone]
    exact ⟨∅, Set.empty_subset _, False, .refl p.target s⟩
  · exact ⟨p.cells t, subset_rfl, p.qnf t, (h.runTask (.refl s _ _) ht hdone).1⟩

/-- The engine's turn after a running command has made an early change that its execution does not see. -/
theorem State.Touches.engineTurn_eq {i : Instr} {s u : State} (h : s.Touches i u) (hbusy : s.busy = true)
    (hrst : s.rst = false) (he : exec s.seq.instr u = exec s.seq.instr s) : engineTurn u = engineTurn s := by
  have hbusy' : u.busy = true := by rw [← hbusy, h.frame]; rfl
  have hrst' : u.rst = false := by rw [← hrst, h.frame]
  have hinstr : u.seq.instr = s.seq.instr := by rw [h.frame]
  rw [engineTurn, if_pos ⟨hbusy', hrst'⟩, hinstr, he, engineTurn, if_pos ⟨hbusy, hrst⟩]

theorem State.pipeEnd_withSchedule (u : State) (k : Byte) (d : List Nat) (n w h : Nat) :
    (((u.withSchedule k d).setOutlen n).setCropped w h).complete = ((u.setOutlen n).setCropped w h).complete := rfl

/-- Where the regions of PIPE_FWD are legal and there is a block, image and flat buffer are apart. -/
theorem pipeFwd_apart {s : State} (h : s.RegionsOk (pipeFwdRegions s)) (hb : 0 < blockCount s.imgW s.imgH) :
    ImageApart s.op.src.toNat s.imgW (crop s.imgH) s.op.dst.toNat := by
  have hpair := List.rel_of_pairwise_cons h.2 (List.mem_singleton_self _)
  simp only [Region.Apart, imageRegion, State.srcRegion, State.dstRegion] at hpair
  have hle := flatSize_le s.imgW s.imgH
  have hpos : 0 < flatSize s.imgW s.imgH := by unfold flatSize; omega
  rw [ImageApart, flatSize, blockCount_crop, ← flatSize]
  omega

/-- Where the regions of PIPE_INV are legal and there is a block, flat buffer and image are apart. -/
theorem pipeInv_apart {s : State} (h : s.RegionsOk (pipeInvRegions s)) (hb : 0 < blockCount s.imgW s.imgH) :
    s.op.src.toNat + flatSize s.imgW s.imgH ≤ s.op.dst.toNat ∨
      s.op.dst.toNat + 24 * s.imgW * s.imgH ≤ s.op.src.toNat := by
  have hpair := List.rel_of_pairwise_cons h.2 (List.mem_singleton_self _)
  simp only [Region.Apart, State.srcRegion, State.dstRegion] at hpair
  have hle := (flatSize_le s.imgW s.imgH).trans
    (Nat.mul_le_mul_left (24 * s.imgW) (Nat.sub_le s.imgH (s.imgH % 8)))
  have hpos : 0 < flatSize s.imgW s.imgH := by unfold flatSize; omega
  omega

/-- The tasks of PIPE_FWD fit their plan. -/
theorem pipeFwd_fits {s : State} (h : s.RegionsOk (pipeFwdRegions s)) (hb : 0 < blockCount s.imgW s.imgH) :
    (fwdPlan s s.op.src.toNat s.imgW (crop s.imgH) s.op.dst.toNat).Fits s (blockCount s.imgW s.imgH)
      (fwdTask s.op.src.toNat s.imgW s.op.dst.toNat) :=
  blockCount_crop s.imgW s.imgH ▸ fwdPlan_fits (pipeFwd_apart h hb)

theorem execPipeFwd_runTask {s u : State} (hs : s.lmem.wf) (h : pipeFwdCheck s = none) {t : Nat}
    (ht : t < blockCount s.imgW s.imgH) (hu : u = s.runTask t (fwdTask s.op.src.toNat s.imgW s.op.dst.toNat t))
    (htouch : s.Touches .pipeFwd u) : execPipeFwd u = execPipeFwd s := by
  have hregions := State.regionsOk_of_regionCheck
    (firstError_eq_none.1 h (s.regionCheck .pipe (pipeFwdRegions s)) (by simp))
  obtain ⟨k, d, hphase⟩ := (pipeFwd_fits hregions (Nat.zero_lt_of_lt ht)).blockPhase_runTask hs ht
  have hcheck : pipeFwdCheck u = pipeFwdCheck s := by rw [htouch.frame]; rfl
  have hop : u.op = s.op := htouch.op
  rw [execPipeFwd, execPipeFwd, hcheck, h, State.checked_none, State.checked_none]
  simp only [State.imgW, State.imgH, hop]
  rw [hu, hphase, State.pipeEnd_withSchedule]

theorem execPipeInv_runTask {s u : State} (hs : s.lmem.wf) (h : pipeInvCheck s = none) {t : Nat}
    (ht : t < blockCount s.imgW s.imgH) (hu : u = s.runTask t (invTask s.op.src.toNat s.op.dst.toNat s.imgW t))
    (htouch : s.Touches .pipeInv u) : execPipeInv u = execPipeInv s := by
  have hregions := State.regionsOk_of_regionCheck
    (firstError_eq_none.1 h (s.regionCheck .pipe (pipeInvRegions s)) (by simp))
  obtain ⟨k, d, hphase⟩ := (invPlan_fits (s := s) (pipeInv_apart hregions)).blockPhase_runTask hs ht
  have hcheck : pipeInvCheck u = pipeInvCheck s := by rw [htouch.frame]; rfl
  have hop : u.op = s.op := htouch.op
  rw [execPipeInv, execPipeInv, hcheck, h, State.checked_none, State.checked_none]
  simp only [State.imgW, State.imgH, hop]
  rw [hu, hphase, State.pipeEnd_withSchedule]

/-- The entry of COMPRESS into its block phase, from a state that has entered it. -/
theorem compressEnter_again {s u : State} {lm : LMem} {q : Bool} {td : List Nat}
    (hu : u = { compressEnter s with lmem := lm, qnf := q, seq := { (compressEnter s).seq with tasksDone := td } }) :
    compressEnter u = u := by
  subst hu
  simp only [compressEnter, State.enterPhase, State.setWorkQtab]

theorem execCompress_runTask {s u : State} (hs : s.lmem.wf) (h : compressCheck s = none) {t : Nat}
    (ht : t < blockCount s.imgW s.imgH)
    (hu : u = (compressEnter s).runTask t (fwdTask s.op.src.toNat s.imgW s.op.tmp0.toNat t))
    (htouch : s.Touches .compress u) (hbp : u.bp = s.bp) : execCompress u = execCompress s := by
  have hregions := State.regionsOk_of_regionCheck
    (firstError_eq_none.1 h (s.regionCheck .seq (compressRegions s)) (by simp))
  obtain ⟨hapart, -⟩ := compress_spans hregions (Nat.zero_lt_of_lt ht)
  have hfits := blockCount_crop s.imgW s.imgH ▸ fwdPlan_fits (s := compressEnter s) hapart
  obtain ⟨k, d, hphase⟩ := hfits.blockPhase_runTask hs ht
  obtain ⟨S, -, Q, hfills⟩ := hfits.runTask_fills ht
  rw [← hu] at hfills hphase
  have hcheck : compressCheck u = compressCheck s := by rw [htouch.frame, hbp]; rfl
  have hop : u.op = s.op := htouch.op
  rw [execCompress, execCompress, hcheck, h, State.checked_none, State.checked_none, compressEnter_again hfills.frame]
  simp only [State.imgW, State.imgH, hop]
  rw [hphase, compressEncode_withSchedule]

theorem execDecompress_of_decoded {s u : State} {p : Parsed} (hp : decompressParse s = .ok p)
    (hu : decompressDecode s p = .ok u) :
    execDecompress s = .next (decompressCommit
      (u.blockPhase (blockCount p.width.toNat p.height.toNat) (decompressTask s p)) p) := by
  rw [execDecompress, hp]
  simp only [hu]

theorem decompressDecode_eq_ok {s u : State} {p : Parsed} (h : decompressDecode s p = .ok u) :
    ∃ flat, s.decompressFlat p = .ok flat ∧ s.decompressReady p flat = u := by
  rw [decompressDecode_eq] at h
  cases hflat : s.decompressFlat p with
  | error k => rw [hflat] at h; cases h
  | ok flat => rw [hflat] at h; exact ⟨flat, rfl, Except.ok.inj h⟩

/-- The tasks of DECOMPRESS fit their plan. -/
theorem decompress_fits {s : State} {p : Parsed} (hp : decompressParse s = .ok p) (flat : List Byte) :
    (invPlan (s.decompressReady p flat) s.op.tmp0.toNat s.op.dst.toNat p.width.toNat p.height.toNat).Fits
      (s.decompressReady p flat) (blockCount p.width.toNat p.height.toNat) (decompressTask s p) :=
  invPlan_fits fun hb => by
    obtain ⟨-, -, h0d⟩ := decompress_apart hp hb
    exact h0d

theorem execDecompress_runTask {s m u : State} {p : Parsed} (hs : s.lmem.wf) (hp : decompressParse s = .ok p)
    (hm : decompressDecode s p = .ok m) {t : Nat} (ht : t < blockCount p.width.toNat p.height.toNat)
    (hu : u = m.runTask t (decompressTask s p t)) : execDecompress u = execDecompress s := by
  obtain ⟨flat, hflat, rfl⟩ := decompressDecode_eq_ok hm
  have hfits := decompress_fits hp flat
  obtain ⟨k, d, hphase⟩ := hfits.blockPhase_runTask (LMem.store_wf _ _ hs) ht
  obtain ⟨S, hS, Q, hfills⟩ := hfits.runTask_fills ht
  rw [← hu] at hfills hphase
  obtain ⟨hpu, hmu⟩ := decompress_again hp hflat hs (Nat.zero_lt_of_lt ht) hfills fun x hx => by
    obtain ⟨ch, hch, hx⟩ := hS hx
    exact sampleCells_bound ht hch hx
  have hop : u.op = s.op := hfills.op
  have htask : decompressTask u p = decompressTask s p := by rw [decompressTask, decompressTask, hop]
  rw [execDecompress_of_decoded hpu hmu, execDecompress_of_decoded hp hm, htask, hphase, decompressCommit_withSchedule]

/-- A command ends the same after a task that a worker has run early. -/
theorem exec_earlyTask {s u : State} {t : Nat} (hs : s.lmem.wf) (hu : earlyTask s t = some u)
    (htouch : s.Touches s.seq.instr u) (hbp : u.bp = s.bp) : exec s.seq.instr u = exec s.seq.instr s := by
  unfold earlyTask at hu
  cases hi : s.seq.instr with
  | pipeFwd =>
    simp only [hi, Option.ite_none_right_eq_some, Option.some.injEq] at hu htouch
    obtain ⟨⟨hc, ht⟩, hu⟩ := hu
    exact execPipeFwd_runTask hs hc ht hu.symm htouch
  | pipeInv =>
    simp only [hi, Option.ite_none_right_eq_some, Option.some.injEq] at hu htouch
    obtain ⟨⟨hc, ht⟩, hu⟩ := hu
    exact execPipeInv_runTask hs hc ht hu.symm htouch
  | compress =>
    simp only [hi, Option.ite_none_right_eq_some, Option.some.injEq] at hu htouch
    obtain ⟨⟨hc, ht⟩, hu⟩ := hu
    exact execCompress_runTask hs hc ht hu.symm htouch hbp
  | decompress =>
    simp only [hi] at hu
    cases hp : decompressParse s with
    | error e => simp only [hp] at hu; cases hu
    | ok p =>
      cases hm : decompressDecode s p with
      | error e => simp only [hp, hm, ite_self] at hu; cases hu
      | ok m =>
        simp only [hp, hm, Option.ite_none_right_eq_some, Option.some.injEq] at hu
        exact execDecompress_runTask hs hp hm hu.1 hu.2.symm
  | _ => simp only [hi] at hu; cases hu

theorem State.runTask_again (s : State) (t : Nat) {f : State → State} (hf : (f s).seq = s.seq) :
    (s.runTask t f).runTask t f = s.runTask t f := by
  by_cases hdone : t ∈ s.seq.tasksDone
  · rw [State.runTask_of_done hdone, State.runTask_of_done hdone]
  · rw [State.runTask_of_new hdone, State.runTask_of_done]
    rw [State.markTask_seq, hf]
    exact List.mem_cons_self

/-- QUANT and BLK_ENC end the same after the one block that the sequencer has done early. -/
theorem exec_blockTurn {s : State} (hc : quantCheck s = none)
    (h : (s.seq.instr = .quant ∧ blockTurn s = s.runTask 0 quantBody) ∨
      (s.seq.instr = .blkEnc ∧ blockTurn s = s.runTask 0 blkEncBody)) :
    exec s.seq.instr (blockTurn s) = exec s.seq.instr s := by
  have hcheck : quantCheck (blockTurn s) = quantCheck s := by rw [(blockTurn_touches s).1.frame]; rfl
  obtain ⟨hi, h⟩ | ⟨hi, h⟩ := h <;> rw [hi]
  · change execQuant _ = execQuant _
    rw [execQuant, execQuant, hcheck, hc, State.checked_none, State.checked_none, h, State.runTask_again]
    rfl
  · change execBlkEnc _ = execBlkEnc _
    rw [execBlkEnc, execBlkEnc, hcheck, hc, State.checked_none, State.checked_none, h, State.runTask_again]
    rfl

/-- Settles O56: a block phase ends in the cells that all its tasks fill toward one target, whichever ran early. -/
theorem workerScheduleIsInvisible : Obligations.WorkerScheduleIsInvisible := by
  unfold Obligations.WorkerScheduleIsInvisible
  refine ⟨fun s w t hs => ?_, fun s _ => ?_, fun i s k => exec_withWorkers s k i⟩
  · obtain h | ⟨hbusy, hrst, h⟩ := workerTurn_cases w t s
    · rw [h]
    · obtain ⟨htouch, hbp⟩ := workerTurn_touches w t s
      exact htouch.engineTurn_eq hbusy hrst (exec_earlyTask hs h htouch hbp)
  · obtain h | ⟨hbusy, hrst, hc, h⟩ := blockTurn_cases s
    · rw [h]
    · exact (blockTurn_touches s).1.engineTurn_eq hbusy hrst (exec_blockTurn hc h)

end Sys2Proof.Machine
end

section
/-! PROOFS. BLK_ENC and BLK_DEC (46_pipeline R293, R294, R295). -/

namespace Sys2Proof.Machine

section Valid
variable {s : State} (hv : s.qtabv = true)
include hv

theorem exec_blkEnc_of_regionsOk (hd : s.seq.tasksDone = [])
    (h : s.RegionsOk [s.srcRegion 512 8, s.dstRegion 64 1]) :
    exec .blkEnc s = .next (((blkEncBody s).markTask 0).setOutlen 64).complete := by
  change execBlkEnc s = _
  rw [execBlkEnc, quantCheck_of_regionsOk hv h, State.checked_none, State.runTask_of_not_done hd]

theorem exec_blkDec_of_regionsOk (h : s.RegionsOk [s.srcRegion 64 1, s.dstRegion 512 8]) :
    exec .blkDec s =
      .next ((s.writeBlock s.op.dst.toNat (decBlock (s.read64 s.op.src.toNat) s.qtab)).setOutlen 512).complete := by
  change execBlkDec s = _
  rw [execBlkDec, dequantCheck_of_regionsOk hv h, State.checked_none]

end Valid

/-- Settles O33: BLK_ENC ends as QUANT does and BLK_DEC as DEQUANT does, each with its block at DST. -/
theorem blockCommandsComplete : Obligations.BlockCommandsComplete := by
  intro s hw hd hv
  have hlen := encBlock_length (s.readBlock s.op.src.toNat) s.qtab
  constructor
  · intro h
    obtain ⟨hframe, hbytes, hkeeps⟩ := State.writeBytes_qnfEvent_completes (n := 64) hw
      (t := (((blkEncBody s).markTask 0).setOutlen 64).complete) rfl
    rw [hlen] at hkeeps
    exact ⟨_, exec_blkEnc_of_regionsOk hv hd h, hframe, hlen, hbytes, hkeeps⟩
  · exact fun h => ⟨_, exec_blkDec_of_regionsOk hv h, State.writeBlock_completes hw rfl⟩

end Sys2Proof.Machine
end

section
/-! PROOFS. PIPE_FWD and PIPE_INV (46_pipeline R290, R291, R302, R303). -/

namespace Sys2Proof.Machine

/-! ### The image that an inverse phase leaves (R290, R303) -/

theorem State.memReadF64_of_leBytes {u : State} {a : Nat} {v : F64}
    (h : ∀ i < 8, u.readByte (a + i) = (leBytes 8 v.toNat).getD i 0) : u.memReadF64 a = v := by
  have hlen := leBytes_length 8 v.toNat
  have hbytes : u.readBytes a 8 = leBytes 8 v.toNat := by
    refine List.ext_getElem ((State.readBytes_length u a 8).trans hlen.symm) fun i hi hi' => ?_
    simp only [State.readBytes, List.getElem_map, List.getElem_range]
    rw [h i (hlen ▸ hi'), List.getD_eq_getElem _ _ hi']
  rw [State.memReadF64, State.memRead, hbytes, leNat_leBytes, Nat.mod_eq_of_lt v.isLt, BitVec.ofNat_toNat,
    BitVec.setWidth_eq]

section Inverse
variable {s : State} {flat a w h : Nat}

/-- Cells filled toward the plan of an inverse phase hold its image. -/
theorem invPlan_holdsImage {Q : Prop} {u : State}
    (hu : s.Fills (invPlan s flat a w h).target
      {x | ∃ t, t < blockCount w h ∧ x ∈ (invPlan s flat a w h).cells t} Q u) :
    u.HoldsImage a w h (s.invBlock flat) := by
  intro t ch ht hch i
  have hw : 0 < w / 8 := Nat.pos_of_ne_zero fun h0 => by simp [blockCount, h0] at ht
  have hcell : ∀ j < 8, u.readByte (sampleAddr a w t ch (rowOf i) (colOf i) + j) =
      (leBytes 8 ((s.invBlock flat t ch)[i]).toNat).getD j 0 := fun j hj => by
    rw [hu.readByte_filled ⟨t, ht, ch, hch, rowOf i, List.mem_finRange _, colOf i, List.mem_finRange _,
      Nat.le_add_right _ j, Nat.add_lt_add_left hj _⟩, invPlan_target s flat a h hw hch hj]
    simp only [cellIx_rowOf_colOf]
  exact State.memReadF64_of_leBytes hcell

/-- An inverse phase leaves its image and changes nothing outside. -/
theorem blockPhase_inv_holdsImage (hd : s.seq.tasksDone = [])
    (hapart : 0 < blockCount w h → flat + flatSize w h ≤ a ∨ a + 24 * w * h ≤ flat) {u : State}
    (hu : u = s.blockPhase (blockCount w h) (invTask flat a w)) :
    u = { s with lmem := u.lmem, seq := { s.seq with tasksDone := u.seq.tasksDone } } ∧
      u.HoldsImage a w h (s.invBlock flat) ∧ s.KeepsOutside u a (24 * w * h) := by
  have hfills := (invPlan_fits (s := s) hapart).blockPhase_all hd
  rw [← hu] at hfills
  have hqnf : u.qnf = s.qnf := Bool.eq_iff_iff.2 (hfills.qnf.trans (or_iff_left fun ⟨_, _, _, _, hf⟩ => hf))
  refine ⟨?_, invPlan_holdsImage hfills, fun x hx => hfills.readByte_kept fun ⟨t, ht, ch, hch, hcell⟩ => ?_⟩
  · conv_lhs => rw [hfills.frame, hqnf]
  · have := sampleCells_bound ht hch hcell
    omega

end Inverse

/-! ### The pipelines (R302, R303) -/

theorem State.phaseQtab_of_work_none {s : State} (h : s.seq.work = Work.none) : s.phaseQtab = s.qtab := by
  rw [State.phaseQtab, h]
  rfl

/-- The end of a pipeline whose block phase has changed LMEM and QNF. -/
theorem State.pipeEnd_eq {s u : State} (hw : s.seq.work = Work.none) {q : Bool} {td : List Nat}
    (hu : u = { s with lmem := u.lmem, qnf := q, seq := { s.seq with tasksDone := td } }) (n w h : Nat) :
    ((u.setOutlen n).setCropped w h).complete =
      { s with
        lmem := u.lmem, qnf := q, outlen := u32 n, cwidth := u32 w, cheight := u32 h
        done := true, seq := Seq.idle } := by
  have hwork : ((u.setOutlen n).setCropped w h).seq.work = Work.none := by rw [hu]; exact hw
  rw [State.complete_of_work_none hwork]
  conv_lhs => rw [hu]
  rfl

theorem State.pipeEnd_readByte (u : State) (n w h x : Nat) :
    (((u.setOutlen n).setCropped w h).complete).readByte x = u.readByte x := by
  simp

section Valid
variable {s : State} (hv : s.qtabv = true)
include hv

theorem exec_pipeFwd_of_regionsOk (h : s.RegionsOk (pipeFwdRegions s)) :
    exec .pipeFwd s = .next (((s.blockPhase (blockCount s.imgW s.imgH)
      (fwdTask s.op.src.toNat s.imgW s.op.dst.toNat)).setOutlen (flatSize s.imgW s.imgH)).setCropped
        (crop s.imgW) (crop s.imgH)).complete := by
  change execPipeFwd s = _
  rw [execPipeFwd, pipeFwdCheck, State.qtabCheck_of_valid hv, State.regionCheck_of_regionsOk h, firstError_cons_none,
    firstError_singleton, State.checked_none]

theorem exec_pipeInv_of_regionsOk (hcols : s.imgW % 8 = 0) (hrows : s.imgH % 8 = 0)
    (h : s.RegionsOk (pipeInvRegions s)) :
    exec .pipeInv s = .next (((s.blockPhase (blockCount s.imgW s.imgH)
      (invTask s.op.src.toNat s.op.dst.toNat s.imgW)).setOutlen (24 * s.imgW * s.imgH)).setCropped
        s.imgW s.imgH).complete := by
  change execPipeInv s = _
  rw [execPipeInv, pipeInvCheck, failIf_of_not (not_not.2 hcols), failIf_of_not (not_not.2 hrows),
    State.qtabCheck_of_valid hv, State.regionCheck_of_regionsOk h, firstError_cons_none, firstError_cons_none,
    firstError_cons_none, firstError_singleton, State.checked_none]

end Valid

/-- The block phase of PIPE_FWD fills the buffer at DST. -/
theorem pipeFwd_filled {s : State} (hw : s.seq.work = Work.none) (hd : s.seq.tasksDone = [])
    (h : s.RegionsOk (pipeFwdRegions s)) :
    s.Filled s.op.dst.toNat (flatImage s s.op.src.toNat s.imgW s.imgH s.qtab)
      (imageQnf s s.op.src.toNat s.imgW s.imgH s.qtab)
      (s.blockPhase (blockCount s.imgW s.imgH) (fwdTask s.op.src.toNat s.imgW s.op.dst.toNat)) := by
  rw [flatImage_eq, imageQnf_eq, ← State.phaseQtab_of_work_none hw]
  obtain hb | hb := Nat.eq_zero_or_pos (blockCount s.imgW s.imgH)
  · rw [hb]
    exact .refl s _
  · exact (State.blockPhase_fwd_filled (pipeFwd_apart h hb) hd (blockCount_crop s.imgW s.imgH).ge).1

/-- Settles O51: the block phase's plan, and then the results. -/
theorem pipelinesComplete : Obligations.PipelinesComplete := by
  intro s hw hd hv
  constructor
  · intro h
    have hfilled := pipeFwd_filled hw hd h
    have hlen : (flatImage s s.op.src.toNat s.imgW s.imgH s.qtab).length = flatSize s.imgW s.imgH := by
      rw [flatImage_eq, flatBlocks_length, flatSize]
    have hkeeps := hlen ▸ hfilled.keeps
    exact ⟨_, exec_pipeFwd_of_regionsOk hv h, State.pipeEnd_eq hw hfilled.frame _ _ _,
      fun i hi => (State.pipeEnd_readByte _ _ _ _ _).trans (hfilled.holds i hi),
      fun x hx => (State.pipeEnd_readByte _ _ _ _ _).trans (hkeeps x hx)⟩
  · intro hcols hrows h
    obtain ⟨hframe, hholds, hkeeps⟩ := blockPhase_inv_holdsImage hd (pipeInv_apart h) rfl
    have hblocks : s.invBlock s.op.src.toNat = fun b ch =>
        decBlock (s.read64 (s.op.src.toNat + 64 * (3 * b + ch))) s.qtab := by
      rw [← State.phaseQtab_of_work_none hw]
      rfl
    have hend := State.pipeEnd_eq hw hframe (24 * s.imgW * s.imgH) s.imgW s.imgH
    rw [u32_toNat, u32_toNat] at hend
    rw [hblocks] at hholds
    exact ⟨_, exec_pipeInv_of_regionsOk hv hcols hrows h, hend,
      fun t ch ht hch i =>
        (State.memReadF64_congr fun x _ _ => State.pipeEnd_readByte _ _ _ _ x).trans (hholds t ch ht hch i),
      fun x hx => (State.pipeEnd_readByte _ _ _ _ _).trans (hkeeps x hx)⟩

end Sys2Proof.Machine
end

section
/-! PROOFS. DECOMPRESS (46_pipeline R304, R306). -/

namespace Sys2Proof.Machine

/-! ### The error of a region check (20_memory R110, R111) -/

theorem RegionId.num_le (r : RegionId) : r.num ≤ 4 := by cases r <;> decide

theorem Region.check_eq_some {n : Nat} {g : Stage} {r : Region} {e : Err} (h : Region.check n g r = some e) :
    e.stage = g ∧ e.info < 2 ^ 32 := by
  have hid : r.id.num < 2 ^ 32 := r.id.num_le.trans_lt (by decide)
  unfold Region.check at h
  split at h
  · cases h
    exact ⟨rfl, hid⟩
  · split at h
    · cases h
      exact ⟨rfl, hid⟩
    · cases h

theorem Region.overlapCheck_eq_some {g : Stage} {r q : Region} {e : Err} (h : Region.overlapCheck g r q = some e) :
    e.stage = g ∧ e.info < 2 ^ 32 := by
  have hid : 16 * r.id.num + q.id.num < 2 ^ 32 := by
    have hr := r.id.num_le
    have hq := q.id.num_le
    omega
  unfold Region.overlapCheck at h
  split at h
  · cases h
    exact ⟨rfl, hid⟩
  · cases h

/-- A region error is at the stage of the checks, and ERRINFO holds its detail. -/
theorem regionChecks_eq_some {n : Nat} {g : Stage} {rs : List Region} {e : Err} (h : regionChecks n g rs = some e) :
    e.stage = g ∧ e.info < 2 ^ 32 := by
  obtain ⟨c, hc, he⟩ := List.exists_of_findSome?_eq_some h
  obtain rfl : c = some e := he
  simp only [List.mem_cons, List.not_mem_nil, or_false] at hc
  obtain hc | hc := hc
  · obtain ⟨r, -, hr⟩ := List.exists_of_findSome?_eq_some hc.symm
    exact Region.check_eq_some hr
  · obtain ⟨q, -, hq⟩ := List.exists_of_findSome?_eq_some hc.symm
    exact Region.overlapCheck_eq_some hq

/-! ### The errors of DECOMPRESS (R306 steps 3 to 6) -/

section Parsed
variable {s : State} {p : Parsed} (hstream : s.RegionsOk [streamRegion s])
  (hparse : s.parse s.op.src.toNat s.op.len.toNat = .ok p)
include hstream hparse

theorem exec_decompress_of_headerCheck {e : Err} (h : decompressHeaderCheck p = some e) (hi : e.info < 2 ^ 32) :
    exec .decompress s = .next (s.afterError e.code e.stage (BitVec.ofNat 32 e.info)) := by
  have hcheck : precheck .decompress s = some e := by
    simp only [precheck, decompressParse, decompressHeader, State.regionCheck_of_regionsOk hstream, hparse, h]
  exact exec_afterError_of_precheck hcheck hi

theorem exec_decompress_of_regionChecks (hheader : decompressHeaderCheck p = none) {e : Err}
    (h : s.regionCheck .seq (streamRegion s :: decompressOutRegions s p) = some e) :
    exec .decompress s = .next (s.afterError e.code .seq (u32 e.info)) := by
  have hnone := State.regionCheck_of_regionsOk hstream .seq
  have hcheck : precheck .decompress s = some e := by
    simp only [precheck, decompressParse, decompressHeader, hnone, hparse, hheader, decompressOutCheck_eq hnone, h]
  obtain ⟨hstage, hinfo⟩ := regionChecks_eq_some h
  exact (exec_afterError_of_precheck hcheck hinfo).trans (by rw [hstage]; rfl)

theorem decompressParse_of_regionsOk (hheader : decompressHeaderCheck p = none)
    (h : s.RegionsOk (streamRegion s :: decompressOutRegions s p)) : decompressParse s = .ok p :=
  decompressParse_eq_ok_iff.2
    ⟨State.regionCheck_of_regionsOk hstream .seq, hparse, hheader, State.regionCheck_of_regionsOk h .seq⟩

end Parsed

section Header
variable {p : Parsed} (h1 : 1 ≤ p.quality.toInt) (h99 : p.quality.toInt ≤ 99)
include h1 h99

theorem decompressHeaderCheck_of_width (h : p.width.toInt < 0 ∨ p.width.toInt % 8 ≠ 0) :
    decompressHeaderCheck p = some (malformedErr 11) := by
  rw [decompressHeaderCheck, qualityCheck_of_legal h1 h99, firstError_cons_none]
  exact firstError_failIf_of h

variable (hw0 : 0 ≤ p.width.toInt) (hw8 : p.width.toInt % 8 = 0)
include hw0 hw8

theorem decompressHeaderCheck_of_height (h : p.height.toInt < 0 ∨ p.height.toInt % 8 ≠ 0) :
    decompressHeaderCheck p = some (malformedErr 12) := by
  rw [decompressHeaderCheck, qualityCheck_of_legal h1 h99, firstError_cons_none]
  exact firstError_failIf_of_not (by omega) (firstError_failIf_of h)

theorem decompressHeaderCheck_of_legal (hh0 : 0 ≤ p.height.toInt) (hh8 : p.height.toInt % 8 = 0) :
    decompressHeaderCheck p = none := by
  rw [decompressHeaderCheck, qualityCheck_of_legal h1 h99, firstError_cons_none]
  exact firstError_failIf_of_not (by omega) (firstError_failIf_of_not (by omega) rfl)

end Header

theorem decompressHeaderCheck_of_quality {p : Parsed} (h : p.quality.toInt < 1 ∨ 99 < p.quality.toInt) :
    decompressHeaderCheck p = some { code := .quality, stage := .qtab, info := p.quality.toNat } := by
  rw [decompressHeaderCheck, qualityCheck_of_illegal h, firstError_cons_some]

/-- The byte is in none of the two regions that DECOMPRESS writes. -/
abbrev State.OutsideDecompress (s : State) (p : Parsed) (x : Nat) : Prop :=
  (x < s.op.tmp0.toNat ∨ s.op.tmp0.toNat + flatSize p.width.toNat p.height.toNat ≤ x) ∧
    (x < s.op.dst.toNat ∨ s.op.dst.toNat + 24 * p.width.toNat * p.height.toNat ≤ x)

section Passed
variable {s : State} {p : Parsed} (hp : decompressParse s = .ok p)
include hp

/-- A payload that stops at bit `k` leaves the two written regions open and the record written. -/
theorem exec_decompress_of_corrupt {k : Nat} (h : s.decompressFlat p = .error k) :
    ∃ t : State, exec .decompress s = .next t ∧
      t = { s.afterError .corrupt .hufDecode t.errInfo with lmem := t.lmem, draws := t.draws } ∧
      (k < 2 ^ 32 → t.errInfo.toNat = k) ∧ ∀ x, s.OutsideDecompress p x → t.readByte x = s.readByte x := by
  have hexec : exec .decompress s = .next (s.dataError (decompressOutRegions s p) (corruptErr k)) := by
    change execDecompress s = _
    rw [execDecompress, hp]
    simp only [decompressDecode_eq, h, Except.map]
  refine ⟨_, hexec, ?_, fun hk => ?_, fun x ⟨h0, hd⟩ => State.dataError_readByte s _ fun r hr _ => ?_⟩
  · rw [State.dataError, State.scrambleRegions_frame]
    rfl
  · change (infoWord _ k).toNat = k
    rw [infoWord_of_lt hk, BitVec.toNat_ofNat, Nat.mod_eq_of_lt hk]
  · simp only [decompressOutRegions, List.mem_cons, List.not_mem_nil, or_false] at hr
    obtain rfl | rfl := hr
    · exact h0
    · exact hd

/-! ### The success of DECOMPRESS (R306 steps 7 and 8) -/

variable {flat : List Byte} (hflat : s.decompressFlat p = .ok flat)
include hflat

theorem exec_decompress_of_flat {u : State}
    (hu : u = (s.decompressReady p flat).blockPhase (blockCount p.width.toNat p.height.toNat) (decompressTask s p)) :
    exec .decompress s = .next (decompressCommit u p) := by
  subst hu
  exact execDecompress_of_decoded hp (by rw [decompressDecode_eq, hflat]; rfl)

end Passed

/-- The slices of the flat buffer, where it has just been written. -/
theorem State.decompressReady_invBlock (s : State) {p : Parsed} {flat : List Byte} {w h : Nat}
    (hlen : flat.length = flatSize w h) {t ch : Nat} (ht : t < blockCount w h) (hch : ch < 3) :
    (s.decompressReady p flat).invBlock s.op.tmp0.toNat t ch =
      decBlock (flatSlice flat t ch) (qtabFn p.quality.toNat) := by
  have hslice := flatOff_bound ht hch
  have hread : (s.decompressReady p flat).read64 (s.op.tmp0.toNat + flatOff t ch) = flatSlice flat t ch :=
    congrArg Vector.ofFn (funext fun i => by
      rw [Nat.add_assoc, List.getD_eq_getElem _ _ (by omega)]
      exact State.readByte_writeBytes_inside _ _ flat _ (by omega))
  rw [State.invBlock, hread]
  rfl

theorem State.complete_of_tables {u : State} {t : Vector CodeEntry 256} {q : Vector Word 64}
    (h : u.seq.work = { Work.none with tab := some t, qtab := some q }) :
    u.complete = { u with qtab := q, qtabv := true, tab := t, seq := Seq.idle, done := true } := by
  simp [State.complete, h, Work.none]

theorem decompressCommit_lmem (u : State) (p : Parsed) : (decompressCommit u p).lmem = u.lmem := by
  simp [decompressCommit]

theorem decompressCommit_readByte (u : State) (p : Parsed) (x : Nat) :
    (decompressCommit u p).readByte x = u.readByte x := by
  simp [decompressCommit]

/-- The commit of DECOMPRESS, whatever its block phase has made of LMEM. -/
theorem decompressCommit_eq {s u t : State} {p : Parsed} {flat : List Byte} {td : List Nat}
    (hw : s.seq.work = Work.none)
    (hu : u = { s.decompressReady p flat with
      lmem := u.lmem, seq := { (s.decompressReady p flat).seq with tasksDone := td } })
    (ht : t = decompressCommit u p) :
    t = { s with
      lmem := t.lmem
      opr := { s.opr with width := p.width, height := p.height, quality := p.quality, bitcnt := p.nbits }
      outlen := u32 (24 * p.width.toNat * p.height.toNat)
      cwidth := p.width
      cheight := p.height
      paddr := u32 p.paddr
      qtab := qtabFn p.quality.toNat
      qtabv := true
      tab := p.tab
      done := true
      seq := Seq.idle } := by
  have hwork : u.seq.work = { Work.none with tab := some p.tab, qtab := some (qtabFn p.quality.toNat) } := by
    rw [hu, ← hw]
    rfl
  have hlmem : t.lmem = u.lmem := by rw [ht, decompressCommit_lmem]
  rw [hlmem, ht, decompressCommit, State.complete_of_tables (t := p.tab) (q := qtabFn p.quality.toNat)]
  · conv_lhs => rw [hu]
    simp only [State.setPaddr, State.setCropped, State.setOutlen, State.loadHeader, State.decompressReady,
      State.enterPhase, State.writeBytes, State.setWorkQtab, State.setWorkTab, u32_toNat]
  · exact hwork

/-- What the block phase of DECOMPRESS leaves: the flat buffer at TMP0, and its image at DST. -/
theorem decompressBlocks_spec {s u : State} {p : Parsed} {flat : List Byte} (hp : decompressParse s = .ok p)
    (hflat : s.decompressFlat p = .ok flat) (hd : s.seq.tasksDone = [])
    (hu : u = (s.decompressReady p flat).blockPhase (blockCount p.width.toNat p.height.toNat) (decompressTask s p)) :
    u = { s.decompressReady p flat with
        lmem := u.lmem, seq := { (s.decompressReady p flat).seq with tasksDone := u.seq.tasksDone } } ∧
      u.HoldsAt s.op.tmp0.toNat flat ∧
      u.HoldsImage s.op.dst.toNat p.width.toNat p.height.toNat
        (fun b ch => decBlock (flatSlice flat b ch) (qtabFn p.quality.toNat)) ∧
      ∀ x, s.OutsideDecompress p x → u.readByte x = s.readByte x := by
  have hlen : flat.length = flatSize p.width.toNat p.height.toNat := State.decodePayload_length hflat
  have hapart := decompress_apart hp
  obtain ⟨hframe, himage, hkeeps⟩ := blockPhase_inv_holdsImage (s := s.decompressReady p flat) hd
    (fun hb => (hapart hb).2.2) hu
  refine ⟨hframe, fun i hi => ?_, fun b ch hb hch i => ?_, fun x ⟨h0, hdst⟩ => ?_⟩
  · have hb : 0 < blockCount p.width.toNat p.height.toNat := by unfold flatSize at hlen; omega
    obtain ⟨-, -, h0d⟩ := hapart hb
    rw [hkeeps _ (by omega)]
    exact State.readByte_writeBytes_inside _ _ flat i hi
  · rw [himage b ch hb hch i, s.decompressReady_invBlock hlen hb hch]
  · rw [hkeeps x hdst]
    exact State.readByte_writeBytes_outside _ _ flat x (by rwa [hlen])

/-- Settles O53: the errors by the order of the checks, and past them the plan of the inverse phase. -/
theorem decompressCompletes : Obligations.DecompressCompletes := by
  intro s p rs hstream hparse hrs
  subst hrs
  refine ⟨fun hq => ?_, fun h1 h99 => ⟨fun hw => ?_, fun hw0 hw8 => ⟨fun hh => ?_, fun hh0 hh8 => ?_⟩⟩⟩
  · have hexec := exec_decompress_of_headerCheck hstream hparse (decompressHeaderCheck_of_quality hq) p.quality.isLt
    rwa [BitVec.ofNat_toNat, BitVec.setWidth_eq] at hexec
  · exact exec_decompress_of_headerCheck hstream hparse (decompressHeaderCheck_of_width h1 h99 hw) (by decide)
  · exact exec_decompress_of_headerCheck hstream hparse (decompressHeaderCheck_of_height h1 h99 hw0 hw8 hh) (by decide)
  · have hheader := decompressHeaderCheck_of_legal h1 h99 hw0 hw8 hh0 hh8
    refine ⟨fun e he => exec_decompress_of_regionChecks hstream hparse hheader he, fun hregions => ?_⟩
    have hp := decompressParse_of_regionsOk hstream hparse hheader hregions
    refine ⟨fun k hk => ?_, fun flat hwork hd hflat => ?_⟩
    · obtain ⟨t, hexec, hframe, hinfo, hkeeps⟩ := exec_decompress_of_corrupt hp hk
      exact ⟨t, hexec, hframe, hinfo, fun x h0 hdst => hkeeps x ⟨h0, hdst⟩⟩
    · obtain ⟨u, hu⟩ := exists_eq (a' := (s.decompressReady p flat).blockPhase
        (blockCount p.width.toNat p.height.toNat) (decompressTask s p))
      obtain ⟨hframe, hholds, himage, hkeeps⟩ := decompressBlocks_spec hp hflat hd hu
      have hread := decompressCommit_readByte u p
      exact ⟨_, exec_decompress_of_flat hp hflat hu, decompressCommit_eq hwork hframe rfl,
        fun i hi => (hread _).trans (hholds i hi),
        fun b ch hb hch i => (State.memReadF64_congr fun x _ _ => hread x).trans (himage b ch hb hch i),
        fun x h0 hdst => (hread x).trans (hkeeps x ⟨h0, hdst⟩)⟩

end Sys2Proof.Machine
end

section
/-! PROOFS. A container field by field: what PARSE reads where SERIALIZE wrote (47_container R320, R323, R324, R326). -/

namespace Sys2Proof.Machine

/-! ### Fields that stand in memory -/

section Held
variable {u : State} {a n : Nat}

theorem State.holdsAt_append {xs ys : List Byte} (h : u.HoldsAt a (xs ++ ys)) :
    u.HoldsAt a xs ∧ u.HoldsAt (a + xs.length) ys := by
  refine ⟨fun i hi => ?_, fun i hi => ?_⟩
  · rw [h i (by rw [List.length_append]; omega), List.getElem_append_left hi]
  · rw [Nat.add_assoc, h (xs.length + i) (by rw [List.length_append]; omega),
      List.getElem_append_right (Nat.le_add_right _ _)]
    simp only [Nat.add_sub_cancel_left]

/-- A list of records of one size stands in memory record by record. -/
theorem State.holdsAt_flatMap {α : Type} {f : α → List Byte} {k : Nat} (hk : ∀ x, (f x).length = k) {l : List α}
    (h : u.HoldsAt a (l.flatMap f)) (j : Nat) (hj : j < l.length) : u.HoldsAt (a + k * j) (f l[j]) := by
  induction l generalizing a j with
  | nil => cases hj
  | cons x l ih =>
    obtain ⟨hx, hl⟩ := State.holdsAt_append h
    cases j with
    | zero => exact hx
    | succ j =>
      rw [hk x] at hl
      rw [Nat.mul_succ, Nat.add_comm (k * j), ← Nat.add_assoc]
      exact ih hl j (Nat.lt_of_succ_lt_succ hj)

theorem State.memRead_of_holdsAt {v : Nat} (h : u.HoldsAt a (leBytes n v)) : u.memRead a n = v % 2 ^ (8 * n) := by
  have hbytes : u.readBytes a n = leBytes n v :=
    List.ext_getElem (by simp) fun i hi hi' => by
      simp only [State.readBytes, List.getElem_map, List.getElem_range]
      exact h i hi'
  rw [State.memRead, hbytes, leNat_leBytes]

theorem State.field32_of_holdsAt (h : u.HoldsAt a (leBytes 4 n)) : u.field32 a = u32 n := by
  rw [State.field32, State.memRead_of_holdsAt h]
  exact BitVec.eq_of_toNat_eq (Nat.mod_mod n _)

theorem State.field64_of_holdsAt {v : DWord} (h : u.HoldsAt a (leBytes 8 v.toNat)) : u.field64 a = v := by
  rw [State.field64, State.memRead_of_holdsAt h, Nat.mod_eq_of_lt v.isLt, BitVec.ofNat_toNat, BitVec.setWidth_eq]

end Held

theorem u32_toInt {n : Nat} (h : n < 2 ^ 31) : (u32 n).toInt = n := by
  have hn : (u32 n).toNat = n := Nat.mod_eq_of_lt (by omega)
  rw [BitVec.toInt_eq_toNat_of_lt (by omega), hn]

/-! ### The tables that CNT_PACK takes (R322, R323) -/

theorem mem_validBytes {t : Vector CodeEntry 256} {b : Fin 256} : b ∈ validBytes t ↔ t[b].valid = true := by
  simp [validBytes]

theorem validBytes_nodup (t : Vector CodeEntry 256) : (validBytes t).Nodup := (List.nodup_finRange 256).filter _

theorem validBytes_length_le (t : Vector CodeEntry 256) : (validBytes t).length ≤ 256 :=
  (List.length_filter_le _ _).trans_eq List.length_finRange

/-- No valid entry has a code longer than 32 bits, and no two have equal (CODE, LEN): checks 3 and 4 of R322. -/
abbrev LegalCodes (t : Vector CodeEntry 256) : Prop :=
  (∀ b : Fin 256, t[b].valid = true → t[b].len.toNat ≤ 32) ∧
    ∀ b d : Fin 256, b ≠ d → t[b].valid = true → t[d].valid = true → ¬(t[b].code = t[d].code ∧ t[b].len = t[d].len)

theorem longCode_eq_false_iff {t : Vector CodeEntry 256} :
    (validBytes t).any (fun b => decide (32 < t[b].len.toNat)) = false ↔
      ∀ b : Fin 256, t[b].valid = true → t[b].len.toNat ≤ 32 := by
  simp only [List.any_eq_false, mem_validBytes, decide_eq_true_eq, Nat.not_lt]

theorem duplicateKeys_eq_false_iff {t : Vector CodeEntry 256} :
    duplicateKeys t = false ↔ ∀ b d : Fin 256, b ≠ d → t[b].valid = true → t[d].valid = true →
      ¬(t[b].code = t[d].code ∧ t[b].len = t[d].len) := by
  simp only [duplicateKeys, List.any_eq_false, List.any_eq_true, mem_validBytes, Bool.and_eq_true, decide_eq_true_eq,
    beq_iff_eq, not_exists, not_and]
  refine ⟨fun h b d hne hb hd hcode hlen => ?_, fun h b hb d hd hkey => h b d (ne_of_lt hkey.1) hb hd hkey.2⟩
  obtain hlt | hgt := lt_or_gt_of_ne hne
  · exact h b hb d hd ⟨hlt, hcode⟩ hlen
  · exact h d hd b hb ⟨hgt, hcode.symm⟩ hlen.symm

/-! ### The head of a container -/

theorem entryBytes_length (t : Vector CodeEntry 256) (b : Fin 256) : (entryBytes t b).length = 9 := by
  simp [entryBytes]

theorem State.holdsAt_entryBytes {u : State} {e : Nat} {t : Vector CodeEntry 256} {b : Fin 256}
    (h : u.HoldsAt e (entryBytes t b)) :
    u.field32 e = t[b].code ∧ u.field32 (e + 4) = u32 t[b].len.toNat ∧ u.readByte (e + 8) = BitVec.ofNat 8 b.val := by
  obtain ⟨h, hbyte⟩ := State.holdsAt_append h
  obtain ⟨hcode, hlen⟩ := State.holdsAt_append h
  simp only [List.length_append, leBytes_length] at hlen hbyte
  exact ⟨(State.field32_of_holdsAt hcode).trans (u32_toNat _), State.field32_of_holdsAt hlen, hbyte 0 Nat.one_pos⟩

section Head
variable {u : State} {a plen : Nat} {w h q : Word} {t : Vector CodeEntry 256} {nbits : DWord}
  (hhead : u.HoldsAt a (containerHead w h q t nbits plen))
include hhead

/-- The fields of a container, at the addresses where PARSE reads them. -/
theorem State.holdsAt_containerHead :
    (u.field32 a = w ∧ u.field32 (a + 4) = h ∧ u.field32 (a + 8) = q) ∧
      u.field32 (a + 12) = u32 (validBytes t).length ∧
      (∀ (j : Nat) (hj : j < (validBytes t).length), u.HoldsAt (a + 16 + 9 * j) (entryBytes t (validBytes t)[j])) ∧
      u.field64 (a + 16 + 9 * (validBytes t).length) = nbits ∧
      u.field32 (a + 24 + 9 * (validBytes t).length) = u32 plen := by
  obtain ⟨hhead, hplen⟩ := State.holdsAt_append hhead
  obtain ⟨hhead, hnbits⟩ := State.holdsAt_append hhead
  obtain ⟨hhead, hentries⟩ := State.holdsAt_append hhead
  obtain ⟨hhead, hcount⟩ := State.holdsAt_append hhead
  obtain ⟨hhead, hquality⟩ := State.holdsAt_append hhead
  obtain ⟨hwidth, hheight⟩ := State.holdsAt_append hhead
  have htable : ((validBytes t).flatMap (entryBytes t)).length = 9 * (validBytes t).length := by
    simp [List.length_flatMap, entryBytes_length, Nat.mul_comm]
  simp only [List.length_append, leBytes_length, htable, Nat.reduceAdd] at hheight hquality hcount hentries hnbits hplen
  have hword {b : Nat} {x : Word} (hx : u.HoldsAt b (leBytes 4 x.toNat)) : u.field32 b = x :=
    (State.field32_of_holdsAt hx).trans (u32_toNat x)
  refine ⟨⟨hword hwidth, hword hheight, hword hquality⟩, State.field32_of_holdsAt hcount,
    State.holdsAt_flatMap (entryBytes_length t) hentries, ?_, ?_⟩
  · rw [Nat.add_assoc]
    exact State.field64_of_holdsAt hnbits
  · rw [show a + 24 + 9 * (validBytes t).length = a + (16 + 9 * (validBytes t).length + 8) by omega]
    exact State.field32_of_holdsAt hplen

theorem State.entryCount_containerHead : u.entryCount a = (validBytes t).length := by
  obtain ⟨-, hcount, -⟩ := State.holdsAt_containerHead hhead
  have hle := validBytes_length_le t
  rw [State.entryCount, hcount, u32_toInt (by omega)]

/-- Entry `j` is that of the `j`th valid byte. -/
theorem State.entry_containerHead {j : Nat} (hj : j < (validBytes t).length) :
    u.entryBits a j = t[(validBytes t)[j]].code ∧ u.entryLen a j = t[(validBytes t)[j]].len.toNat ∧
      u.entryByte a j = BitVec.ofNat 8 (validBytes t)[j].val := by
  obtain ⟨-, -, hentries, -⟩ := State.holdsAt_containerHead hhead
  obtain ⟨hcode, hlen, hbyte⟩ := State.holdsAt_entryBytes (hentries j hj)
  have hlt := t[(validBytes t)[j]].len.isLt
  exact ⟨hcode, by rw [State.entryLen, hlen, u32_toInt (by omega)], hbyte⟩

/-- A head written from legal codes passes M1 to M6. -/
theorem State.tableLegal_containerHead (hcodes : LegalCodes t) {n : Nat} (hn : 28 + 9 * (validBytes t).length ≤ n) :
    u.TableLegal a n := by
  obtain ⟨hshort, hkeys⟩ := hcodes
  have hcount := State.entryCount_containerHead hhead
  have hle := validBytes_length_le t
  refine ⟨⟨by omega, by omega, by omega, by omega⟩, fun j hj => ?_⟩
  have hj : j < (validBytes t).length := by omega
  have hvalid {i : Nat} (hi : i < (validBytes t).length) : t[(validBytes t)[i]].valid = true :=
    mem_validBytes.1 (List.getElem_mem hi)
  obtain ⟨hcode, hlen, hbyte⟩ := State.entry_containerHead hhead hj
  have h32 := hshort _ (hvalid hj)
  refine ⟨by omega, by omega, fun i hij => ?_⟩
  have hi : i < (validBytes t).length := hij.trans hj
  have hne : (validBytes t)[i] ≠ (validBytes t)[j] := fun he =>
    hij.ne ((validBytes_nodup t).getElem_inj_iff.1 he)
  obtain ⟨hcode', hlen', hbyte'⟩ := State.entry_containerHead hhead hi
  rw [hcode, hlen, hbyte, hcode', hlen', hbyte']
  exact ⟨fun he => hne (ofNat8_inj he), fun ⟨hc, hl⟩ =>
    hkeys _ _ hne (hvalid hi) (hvalid hj) ⟨hc, BitVec.eq_of_toNat_eq (Int.ofNat_inj.1 hl)⟩⟩

end Head

/-! ### The table that PARSE builds -/

theorem atByte_ofNat8 {α : Type} (v : Vector α 256) (b : Fin 256) : atByte v (BitVec.ofNat 8 b.val) = v[b] := by
  simp only [atByte, BitVec.toNat_ofNat, Nat.mod_eq_of_lt b.isLt]
  rfl

/-- The loop over the entries writes no entry that is not valid. -/
theorem State.parseEntries_ok_invalid {s : State} {left e : Nat} {t t' : Vector CodeEntry 256}
    (h : s.parseEntries left e t = .ok t')
    (ht : ∀ b, (atByte t b).valid = false → atByte t b = CodeEntry.none) (b : Byte)
    (hb : (atByte t' b).valid = false) : atByte t' b = CodeEntry.none := by
  induction left generalizing e t with
  | zero =>
    cases h
    exact ht b hb
  | succ left ih =>
    obtain ⟨-, h⟩ := of_ite_error_eq_ok h
    obtain ⟨-, h⟩ := of_ite_error_eq_ok h
    obtain ⟨-, h⟩ := of_ite_error_eq_ok h
    refine ih h fun d hd => ?_
    rw [atByte_set] at hd ⊢
    split at hd
    · cases hd
    · rw [if_neg ‹_›, ht d hd]

/-- PARSE of a legal table goes on to the trailer with the entries of the container and no other (R324). -/
theorem State.parse_of_tableLegal_blank {s : State} {a n : Nat} (h : s.TableLegal a n) :
    ∃ t, s.HoldsEntries a (s.entryCount a).toNat t ∧
      (∀ b, (atByte t b).valid = false → atByte t b = CodeEntry.none) ∧
      s.parse a n = s.parseTrailer a n (s.entryCount a).toNat t := by
  obtain ⟨hheader, hlegal⟩ := h
  obtain ⟨t, ht, hparse⟩ := State.parseEntries_of_legal hlegal 0
  rw [Nat.zero_add, State.parseEntries_zero] at hparse
  refine ⟨t, ht, State.parseEntries_ok_invalid hparse fun b _ => by simp [atByte], ?_⟩
  rw [State.parse_of_headerLegal hheader, hparse, Except.bind]

section RoundTrip
variable {u : State} {a plen : Nat} {w h q : Word} {t : Vector CodeEntry 256} {nbits : DWord}
  (hhead : u.HoldsAt a (containerHead w h q t nbits plen))
include hhead

/-- A table with the entries of a written container holds the valid entries it was written from. -/
theorem State.HoldsEntries.eq_of_containerHead {t' : Vector CodeEntry 256}
    (hentries : u.HoldsEntries a (validBytes t).length t')
    (hblank : ∀ b, (atByte t' b).valid = false → atByte t' b = CodeEntry.none) (b : Fin 256) :
    t'[b] = if t[b].valid then t[b] else CodeEntry.none := by
  rw [← atByte_ofNat8]
  split
  case isTrue hb =>
    obtain ⟨j, hj, rfl⟩ := List.getElem_of_mem (mem_validBytes.2 hb)
    obtain ⟨hcode, hlen, hbyte⟩ := State.entry_containerHead hhead hj
    rw [← hbyte, hentries.entry j hj, hcode, State.entryLenField, hlen, ← hb, BitVec.ofInt_natCast,
      BitVec.ofNat_toNat, BitVec.setWidth_eq]
  case isFalse hb =>
    refine hblank _ (Bool.eq_false_iff.2 fun hv => hb ?_)
    obtain ⟨j, hj, hbyte⟩ := hentries.only _ hv
    obtain ⟨-, -, hbyte'⟩ := State.entry_containerHead hhead hj
    rw [← ofNat8_inj (hbyte'.symm.trans hbyte)]
    exact mem_validBytes.1 (List.getElem_mem hj)

/-- PARSE of a written container gives back every field (R326). -/
theorem State.parse_containerHead (hcodes : LegalCodes t) (hbits : nbits.toNat ≤ 8 * plen) (hplen : plen ≤ 0x7FFFFFFF) :
    ∃ t' : Vector CodeEntry 256, (∀ b : Fin 256, t'[b] = if t[b].valid then t[b] else CodeEntry.none) ∧
      u.parse a (containerSize t plen) = .ok
        { width := w, height := h, quality := q, tab := t', nbits := nbits
          paddr := a + 28 + 9 * (validBytes t).length, plen := plen } := by
  obtain ⟨⟨hw, hh, hq⟩, -, -, hnbits, hplen'⟩ := State.holdsAt_containerHead hhead
  have hcount : (u.entryCount a).toNat = (validBytes t).length := by
    rw [State.entryCount_containerHead hhead, Int.toNat_natCast]
  have hbits' : u.trailerBits a = nbits.toNat := by
    rw [State.trailerBits, hcount, hnbits, BitVec.toInt_eq_toNat_of_lt (by omega)]
  have hlen : u.trailerLen a = plen := by
    rw [State.trailerLen, hcount, hplen', u32_toInt (by omega)]
  obtain ⟨t', hentries, hblank, hparse⟩ := State.parse_of_tableLegal_blank
    (State.tableLegal_containerHead hhead hcodes (n := containerSize t plen) (by unfold containerSize; omega))
  rw [hcount] at hentries
  refine ⟨t', hentries.eq_of_containerHead hhead hblank, ?_⟩
  rw [hparse, State.parseTrailer_eq, hbits', hlen, hcount, if_neg (by omega), if_neg (by omega), if_neg (by omega),
    if_neg (by unfold containerSize; omega), hw, hh, hq, hnbits, Int.toNat_natCast]

end RoundTrip

end Sys2Proof.Machine
end

section
/-! PROOFS. CNT_PACK and CNT_UNPACK, and their round trip (47_container R320 to R326). -/

namespace Sys2Proof.Machine

/-! ### The checks of CNT_PACK, by their conditions (R321, R322) -/

section Checks
variable {s : State}

theorem packParamChecks_eq_none_iff :
    firstError (packParamChecks s) = none ↔
      s.op.bitcnt.toNat ≤ 8 * s.op.len.toNat ∧ s.op.len.toNat ≤ 0x7FFFFFFF ∧ LegalCodes s.tab := by
  simp only [firstError_eq_none, packParamChecks, List.forall_mem_cons, List.not_mem_nil, false_imp_iff, implies_true,
    and_true, failIf_eq_none, Nat.not_lt, Bool.not_eq_true, longCode_eq_false_iff, duplicateKeys_eq_false_iff]

theorem State.regionCheck_eq_none_iff {g : Stage} {rs : List Region} :
    s.regionCheck g rs = none ↔ s.RegionsOk rs :=
  ⟨State.regionsOk_of_regionCheck, fun h => State.regionCheck_of_regionsOk h g⟩

/-- The conditions of every check of CNT_PACK but that of the capacity. -/
abbrev State.PackLegal (s : State) : Prop :=
  (s.op.bitcnt.toNat ≤ 8 * s.op.len.toNat ∧ s.op.len.toNat ≤ 0x7FFFFFFF ∧ LegalCodes s.tab) ∧
    s.RegionsOk (packRegions s)

/-- The capacity is checked last. -/
theorem cntPackCheck_of_legal (h : s.PackLegal) :
    cntPackCheck s = failIf (s.op.cap.toNat < containerSize s.tab s.op.len.toNat) packOverflow := by
  obtain ⟨hparams, hregions⟩ := h
  have happend (cs ds : List (Option Err)) : firstError (cs ++ ds) = (firstError cs).or (firstError ds) :=
    List.findSome?_append
  rw [cntPackCheck, happend, packParamChecks_eq_none_iff.2 hparams, Option.none_or,
    State.regionCheck_of_regionsOk hregions, firstError_cons_none, firstError_singleton]

theorem cntPackCheck_eq_none_iff :
    cntPackCheck s = none ↔ s.PackLegal ∧ containerSize s.tab s.op.len.toNat ≤ s.op.cap.toNat := by
  have hsplit : cntPackCheck s = none ↔ (firstError (packParamChecks s) = none ∧
      s.regionCheck .cntPack (packRegions s) = none) ∧
      failIf (s.op.cap.toNat < containerSize s.tab s.op.len.toNat) packOverflow = none := by
    simp only [cntPackCheck, firstError_eq_none, List.forall_mem_append, List.forall_mem_cons, List.not_mem_nil,
      false_imp_iff, implies_true, and_true, and_assoc]
  rw [hsplit, packParamChecks_eq_none_iff, State.regionCheck_eq_none_iff, failIf_eq_none, Nat.not_lt]

end Checks

/-! ### The two commands where their checks pass (R321, R325) -/

section Commands
variable {s : State}

/-- The container that CNT_PACK writes (R323). -/
abbrev State.packed (s : State) : List Byte :=
  containerHead s.op.width s.op.height s.op.quality s.tab s.op.bitcnt s.op.len.toNat ++
    s.readBytes s.op.src.toNat s.op.len.toNat

theorem State.packed_length (s : State) : s.packed.length = containerSize s.tab s.op.len.toNat := by
  rw [List.length_append, State.readBytes_length, containerHead_length_add]

theorem exec_cntPack_of_check (h : cntPackCheck s = none) :
    exec .cntPack s = .next ((s.writeBytes s.op.dst.toNat s.packed).setOutlen
      (containerSize s.tab s.op.len.toNat)).complete := by
  change execCntPack s = _
  rw [execCntPack, h, State.checked_none, State.serialize, State.readBytes_length]

theorem exec_cntUnpack_of_parse (hw : s.seq.work = Work.none) (hregion : s.RegionsOk [s.srcRegion s.op.len.toNat 1])
    {p : Parsed} (hparse : s.parse s.op.src.toNat s.op.len.toNat = .ok p) :
    exec .cntUnpack s = .next { s with
      tab := p.tab
      opr := { s.opr with width := p.width, height := p.height, quality := p.quality, bitcnt := p.nbits }
      outlen := u32 p.plen
      paddr := u32 p.paddr
      done := true
      seq := Seq.idle } := by
  change execCntUnpack s = _
  simp only [execCntUnpack, streamRegion, State.checked_regions_of_regionsOk hregion, hparse]
  simp [State.complete, State.setPaddr, State.setOutlen, State.loadHeader, State.setWorkTab, hw, Work.none]

end Commands

/-- Settles O54: the capacity decides between CNT_PACK's write and its error; CNT_UNPACK loads what PARSE returns. -/
theorem containerCommandsComplete : Obligations.ContainerCommandsComplete := by
  refine fun s hw => ⟨fun hbits hlen hshort hkeys hregions => ?_, fun p hregion hparse =>
    exec_cntUnpack_of_parse hw hregion hparse⟩
  have hlegal : s.PackLegal := ⟨⟨hbits, hlen, hshort, hkeys⟩, hregions⟩
  have hsize : 28 + 9 * nsym s + s.op.len.toNat = containerSize s.tab s.op.len.toNat := by
    rw [nsym_eq]
    rfl
  rw [hsize]
  refine ⟨fun hover => ?_, fun hfit => ?_⟩
  · exact exec_afterError_of_precheck (i := .cntPack) ((cntPackCheck_of_legal hlegal).trans (if_pos hover))
  · refine ⟨_, exec_cntPack_of_check (cntPackCheck_eq_none_iff.2 ⟨hlegal, hfit⟩), ?_,
      State.readByte_writeBytes_inside s _ s.packed, fun x hx =>
      State.readByte_writeBytes_outside s _ s.packed x (by rwa [State.packed_length])⟩
    exact State.complete_of_work_none
      (s := (s.writeBytes s.op.dst.toNat s.packed).setOutlen (containerSize s.tab s.op.len.toNat)) hw

/-! ### The round trip (R326) -/

/-- A CNT_PACK that ends with DONE has passed its checks and written its container. -/
theorem cntPack_succeeds {s t : State} (hs : s.done = false) (h : exec .cntPack s = .next t) (ht : t.done = true) :
    s.PackLegal ∧ containerSize s.tab s.op.len.toNat ≤ s.op.cap.toNat ∧
      t.outlen = u32 (containerSize s.tab s.op.len.toNat) ∧ t.HoldsAt s.op.dst.toNat s.packed := by
  cases hc : cntPackCheck s with
  | some e =>
    cases (exec_raise_of_precheck (i := .cntPack) hc).symm.trans h
    exact absurd (hs.symm.trans ht) (by decide)
  | none =>
    cases (exec_cntPack_of_check hc).symm.trans h
    obtain ⟨hlegal, hfit⟩ := cntPackCheck_eq_none_iff.1 hc
    exact ⟨hlegal, hfit, rfl, State.readByte_writeBytes_inside s _ s.packed⟩

/-- A container that fits CAP lies in LMEM (20_memory R110). -/
theorem container_span {s : State} (h : s.RegionsOk (packRegions s))
    (hfit : containerSize s.tab s.op.len.toNat ≤ s.op.cap.toNat) :
    s.op.dst.toNat + containerSize s.tab s.op.len.toNat ≤ s.params.lmemSize := by
  obtain hempty | ⟨hend, -⟩ := h.1 (s.dstRegion s.op.cap.toNat 1) (by simp [packRegions])
  · change s.op.cap.toNat = 0 at hempty
    unfold containerSize at hfit
    omega
  · exact (Nat.add_le_add_left hfit _).trans hend

theorem State.regionsOk_srcRegion {u : State} {n : Nat} (h : u.op.src.toNat + n ≤ u.params.lmemSize) :
    u.RegionsOk [u.srcRegion n 1] :=
  ⟨fun _ hr => .inr (List.mem_singleton.1 hr ▸ ⟨h, Nat.mod_one _⟩), List.pairwise_singleton _ _⟩

/-- Settles O55: PARSE reads the fields that SERIALIZE wrote, and PADDR is where the payload begins. -/
theorem containerRoundTrip : Obligations.ContainerRoundTrip := by
  intro s t u hparams hs hexec hdone hlmem hepoch huparams hsrc hlen hw
  obtain ⟨⟨⟨hbits, hpayload, hcodes⟩, hregions⟩, hfit, houtlen, hholds⟩ := cntPack_succeeds hs hexec hdone
  have hcap := s.op.cap.isLt
  have hulen : u.op.len.toNat = containerSize s.tab s.op.len.toNat := by
    rw [hlen, houtlen]
    exact Nat.mod_eq_of_lt (by omega)
  have hspan := container_span hregions hfit
  have hstream : u.RegionsOk [u.srcRegion u.op.len.toNat 1] :=
    State.regionsOk_srcRegion (by rwa [hulen, hsrc, huparams])
  have hu : u.HoldsAt s.op.dst.toNat s.packed := fun i hi => (State.readByte_congr hlmem hepoch _).trans (hholds i hi)
  obtain ⟨hhead, hbody⟩ := State.holdsAt_append hu
  obtain ⟨tab, htab, hparse⟩ := State.parse_containerHead hhead hcodes hbits hpayload
  rw [← hsrc, ← hulen] at hparse
  refine ⟨_, exec_cntUnpack_of_parse hw hstream hparse, rfl, rfl, rfl, rfl, rfl, u32_toNat _, htab, ?_⟩
  have hheadLen := containerHead_length_add s.op.width s.op.height s.op.quality s.tab s.op.bitcnt s.op.len.toNat
  obtain ⟨-, -, -, hmem⟩ := hparams
  have hpaddr : (u32 (u.op.src.toNat + 28 + 9 * (validBytes s.tab).length)).toNat = s.op.dst.toNat +
      (containerHead s.op.width s.op.height s.op.quality s.tab s.op.bitcnt s.op.len.toNat).length := by
    unfold containerSize at hspan hheadLen
    rw [hsrc, u32, BitVec.toNat_ofNat, Nat.mod_eq_of_lt (by omega)]
    omega
  exact hpaddr ▸ hbody

end Sys2Proof.Machine
end

section
/-! PROOFS. However a command ends, it writes no byte outside the regions it writes (60_exceptions R347, 70_reset
R394). -/

namespace Sys2Proof.Machine

/-! ### The bytes that a command's written regions spare -/

/-- The byte at `x` lies in none of the regions that are written. -/
abbrev Spares (rs : List Region) (x : Nat) : Prop := ∀ r ∈ rs, r.written = true → x < r.base ∨ r.base + r.size ≤ x

theorem inWrittenRegion_eq_false_iff {s : State} {x : Nat} :
    inWrittenRegion s x = false ↔ (s.busy = true → Spares (commandRegions s) x) := by
  simp only [inWrittenRegion, Region.has, Bool.and_eq_false_imp, List.any_eq_false, Bool.and_eq_true,
    decide_eq_true_eq, not_and, Spares]
  exact imp_congr_right fun _ => forall₃_congr fun r _ _ => by omega

section Bodies
variable {s : State} {x : Nat}

theorem State.of_checked_readByte {t : State} {c : Option Err} {body : State → Host.Outcome State Fault Refusal}
    (h : s.checked c body = .next t) (hb : c = none → body s = .next t → t.readByte x = s.readByte x) :
    t.readByte x = s.readByte x := by
  obtain ⟨e, -, rfl⟩ | ⟨hc, h⟩ := State.checked_cases h
  · rfl
  · exact hb hc h

theorem State.of_checked_next_readByte {t : State} {c : Option Err} {f : State → State}
    (h : s.checked c (fun s => .next (f s)) = .next t) (hf : c = none → (f s).readByte x = s.readByte x) :
    t.readByte x = s.readByte x :=
  State.of_checked_readByte h fun hc h => by cases h; exact hf hc

/-! ### Block tasks (46_pipeline R300) -/

theorem State.runTask_readByte {f : State → State} (hf : (f s).readByte x = s.readByte x) (k : Nat) :
    (s.runTask k f).readByte x = s.readByte x := by
  unfold State.runTask
  split
  · rfl
  · exact hf

theorem State.blockPhase_readByte {nb : Nat} {task : Nat → State → State}
    (ht : ∀ k < nb, ∀ u : State, (task k u).readByte x = u.readByte x) :
    (s.blockPhase nb task).readByte x = s.readByte x :=
  State.blockPhase_induction (P := fun u => u.readByte x = s.readByte x) (fun k u hk hu => (ht k hk u).trans hu)
    (fun _ _ hu => hu) rfl

/-- A forward task writes its three slices of the flat buffer (46_pipeline R292, R302). -/
theorem fwdTask_readByte {a w h flat : Nat} (hx : x < flat ∨ flat + flatSize w h ≤ x) {t : Nat}
    (ht : t < blockCount w h) (s : State) : (fwdTask a w flat t s).readByte x = s.readByte x :=
  have channel (ch : Nat) (hch : ch < 3) (u : State) : (fwdChannel a w flat t ch u).readByte x = u.readByte x :=
    State.readByte_writeBytes_outside u _ _ x (by
      have hslice := flatOff_bound ht hch
      rw [encBlock_length]
      omega)
  (channel 2 (by decide) _).trans ((channel 1 (by decide) _).trans (channel 0 (by decide) s))

/-- An inverse task writes samples of the image at `a` (46_pipeline R303). -/
theorem invTask_readByte {flat a w h : Nat} (hx : x < a ∨ a + 24 * w * h ≤ x) {t : Nat} (ht : t < blockCount w h)
    (s : State) : (invTask flat a w t s).readByte x = s.readByte x :=
  have channel (ch : Nat) (hch : ch < 3) (u : State) : (invChannel flat a w t ch u).readByte x = u.readByte x :=
    List.foldlRecOn (motive := fun v : State => v.readByte x = u.readByte x) _ _ rfl fun v hv y _ =>
      List.foldlRecOn (motive := fun v : State => v.readByte x = u.readByte x) _ _ hv fun v hv z _ =>
        (State.readByte_writeBytes_outside v _ _ x (by
          have hsample := pixAddr_bounds a ht y z hch
          rw [leBytes_length]
          omega)).trans hv
  (channel 2 (by decide) _).trans ((channel 1 (by decide) _).trans (channel 0 (by decide) s))

/-! ### The phases of the composite commands -/

theorem State.hufBuildPhase_readByte {u : State} {f : Vector Word 256} (h : s.hufBuildPhase f = .ok u) :
    u.readByte x = s.readByte x := by
  obtain ⟨tab, -, rfl⟩ := State.hufBuildPhase_ok h
  rfl

theorem emitRegions_congr {u : State} (h : u.op = s.op) : emitRegions u = emitRegions s := by
  simp only [emitRegions, inputRegion, State.srcRegion, State.dstRegion, h]

/-- The last phase of HUF_EMIT and HUF_ENCODE writes only the region at DST (44_huffman R250). -/
theorem State.emitAndEnd_readByte (hx : Spares (emitRegions s) x) (tab : Vector CodeEntry 256) :
    (s.emitAndEnd tab).readByte x = s.readByte x := by
  have hemit := s.emitPhase_keepsOutside (t := tab) (bs := inputBytes s) (base := s.op.dst) (cap := s.op.cap) .dst x
    (hx (s.dstRegion s.op.cap.toNat 1) (by simp [emitRegions]) rfl)
  unfold State.emitAndEnd
  split <;> rename_i he <;> rw [he] at hemit
  · exact hemit
  · exact (State.packerError_readByte _ _ hx).trans hemit

theorem outsideCompress_of_spares (hx : Spares (compressRegions s) x) : s.OutsideCompress x :=
  ⟨hx (s.tmp0Region (flatSize s.imgW s.imgH)) (by simp [compressRegions]) rfl,
    hx (s.tmp1Region s.op.tcap.toNat) (by simp [compressRegions]) rfl,
    hx (s.dstRegion s.op.cap.toNat 1) (by simp [compressRegions]) rfl⟩

/-- A container that fits its capacity is written inside it (47_container R323). -/
theorem State.serialize_readByte {a cap : Nat} (hx : x < a ∨ a + cap ≤ x) {tab : Vector CodeEntry 256}
    {payload : List Byte} (hfit : containerSize tab payload.length ≤ cap) (w h q : Word) (nbits : DWord) :
    (s.serialize a w h q tab nbits payload).readByte x = s.readByte x :=
  State.readByte_writeBytes_outside s a _ x (by
    rw [List.length_append, containerHead_length_add]
    omega)

/-- The phase CNT_PACK of COMPRESS writes a container that fits CAP, or ends with its data error. -/
theorem compressPack_readByte (hx : Spares (compressRegions s) x) : (compressPack s).readByte x = s.readByte x := by
  obtain ⟨-, -, hdst⟩ := outsideCompress_of_spares hx
  by_cases hfit : s.op.cap.toNat < containerSize s.phaseTab s.bp.bytes.toNat
  · rw [compressPack_overflow hfit, State.packerError_readByte _ _ hx, State.enterPhase_readByte]
  · rw [compressPack_fits hfit, State.complete_readByte, State.setCropped_readByte, State.setOutlen_readByte,
      State.setBitcnt_readByte, State.serialize_readByte hdst (by rw [State.readBytes_length]; omega),
      State.enterPhase_readByte]

theorem compressEncode_readByte (hx : Spares (compressRegions s) x) :
    (compressEncode s).readByte x = s.readByte x := by
  obtain ⟨-, htmp1, -⟩ := outsideCompress_of_spares hx
  unfold compressEncode
  simp only
  split
  · exact State.packerError_readByte s _ hx
  · rename_i s1 hb
    have hread := State.hufBuildPhase_readByte (x := x) hb
    have hemit := s1.emitPhase_keepsOutside (t := s1.phaseTab)
      (bs := s.readBytes s.op.tmp0.toNat (flatSize s.imgW s.imgH)) (base := s.op.tmp1) (cap := s.op.tcap) .tmp1 x htmp1
    have htouch := (((State.Touches.refl .compress s).hufFreqPhase _).hufBuildPhase hb).emitPhase s1.phaseTab
      (s.readBytes s.op.tmp0.toNat (flatSize s.imgW s.imgH)) s.op.tmp1 s.op.tcap .tmp1
    split <;> rename_i he <;> rw [he] at hemit htouch
    · exact (State.packerError_readByte _ _ hx).trans (hemit.trans hread)
    · refine (compressPack_readByte ?_).trans (hemit.trans hread)
      rwa [compressRegions_congr htouch.op]

end Bodies

/-! ### The commands -/

section Commands
variable {s t : State} {x : Nat}

/-- BP_ADD writes the bytes that its bits complete, as far as the capacity goes (45_bitpack R272, R273, log 7). -/
theorem execBpAdd_readByte {n : Nat} (h : execBpAdd n s = .next t)
    (hx : Spares [sessionRegion s (if n ≤ 32 then (s.bp.nacc.toNat + n) / 8 else 0)] x) :
    t.readByte x = s.readByte x := by
  refine State.of_checked_readByte h fun hc _ => ?_
  have hpass := firstError_eq_none.1 hc
  have hn : n ≤ 32 := Nat.le_of_not_lt (failIf_eq_none.1 (hpass (failIf (32 < n) _) List.mem_cons_self))
  have hopen : s.bp.isOpen = true :=
    Bool.eq_true_of_not_eq_false (failIf_eq_none.1 (hpass (s.bpOpenCheck .bitpack) (by simp)))
  have hregion := hx _ (List.mem_singleton_self _) rfl
  simp only [sessionRegion, hopen, hn, if_true] at hregion
  obtain hfit | hover := le_or_gt (s.bp.bytes.toNat + (s.bp.nacc.toNat + n) / 8) s.bp.cap.toNat
  · obtain ⟨u, hadd, hpacks⟩ := State.bpAdd_fits s.op.bpdata hfit
    cases (exec_bpAdd_of_eq hopen hn hadd).symm.trans h
    refine hpacks.keeps x ?_
    rw [State.bpAdd_stream_length, State.nextByte]
    omega
  · refine exec_bpAdd_keepsOutside hopen h x ?_
    rw [State.nextByte]
    omega

/-- BP_FINISH writes at most the byte of its pending bits, and none past the capacity (45_bitpack R274, log 7). -/
theorem execBpFinish_readByte (h : execBpFinish s = .next t)
    (hx : Spares [sessionRegion s (if s.bp.nacc = 0 then 0 else 1)] x) : t.readByte x = s.readByte x := by
  refine State.of_checked_readByte h fun hc h => ?_
  have hopen : s.bp.isOpen = true := Bool.eq_true_of_not_eq_false (failIf_eq_none.1 hc)
  have hregion := hx _ (List.mem_singleton_self _) rfl
  simp only [sessionRegion, hopen, if_true] at hregion
  split at h <;> cases h
  · rename_i u hend
    rw [State.complete_readByte, State.bpResults_readByte]
    obtain ⟨-, rfl⟩ | ⟨hnacc, hlt, rfl⟩ := State.bpEnd_cases hend
    · rfl
    · rw [if_neg hnacc] at hregion
      refine (State.readByte_congr (s := s.bpFlush s.bp.padded) rfl rfl x).trans ?_
      exact s.bpFlush_keepsOutside s.bp.padded x (by rw [State.nextByte]; omega)
  · exact State.packerError_readByte s _ nofun

theorem execHufBuild_readByte (h : execHufBuild s = .next t) : t.readByte x = s.readByte x := by
  unfold execHufBuild at h
  split at h <;> cases h
  · exact State.dataError_readByte s _ nofun
  · rename_i hb
    exact (State.hufBuildPhase_readByte hb :)

theorem execHufEncode_readByte (h : execHufEncode s = .next t) (hx : Spares (emitRegions s) x) :
    t.readByte x = s.readByte x := by
  refine State.of_checked_readByte h fun _ h => ?_
  split at h <;> cases h
  · exact State.packerError_readByte s _ hx
  · rename_i u hb
    have hop := (((State.Touches.refl .hufEncode s).hufFreqPhase _).hufBuildPhase hb).op
    have hu : Spares (emitRegions u) x := by rwa [emitRegions_congr hop]
    exact (u.emitAndEnd_readByte hu _).trans (State.hufBuildPhase_readByte hb :)

theorem execHufDecode_readByte (h : execHufDecode s = .next t) (hx : Spares (hufDecodeRegions s) x) :
    t.readByte x = s.readByte x := by
  refine State.of_checked_readByte h fun _ h => ?_
  split at h <;> cases h
  · exact State.dataError_readByte s _ hx
  · rename_i out hout
    refine State.readByte_writeBytes_outside s _ out x ?_
    rw [State.decodePayload_length hout]
    exact hx (s.dstRegion s.op.len.toNat 1) (by simp [hufDecodeRegions]) rfl

theorem execCntPack_readByte (h : execCntPack s = .next t) (hx : Spares (packRegions s) x) :
    t.readByte x = s.readByte x := by
  refine State.of_checked_next_readByte h fun hc => ?_
  have hfit := failIf_eq_none.1 (firstError_eq_none.1 hc
    (failIf (s.op.cap.toNat < containerSize s.tab s.op.len.toNat) packOverflow) (by simp))
  refine State.serialize_readByte (hx (s.dstRegion s.op.cap.toNat 1) (by simp [packRegions]) rfl) ?_ _ _ _ _
  rw [State.readBytes_length]
  exact Nat.le_of_not_lt hfit

theorem execCntUnpack_readByte (h : execCntUnpack s = .next t) : t.readByte x = s.readByte x := by
  refine State.of_checked_readByte h fun _ h => ?_
  split at h <;> cases h
  · exact State.dataError_readByte s _ nofun
  · rw [State.complete_readByte, State.setPaddr_readByte, State.setOutlen_readByte, State.loadHeader_readByte,
      State.setWorkTab_readByte]

theorem execCompress_readByte (h : execCompress s = .next t) (hx : Spares (compressRegions s) x) :
    t.readByte x = s.readByte x := by
  refine State.of_checked_next_readByte h fun hc => ?_
  obtain ⟨htmp0, -, -⟩ := outsideCompress_of_spares hx
  have htouch := (compressEnter_touches hc).blockPhase
    (fun k v => fwdTask_touches (by simp) s.op.src.toNat s.imgW s.op.tmp0.toNat k v) (blockCount s.imgW s.imgH)
  refine (compressEncode_readByte ?_).trans
    (State.blockPhase_readByte (s := compressEnter s) fun k hk => fwdTask_readByte htmp0 hk)
  rwa [compressRegions_congr htouch.op]

/-- DECOMPRESS writes nothing before its step 6, and then only the flat buffer and the image that its legal header
gives (46_pipeline R306, log 9, log 16). -/
theorem execDecompress_readByte (h : execDecompress s = .next t)
    (hx : ∀ p, decompressHeader s = .ok p → Spares (decompressOutRegions s p) x) : t.readByte x = s.readByte x := by
  unfold execDecompress at h
  split at h
  · cases h
    exact State.dataError_readByte s _ nofun
  · rename_i p hp
    have hout := hx p (decompressParse_ok_header hp)
    have htmp0 := hout (s.tmp0Region (flatSize p.width.toNat p.height.toNat)) (by simp [decompressOutRegions]) rfl
    have hdst := hout (s.dstRegion (24 * p.width.toNat * p.height.toNat) 8) (by simp [decompressOutRegions]) rfl
    split at h <;> cases h
    · exact State.dataError_readByte s _ hout
    · rename_i hd
      obtain ⟨flat, hflat, rfl⟩ := decompressDecode_eq_ok hd
      have hblocks := State.blockPhase_readByte (s := s.decompressReady p flat) (task := decompressTask s p)
        fun k hk => invTask_readByte hdst hk
      rw [decompressCommit_readByte, hblocks]
      refine State.readByte_writeBytes_outside _ _ flat x ?_
      rwa [State.decodePayload_length hflat]

/-- However a command ends, it keeps every byte outside the regions it writes. -/
theorem exec_readByte {i : Instr} (hi : s.seq.instr = i) (h : exec i s = .next t)
    (hx : Spares (commandRegions s) x) : t.readByte x = s.readByte x := by
  unfold exec at h
  unfold commandRegions at hx
  rw [hi] at hx
  cases i with
  | nop => cases h; rfl
  | qtabBuild | hufFreq | bpInit => exact State.of_checked_next_readByte h fun _ => rfl
  | fdct | idct =>
    exact State.of_checked_next_readByte h fun _ =>
      s.writeBlock_keepsOutside _ _ x (hx (s.dstRegion 512 8) (by simp [transformRegions]) rfl)
  | dequant | blkDec =>
    exact State.of_checked_next_readByte h fun _ =>
      s.writeBlock_keepsOutside _ _ x (hx (s.dstRegion 512 8) (by simp [dequantRegions]) rfl)
  | zzscan | zzunscan =>
    exact State.of_checked_next_readByte h fun _ =>
      s.reordered_keepsOutside _ x (hx (s.dstRegion 64 1) (by simp [zigzagRegions]) rfl)
  | quant =>
    refine State.of_checked_next_readByte h fun _ => s.runTask_readByte (f := quantBody) ?_ 0
    refine State.readByte_writeBytes_outside s _ _ x ?_
    rw [quantBlock_length]
    exact hx (s.dstRegion 64 1) (by simp [quantRegions]) rfl
  | blkEnc =>
    refine State.of_checked_next_readByte h fun _ => s.runTask_readByte (f := blkEncBody) ?_ 0
    refine State.readByte_writeBytes_outside s _ _ x ?_
    rw [encBlock_length]
    exact hx (s.dstRegion 64 1) (by simp [quantRegions]) rfl
  | hufBuild => exact execHufBuild_readByte h
  | hufEmit => exact State.of_checked_next_readByte h fun _ => s.emitAndEnd_readByte hx _
  | hufEncode => exact execHufEncode_readByte h hx
  | hufDecode => exact execHufDecode_readByte h hx
  | bpAdd n => exact execBpAdd_readByte h hx
  | bpFinish => exact execBpFinish_readByte h hx
  | pipeFwd =>
    refine State.of_checked_next_readByte h fun _ => ?_
    rw [State.complete_readByte, State.setCropped_readByte, State.setOutlen_readByte]
    exact State.blockPhase_readByte fun k hk => fwdTask_readByte
      (hx (s.dstRegion (flatSize s.imgW s.imgH) 1) (by simp [pipeFwdRegions]) rfl) hk
  | pipeInv =>
    refine State.of_checked_next_readByte h fun _ => ?_
    rw [State.complete_readByte, State.setCropped_readByte, State.setOutlen_readByte]
    exact State.blockPhase_readByte fun k hk => invTask_readByte
      (hx (s.dstRegion (24 * s.imgW * s.imgH) 8) (by simp [pipeInvRegions]) rfl) hk
  | compress => exact execCompress_readByte h hx
  | decompress =>
    refine execDecompress_readByte h fun p hp r hr => ?_
    rw [hp] at hx
    exact hx r (List.mem_cons_of_mem _ hr)
  | cntPack => exact execCntPack_readByte h hx
  | cntUnpack => exact execCntUnpack_readByte h

end Commands

/-- Settles O12: command by command, by the regions it writes. -/
theorem commandWritesOnlyItsRegions : Obligations.CommandWritesOnlyItsRegions := fun _ _ _ hrun h hx =>
  exec_readByte rfl h (inWrittenRegion_eq_false_iff.1 hx (State.busy_of_running hrun))

end Sys2Proof.Machine
end

section
/-! PROOFS. The two ends of a command, a precheck error, IRQ, reset and power-on (60_exceptions R345, R346, R350,
70_reset R370, R371). -/

namespace Sys2Proof.Machine

/-! ### Every command ends (60_exceptions R345, R391) -/

theorem BothNext.left {R : State → State → Prop} {a b : Host.Outcome State Fault Refusal} (h : BothNext R a b) :
    ∃ t, a = .next t := by
  obtain ⟨-⟩ := h
  exact ⟨_, rfl⟩

/-- Every command answers a next state, since it does so beside any other host's part. -/
theorem exec_next (i : Instr) (s : State) : ∃ t, exec i s = .next t :=
  (exec_withHost (v := { opr := s.opr, workers := s.workers, ieDone := s.ieDone, ieErr := s.ieErr }) s i).left

/-- Settles O8: the command ends, and either end leaves SEQ idle and one of DONE and ERR set. -/
theorem commandEndsExactlyOnce : Obligations.CommandEndsExactlyOnce := fun i s =>
  have ⟨t, ht⟩ := exec_next i s
  ⟨t, ht, (exec_ends ht).status⟩

/-! ### The details that checks report (60_exceptions R341) -/

/-- ERRINFO holds the detail of every error that this check can raise, so that none draws a free value (log 6). -/
def DetailFits (c : Option Err) : Prop := ∀ e, c = some e → e.info < 2 ^ 32

theorem detailFits_none : DetailFits none := fun e h => absurd h.symm (Option.some_ne_none e)

theorem detailFits_failIf {bad : Prop} [Decidable bad] {e : Err} (h : e.info < 2 ^ 32) :
    DetailFits (failIf bad e) := fun _ hd => (failIf_eq_some.1 hd).2 ▸ h

/-- The checks of a command, one after the other (60_exceptions R348). -/
theorem DetailFits.cons {c : Option Err} {cs : List (Option Err)} (hc : DetailFits c)
    (hcs : DetailFits (firstError cs)) : DetailFits (firstError (c :: cs)) := by
  cases c with
  | none => exact hcs
  | some e => exact hc

theorem State.detailFits_regionCheck (s : State) (g : Stage) (rs : List Region) : DetailFits (s.regionCheck g rs) :=
  fun _ he => (regionChecks_eq_some he).2

theorem detailFits_qualityCheck (g : Stage) (q : Word) : DetailFits (qualityCheck g q) := fun e he => by
  unfold qualityCheck at he
  split at he <;> cases he
  exact q.isLt

/-! ### The errors of PARSE and of DECOMPRESS before its step 6 (47_container R324, 46_pipeline R306) -/

theorem le_of_ite_eq_error {α : Type} {b m k : Nat} {c : Prop} [Decidable c] {r : Except Nat α}
    (h : (if c then .error m else r) = .error k) (hm : m ≤ b) (hr : r = .error k → k ≤ b) : k ≤ b := by
  split at h
  · cases h
    exact hm
  · exact hr h

section Parse
variable {s : State} {k : Nat}

theorem State.parseEntries_error_le {left e : Nat} {t : Vector CodeEntry 256}
    (h : s.parseEntries left e t = .error k) : k ≤ 10 := by
  induction left generalizing e t with
  | zero => cases h
  | succ left ih =>
    exact le_of_ite_eq_error h (by decide) fun h => le_of_ite_eq_error h (by decide) fun h =>
      le_of_ite_eq_error h (by decide) ih

theorem State.parseTrailer_error_le {a n : Nat} {t : Vector CodeEntry 256}
    (h : s.parseTrailer a n (s.entryCount a).toNat t = .error k) : k ≤ 10 := by
  rw [State.parseTrailer_eq] at h
  exact le_of_ite_eq_error h (by decide) fun h => le_of_ite_eq_error h (by decide) fun h =>
    le_of_ite_eq_error h (by decide) fun h => le_of_ite_eq_error h le_rfl nofun

/-- PARSE reports one of its ten checks. -/
theorem State.parse_error_le {a n : Nat} (h : s.parse a n = .error k) : k ≤ 10 := by
  rw [State.parse_eq] at h
  refine le_of_ite_eq_error h (by decide) fun h => le_of_ite_eq_error h (by decide) fun h =>
    le_of_ite_eq_error h (by decide) fun h => ?_
  cases hentries : s.parseEntries (s.entryCount a).toNat (a + 16) (Vector.replicate 256 CodeEntry.none) with
  | error j =>
    rw [hentries] at h
    cases h
    exact State.parseEntries_error_le hentries
  | ok t =>
    rw [hentries, Except.bind] at h
    exact State.parseTrailer_error_le h

end Parse

/-- Where DECOMPRESS stops before its step 6: at its stream region, in PARSE, at the header's checks or at those of
its output regions. -/
theorem decompressParse_error_cases {s : State} {e : Err} (h : decompressParse s = .error e) :
    s.regionCheck .seq [streamRegion s] = some e ∨
      (∃ k, s.parse s.op.src.toNat s.op.len.toNat = .error k ∧ e = malformedErr k) ∨
      ∃ p, decompressHeaderCheck p = some e ∨ decompressOutCheck s p = some e := by
  unfold decompressParse decompressHeader at h
  cases hstream : s.regionCheck .seq [streamRegion s] with
  | some d =>
    rw [hstream] at h
    exact .inl (congrArg some (Except.error.inj h))
  | none =>
    cases hparse : s.parse s.op.src.toNat s.op.len.toNat with
    | error k =>
      rw [hstream, hparse] at h
      exact .inr (.inl ⟨k, rfl, (Except.error.inj h).symm⟩)
    | ok p =>
      simp only [hstream, hparse] at h
      refine .inr (.inr ⟨p, ?_⟩)
      cases hheader : decompressHeaderCheck p with
      | some d =>
        rw [hheader] at h
        exact .inl (congrArg some (Except.error.inj h))
      | none =>
        simp only [hheader] at h
        cases hout : decompressOutCheck s p with
        | some d =>
          rw [hout] at h
          exact .inr (congrArg some (Except.error.inj h))
        | none =>
          rw [hout] at h
          cases h

theorem detailFits_malformed {bad : Prop} [Decidable bad] {k : Nat} (h : k < 2 ^ 32) :
    DetailFits (failIf bad (malformedErr k)) := detailFits_failIf h

theorem detailFits_decompressHeaderCheck (p : Parsed) : DetailFits (decompressHeaderCheck p) :=
  (detailFits_qualityCheck _ _).cons
    ((detailFits_malformed (by simp)).cons ((detailFits_malformed (by simp)).cons detailFits_none))

theorem detailFits_decompressOutCheck (s : State) (p : Parsed) : DetailFits (decompressOutCheck s p) :=
  have hranges : DetailFits ((decompressOutRegions s p).findSome? (Region.check s.params.lmemSize .seq)) := fun _ he =>
    have ⟨_, _, hr⟩ := List.exists_of_findSome?_eq_some he
    (Region.check_eq_some hr).2
  have hpairs : DetailFits (overlapChecks .seq (streamRegion s :: decompressOutRegions s p)) := fun _ he =>
    have ⟨_, _, hq⟩ := List.exists_of_findSome?_eq_some he
    (Region.overlapCheck_eq_some hq).2
  hranges.cons (hpairs.cons detailFits_none)

theorem decompressParse_error_info {s : State} {e : Err} (h : decompressParse s = .error e) : e.info < 2 ^ 32 := by
  obtain h | ⟨k, hk, rfl⟩ | ⟨p, h | h⟩ := decompressParse_error_cases h
  · exact s.detailFits_regionCheck _ _ e h
  · exact (State.parse_error_le hk).trans_lt (by decide)
  · exact detailFits_decompressHeaderCheck p e h
  · exact detailFits_decompressOutCheck s p e h

/-! ### A precheck error (60_exceptions R346) -/

theorem precheck_detailFits (i : Instr) (s : State) : DetailFits (precheck i s) := by
  have hregions := s.detailFits_regionCheck
  have hqtab : ∀ g, DetailFits (s.qtabCheck g) := fun _ => detailFits_failIf (by simp)
  have hopen : ∀ g, DetailFits (s.bpOpenCheck g) := fun _ => detailFits_failIf (by simp)
  have hclosed : ∀ g, DetailFits (s.bpClosedCheck g) := fun _ => detailFits_failIf (by simp)
  have hempty : DetailFits (emptyCheck s) := detailFits_failIf (by simp)
  have hparam {bad : Prop} [Decidable bad] {k : Nat} (h : k < 2 ^ 32) : DetailFits (failIf bad (packParam k)) :=
    detailFits_failIf h
  cases i with
  | nop | hufBuild => exact detailFits_none
  | qtabBuild => exact detailFits_qualityCheck _ _
  | fdct | idct | zzscan | zzunscan | hufDecode | bpInit | cntUnpack => exact hregions _ _
  | quant | blkEnc | dequant | blkDec | pipeFwd => exact (hqtab _).cons ((hregions _ _).cons detailFits_none)
  | hufFreq => exact (hregions _ _).cons (hempty.cons detailFits_none)
  | hufEmit => exact (hclosed _).cons ((hregions _ _).cons detailFits_none)
  | hufEncode => exact (hclosed _).cons ((hregions _ _).cons (hempty.cons detailFits_none))
  | bpAdd n => exact (detailFits_failIf (by simp)).cons ((hopen _).cons detailFits_none)
  | bpFinish => exact hopen _
  | pipeInv =>
    exact (detailFits_failIf (by simp)).cons
      ((detailFits_failIf (by simp)).cons ((hqtab _).cons ((hregions _ _).cons detailFits_none)))
  | compress =>
    exact (detailFits_qualityCheck _ _).cons
      ((hclosed _).cons ((hregions _ _).cons ((detailFits_failIf (by simp)).cons detailFits_none)))
  | decompress =>
    intro e he
    unfold precheck at he
    cases hp : decompressParse s <;> rw [hp] at he <;> cases he
    exact decompressParse_error_info hp
  | cntPack =>
    exact (hparam (by simp)).cons ((hparam (by simp)).cons ((hparam (by simp)).cons ((hparam (by simp)).cons
      ((hregions _ _).cons ((detailFits_failIf (by simp [packOverflow, RegionId.num])).cons detailFits_none)))))

/-- Settles O10: every command raises its first failing check, whose detail fits ERRINFO. -/
theorem precheckErrorChangesOnlyTheRecord : Obligations.PrecheckErrorChangesOnlyTheRecord := fun i s e h =>
  (exec_raise_of_precheck h).trans (congrArg _ (State.raise_eq_afterError s (precheck_detailFits i s e h)))

/-! ### IRQ (60_exceptions R350) -/

theorem ctrlWord_enables (s : State) : (ctrlWord s).getLsbD 0 = s.ieDone ∧ (ctrlWord s).getLsbD 1 = s.ieErr := by
  simp only [ctrlWord, BitVec.getLsbD_append, BitVec.getLsbD_ofBool]
  simp

theorem irq_eq (s : State) :
    s.irq = (((statusWord s).getLsbD 1 && (ctrlWord s).getLsbD 0) ||
      ((statusWord s).getLsbD 2 && (ctrlWord s).getLsbD 1)) := by
  rw [(ctrlWord_enables s).1, (ctrlWord_enables s).2, statusWord, statusWordWith_getLsbD, statusWordWith_getLsbD]
  rfl

/-- Settles O19: IRQ by the bits of the two words, and what each of its causes makes of them. -/
theorem irqFollowsStatusAndEnables : Obligations.IrqFollowsStatusAndEnables := fun s => by
  refine ⟨irq_eq s, fun h => ?_, fun e h => ?_, ?_, fun w i hs hw => ?_, fun w e hs hw => ?_⟩
  · simp [State.irq, h]
  · simp [State.irq, h]
  · simp [State.irq]
  · rw [State.issue_legal hs hw]
    rfl
  · rw [State.issue_illegal hs hw]
    exact Bool.false_or _

/-! ### Reset and power-on (70_reset R370, R371) -/

/-- The regions of a running command do not depend on the events to come. -/
theorem commandRegions_withInbox (s : State) (l : List Event) :
    commandRegions { s with inbox := l } = commandRegions s := by
  have hparse : ∀ a n, State.parse { s with inbox := l } a n = s.parse a n := State.parse_congr fun _ => rfl
  have hheader : decompressHeader { s with inbox := l } = decompressHeader s := by
    unfold decompressHeader
    rw [hparse]
    rfl
  unfold commandRegions
  rw [hheader]
  rfl

theorem inWrittenRegion_withInbox (s : State) (l : List Event) (x : Nat) :
    inWrittenRegion { s with inbox := l } x = inWrittenRegion s x := by
  rw [inWrittenRegion, commandRegions_withInbox]
  rfl

/-- Everything but LMEM and the model's own fields has its reset value while RST is asserted. -/
theorem assertRst_frame (s : State) :
    assertRst s = { State.resetWith s.params with
      rst := true, lmem := (assertRst s).lmem, epoch := s.epoch, draws := (assertRst s).draws, inbox := s.inbox
      reply := s.reply } := by
  unfold assertRst
  split
  · rw [State.scrambleRegions_frame]
    rfl
  · rfl

/-- RST leaves every byte outside the write regions of the abandoned command. -/
theorem assertRst_readByte {s : State} {x : Nat} (hx : inWrittenRegion s x = false) :
    (assertRst s).readByte x = s.readByte x := by
  unfold assertRst
  split
  · rename_i hbusy
    exact s.scrambleRegions_readByte (inWrittenRegion_eq_false_iff.1 hx hbusy)
  · rfl

/-- Settles O16: what RST, its release and power-on make of the state. -/
theorem rstAbandonsAndResets : Obligations.RstAbandonsAndResets := fun s rest => by
  refine ⟨fun h => ⟨_, step_cons h, assertRst_frame _, fun x hx => ?_⟩, fun h hrst => ?_, step_cons⟩
  · exact assertRst_readByte ((inWrittenRegion_withInbox s rest x).trans hx)
  · exact (step_cons h).trans (congrArg Host.Outcome.next (if_pos hrst))

/-- Settles O60: the reset state is one that RST's release leaves. -/
theorem invariantsHoldAtReset : Obligations.InvariantsHoldAtReset :=
  ⟨⟨State.reset_lmem_wf, nofun⟩, nofun, State.reset.resetAll_statusInv false, State.reset.resetAll_qtabInv false,
    State.resetAll_controlInv (s := State.reset) (by decide) false⟩

end Sys2Proof.Machine
end

section
/-! PROOFS. The TAB and FREQ windows (40_control R173, 10_state R70 to R72), the accesses that the bus or the model
refuses (40_control R172, R175; 60_exceptions R359) and NOP (40_control R170). -/

namespace Sys2Proof.Machine

/-! ### Reads of the windows (10_state R70 to R72) -/

/-- From the QTAB window up a read goes to the table windows (10_state R34). -/
theorem readReg_eq_readWindow {o : Nat} (ho : 0x100 ≤ o) (s : State) : readReg s o = readWindow s o := by
  unfold readReg
  split
  case h_33 => rfl
  all_goals omega

/-- The two words of TAB[b] (10_state R70). -/
theorem readReg_tab (s : State) {o b : Nat} (hlo : 0x400 ≤ o) (hix : (o - 0x400) / 8 = b) (hb : b < 256) :
    readReg s o = if o % 8 = 0 then s.tab[b].code else tabW1 s.tab[b] := by
  rw [readReg_eq_readWindow (by omega), readWindow, if_neg (by omega), if_pos (by omega), hix,
    Vector.getElem?_eq_getElem hb]
  rfl

theorem readReg_tabCode (s : State) {b : Nat} (hb : b < 256) : readReg s (0x400 + 8 * b) = s.tab[b].code := by
  rw [readReg_tab s (by omega) (by omega) hb, if_pos (by omega)]

theorem readReg_tabLength (s : State) {b : Nat} (hb : b < 256) : readReg s (0x404 + 8 * b) = tabW1 s.tab[b] := by
  rw [readReg_tab s (by omega) (by omega) hb, if_neg (by omega)]

/-- FREQ[b] (10_state R72). -/
theorem readReg_freq (s : State) {b : Nat} (hb : b < 256) : readReg s (0xC00 + 4 * b) = s.freq[b] := by
  rw [readReg_eq_readWindow (by omega), readWindow, if_neg (by omega), if_neg (by omega), if_pos (by omega),
    Nat.add_sub_cancel_left, Nat.mul_div_cancel_left b (by decide), Vector.getElem?_eq_getElem hb]
  rfl

/-- W1 as a number: VALID in bit 31, LEN below (10_state R70). -/
theorem tabW1_toNat (e : CodeEntry) : (tabW1 e).toNat = (if e.valid then 2 ^ 31 else 0) + e.len.toNat := by
  simp only [tabW1, toNat_append_eq_add, BitVec.toNat_ofNat, BitVec.toNat_ofBool]
  cases e.valid <;> simp

/-- Of a written W1 the bits 30:6 are ignored (10_state R70, R71). -/
theorem tabW1_withW1 (e : CodeEntry) (v : Word) : tabW1 (e.withW1 v) = v &&& 0x8000003F#32 := by
  have hmask : ∀ i < 32, (0x8000003F#32).getLsbD i = decide (i < 6 ∨ i = 31) := by decide
  refine BitVec.eq_of_getLsbD_eq fun i hi => ?_
  rw [BitVec.getLsbD_and, hmask i hi, tabW1, CodeEntry.withW1, BitVec.getLsbD_append, BitVec.getLsbD_append,
    BitVec.getLsbD_extractLsb', BitVec.getLsbD_zero, BitVec.getLsbD_ofBool]
  obtain hlt | rfl | ⟨hle, hlt⟩ : i < 6 ∨ i = 31 ∨ (6 ≤ i ∧ i < 31) := by omega
  · simp [hlt]
  · simp
  · have hmid : ¬(i < 6 ∨ i = 31) := by omega
    rw [if_neg (by omega), if_pos (by omega), decide_eq_false hmid, Bool.and_false]

/-! ### Writes to the windows while idle (40_control R173) -/

/-- The state with one entry of TAB replaced. -/
abbrev State.setEntry (s : State) (b : Nat) (e : CodeEntry) (hb : b < 256) : State := { s with tab := s.tab.set b e }

/-- TAB shows in its own window only. -/
theorem readReg_setTab (s : State) (t : Vector CodeEntry 256) {q : Nat} (hq : 0x100 ≤ q)
    (hout : q < 0x400 ∨ 0xC00 ≤ q) : readReg { s with tab := t } q = readReg s q := by
  rw [readReg_eq_readWindow hq, readReg_eq_readWindow hq]
  simp only [readWindow, if_neg (show ¬(0x400 ≤ q ∧ q < 0xC00) by omega)]

/-- FREQ shows in its own window only. -/
theorem readReg_setFreq (s : State) (f : Vector Word 256) {q : Nat} (hq : 0x100 ≤ q)
    (hout : q < 0xC00 ∨ 0x1000 ≤ q) : readReg { s with freq := f } q = readReg s q := by
  rw [readReg_eq_readWindow hq, readReg_eq_readWindow hq]
  simp only [readWindow, if_neg (show ¬(0xC00 ≤ q ∧ q < 0x1000) by omega)]

/-- An entry of TAB shows in its own two words only. -/
theorem readReg_setEntry_ne (s : State) {b : Nat} (hb : b < 256) (e : CodeEntry) {q : Nat} (hq : 0x100 ≤ q)
    (hal : q % 4 = 0) (h0 : q ≠ 0x400 + 8 * b) (h1 : q ≠ 0x404 + 8 * b) :
    readReg (s.setEntry b e hb) q = readReg s q := by
  by_cases hout : q < 0x400 ∨ 0xC00 ≤ q
  · exact readReg_setTab s _ hq hout
  have hc : (q - 0x400) / 8 < 256 := by omega
  have hne : b ≠ (q - 0x400) / 8 := by omega
  rw [readReg_tab _ (by omega) rfl hc, readReg_tab s (by omega) rfl hc, Vector.getElem_set_ne hb hc hne]

theorem setIfInBounds_eq_set {α : Type} {n i : Nat} (hi : i < n) (v : Vector α n) (x : α) :
    v.setIfInBounds i x = v.set i x := by
  refine Vector.ext fun j hj => ?_
  rw [Vector.getElem_setIfInBounds, Vector.getElem_set]

/-- From the QTAB window up a write goes to the table windows (10_state R34). -/
theorem writeReg_eq_writeWindow {o : Nat} (ho : 0x100 ≤ o) (s : State) (v : Word) :
    writeReg s o v = writeWindow s o v := by
  refine writeReg_window (fun hm => ?_) s v
  simp only [List.mem_cons, List.not_mem_nil, or_false] at hm
  omega

/-- A write to one of the two words of TAB[b] while idle replaces the entry (10_state R70). -/
theorem writeReg_tab {s : State} (hs : s.seq.state = .idle) {o b : Nat} (hlo : 0x400 ≤ o) (hix : (o - 0x400) / 8 = b)
    (hb : b < 256) (v : Word) :
    writeReg s o v = s.setEntry b (if o % 8 = 0 then { s.tab[b] with code := v } else s.tab[b].withW1 v) hb := by
  rw [writeReg_eq_writeWindow (by omega), writeWindow, if_pos (by omega), State.busy_of_idle hs,
    if_neg Bool.false_ne_true, if_pos (by omega), hix]
  simp only [Vector.getElem?_eq_getElem hb, Option.getD_some, setIfInBounds_eq_set hb]

theorem writeReg_tabCode {s : State} (hs : s.seq.state = .idle) {b : Nat} (hb : b < 256) (v : Word) :
    writeReg s (0x400 + 8 * b) v = s.setEntry b { s.tab[b] with code := v } hb := by
  rw [writeReg_tab hs (by omega) (by omega) hb, if_pos (by omega)]

theorem writeReg_tabLength {s : State} (hs : s.seq.state = .idle) {b : Nat} (hb : b < 256) (v : Word) :
    writeReg s (0x404 + 8 * b) v = s.setEntry b (s.tab[b].withW1 v) hb := by
  rw [writeReg_tab hs (by omega) (by omega) hb, if_neg (by omega)]

/-- A write to FREQ[b] while idle replaces the counter (10_state R72). -/
theorem writeReg_freq {s : State} (hs : s.seq.state = .idle) {b : Nat} (hb : b < 256) (v : Word) :
    writeReg s (0xC00 + 4 * b) v = { s with freq := s.freq.set b v } := by
  have hix : (0xC00 + 4 * b - 0xC00) / 4 = b := by omega
  rw [writeReg_eq_writeWindow (by omega), writeWindow, if_pos (by omega), State.busy_of_idle hs,
    if_neg Bool.false_ne_true, if_neg (by omega), hix, setIfInBounds_eq_set hb]

/-! ### What a write to the windows shows while idle (40_control R173) -/

section Idle

variable {s : State} (hs : s.seq.state = .idle) {b : Nat} (hb : b < 256) (v : Word)
include hs hb

theorem readReg_writeReg_tabCode_same : readReg (writeReg s (0x400 + 8 * b) v) (0x400 + 8 * b) = v := by
  rw [writeReg_tabCode hs hb, readReg_tabCode _ hb, Vector.getElem_set_self hb]

theorem readReg_writeReg_tabCode_ne {q : Nat} (hq : 0x100 ≤ q) (hal : q % 4 = 0) (hne : q ≠ 0x400 + 8 * b) :
    readReg (writeReg s (0x400 + 8 * b) v) q = readReg s q := by
  rw [writeReg_tabCode hs hb]
  by_cases h1 : q = 0x404 + 8 * b
  · rw [h1, readReg_tabLength _ hb, readReg_tabLength _ hb, Vector.getElem_set_self hb]
    rfl
  · exact readReg_setEntry_ne s hb _ hq hal hne h1

theorem readReg_writeReg_tabLength_same :
    readReg (writeReg s (0x404 + 8 * b) v) (0x404 + 8 * b) = v &&& 0x8000003F#32 := by
  rw [writeReg_tabLength hs hb, readReg_tabLength _ hb, Vector.getElem_set_self hb, tabW1_withW1]

theorem readReg_writeReg_tabLength_ne {q : Nat} (hq : 0x100 ≤ q) (hal : q % 4 = 0) (hne : q ≠ 0x404 + 8 * b) :
    readReg (writeReg s (0x404 + 8 * b) v) q = readReg s q := by
  rw [writeReg_tabLength hs hb]
  by_cases h0 : q = 0x400 + 8 * b
  · rw [h0, readReg_tabCode _ hb, readReg_tabCode _ hb, Vector.getElem_set_self hb]
    rfl
  · exact readReg_setEntry_ne s hb _ hq hal h0 hne

theorem readReg_writeReg_freq_same : readReg (writeReg s (0xC00 + 4 * b) v) (0xC00 + 4 * b) = v := by
  rw [writeReg_freq hs hb, readReg_freq _ hb, Vector.getElem_set_self hb]

theorem readReg_writeReg_freq_ne {q : Nat} (hq : 0x100 ≤ q) (hal : q % 4 = 0) (hne : q ≠ 0xC00 + 4 * b) :
    readReg (writeReg s (0xC00 + 4 * b) v) q = readReg s q := by
  rw [writeReg_freq hs hb]
  by_cases hout : q < 0xC00 ∨ 0x1000 ≤ q
  · exact readReg_setFreq s _ hq hout
  have hc : (q - 0xC00) / 4 < 256 := by omega
  have h : q = 0xC00 + 4 * ((q - 0xC00) / 4) := by omega
  rw [h, readReg_freq _ hc, readReg_freq _ hc, Vector.getElem_set_ne hb hc (by omega)]

end Idle

/-! ### The windows while BUSY (40_control R173) -/

/-- While BUSY a write to the TAB or FREQ window sets DROP. -/
theorem writeReg_window_busy {s : State} (hs : s.seq.state = .running) {o : Nat} (hlo : 0x400 ≤ o) (hlt : o < 0x1000)
    (v : Word) : writeReg s o v = { s with drop := true } := by
  rw [writeReg_eq_writeWindow (by omega), writeWindow, if_pos ⟨hlo, hlt⟩, if_pos (State.busy_of_running hs)]

/-- No window holds a free value (93 V3). -/
theorem hostRegRead_window {s : State} (hr : s.rst = false) {o : Nat} (hal : o % 4 = 0) (hlo : 0x100 ≤ o)
    (hlt : o < 0x1000) : hostRegRead o 4 s = .next { s with reply := .value ((readReg s o).setWidth 64) } := by
  have hstable : packerView o = false ∧ o ≠ 0x010 := ⟨by simp [packerView]; omega, by omega⟩
  rw [hostRegRead_ok hr hal hlt, readRegNow_stable (.inr hstable)]
  rfl

/-- Settles O22: the words of the windows, their accesses while BUSY, what an acceptance and an early turn show of
them, and the three writes while idle. -/
theorem tableWindowWrites : Obligations.TableWindowWrites := by
  intro s v hr
  refine ⟨fun b => ⟨readReg_tabCode s b.isLt, ?_, readReg_freq s b.isLt⟩, fun o hs hal hlo hlt => ⟨?_, ?_⟩,
    fun o hlo hlt => ⟨fun w i hs hw => ?_, fun w t => readReg_workerTurn w t s (by omega),
      readReg_blockTurn s (by omega)⟩, fun b hs hb => ⟨?_, ?_, ?_⟩⟩
  · rw [readReg_tabLength s b.isLt, tabW1_toNat]
    rfl
  · rw [hostRegWrite_ok hr hal hlt, writeReg_window_busy hs hlo hlt]
  · exact hostRegRead_window hr hal (by omega) hlt
  · rw [State.issue_legal hs hw]
    exact ⟨rfl, readReg_accept hs w i (by omega)⟩
  · refine ⟨_, hostRegWrite_ok hr (by omega) (by omega) v, ?_, readReg_writeReg_tabCode_same hs hb v,
      fun q hq hal hne => readReg_writeReg_tabCode_ne hs hb v hq hal hne⟩
    rw [writeReg_tabCode hs hb]
  · refine ⟨_, hostRegWrite_ok hr (by omega) (by omega) v, ?_, readReg_writeReg_tabLength_same hs hb v,
      fun q hq hal hne => readReg_writeReg_tabLength_ne hs hb v hq hal hne⟩
    rw [writeReg_tabLength hs hb]
  · refine ⟨_, hostRegWrite_ok hr (by omega) (by omega) v, ?_, readReg_writeReg_freq_same hs hb v,
      fun q hq hal hne => readReg_writeReg_freq_ne hs hb v hq hal hne⟩
    rw [writeReg_freq hs hb]

/-! ### Bus errors and the two forbidden accesses (40_control R172, R175; 93 V1, V8) -/

theorem hostReg_of_bad {s : State} (hr : s.rst = false) {o n : Nat} (hbad : badRegAccess o n = true) (v : Word) :
    hostRegRead o n s = .next s.answerError ∧ hostRegWrite o n v s = .next s.answerError := by
  simp [hostRegRead, hostRegWrite, hr, hbad]

theorem hostMem_of_bad {s : State} (hr : s.rst = false) {a n : Nat} (hbad : badMemAccess s a n = true) (v : DWord) :
    hostMemRead a n s = .next s.answerError ∧ hostMemWrite a n v s = .next s.answerError := by
  simp [hostMemRead, hostMemWrite, hr, hbad]

/-- An access while RST is asserted (93 V8). -/
theorem host_of_rst {s : State} (hr : s.rst = true) (o n : Nat) (v : Word) (u : DWord) :
    hostRegRead o n s = .fault .accessDuringReset ∧ hostRegWrite o n v s = .fault .accessDuringReset ∧
      hostMemRead o n s = .fault .accessDuringReset ∧ hostMemWrite o n u s = .fault .accessDuringReset :=
  ⟨if_pos hr, if_pos hr, if_pos hr, if_pos hr⟩

/-- A legal LMEM write that meets a region of the running command (93 V1). -/
theorem hostMemWrite_inCommandRegion {s : State} (hr : s.rst = false) {a n i : Nat}
    (hok : badMemAccess s a n = false) (v : DWord) (hi : i < n) (hin : inCommandRegion s (a + i) = true) :
    hostMemWrite a n v s = .fault .hostWriteInRegion := by
  have hany : (List.range n).any (fun i => inCommandRegion s (a + i)) = true :=
    List.any_eq_true.2 ⟨i, List.mem_range.2 hi, hin⟩
  simp [hostMemWrite, hr, hok, hany]

/-- Settles O23: the accesses by the bus's two tests, and the model's two stops. -/
theorem busErrorsAndForbiddenAccesses : Obligations.BusErrorsAndForbiddenAccesses := fun _ =>
  ⟨fun _ _ v hr hbad => hostReg_of_bad hr (decide_eq_true hbad) v,
    fun _ _ v hr hbad => hostMem_of_bad hr (decide_eq_true hbad) v,
    fun o n v u hr => host_of_rst hr o n v u,
    fun _ _ v _ hr hn hal hle hi hin =>
      hostMemWrite_inCommandRegion hr (badMemAccess_eq_false_iff.2 ⟨hn, hal, hle⟩) v hi hin⟩

/-! ### NOP (40_control R170) -/

/-- Settles O25: NOP is the successful end of a command with no working table. -/
theorem nopCompletes : Obligations.NopCompletes := fun _ hw =>
  congrArg Host.Outcome.next (State.complete_of_work_none hw)

end Sys2Proof.Machine
end
